-- ==== Sys2Proof/Word.lean ====
section
/-! DEFINITION. The plain data every other file speaks in: bytes, segment numbers, handles, indices, and
time counted in whole units of 1/1152 µs (log entry 2). -/

namespace Sys2Proof

/-- One byte, on the SPI port or as a character value on a segment. -/
abbrev Byte := BitVec 8

/-- A segment number 0..3 (00_scope, Conventions). -/
abbrev Seg := Fin 4

/-- A job handle 0..47 (R24). -/
abbrev Handle := Fin 48

/-- A station table index 0..63 (R1). -/
abbrev Index := Fin 64

/-- A length of time in units of 1/1152 µs. Every bit time, half bit time, microsecond and millisecond
of the manual is a whole number of these units (log entry 2). -/
abbrev Time := Nat

/-- `n` microseconds. -/
def micros (n : Nat) : Time := n * 1152

/-- `n` milliseconds. -/
def millis (n : Nat) : Time := n * 1152000

/-- `n` seconds. -/
def seconds (n : Nat) : Time := n * 1152000000

end Sys2Proof
end

