-- ==== Sys2Proof/Config.lean ====
section
/-! DEFINITION. What the part fixes (sizes, markers, the hardware revision) and the seventeen-field
configuration record of a segment with its defaults (R79). The manual leaves no value of this hardware
open, so there is no free value here (log entry 9). -/

namespace Sys2Proof

/-- The places of the report queue (R153). -/
def queuePlaces : Nat := 64

/-- The job records of the pool (R24). -/
def poolSize : Nat := 48

/-- The hardware revision that HELLO and QUERY_DEVICE carry (section 11.5). -/
def hardwareRevision : Byte := 0x11#8

/-- The first byte of a host frame (section 11.1). -/
def hostMarker : Byte := 0xA7#8

/-- The first byte of a part frame (section 11.1). -/
def partMarker : Byte := 0x5C#8

/-- The start-of-frame character of a segment frame (R127). -/
def sofChar : Byte := 0xD5#8

/-- The gap CSN must keep high before a window, 4 µs (R168). -/
def windowGap : Time := micros 4

/-- The re-edge interval of ATTN, 2 µs (R163). -/
def reEdgeTime : Time := micros 2

/-- The shortest low level of RSTN that resets the part, 1 µs (R184). -/
def resetHold : Time := micros 1

/-- Field 1 of the record: the bit rate (R79). -/
inductive Rate where
  | r9600 | r19200 | r38400 | r57600 | r115200 | r230400 | r460800 | r921600
  deriving DecidableEq, Repr

/-- Field 2: the parity (R79). -/
inductive Parity where
  | none | even | odd
  deriving DecidableEq, Repr

/-- Field 3: the stop bits (R79). -/
inductive StopBits where
  | one | two
  deriving DecidableEq, Repr

/-- Field 4: the level of the direction line when asserted (R79, R141). -/
inductive Polarity where
  | highSends | lowSends
  deriving DecidableEq, Repr

/-- The configuration record of a segment, its seventeen fields in the order of R79. -/
structure SegConfig where
  rate             : Rate
  parity           : Parity
  stopBits         : StopBits
  polarity         : Polarity
  /-- bit times -/
  guardBits        : Nat
  /-- ms -/
  replyTimeout     : Nat
  /-- character times -/
  gapLimit         : Nat
  /-- character times -/
  settleGap        : Nat
  retryLimit       : Nat
  busyLimit        : Nat
  /-- ms -/
  busyBackoff      : Nat
  missLimit        : Nat
  offlineLimit     : Nat
  /-- ms, 0 for off -/
  sweepPeriod      : Nat
  contentionLimit  : Nat
  /-- ms -/
  deferLimit       : Nat
  /-- s -/
  admissionTimeout : Nat
  deriving DecidableEq, Repr

/-- The defaults of R79. -/
def SegConfig.default : SegConfig where
  rate := .r19200
  parity := .none
  stopBits := .one
  polarity := .highSends
  guardBits := 2
  replyTimeout := 50
  gapLimit := 3
  settleGap := 4
  retryLimit := 2
  busyLimit := 4
  busyBackoff := 20
  missLimit := 3
  offlineLimit := 20
  sweepPeriod := 0
  contentionLimit := 4
  deferLimit := 500
  admissionTimeout := 15

end Sys2Proof
end

