-- ==== Sys2Proof/Syntax.lean ====
section
/-! DEFINITION. The commands of the block, one constructor for each row of spec/opcode_table.json.

A happening that comes from outside the part (an edge of CSN or RSTN, an item on a segment) carries
`wait`, the time since the happening before it. A happening that is the end of a time the part itself
measures (a timer's expiry, the end of a frame, guard or break) carries none: that time is what was left
of the measured time (log entries 2 and 3). -/

namespace Sys2Proof

/-- What the receiver forms of what it hears (R144). -/
inductive Item where
  /-- every stop bit is mark and the parity agrees -/
  | good (value : Byte)
  /-- a stop bit is space or the parity disagrees -/
  | erroneous (value : Byte)
  /-- every sample is space -/
  | brk
  deriving DecidableEq, Repr

/-- A host frame without its request code: its marker, body length and CRC were good (R171), and its
CSN rise came `wait` after the happening before it. -/
structure HostFrame where
  wait : Time
  tag  : BitVec 16
  ack  : Byte
  body : List Byte
  deriving DecidableEq, Repr

/-- A start bit as the receiver samples it at its middle, `wait` after the happening before: the line fell to
space `since` before the sample (R144). -/
structure StartBit where
  wait  : Time
  since : Time
  deriving DecidableEq, Repr

/-- The commands. The twenty-four requests each stand for the CSN rise that takes a whole host frame
with that request's code. -/
inductive Instr where
  /-- CSN_FALL (R169) -/
  | csnFall (wait : Time)
  /-- HOST_FRAME_IGNORED (R171): the CSN rise after these bits were clocked in from SDI (R167) -/
  | hostFrameIgnored (wait : Time) (bits : List Bool)
  /-- UNKNOWN_REQUEST (R173) -/
  | unknownRequest (code : Byte) (frame : HostFrame)
  /-- NOP (R176) -/
  | nop (frame : HostFrame)
  /-- SYNC (R177) -/
  | sync (frame : HostFrame)
  /-- RESTART (R178) -/
  | restart (frame : HostFrame)
  /-- QUERY_DEVICE (R179) -/
  | queryDevice (frame : HostFrame)
  /-- CONFIGURE_SEGMENT (R80) -/
  | configureSegment (frame : HostFrame)
  /-- START (R74) -/
  | start (frame : HostFrame)
  /-- STOP (R75) -/
  | stop (frame : HostFrame)
  /-- RESUME (R76) -/
  | resume (frame : HostFrame)
  /-- RESET_SEGMENT (R78) -/
  | resetSegment (frame : HostFrame)
  /-- QUERY_SEGMENT (R92) -/
  | querySegment (frame : HostFrame)
  /-- QUERY_COUNTERS (R93) -/
  | queryCounters (frame : HostFrame)
  /-- ADD_STATION (R14) -/
  | addStation (frame : HostFrame)
  /-- REMOVE_STATION (R15) -/
  | removeStation (frame : HostFrame)
  /-- REVIVE_STATION (R16) -/
  | reviveStation (frame : HostFrame)
  /-- SET_CLASS (R17) -/
  | setClass (frame : HostFrame)
  /-- QUERY_STATION (R18) -/
  | queryStation (frame : HostFrame)
  /-- LIST_STATIONS (R19) -/
  | listStations (frame : HostFrame)
  /-- SUBMIT (R29) -/
  | submit (frame : HostFrame)
  /-- CANCEL (R41) -/
  | cancel (frame : HostFrame)
  /-- QUERY_JOB (R42) -/
  | queryJob (frame : HostFrame)
  /-- DISCOVER (R112) -/
  | discover (frame : HostFrame)
  /-- STOP_DISCOVERY (R124) -/
  | stopDiscovery (frame : HostFrame)
  /-- ADMIT (R122) -/
  | admitFind (frame : HostFrame)
  /-- REFUSE (R123) -/
  | refuseFind (frame : HostFrame)
  /-- RSTN_FALL (R184): RSTN falls and is held low for `held` -/
  | rstnFall (wait : Time) (held : Time)
  /-- RSTN_RELEASE (R184) -/
  | rstnRelease (wait : Time)
  /-- DEADLINE_EXPIRY (R31) -/
  | deadlineExpiry (handle : Handle)
  /-- BACKOFF_EXPIRY (R27) -/
  | backoffExpiry (handle : Handle)
  /-- SETTLE_GAP_REACHED (R149) -/
  | settleGapReached (seg : Seg)
  /-- RECEIVED_ITEM (R144): `spaceAtEnd` is the level of the line at the end of the character -/
  | receivedItem (wait : Time) (seg : Seg) (item : Item) (spaceAtEnd : Bool)
  /-- FRAME_SENT_WHOLE (R142) -/
  | frameSentWhole (seg : Seg)
  /-- GUARD_END (R143) -/
  | guardEnd (seg : Seg)
  /-- ABORT_BREAK_END (R147) -/
  | abortBreakEnd (seg : Seg)
  /-- REPLY_TIMER_EXPIRY (R54) -/
  | replyTimerExpiry (seg : Seg)
  /-- CHARACTER_GAP_EXPIRY (R55) -/
  | characterGapExpiry (seg : Seg)
  /-- DEFER_TIMER_EXPIRY (R150) -/
  | deferTimerExpiry (seg : Seg)
  /-- SWEEP_TIMER_EXPIRY (R104) -/
  | sweepTimerExpiry (seg : Seg)
  /-- ADMISSION_TIMER_EXPIRY (R119) -/
  | admissionTimerExpiry (seg : Seg)
  /-- RE_EDGE_INTERVAL_END (R163) -/
  | reEdgeIntervalEnd
  /-- CHARACTER_SENT_WITHOUT_ECHO (R146) -/
  | characterSentWithoutEcho (seg : Seg)
  /-- START_BIT_CONFIRMED (R144) -/
  | startBitConfirmed (start : StartBit) (seg : Seg)
  /-- LINE_RETURN_TO_MARK (R148) -/
  | lineReturnToMark (wait : Time) (seg : Seg)
  deriving DecidableEq, Repr

end Sys2Proof
end

