-- ==== Sys2Proof/Machine/Types.lean ====
section
/-! DEFINITION. The records of the block: station entries, jobs, exchanges, segment columns, the report
queue and the host link, each field as the chapter that owns it names it. -/

namespace Sys2Proof.Machine

/-! ## The station table (R1) -/

/-- R1, section 1.2. -/
inductive StationState where
  | enlisted | online | silent | offline | retiring
  deriving DecidableEq, Repr

inductive PollClass where
  | none | cyclic
  deriving DecidableEq, Repr

inductive Sync where
  | synced | unsynced
  deriving DecidableEq, Repr

/-- Whether ADD_STATION or ADMIT made the entry. -/
inductive Origin where
  | added | admitted
  deriving DecidableEq, Repr

/-- An entry of the station table in use (R1). Its index is its place in the table. -/
structure Entry where
  seg         : Seg
  addr        : Nat
  ports       : Nat
  pollClass   : PollClass
  state       : StationState
  misses      : Nat
  silentFails : Nat
  toggle      : Bool
  sync        : Sync
  attention   : Bool
  lastStatus  : Option Byte
  identity    : Option (List Byte)
  origin      : Origin
  goodReplies : Nat
  deriving DecidableEq, Repr

/-! ## Jobs (R24) -/

inductive JobKind where
  | read | write | status | broadcast
  deriving DecidableEq, Repr

inductive Lane where
  | urgent | normal
  deriving DecidableEq, Repr

/-- R25. -/
inductive JobState where
  | queued | waiting | active
  deriving DecidableEq, Repr

/-- The failure kinds of an attempt (section 11.5). -/
inductive FailKind where
  | noReply | contention | charError | lineBreak | broken | badLength | crcError | wrongStation | badKind
  deriving DecidableEq, Repr

/-- The outcomes of a RESULT (R39, R40). -/
inductive JobOutcome where
  | done | data | status | refused | noReply | replyFault | contention | stationBusy | stationOffline
  | cancelled | expired | aborted
  deriving DecidableEq, Repr

/-- A live job's record (R24). A FREE record is `none` in the pool. `deadlineTimer` and `backoff` are the
remaining times of R31's and R27's timers, absent while the timer is stopped. -/
structure Job where
  tag           : BitVec 16
  seg           : Seg
  addr          : Nat
  port          : Nat
  kind          : JobKind
  lane          : Lane
  deadline      : Option Nat
  request       : List Byte
  state         : JobState
  attempts      : Nat
  busy          : Nat
  started       : Bool
  cancel        : Bool
  lastFault     : Option FailKind
  deadlineTimer : Option Time
  backoff       : Option Time
  deriving DecidableEq, Repr

/-! ## Exchanges (R47) -/

/-- What an exchange is for (R47). -/
inductive XOrigin where
  | job (handle : Handle) | sweep | attention | probe
  deriving DecidableEq, Repr

inductive Stage where
  | main | prelude
  deriving DecidableEq, Repr

/-- The four master kinds (R129). -/
inductive MasterKind where
  | read | write | status | probe
  deriving DecidableEq, Repr

/-- The six reply kinds (R129). -/
inductive ReplyKind where
  | data | done | statusReply | present | refuse | busy
  deriving DecidableEq, Repr

/-- A valid reply as it is handed on (R138). -/
structure Reply where
  kind      : ReplyKind
  payload   : List Byte
  attention : Bool
  deriving DecidableEq, Repr

inductive Phase where
  | defer | send | turn | await | recv
  deriving DecidableEq, Repr

/-- The exchange record (R47). `replyLeft` is the reply timer: it runs in AWAIT and is kept in RECV.
`counted` says that the attempt in progress has been counted (R50, R61). `received` is the reply under
assembly, without its SOF, and `gapTimer` the character gap timer (R55). -/
structure Exchange where
  origin     : XOrigin
  entry      : Option Index
  addr       : Nat
  port       : Nat
  stage      : Stage
  kind       : MasterKind
  toggle     : Bool
  resync     : Bool
  attempt    : Nat
  limit      : Nat
  phase      : Phase
  unanswered : Bool
  replyLeft  : Time
  counted    : Bool
  received   : List Byte
  gapTimer   : Option Time
  deriving DecidableEq, Repr

/-- The failure class with which an exchange ends failed (R64): an attempt's failure, or a jabber under a
cancel request (R57). -/
inductive FailClass where
  | fault (kind : FailKind) | jabber
  deriving DecidableEq, Repr

inductive CutCause where
  | drain | fault
  deriving DecidableEq, Repr

/-- The forms in which an exchange ends, but discarded (R64). -/
inductive EndForm where
  | reply (r : Reply)
  | sent
  | failed (c : FailClass)
  | cut (c : CutCause)
  | retired (r : Option Reply)
  deriving DecidableEq, Repr

/-- The classes of exchange outcome (R7). -/
inductive OutcomeClass where
  | good | failed | neutral
  deriving DecidableEq, Repr

/-- How a reply that has ended in RECV is classified (R56). -/
inductive Classified where
  | valid (r : Reply)
  | stale
  | fault (kind : FailKind)
  deriving DecidableEq, Repr

/-! ## The line unit (chapter 8) -/

/-- The transmitter (R141). `frame` holds the characters, how many of their echoes have matched and the
time to the end of the last stop bit. A break keeps the polarity it began with. -/
inductive Tx where
  | quiet
  | frame (chars : List Byte) (echoed : Nat) (left : Time)
  | guard (left : Time)
  | brk (left : Time) (polarity : Polarity)
  deriving DecidableEq, Repr

/-- The receiver (R144): waiting at mark, in a confirmed character (with half a bit time of the format the
character began with, R140), in the rest of a completed character's last stop bit, or at space until the
line returns to mark. -/
inductive Rx where
  | waiting
  | inChar (half : Time)
  | ending (left : Time)
  | atSpace
  deriving DecidableEq, Repr

/-- A change of the configuration, `age` ago: half a bit time of the configuration before it (R140). -/
structure FormatChange where
  half : Time
  age  : Time
  deriving DecidableEq, Repr

/-- A line unit: transmitter, receiver, idle time (R148), defer timer (R150), and the changes of the
configuration, the newest first, that a start bit not yet confirmed may have fallen before (R140, R144). -/
structure Line where
  tx         : Tx
  rx         : Rx
  idle       : Time
  deferTimer : Option Time
  changes    : List FormatChange
  deriving DecidableEq, Repr

/-! ## The segment column -/

/-- R73. -/
inductive SegState where
  | halted | running | draining | faulted
  deriving DecidableEq, Repr

/-- The turn flag (R83). -/
inductive Turn where
  | sweep | lane
  deriving DecidableEq, Repr

/-- Why a segment enters FAULTED (R87, R88). -/
inductive SegFault where
  | contention | jabber
  deriving DecidableEq, Repr

/-- The nine counters of a segment, in the order of R91. -/
structure Counters where
  framesSent    : Nat
  validReplies  : Nat
  noReplies     : Nat
  replyFaults   : Nat
  staleReplies  : Nat
  contentions   : Nat
  strayChars    : Nat
  breaksSeen    : Nat
  sweepOverruns : Nat
  deriving DecidableEq, Repr

/-- The sweep (R102). -/
structure Sweep where
  active    : Bool
  cursor    : Nat
  repeatDue : Bool
  timer     : Option Time
  deriving DecidableEq, Repr

/-- R111. -/
inductive DiscState where
  | idle | probing | held | waitRoom
  deriving DecidableEq, Repr

inductive VoidCause where
  | none | added | stopped
  deriving DecidableEq, Repr

/-- The unit's note of a probe in flight (R110). -/
structure ProbeMark where
  addr : Nat
  void : VoidCause
  deriving DecidableEq, Repr

/-- The held find (R110, R117). -/
structure Admission where
  addr     : Nat
  identity : Option (List Byte)
  timer    : Time
  deriving DecidableEq, Repr

/-- The six counts of a run, in the order of R116. -/
structure RunCounts where
  probed    : Nat
  found     : Nat
  admitted  : Nat
  refused   : Nat
  lapsed    : Nat
  unclear   : Nat
  deriving DecidableEq, Repr

/-- The discovery unit (R110). -/
structure Discovery where
  state  : DiscState
  low    : Nat
  high   : Nat
  cursor : Nat
  counts : RunCounts
  record : Option Admission
  mark   : Option ProbeMark
  deriving DecidableEq, Repr

/-- One of the four segment columns: its controller (R73, R79, R83, R85, R91), exchange record (R47),
lanes and waiting set (R26, R27; the set is listed in ascending order), attention list (R95), sweep,
discovery unit and line unit. -/
structure Column where
  state     : SegState
  config    : SegConfig
  streak    : Nat
  turn      : Turn
  counters  : Counters
  exchange  : Option Exchange
  urgent    : List Handle
  normal    : List Handle
  waitSet   : List Handle
  attention : List Index
  sweep     : Sweep
  disc      : Discovery
  line      : Line
  deriving DecidableEq, Repr

/-! ## The report queue (R153) -/

inductive HelloCause where
  | pin | cold | warm
  deriving DecidableEq, Repr

/-- The cause of a STATION_STATE report (R13). -/
inductive MoveCause where
  | contact | misses | silence
  deriving DecidableEq, Repr

/-- The cause of a SEGMENT_STATE report (R90). -/
inductive SegCause where
  | contention | jabber | stopped
  deriving DecidableEq, Repr

/-- What a report tells, by kind (section 9.2). -/
inductive ReportBody where
  | hello (cause : HelloCause) (revision : Byte)
  | result (tag : BitVec 16) (outcome : JobOutcome) (attempts busy : Nat) (lastFault : Option FailKind)
      (cancelLate : Bool) (data : List Byte)
  | stationState (seg : Seg) (addr : Nat) (old new : StationState) (cause : MoveCause)
  | attention (seg : Seg) (addr : Nat) (status : Byte) (detail : List Byte)
  | statusChanged (seg : Seg) (addr : Nat) (old : Option Byte) (new : Byte)
  | segmentState (seg : Seg) (old new : SegState) (cause : SegCause)
  | found (seg : Seg) (addr : Nat) (identity : Option (List Byte)) (unclear : Bool)
  | discoveryDone (seg : Seg) (counts : RunCounts)
  deriving DecidableEq, Repr

/-- A report in the queue: its sequence number 1..255 (R159) and its contents. -/
structure Report where
  number : Nat
  body   : ReportBody
  deriving DecidableEq, Repr

/-- The report queue (R153 to R159) and the re-edge interval of ATTN (R162). -/
structure Queue where
  /-- from head to tail -/
  reports      : List Report
  reservations : Nat
  lostEvents   : Nat
  lastNumber   : Nat
  reEdge       : Option Time
  deriving DecidableEq, Repr

/-! ## The host link (chapter 10) -/

/-- The answer outcomes (section 10.7, section 11.5). -/
inductive AnsOutcome where
  | ok | unknownRequest | badLength | badValue | noSegment | wrongState | segmentActive | noStation
  | stationOffline | badPort | addressInUse | addressHeld | tableFull | tagInUse | noJobSlot
  | noReportRoom | notFound | busy | noAdmission | cancelTaken | cancelLate
  deriving DecidableEq, Repr

/-- The answer in the slot (R174). -/
structure Answer where
  tag     : BitVec 16
  outcome : AnsOutcome
  data    : List Byte
  deriving DecidableEq, Repr

/-- Where the SPI port stands between the edges of CSN (R167, R168): CSN high; a window served with the
part frame built at its fall; a window ignored for its early fall; CSN low with no window, because RSTN
was low at some moment since the fall. -/
inductive Window where
  | closed
  | serving (partFrame : List Byte)
  | ignored
  | noWindow
  deriving DecidableEq, Repr

/-- The host link: answer slot (R174), the five counters (R172), the window, and the time since the last
CSN rise or release of RSTN (R168). -/
structure Link where
  slot      : Option Answer
  taken     : Nat
  crcFaults : Nat
  truncated : Nat
  malformed : Nat
  repeats   : Nat
  window    : Window
  gap       : Time
  deriving DecidableEq, Repr

end Sys2Proof.Machine
end

