-- ==== Sys2Proof/Machine/Bytes.lean ====
section
/-! DEFINITION. Byte order, the CRC and the code tables of section 11.5: how numbers and named values are
written into frames and read from them (R181, R182, R183). -/

namespace Sys2Proof.Machine

/-- `n` as one byte. -/
def byte (n : Nat) : Byte := BitVec.ofNat 8 n

/-- `n` as two bytes, most significant first (R181). -/
def bytes2 (n : Nat) : List Byte := [byte (n / 256), byte n]

/-- Byte `k` of `bs` as a number. -/
def byteAt (bs : List Byte) (k : Nat) : Nat := (bs.getD k 0#8).toNat

/-- The two bytes of `bs` from `k` on as a number, most significant first (R181). -/
def wordAt (bs : List Byte) (k : Nat) : Nat := byteAt bs k * 256 + byteAt bs (k + 1)

/-! ## Bits on the SPI port (R167) -/

/-- The bits of bytes in the order they pass on SDI and SDO: each byte most significant bit first. -/
def spiBits (bs : List Byte) : List Bool := bs.flatMap fun b => [7, 6, 5, 4, 3, 2, 1, 0].map b.getLsbD

/-- The whole bytes of the bits clocked in, most significant bit first. Bits at the end that make up no whole
byte are discarded. -/
def bytesOfBits : List Bool → List Byte
  | b7 :: b6 :: b5 :: b4 :: b3 :: b2 :: b1 :: b0 :: rest =>
    BitVec.ofNat 8 ([b7, b6, b5, b4, b3, b2, b1, b0].foldl (fun n b => 2 * n + b.toNat) 0) :: bytesOfBits rest
  | _ => []

/-- A yes/no item (section 11.5). -/
def bit (b : Bool) : Nat := if b then 1 else 0

/-- A flag in bit `k` of a byte. -/
def flagAt (k : Nat) (b : Bool) : Nat := if b then 2 ^ k else 0

/-- A saturating count of 0..65535 increased by 1 (R91, R158, R172). -/
def satInc (n : Nat) : Nat := if n < 65535 then n + 1 else n

/-! ## The CRC (R182) -/

/-- One bit of the CRC, most significant bit first, polynomial x^16 + x^12 + x^5 + 1. -/
def crcBit (crc : BitVec 16) (b : Bool) : BitVec 16 :=
  if crc.msb != b then (crc <<< 1) ^^^ 0x1021#16 else crc <<< 1

/-- One byte of the CRC, most significant bit first. -/
def crcByte (crc : BitVec 16) (x : Byte) : BitVec 16 :=
  [7, 6, 5, 4, 3, 2, 1, 0].foldl (fun c k => crcBit c (x.getLsbD k)) crc

/-- The CRC over a list of bytes, initial value 0xFFFF. -/
def crc16 (bs : List Byte) : BitVec 16 := bs.foldl crcByte 0xFFFF#16

/-- The CRC as it is sent, high byte first. -/
def crcBytes (bs : List Byte) : List Byte := bytes2 (crc16 bs).toNat

/-! ## Codes (section 11.5) -/

def AnsOutcome.code : AnsOutcome → Nat
  | .ok => 1 | .unknownRequest => 2 | .badLength => 3 | .badValue => 4 | .noSegment => 5
  | .wrongState => 6 | .segmentActive => 7 | .noStation => 8 | .stationOffline => 9 | .badPort => 10
  | .addressInUse => 11 | .addressHeld => 12 | .tableFull => 13 | .tagInUse => 14 | .noJobSlot => 15
  | .noReportRoom => 16 | .notFound => 17 | .busy => 18 | .noAdmission => 19 | .cancelTaken => 20
  | .cancelLate => 21

def JobOutcome.code : JobOutcome → Nat
  | .done => 1 | .data => 2 | .status => 3 | .refused => 4 | .noReply => 5 | .replyFault => 6
  | .contention => 7 | .stationBusy => 8 | .stationOffline => 9 | .cancelled => 10 | .expired => 11
  | .aborted => 12

def FailKind.code : FailKind → Nat
  | .noReply => 1 | .contention => 2 | .charError => 3 | .lineBreak => 4 | .broken => 5
  | .badLength => 6 | .crcError => 7 | .wrongStation => 8 | .badKind => 9

def StationState.code : StationState → Nat
  | .enlisted => 1 | .online => 2 | .silent => 3 | .offline => 4 | .retiring => 5

def SegState.code : SegState → Nat
  | .halted => 1 | .running => 2 | .draining => 3 | .faulted => 4

def XOrigin.code : XOrigin → Nat
  | .job _ => 1 | .sweep => 2 | .attention => 3 | .probe => 4

def DiscState.code : DiscState → Nat
  | .idle => 1 | .probing => 2 | .held => 3 | .waitRoom => 4

def JobKind.code : JobKind → Nat
  | .read => 1 | .write => 2 | .status => 3 | .broadcast => 4

def Lane.code : Lane → Nat
  | .urgent => 0 | .normal => 1

def JobState.code : JobState → Nat
  | .queued => 1 | .waiting => 2 | .active => 3

def HelloCause.code : HelloCause → Nat
  | .pin => 1 | .cold => 2 | .warm => 3

def MoveCause.code : MoveCause → Nat
  | .contact => 1 | .misses => 2 | .silence => 3

def SegCause.code : SegCause → Nat
  | .contention => 1 | .jabber => 2 | .stopped => 3

def PollClass.code : PollClass → Nat
  | .none => 0 | .cyclic => 1

def Sync.code : Sync → Nat
  | .synced => 0 | .unsynced => 1

def Origin.code : Origin → Nat
  | .added => 0 | .admitted => 1

def rateCode : Rate → Nat
  | .r9600 => 1 | .r19200 => 2 | .r38400 => 3 | .r57600 => 4 | .r115200 => 5 | .r230400 => 6
  | .r460800 => 7 | .r921600 => 8

def parityCode : Parity → Nat
  | .none => 0 | .even => 1 | .odd => 2

def stopBitsCode : StopBits → Nat
  | .one => 1 | .two => 2

def polarityCode : Polarity → Nat
  | .highSends => 0 | .lowSends => 1

/-- The disposition codes of REMOVE_STATION's answer: FREED 1, RETIRING 2. -/
def dispositionCode (retiring : Bool) : Nat := if retiring then 2 else 1

/-! ## Codes read from request bodies (R183): `none` for a code that names no value -/

def PollClass.ofCode : Nat → Option PollClass
  | 0 => some .none | 1 => some .cyclic | _ => Option.none

def JobKind.ofCode : Nat → Option JobKind
  | 1 => some .read | 2 => some .write | 3 => some .status | 4 => some .broadcast | _ => Option.none

def Lane.ofCode : Nat → Option Lane
  | 0 => some .urgent | 1 => some .normal | _ => Option.none

def rateOfCode : Nat → Option Rate
  | 1 => some .r9600 | 2 => some .r19200 | 3 => some .r38400 | 4 => some .r57600 | 5 => some .r115200
  | 6 => some .r230400 | 7 => some .r460800 | 8 => some .r921600 | _ => Option.none

def parityOfCode : Nat → Option Parity
  | 0 => some .none | 1 => some .even | 2 => some .odd | _ => Option.none

def stopBitsOfCode : Nat → Option StopBits
  | 1 => some .one | 2 => some .two | _ => Option.none

def polarityOfCode : Nat → Option Polarity
  | 0 => some .highSends | 1 => some .lowSends | _ => Option.none

/-! ## The configuration record in bytes (section 11.5) -/

/-- The record as QUERY_SEGMENT answers it: 21 bytes, in the order of R79. -/
def configBytes (c : SegConfig) : List Byte :=
  [byte (rateCode c.rate), byte (parityCode c.parity), byte (stopBitsCode c.stopBits),
   byte (polarityCode c.polarity), byte c.guardBits]
    ++ bytes2 c.replyTimeout
    ++ [byte c.gapLimit, byte c.settleGap, byte c.retryLimit, byte c.busyLimit]
    ++ bytes2 c.busyBackoff
    ++ [byte c.missLimit, byte c.offlineLimit]
    ++ bytes2 c.sweepPeriod
    ++ [byte c.contentionLimit]
    ++ bytes2 c.deferLimit
    ++ [byte c.admissionTimeout]

/-- The seventeen numbers offered by a CONFIGURE_SEGMENT body, after its segment byte. -/
def offeredFields (b : List Byte) : List Nat :=
  [byteAt b 1, byteAt b 2, byteAt b 3, byteAt b 4, byteAt b 5, wordAt b 6, byteAt b 8, byteAt b 9,
   byteAt b 10, byteAt b 11, wordAt b 12, byteAt b 14, byteAt b 15, wordAt b 16, byteAt b 18,
   wordAt b 19, byteAt b 21]

/-- `lo ≤ n ≤ hi`. -/
def within (lo hi n : Nat) : Bool := decide (lo ≤ n) && decide (n ≤ hi)

/-- The ranges of R79, the four coded fields by their codes (R183). -/
def fieldRanges : List (Nat → Bool) :=
  [within 1 8, within 0 2, within 1 2, within 0 1, within 0 255, within 1 2000, within 2 16, within 1 64,
   within 0 7, within 0 15, within 1 1000, within 1 15, within 1 255,
   fun n => n == 0 || within 10 60000 n, within 1 15, within 10 5000, within 1 120]

/-- The number 1..17 of the first offered field outside its range (R80, third check). -/
def firstOutside (fields : List Nat) : Option Nat :=
  ((List.zip fields fieldRanges).findIdx? fun p => !p.2 p.1).map (· + 1)

/-- The offered record. A coded field that names no value is refused by `firstOutside` before this is used. -/
def configOfBody (b : List Byte) : SegConfig where
  rate := (rateOfCode (byteAt b 1)).getD .r19200
  parity := (parityOfCode (byteAt b 2)).getD .none
  stopBits := (stopBitsOfCode (byteAt b 3)).getD .one
  polarity := (polarityOfCode (byteAt b 4)).getD .highSends
  guardBits := byteAt b 5
  replyTimeout := wordAt b 6
  gapLimit := byteAt b 8
  settleGap := byteAt b 9
  retryLimit := byteAt b 10
  busyLimit := byteAt b 11
  busyBackoff := wordAt b 12
  missLimit := byteAt b 14
  offlineLimit := byteAt b 15
  sweepPeriod := wordAt b 16
  contentionLimit := byteAt b 18
  deferLimit := wordAt b 19
  admissionTimeout := byteAt b 21

end Sys2Proof.Machine
end

