-- ==== Sys2Proof/Machine/HostFrames.lean ====
section
/-! DEFINITION. Host frames: the checks of the CSN rise (R171) and the request codes (section 11.3). -/

namespace Sys2Proof.Machine

/-- How the host link judges the bytes clocked in by a window (R171). -/
inductive Verdict where
  | truncated
  | malformed
  | crcFault
  | whole (code : Byte) (tag : BitVec 16) (ack : Byte) (body : List Byte)
  deriving DecidableEq, Repr

/-- The request codes (section 11.3). -/
def requestCodes : List Byte :=
  [0x00#8, 0x01#8, 0x02#8, 0x03#8, 0x10#8, 0x11#8, 0x12#8, 0x13#8, 0x14#8, 0x15#8, 0x16#8, 0x20#8,
   0x21#8, 0x22#8, 0x23#8, 0x24#8, 0x25#8, 0x30#8, 0x31#8, 0x32#8, 0x40#8, 0x41#8, 0x42#8, 0x43#8]

/-- The code of NOP. -/
def nopCode : Byte := 0x00#8

/-- The bytes of a host frame before its CRC (section 10.3, section 11.1). -/
def hostFrameBody (code : Byte) (tag : BitVec 16) (ack : Byte) (body : List Byte) : List Byte :=
  [hostMarker, code] ++ bytes2 tag.toNat ++ [ack, byte body.length] ++ body

/-- A whole host frame as the host sends it. -/
def hostFrameBytes (code : Byte) (tag : BitVec 16) (ack : Byte) (body : List Byte) : List Byte :=
  hostFrameBody code tag ack body ++ crcBytes (hostFrameBody code tag ack body)

/-- The six checks of R171, in their order, on the whole bytes clocked in. Bytes after the end of the
frame are not examined (R167). -/
def judge (clocked : List Byte) : Verdict :=
  if clocked.length < 6 then .truncated
  else if clocked.getD 0 0#8 ≠ hostMarker then .malformed
  else if 80 < byteAt clocked 5 then .malformed
  else if clocked.length < 8 + byteAt clocked 5 then .truncated
  else if (clocked.drop (6 + byteAt clocked 5)).take 2
      ≠ crcBytes (clocked.take (6 + byteAt clocked 5)) then .crcFault
  else if wordAt clocked 2 = 0 ∧ clocked.getD 1 0#8 ≠ nopCode then .malformed
  else .whole (clocked.getD 1 0#8) (BitVec.ofNat 16 (wordAt clocked 2)) (clocked.getD 4 0#8)
    ((clocked.drop 6).take (byteAt clocked 5))

/-- The frame is ignored whole: one of the checks fails. -/
def Verdict.ignored : Verdict → Bool
  | .whole .. => false
  | _ => true

end Sys2Proof.Machine
end

