-- ==== Sys2Proof/WellFormed.lean ====
section
/-! DEFINITION. The commands that the block can be given. A term that fails a check stands for no
happening: a taken frame that R171 would have ignored, an ignored frame that R171 takes, an unknown
request whose code names one, a break that ends at mark (R144). -/

namespace Sys2Proof

/-- A frame that passes the checks 3 and 6 of R171 for a request other than NOP. -/
def HostFrame.wellFormed (f : HostFrame) : Bool :=
  decide (f.body.length ≤ 80) && decide (f.tag ≠ 0#16)

/-- A frame that passes check 3 of R171, which is all that NOP needs (R176). -/
def HostFrame.wellFormedNop (f : HostFrame) : Bool := decide (f.body.length ≤ 80)

/-- The checks on a command. -/
def Instr.wellFormed : Instr → Bool
  | .csnFall _ => true
  | .hostFrameIgnored _ bits => (Machine.judge (Machine.bytesOfBits bits)).ignored
  | .unknownRequest code f => !Machine.requestCodes.contains code && f.wellFormed
  | .nop f => f.wellFormedNop
  | .sync f => f.wellFormed
  | .restart f => f.wellFormed
  | .queryDevice f => f.wellFormed
  | .configureSegment f => f.wellFormed
  | .start f => f.wellFormed
  | .stop f => f.wellFormed
  | .resume f => f.wellFormed
  | .resetSegment f => f.wellFormed
  | .querySegment f => f.wellFormed
  | .queryCounters f => f.wellFormed
  | .addStation f => f.wellFormed
  | .removeStation f => f.wellFormed
  | .reviveStation f => f.wellFormed
  | .setClass f => f.wellFormed
  | .queryStation f => f.wellFormed
  | .listStations f => f.wellFormed
  | .submit f => f.wellFormed
  | .cancel f => f.wellFormed
  | .queryJob f => f.wellFormed
  | .discover f => f.wellFormed
  | .stopDiscovery f => f.wellFormed
  | .admitFind f => f.wellFormed
  | .refuseFind f => f.wellFormed
  | .rstnFall _ _ => true
  | .rstnRelease _ => true
  | .deadlineExpiry _ => true
  | .backoffExpiry _ => true
  | .settleGapReached _ => true
  | .receivedItem _ _ item spaceAtEnd => item != .brk || spaceAtEnd
  | .frameSentWhole _ => true
  | .guardEnd _ => true
  | .abortBreakEnd _ => true
  | .replyTimerExpiry _ => true
  | .characterGapExpiry _ => true
  | .deferTimerExpiry _ => true
  | .sweepTimerExpiry _ => true
  | .admissionTimerExpiry _ => true
  | .reEdgeIntervalEnd => true
  | .characterSentWithoutEcho _ => true
  | .startBitConfirmed _ _ => true
  | .lineReturnToMark _ _ => true

end Sys2Proof
end

