-- ==== Sys2Proof/Decode.lean ====
section
/-! DEFINITION. From bits to commands. The rows of spec/opcode_table.json give no bits, so no table word
spells a command. The bits clocked in by a window do: `commandOfWindow` is the command that a CSN rise
is, and `windowOfCommand` the bits the host clocks for it (R167, R171, section 11.3). -/

namespace Sys2Proof

/-- The command a table word spells: none, for no row gives bits. -/
def decodeTableWord (_nbits _w : Nat) : Option Instr := none

/-- The request of a whole host frame, by its code (section 11.3). -/
def requestOfCode (code : Byte) (f : HostFrame) : Instr :=
  if code = 0x00#8 then .nop f
  else if code = 0x01#8 then .sync f
  else if code = 0x02#8 then .restart f
  else if code = 0x03#8 then .queryDevice f
  else if code = 0x10#8 then .configureSegment f
  else if code = 0x11#8 then .start f
  else if code = 0x12#8 then .stop f
  else if code = 0x13#8 then .resume f
  else if code = 0x14#8 then .resetSegment f
  else if code = 0x15#8 then .querySegment f
  else if code = 0x16#8 then .queryCounters f
  else if code = 0x20#8 then .addStation f
  else if code = 0x21#8 then .removeStation f
  else if code = 0x22#8 then .reviveStation f
  else if code = 0x23#8 then .setClass f
  else if code = 0x24#8 then .queryStation f
  else if code = 0x25#8 then .listStations f
  else if code = 0x30#8 then .submit f
  else if code = 0x31#8 then .cancel f
  else if code = 0x32#8 then .queryJob f
  else if code = 0x40#8 then .discover f
  else if code = 0x41#8 then .stopDiscovery f
  else if code = 0x42#8 then .admitFind f
  else if code = 0x43#8 then .refuseFind f
  else .unknownRequest code f

/-- The command that a CSN rise is, `wait` after the happening before it, by the bits clocked in during
its window (R167, R171, R173). -/
def commandOfWindow (wait : Time) (bits : List Bool) : Instr :=
  match Machine.judge (Machine.bytesOfBits bits) with
  | .whole code tag ack body => requestOfCode code ⟨wait, tag, ack, body⟩
  | _ => .hostFrameIgnored wait bits

/-- The code and host frame of a command that a taken host frame is. -/
def Instr.request : Instr → Option (Byte × HostFrame)
  | .unknownRequest code f => some (code, f)
  | .nop f => some (0x00#8, f)
  | .sync f => some (0x01#8, f)
  | .restart f => some (0x02#8, f)
  | .queryDevice f => some (0x03#8, f)
  | .configureSegment f => some (0x10#8, f)
  | .start f => some (0x11#8, f)
  | .stop f => some (0x12#8, f)
  | .resume f => some (0x13#8, f)
  | .resetSegment f => some (0x14#8, f)
  | .querySegment f => some (0x15#8, f)
  | .queryCounters f => some (0x16#8, f)
  | .addStation f => some (0x20#8, f)
  | .removeStation f => some (0x21#8, f)
  | .reviveStation f => some (0x22#8, f)
  | .setClass f => some (0x23#8, f)
  | .queryStation f => some (0x24#8, f)
  | .listStations f => some (0x25#8, f)
  | .submit f => some (0x30#8, f)
  | .cancel f => some (0x31#8, f)
  | .queryJob f => some (0x32#8, f)
  | .discover f => some (0x40#8, f)
  | .stopDiscovery f => some (0x41#8, f)
  | .admitFind f => some (0x42#8, f)
  | .refuseFind f => some (0x43#8, f)
  | .csnFall _ => none
  | .hostFrameIgnored _ _ => none
  | .rstnFall _ _ => none
  | .rstnRelease _ => none
  | .deadlineExpiry _ => none
  | .backoffExpiry _ => none
  | .settleGapReached _ => none
  | .receivedItem _ _ _ _ => none
  | .frameSentWhole _ => none
  | .guardEnd _ => none
  | .abortBreakEnd _ => none
  | .replyTimerExpiry _ => none
  | .characterGapExpiry _ => none
  | .deferTimerExpiry _ => none
  | .sweepTimerExpiry _ => none
  | .admissionTimerExpiry _ => none
  | .reEdgeIntervalEnd => none
  | .characterSentWithoutEcho _ => none
  | .startBitConfirmed _ _ => none
  | .lineReturnToMark _ _ => none

/-- The bits the host clocks in for a request: those of its whole host frame (R167, section 11.1). -/
def windowOfCommand (i : Instr) : Option (List Bool) :=
  i.request.map fun p => Machine.spiBits (Machine.hostFrameBytes p.1 p.2.tag p.2.ack p.2.body)

end Sys2Proof
end

