-- ==== Sys2Proof/Machine/Line.lean ====
section
/-! DEFINITION. The line unit's own part (chapter 8): character times and the character format, the pins
TXD and DIR, what a reset does to a line unit, and how time passes for it. -/

namespace Sys2Proof.Machine

/-! ## Times (R140) -/

/-- One second divided by the rate, in units of 1/1152 µs. -/
def bitTime (c : SegConfig) : Time :=
  match c.rate with
  | .r9600 => 120000
  | .r19200 => 60000
  | .r38400 => 30000
  | .r57600 => 20000
  | .r115200 => 10000
  | .r230400 => 5000
  | .r460800 => 2500
  | .r921600 => 1250

/-- Half a bit time. -/
def halfBit (c : SegConfig) : Time := bitTime c / 2

/-- Half a bit time at 9600 bit/s, the lowest rate. -/
def longestHalfBit : Time := 60000

def parityBits (c : SegConfig) : Nat :=
  match c.parity with
  | .none => 0
  | .even => 1
  | .odd => 1

def stopCount (c : SegConfig) : Nat := stopBitsCode c.stopBits

/-- A character time: 1 start bit, 8 data bits, the parity bit if any and the stop bits (R79, R140). -/
def charTime (c : SegConfig) : Time := (9 + parityBits c + stopCount c) * bitTime c

/-- The settle gap as a time (R50, R149). -/
def settleTime (c : SegConfig) : Time := c.settleGap * charTime c

/-- The character gap limit as a time (R55). -/
def gapTime (c : SegConfig) : Time := c.gapLimit * charTime c

/-- The guard as a time (R143). -/
def guardTime (c : SegConfig) : Time := c.guardBits * bitTime c

/-- An abort break lasts 2 character times (R147). -/
def breakTime (c : SegConfig) : Time := 2 * charTime c

/-- R80, fourth check: the defer limit is longer than the settle gap. -/
def deferAboveSettle (c : SegConfig) : Bool := decide (settleTime c < millis c.deferLimit)

/-! ## The character format (R140, R144). Mark is `true`, space is `false`. -/

/-- The eight data bits, least significant first. -/
def dataBits (v : Byte) : List Bool := [0, 1, 2, 3, 4, 5, 6, 7].map v.getLsbD

/-- The parity bit that the format asks for, if it asks for one. -/
def parityOf (c : SegConfig) (bits : List Bool) : List Bool :=
  match c.parity with
  | .none => []
  | .even => [bits.foldl xor false]
  | .odd => [!bits.foldl xor false]

/-- The levels of a character on the line, bit by bit, as the transmitter sends it. -/
def charLevels (c : SegConfig) (v : Byte) : List Bool :=
  [false] ++ dataBits v ++ parityOf c (dataBits v) ++ List.replicate (stopCount c) true

/-- The value of eight data bits, least significant first. -/
def valueOfBits (bits : List Bool) : Byte := byte (bits.foldr (fun b n => bit b + 2 * n) 0)

/-- What the receiver makes of the samples of a confirmed character, from its start bit to its last stop
bit (the table of R144). -/
def itemOfSamples (c : SegConfig) (samples : List Bool) : Item :=
  if samples.all (· == false) then .brk
  else
    let bits := (samples.drop 1).take 8
    if (samples.drop 9).take (parityBits c) = parityOf c bits
        ∧ (samples.drop (9 + parityBits c)).all (· == true) then .good (valueOfBits bits)
    else .erroneous (valueOfBits bits)

/-! ## The transmitter and the pins (R141) -/

/-- The transmitter asserts DIR in FRAME, GUARD and BREAK. -/
def Tx.asserts : Tx → Bool
  | .quiet => false
  | .frame .. => true
  | .guard _ => true
  | .brk .. => true

/-- The level of DIR that asserts, or releases, it under a polarity (R141): high is `true`. -/
def dirLevelOf (p : Polarity) (asserted : Bool) : Bool :=
  match p with
  | .highSends => asserted
  | .lowSends => !asserted

/-- The level of the DIR pin. A break keeps the level it began with (R141). -/
def dirLevel (c : SegConfig) (l : Line) : Bool :=
  match l.tx with
  | .brk _ p => dirLevelOf p true
  | t => dirLevelOf c.polarity t.asserts

/-- What is driven on TXD: mark, space, or the characters of a frame (R141). -/
inductive TxdDrive where
  | mark
  | space
  | characters (chars : List Byte)
  deriving DecidableEq, Repr

/-- TXD by the transmitter's state (R141). -/
def txdDrive (l : Line) : TxdDrive :=
  match l.tx with
  | .quiet => .mark
  | .frame chars _ _ => .characters chars
  | .guard _ => .mark
  | .brk _ _ => .space

/-- The levels of a frame, bit by bit, its characters back to back (R142). -/
def frameLevels (c : SegConfig) (chars : List Byte) : List Bool := chars.flatMap (charLevels c)

/-- The level on TXD at this moment, mark `true`: in a frame that of the bit which is being sent (R141, R142). -/
def Line.txdLevel (c : SegConfig) (l : Line) : Bool :=
  match l.tx with
  | .quiet => true
  | .frame chars _ left =>
    (frameLevels c chars).getD ((chars.length * charTime c - left) / bitTime c) true
  | .guard _ => true
  | .brk _ _ => false

/-! ## What reaches a line unit -/

/-- A restart or RESET_SEGMENT at a line unit, under the configuration it runs with (R152): a frame stops
and an abort break begins, a guard ends at once, a break runs on; the defer timer stops. -/
def Line.discard (c : SegConfig) (l : Line) : Line :=
  match l.tx with
  | .quiet => { l with deferTimer := none }
  | .frame .. => { l with tx := .brk (breakTime c) c.polarity, idle := 0, deferTimer := none }
  | .guard _ => { l with tx := .quiet, idle := 0, deferTimer := none }
  | .brk .. => { l with deferTimer := none }

/-- RSTN held low stops the line unit (R151, R184). -/
def Line.held (l : Line) : Line := { l with tx := .quiet, rx := .waiting, idle := 0, deferTimer := none, changes := [] }

/-- The configuration `c` is replaced: characters that began under it are finished in its format (R140, R81). -/
def Line.reconfigured (c : SegConfig) (l : Line) : Line := { l with changes := ⟨halfBit c, 0⟩ :: l.changes }

/-- Half a bit time of the configuration in force `since` ago, if it is now `half`: that of both sides of a change
made at that very moment, for either may be taken first. -/
def halvesAt (since half : Time) : List FormatChange → List Time
  | [] => [half]
  | f :: rest => (if since ≤ f.age then [half] else []) ++ if f.age ≤ since then halvesAt since f.half rest else []

/-- The receiver looks for a start bit: it is not in a character nor at space (R144). -/
def Line.looksForStart (l : Line) : Bool :=
  match l.rx with
  | .waiting => true
  | .ending _ => true
  | .inChar _ => false
  | .atSpace => false

/-- A start bit that fell `since` ago is sampled now: it is the middle of the bit in the format in force at the
fall (R140, R144). -/
def Line.sampledNow (c : SegConfig) (since : Time) (l : Line) : Bool :=
  (halvesAt since (halfBit c) l.changes).contains since

/-- Half a bit time of the character in progress, which is finished in the format it began with (R140). -/
def Line.halfOfChar (c : SegConfig) (l : Line) : Time :=
  match l.rx with
  | .inChar half => half
  | .waiting => halfBit c
  | .ending _ => halfBit c
  | .atSpace => halfBit c

/-- An item is complete: the line is active to the end of its last stop bit, half a bit time on, or until
it returns to mark if it is at space then, as it is after a break (R144, R148). -/
def Line.completed (c : SegConfig) (item : Item) (spaceAtEnd : Bool) (l : Line) : Line :=
  { l with rx := if item = .brk ∨ spaceAtEnd then .atSpace else .ending (l.halfOfChar c), idle := 0 }

/-- The receiver after `d`. -/
def Rx.elapse (d : Time) : Rx → Rx
  | .ending left => if d < left then .ending (left - d) else .waiting
  | r => r

/-- How much of the next `d` finds the line idle (R148). -/
def Line.idleGain (d : Time) (l : Line) : Time :=
  match l.tx, l.rx with
  | .quiet, .waiting => d
  | .quiet, .ending left => d - left
  | _, _ => 0

/-- The transmitter after `d`. -/
def Tx.elapse (d : Time) : Tx → Tx
  | .quiet => .quiet
  | .frame chars echoed left => .frame chars echoed (left - d)
  | .guard left => .guard (left - d)
  | .brk left p => .brk (left - d) p

/-- The changes of the configuration after `d`. One longer ago than half a bit time at the lowest rate is
forgotten: no start bit before it is still to be confirmed. -/
def changesAfter (d : Time) (changes : List FormatChange) : List FormatChange :=
  (changes.map fun f => { f with age := f.age + d }).filter (·.age ≤ longestHalfBit)

/-- The line unit after `d` with no happening at it. -/
def Line.elapse (d : Time) (l : Line) : Line :=
  { tx := l.tx.elapse d
    rx := l.rx.elapse d
    idle := l.idle + l.idleGain d
    deferTimer := l.deferTimer.map (· - d)
    changes := changesAfter d l.changes }

/-- The time until the idle time reaches the settle gap, if nothing on the line comes before (R149). -/
def Line.untilSettled (c : SegConfig) (l : Line) : Option Time :=
  match l.tx, l.rx with
  | .quiet, .waiting => some (settleTime c - l.idle)
  | .quiet, .ending left => some (left + settleTime c)
  | _, _ => none

/-- The time until the sent character whose echo is awaited ends (R146), of a frame of `n` characters of
which `echoed` have matched, `left` before its end. -/
def untilCharEnd (c : SegConfig) (n echoed : Nat) (left : Time) : Time :=
  left - (n - echoed - 1) * charTime c

end Sys2Proof.Machine
end

