-- ==== Sys2Proof/Machine/Frames.lean ====
section
/-! DEFINITION. Segment frames (chapter 7): the frame the part builds and the ordered classification of
a reply. -/

namespace Sys2Proof.Machine

def MasterKind.code : MasterKind → Nat
  | .read => 1 | .write => 2 | .status => 3 | .probe => 4

def ReplyKind.code : ReplyKind → Nat
  | .data => 9 | .done => 10 | .statusReply => 11 | .present => 12 | .refuse => 13 | .busy => 14

/-- The reply kind of a kind code, if it is one (section 11.2). -/
def ReplyKind.ofCode : Nat → Option ReplyKind
  | 9 => some .data | 10 => some .done | 11 => some .statusReply | 12 => some .present
  | 13 => some .refuse | 14 => some .busy | _ => none

/-- CTRL: kind in bits 3..0, toggle in bit 4, the resync or attention flag in bit 5, bits 7..6 zero
(R128, section 11.2). -/
def ctrlByte (kindCode : Nat) (toggle flag : Bool) : Byte := byte (kindCode + 16 * bit toggle + 32 * bit flag)

def ctrlKind (ctrl : Byte) : Nat := ctrl.toNat % 16
def ctrlToggle (ctrl : Byte) : Bool := ctrl.getLsbD 4
def ctrlFlag (ctrl : Byte) : Bool := ctrl.getLsbD 5
def ctrlReserved (ctrl : Byte) : Nat := ctrl.toNat / 64

/-- The characters the CRC of a segment frame covers: ADDR, CTRL, PORT, LEN and the payload (R127). -/
def coveredChars (addr : Nat) (ctrl : Byte) (port : Nat) (payload : List Byte) : List Byte :=
  [byte addr, ctrl, byte port, byte payload.length] ++ payload

/-- A frame after its SOF. -/
def frameAfterSof (addr : Nat) (ctrl : Byte) (port : Nat) (payload : List Byte) : List Byte :=
  coveredChars addr ctrl port payload ++ crcBytes (coveredChars addr ctrl port payload)

/-- A whole segment frame (R127, R130). -/
def segmentFrame (addr : Nat) (ctrl : Byte) (port : Nat) (payload : List Byte) : List Byte :=
  sofChar :: frameAfterSof addr ctrl port payload

/-- The frame of an exchange's current stage, with the payload given (R130). -/
def masterFrame (x : Exchange) (payload : List Byte) : List Byte :=
  segmentFrame x.addr (ctrlByte x.kind.code x.toggle x.resync) x.port payload

/-- The valid replies to each master kind with their payload lengths (R133). -/
def replyAllowed : MasterKind → ReplyKind → Option (Nat × Nat)
  | .read, .data => some (0, 64)
  | .read, .refuse => some (1, 1)
  | .read, .busy => some (0, 0)
  | .write, .done => some (0, 0)
  | .write, .refuse => some (1, 1)
  | .write, .busy => some (0, 0)
  | .status, .statusReply => some (1, 17)
  | .status, .refuse => some (1, 1)
  | .status, .busy => some (0, 0)
  | .probe, .present => some (8, 8)
  | .probe, .busy => some (0, 0)
  | _, _ => none

/-- The kind and length tests, 4 and 5 (R137), on a reply that passed the first three. -/
def classifyKind (sent : MasterKind) (ctrl : Byte) (payload : List Byte) : Classified :=
  if ctrlReserved ctrl ≠ 0 then .fault .badKind
  else
    match ReplyKind.ofCode (ctrlKind ctrl) with
    | none => .fault .badKind
    | some k =>
      match replyAllowed sent k with
      | none => .fault .badKind
      | some (lo, hi) =>
        if within lo hi payload.length then .valid ⟨k, payload, ctrlFlag ctrl⟩ else .fault .badLength

/-- The five tests of a complete reply, in their order (R136, R137). `chars` are the characters after the
SOF, CRC included. PORT is not tested. -/
def classify (addr : Nat) (sent : MasterKind) (toggle : Bool) (chars : List Byte) : Classified :=
  let covered := chars.take (chars.length - 2)
  let ctrl := covered.getD 1 0#8
  if chars.drop (chars.length - 2) ≠ crcBytes covered then .fault .crcError
  else if byteAt covered 0 ≠ addr then .fault .wrongStation
  else if ctrlToggle ctrl ≠ toggle then .stale
  else classifyKind sent ctrl (covered.drop 4)

/-- What a received item does to a reply under assembly (R55, R135, R136). -/
inductive Assembly where
  | more (received : List Byte)
  | complete (received : List Byte)
  | fault (kind : FailKind)
  deriving DecidableEq, Repr

/-- The reply under assembly after one more item (R55, R135): the fourth character after the SOF is LEN,
and the reply is complete at the second CRC character, LEN + 6 characters after the SOF. -/
def assemble (received : List Byte) (item : Item) : Assembly :=
  match item with
  | .erroneous _ => .fault .charError
  | .brk => .fault .lineBreak
  | .good v =>
    let now := received ++ [v]
    if now.length = 4 ∧ 64 < v.toNat then .fault .badLength
    else if 4 ≤ now.length ∧ now.length = byteAt now 3 + 6 then .complete now
    else .more now

/-- A failure kind that is a reply fault (R56). -/
def FailKind.isReplyFault : FailKind → Bool
  | .noReply => false
  | .contention => false
  | .charError => true
  | .lineBreak => true
  | .broken => true
  | .badLength => true
  | .crcError => true
  | .wrongStation => true
  | .badKind => true

end Sys2Proof.Machine
end

