-- ==== Sys2Proof/Machine/State.lean ====
section
/-! DEFINITION. The state of the whole part and its value right after the release of RSTN (R184). -/

namespace Sys2Proof.Machine

/-- The state: the three device-wide blocks, the four segment columns, the host link, the RSTN pin, and
the model's own queue of commands that are waiting, first in, first out. -/
structure State where
  /-- the station table by index, `none` where the index is free (R1) -/
  table   : Vector (Option Entry) 64
  /-- the job pool by handle, `none` where the record is FREE (R24) -/
  jobs    : Vector (Option Job) 48
  segs    : Vector Column 4
  queue   : Queue
  link    : Link
  /-- RSTN is held low (R184) -/
  rstnLow : Bool
  /-- the commands waiting -/
  pending : List Instr
  deriving DecidableEq, Repr

/-- The faults of the machine: none. The manual describes no happening after which the part stops, and
gives every command its effect in every state, so no command of this model ends in a fault (log entry 5). -/
inductive Fault where
  deriving DecidableEq, Repr

/-- Why a command is refused. -/
inductive Refusal where
  /-- Raised by Dispatch alone, for a command that has no meaning yet. Safe: the run stops there. No arm
  raises it, for every row of the table has its meaning. -/
  | notModelled (mnemonic : String)
  deriving DecidableEq, Repr

/-- All nine counters at 0 (R91). -/
def Counters.zero : Counters := ⟨0, 0, 0, 0, 0, 0, 0, 0, 0⟩

/-- All six counts of a run at 0 (R112). -/
def RunCounts.zero : RunCounts := ⟨0, 0, 0, 0, 0, 0⟩

/-- The sweep after a reset (R109). -/
def Sweep.reset : Sweep := ⟨false, 0, false, none⟩

/-- An IDLE discovery unit with no run, record or probe (R110, R126). Its range and cursor have no meaning
while it is IDLE and are held at 0 (log entry 6). -/
def Discovery.reset : Discovery := ⟨.idle, 0, 0, 0, RunCounts.zero, none, none⟩

/-- A line unit at the release of RSTN (R151). -/
def Line.reset : Line := ⟨.quiet, .waiting, 0, none, []⟩

/-- A segment column after a pin reset (R94, R46, R109, R126, R151). -/
def Column.reset : Column where
  state := .halted
  config := SegConfig.default
  streak := 0
  turn := .sweep
  counters := Counters.zero
  exchange := none
  urgent := []
  normal := []
  waitSet := []
  attention := []
  sweep := Sweep.reset
  disc := Discovery.reset
  line := Line.reset

/-- The report queue after a reset: HELLO alone, with number 1 (R165). -/
def Queue.afterReset (cause : HelloCause) (reEdge : Option Time) : Queue :=
  ⟨[⟨1, .hello cause hardwareRevision⟩], 0, 0, 1, reEdge⟩

/-- The host link after a pin reset, the gap counting from the release (R180). -/
def Link.reset : Link := ⟨none, 0, 0, 0, 0, 0, .closed, 0⟩

/-- The part right after the release of RSTN (R184), with CSN high and no command waiting. -/
def State.reset : State where
  table := Vector.replicate 64 none
  jobs := Vector.replicate 48 none
  segs := Vector.replicate 4 Column.reset
  queue := Queue.afterReset .pin none
  link := Link.reset
  rstnLow := false
  pending := []

end Sys2Proof.Machine
end

