-- ==== Sys2Proof/Machine/Ops.lean ====
section
/-! DEFINITION. The named operations over the state: one read and one update for each store, the passing of
time, the counters, the table and pool look-ups, the report queue, and a reset. -/

namespace Sys2Proof.Machine

/-- What a command answers. -/
abbrev Result := Host.Outcome State Fault Refusal

/-! ## Reads and updates -/

def State.seg (s : State) (g : Seg) : Column := s.segs[g]

def State.updSeg (g : Seg) (f : Column → Column) (s : State) : State :=
  { s with segs := s.segs.set g (f s.segs[g]) }

def State.entry (s : State) (i : Index) : Option Entry := s.table[i]

def State.setEntry (i : Index) (e : Option Entry) (s : State) : State :=
  { s with table := s.table.set i e }

/-- Change an entry in use. -/
def State.updEntry (i : Index) (f : Entry → Entry) (s : State) : State :=
  s.setEntry i ((s.entry i).map f)

def State.job (s : State) (h : Handle) : Option Job := s.jobs[h]

def State.setJob (h : Handle) (j : Option Job) (s : State) : State :=
  { s with jobs := s.jobs.set h j }

/-- Change a live job. -/
def State.updJob (h : Handle) (f : Job → Job) (s : State) : State :=
  s.setJob h ((s.job h).map f)

def State.updQueue (f : Queue → Queue) (s : State) : State := { s with queue := f s.queue }

def State.updLink (f : Link → Link) (s : State) : State := { s with link := f s.link }

/-- Change the segment's exchange, if it has one. -/
def State.updX (g : Seg) (f : Exchange → Exchange) (s : State) : State :=
  s.updSeg g fun c => { c with exchange := c.exchange.map f }

def State.updLine (g : Seg) (f : Line → Line) (s : State) : State :=
  s.updSeg g fun c => { c with line := f c.line }

def State.updSweep (g : Seg) (f : Sweep → Sweep) (s : State) : State :=
  s.updSeg g fun c => { c with sweep := f c.sweep }

def State.updDisc (g : Seg) (f : Discovery → Discovery) (s : State) : State :=
  s.updSeg g fun c => { c with disc := f c.disc }

/-- Increase one of the segment's counters (R91). -/
def State.count (g : Seg) (f : Counters → Counters) (s : State) : State :=
  s.updSeg g fun c => { c with counters := f c.counters }

/-- Change every item of a store. -/
def mapStore {α β : Type} {n : Nat} (f : α → β) (v : Vector α n) : Vector β n :=
  ⟨⟨v.toList.map f⟩, by simp⟩

/-! ## The nine counters (R91) -/

def Counters.incFramesSent (c : Counters) : Counters := { c with framesSent := satInc c.framesSent }
def Counters.incValid (c : Counters) : Counters := { c with validReplies := satInc c.validReplies }
def Counters.incNoReplies (c : Counters) : Counters := { c with noReplies := satInc c.noReplies }
def Counters.incReplyFaults (c : Counters) : Counters := { c with replyFaults := satInc c.replyFaults }
def Counters.incStale (c : Counters) : Counters := { c with staleReplies := satInc c.staleReplies }
def Counters.incContentions (c : Counters) : Counters := { c with contentions := satInc c.contentions }
def Counters.incStray (c : Counters) : Counters := { c with strayChars := satInc c.strayChars }
def Counters.incBreaks (c : Counters) : Counters := { c with breaksSeen := satInc c.breaksSeen }
def Counters.incOverruns (c : Counters) : Counters := { c with sweepOverruns := satInc c.sweepOverruns }

/-! ## The passing of time (log entries 2 and 3) -/

def Job.elapse (d : Time) (j : Job) : Job :=
  { j with deadlineTimer := j.deadlineTimer.map (· - d), backoff := j.backoff.map (· - d) }

/-- The reply timer runs in AWAIT alone (R54, R55). -/
def Exchange.elapse (d : Time) (x : Exchange) : Exchange :=
  { x with
    replyLeft := if x.phase = .await then x.replyLeft - d else x.replyLeft
    gapTimer := x.gapTimer.map (· - d) }

def Sweep.elapse (d : Time) (w : Sweep) : Sweep := { w with timer := w.timer.map (· - d) }

def Discovery.elapse (d : Time) (u : Discovery) : Discovery :=
  { u with record := u.record.map fun r => { r with timer := r.timer - d } }

def Column.elapse (d : Time) (c : Column) : Column :=
  { c with
    exchange := c.exchange.map (Exchange.elapse d)
    sweep := c.sweep.elapse d
    disc := c.disc.elapse d
    line := c.line.elapse d }

/-- Every running timer, the idle times and the window gap move on by `d`. While RSTN is low nothing of
the part runs (R184). A timer that has run out waits for its expiry to be taken. -/
def State.elapse (d : Time) (s : State) : State :=
  if s.rstnLow then s
  else
    { s with
      jobs := mapStore (Option.map (Job.elapse d)) s.jobs
      segs := mapStore (Column.elapse d) s.segs
      queue := { s.queue with reEdge := s.queue.reEdge.map (· - d) }
      link := { s.link with gap := s.link.gap + d } }

/-- A happening at the part itself is taken, unless RSTN is held low (R184). -/
def whileLive (k : State → State) (s : State) : Result := .next (if s.rstnLow then s else k s)

/-! ## The station table -/

/-- The index in use for a segment and address, if there is one (R1). -/
def findEntry (s : State) (g : Seg) (a : Nat) : Option Index :=
  (List.finRange 64).find? fun i =>
    match s.entry i with
    | some e => e.seg == g && e.addr == a
    | none => false

/-- The lowest free index (R2). -/
def lowestFreeIndex (s : State) : Option Index :=
  (List.finRange 64).find? fun i => (s.entry i).isNone

/-- The table entries used (R2). -/
def entriesUsed (s : State) : Nat := s.table.toList.countP (·.isSome)

/-- The exchange's entry, if it names one in use. -/
def entryOf (s : State) (x : Exchange) : Option Entry := x.entry.bind s.entry

/-- The exchange names an entry that is RETIRING (R66). -/
def retiringEntry (s : State) (x : Exchange) : Bool :=
  match entryOf s x with
  | some e => e.state == .retiring
  | none => false

/-- An entry kept by a warm restart or RESET_SEGMENT, or freed if RETIRING (R21, R22). -/
def warmEntry (e : Entry) : Option Entry :=
  if e.state = .retiring then none
  else some { e with
    state := .enlisted
    sync := .unsynced
    toggle := false
    misses := 0
    silentFails := 0
    goodReplies := 0
    attention := false
    lastStatus := none }

/-! ## The job pool -/

/-- The live job with a tag (R30). -/
def findTag (s : State) (t : BitVec 16) : Option Handle :=
  (List.finRange 48).find? fun h =>
    match s.job h with
    | some j => j.tag == t
    | none => false

/-- The lowest FREE record (R24). -/
def lowestFreeJob (s : State) : Option Handle :=
  (List.finRange 48).find? fun h => (s.job h).isNone

/-- The live jobs (R24). -/
def liveJobs (s : State) : Nat := s.jobs.toList.countP (·.isSome)

/-- Job `h` is a READ, WRITE or STATUS job with this segment and address (R10). -/
def ofStation (s : State) (g : Seg) (a : Nat) (h : Handle) : Bool :=
  match s.job h with
  | some j => j.kind != .broadcast && j.seg == g && j.addr == a
  | none => false

/-- A handle put into a waiting set, which is listed in ascending order (R27). -/
def insertAsc (h : Handle) : List Handle → List Handle
  | [] => [h]
  | k :: ks => if h < k then h :: k :: ks else if h = k then k :: ks else k :: insertAsc h ks

/-- Take a handle out of the lanes and the waiting set of its segment (R25, R38). -/
def leaveHolders (h : Handle) (c : Column) : Column :=
  { c with
    urgent := c.urgent.filter (· != h)
    normal := c.normal.filter (· != h)
    waitSet := c.waitSet.filter (· != h) }

/-- The lane of a segment that a job's lane field names (R26). -/
def laneOf (c : Column) : Lane → List Handle
  | .urgent => c.urgent
  | .normal => c.normal

/-- Change the lane that a job's lane field names. -/
def updLane (l : Lane) (f : List Handle → List Handle) (c : Column) : Column :=
  match l with
  | .urgent => { c with urgent := f c.urgent }
  | .normal => { c with normal := f c.normal }

/-! ## The report queue (chapter 9) -/

/-- R155. -/
def freeRoom (s : State) : Nat := queuePlaces - s.queue.reports.length - s.queue.reservations

/-- The number after the number last given, 255 followed by 1 and 0 followed by 1 (R159). -/
def nextNumber (n : Nat) : Nat := if n = 255 then 1 else n + 1

/-- A report joins the tail with the next number (R153, R159). -/
def Queue.enter (b : ReportBody) (q : Queue) : Queue :=
  { q with
    reports := q.reports ++ [⟨nextNumber q.lastNumber, b⟩]
    lastNumber := nextNumber q.lastNumber }

/-- A RESULT, FOUND or DISCOVERY_DONE enters by its reservation (R156). -/
def enterReserved (b : ReportBody) (s : State) : State :=
  s.updQueue fun q => Queue.enter b { q with reservations := q.reservations - 1 }

/-- An event report is made if there is free room, and is otherwise counted as lost (R157). -/
def eventReport (b : ReportBody) (s : State) : State :=
  if 0 < freeRoom s then s.updQueue (Queue.enter b)
  else s.updQueue fun q => { q with lostEvents := satInc q.lostEvents }

/-- One reservation is taken (R154). -/
def takeReservation (s : State) : State := s.updQueue fun q => { q with reservations := q.reservations + 1 }

/-- One reservation is released without a report (R154). -/
def releaseReservation (s : State) : State :=
  s.updQueue fun q => { q with reservations := q.reservations - 1 }

/-! ## Completion of a job (R38) -/

/-- A live job completes: its RESULT enters by its reservation, its handle leaves its lane or the waiting
set, its timers go with its record, and the record becomes FREE. -/
def completeJob (h : Handle) (o : JobOutcome) (data : List Byte) (s : State) : State :=
  match s.job h with
  | none => s
  | some j =>
    ((enterReserved (.result j.tag o j.attempts j.busy j.lastFault j.cancel data) s).updSeg j.seg
      (leaveHolders h)).setJob h none

/-- Several jobs complete with one outcome, in the order of the list. -/
def completeJobs (hs : List Handle) (o : JobOutcome) (s : State) : State :=
  hs.foldl (fun s h => completeJob h o [] s) s

/-- The station's QUEUED and WAITING jobs in the order of R10 and R15: urgent lane from the head, normal
lane from the head, waiting set by handle. -/
def stationJobs (s : State) (g : Seg) (a : Nat) : List Handle :=
  ((s.seg g).urgent ++ (s.seg g).normal ++ (s.seg g).waitSet).filter (ofStation s g a)

/-! ## The attention list (R95) -/

/-- An entry on the list leaves it and its mark is cleared. -/
def leaveAttention (i : Index) (s : State) : State :=
  match s.entry i with
  | none => s
  | some e =>
    (s.updEntry i fun e => { e with attention := false }).updSeg e.seg fun c =>
      { c with attention := c.attention.filter (· != i) }

/-- The joining rule (R96). -/
def joinAttention (i : Index) (s : State) : State :=
  match s.entry i with
  | none => s
  | some e =>
    if e.attention = false ∧ (e.state = .enlisted ∨ e.state = .online) then
      (s.updEntry i fun e => { e with attention := true }).updSeg e.seg fun c =>
        { c with attention := c.attention ++ [i] }
    else s

/-- An entry on the list moves to its tail, its mark staying set (R98). One that is not on it stays off it. -/
def attentionToTail (i : Index) (s : State) : State :=
  match s.entry i with
  | none => s
  | some e => s.updSeg e.seg fun c =>
    { c with attention := if i ∈ c.attention then c.attention.filter (· != i) ++ [i] else c.attention }

/-! ## Resets -/

/-- A segment column after a restart (R94, R46, R71, R109, R126, R152). The line unit acts under the
configuration it runs with, and a cold restart replaces that (R140). -/
def Column.restart (warm : Bool) (c : Column) : Column :=
  { Column.reset with
    config := if warm then c.config else SegConfig.default
    line := if warm then c.line.discard c.config else (c.line.discard c.config).reconfigured c.config }

/-- A cold or warm restart of the whole part (R178). The window, its gap and the commands waiting are not
the restart's. -/
def restartPart (warm : Bool) (s : State) : State :=
  { s with
    table := if warm then mapStore (fun e => e.bind warmEntry) s.table else Vector.replicate 64 none
    jobs := Vector.replicate 48 none
    segs := mapStore (Column.restart warm) s.segs
    queue := Queue.afterReset (if warm then .warm else .cold) (some reEdgeTime)
    link := { Link.reset with window := s.link.window, gap := s.link.gap } }

end Sys2Proof.Machine
end

