-- ==== Sys2Proof/Machine/Flags.lean ====
section
/-! DEFINITION. Everything the part shows as flags, frames and pin levels: the flag bytes of section 11.3 and
11.4, the report bodies, the part frame, and the pins ATTN, SDO, DIR and TXD. -/

namespace Sys2Proof.Machine

/-! ## Flag bytes -/

/-- The state byte of a listed entry: bits 2..0 state, then five flags (R19, section 11.3). -/
def listByte (e : Entry) : Byte :=
  byte (e.state.code + flagAt 3 (e.pollClass == .cyclic) + flagAt 4 e.attention
    + flagAt 5 (e.sync == .unsynced) + flagAt 6 e.identity.isSome + flagAt 7 (e.origin == .admitted))

/-- The presence byte of QUERY_STATION (R18). -/
def presenceByte (e : Entry) : Byte := byte (flagAt 0 e.lastStatus.isSome + flagAt 1 e.identity.isSome)

/-- The marks byte of QUERY_JOB (R42). -/
def marksByte (j : Job) : Byte :=
  byte (flagAt 0 j.started + flagAt 1 j.cancel + flagAt 2 j.lastFault.isSome)

/-- The code of a failure that may be absent, 0 if it is (R181). -/
def faultByte (k : Option FailKind) : Byte := byte ((k.map FailKind.code).getD 0)

/-! ## Report bodies (section 11.4) -/

/-- The kind code of a report. -/
def ReportBody.kindCode : ReportBody → Nat
  | .hello .. => 1
  | .result .. => 2
  | .stationState .. => 3
  | .attention .. => 4
  | .statusChanged .. => 5
  | .segmentState .. => 6
  | .found .. => 7
  | .discoveryDone .. => 8

/-- The six counts of a run in the order of R116. -/
def RunCounts.bytes (c : RunCounts) : List Byte :=
  [byte c.probed, byte c.found, byte c.admitted, byte c.refused, byte c.lapsed, byte c.unclear]

/-- The body of a report as it is sent. -/
def ReportBody.bytes : ReportBody → List Byte
  | .hello cause revision => [byte cause.code, revision]
  | .result tag outcome attempts busy lastFault cancelLate data =>
    bytes2 tag.toNat ++ [byte outcome.code, byte attempts, byte busy,
      byte (flagAt 0 lastFault.isSome + flagAt 1 cancelLate), faultByte lastFault] ++ data
  | .stationState seg addr old new cause =>
    [byte seg.val, byte addr, byte old.code, byte new.code, byte cause.code]
  | .attention seg addr status detail => [byte seg.val, byte addr, status] ++ detail
  | .statusChanged seg addr old new =>
    [byte seg.val, byte addr, byte (flagAt 0 old.isSome), old.getD 0#8, new]
  | .segmentState seg old new cause => [byte seg.val, byte old.code, byte new.code, byte cause.code]
  | .found seg addr identity unclear =>
    [byte seg.val, byte addr, byte (flagAt 0 identity.isSome + flagAt 1 unclear)] ++ identity.getD []
  | .discoveryDone seg counts => byte seg.val :: counts.bytes

/-! ## The part frame (R169, section 11.1) -/

/-- The four flags: report present, answer present, discovery held, segment faulted. -/
def partFlags (s : State) : Byte :=
  byte (flagAt 0 (!s.queue.reports.isEmpty) + flagAt 1 s.link.slot.isSome
    + flagAt 2 (s.segs.toList.any fun c => c.disc.state == .held)
    + flagAt 3 (s.segs.toList.any fun c => c.state == .faulted))

/-- Report number, kind and length, all 0 with the queue empty (R160). -/
def headBytes (s : State) : List Byte :=
  match s.queue.reports with
  | [] => [0#8, 0#8, 0#8]
  | r :: _ => [byte r.number, byte r.body.kindCode, byte r.body.bytes.length]

/-- Answer tag, outcome and length, all 0 with the slot empty (R174). -/
def slotBytes (s : State) : List Byte :=
  match s.link.slot with
  | none => [0#8, 0#8, 0#8, 0#8]
  | some a => bytes2 a.tag.toNat ++ [byte a.outcome.code, byte a.data.length]

/-- The answer data, none with the slot empty. -/
def slotData (s : State) : List Byte :=
  match s.link.slot with
  | none => []
  | some a => a.data

/-- The head report's body, none with the queue empty. -/
def headBody (s : State) : List Byte :=
  match s.queue.reports with
  | [] => []
  | r :: _ => r.body.bytes

/-- The part frame before its CRC. -/
def partFrameBody (s : State) : List Byte :=
  [partMarker, partFlags s] ++ headBytes s ++ slotBytes s ++ bytes2 s.queue.lostEvents
    ++ [byte (poolSize - liveJobs s), byte (freeRoom s), byte s.queue.reports.length]
    ++ slotData s ++ headBody s

/-- The part frame built at a fall of CSN. -/
def buildPartFrame (s : State) : List Byte := partFrameBody s ++ crcBytes (partFrameBody s)

/-! ## Pins -/

/-- ATTN is asserted exactly while the queue holds a report and the re-edge interval is idle, and not
while RSTN is low (R162). -/
def attnAsserted (s : State) : Bool :=
  !s.rstnLow && !s.queue.reports.isEmpty && s.queue.reEdge.isNone

/-- Byte `k` that the host clocks from SDO, or `none` where the part does not drive SDO (R167, R168). -/
def sdoByte (s : State) (k : Nat) : Option Byte :=
  if s.rstnLow then none
  else
    match s.link.window with
    | .closed => none
    | .serving frame => some (frame.getD k 0xFF#8)
    | .ignored => some 0xFF#8
    | .noWindow => none

/-- The level of SDO while the host clocks bit `k` of a window, counted from 0, or `none` where the part does
not drive it: each byte is sent most significant bit first (R167). -/
def sdoBit (s : State) (k : Nat) : Option Bool := (sdoByte s (k / 8)).map fun b => b.getLsbD (7 - k % 8)

/-- The level of a segment's DIR pin; while RSTN is low, the released level of the default polarity
(R141, R151). -/
def dirPin (s : State) (g : Seg) : Bool :=
  if s.rstnLow then dirLevelOf .highSends false else dirLevel (s.seg g).config (s.seg g).line

/-- What a segment's TXD pin drives (R141, R151). -/
def txdPin (s : State) (g : Seg) : TxdDrive :=
  if s.rstnLow then .mark else txdDrive (s.seg g).line

/-- The level of a segment's TXD pin at this moment, mark `true` (R140, R141, R151). -/
def txdLevel (s : State) (g : Seg) : Bool :=
  if s.rstnLow then true else (s.seg g).line.txdLevel (s.seg g).config

end Sys2Proof.Machine
end

