-- ==== Sys2Proof/Machine/Scheduling.lean ====
section
/-! DEFINITION. The looks of the sweep (R105, R107) and of the discovery unit (R113, R116), the start of an
exchange (R48 to R50, R32), the pick order (R82 to R84), and room for discovery units (R120, R121). -/

namespace Sys2Proof.Machine

/-! ## The phases DEFER and SEND -/

/-- The payload of the frames of the current stage (R48, R130). -/
def stagePayload (s : State) (x : Exchange) : List Byte :=
  match x.origin, x.stage, x.kind with
  | .job h, .main, .read => ((s.job h).map (·.request)).getD []
  | .job h, .main, .write => ((s.job h).map (·.request)).getD []
  | _, _, _ => []

/-- The attempt leaving DEFER is counted, in the exchange and in its job (R33, R50), unless it has been
(R61). DESIGN CHOICE (log entry 22): the count has no upper bound of its own. R33 and R49 say that it stays
within 0..8, and by R57, R61 and R35 a job can return to its lane with 8. -/
def countAttempt (g : Seg) (x : Exchange) (s : State) : State :=
  if x.counted then s
  else
    let s := s.updX g fun x => { x with attempt := x.attempt + 1, counted := true }
    match x.origin with
    | .job h => s.updJob h fun j => { j with attempts := j.attempts + 1 }
    | _ => s

/-- The attempt goes from DEFER to SEND: it is counted, DIR is asserted and its frame begins
(R50, R51, R142); the defer timer stops (R150). -/
def enterSend (g : Seg) (s : State) : State :=
  match (s.seg g).exchange with
  | none => s
  | some x =>
    let frame := masterFrame x (stagePayload s x)
    ((countAttempt g x s).updX g fun x => { x with phase := .send }).updLine g fun l =>
      { l with
        tx := .frame frame 0 (frame.length * charTime (s.seg g).config)
        idle := 0
        deferTimer := none }

/-- The attempt enters DEFER. On a line already idle for the settle gap it goes to SEND at once (R149); on
a quiet transmitter the defer timer starts, and under an abort break it waits for the break (R150). -/
def enterDefer (g : Seg) (s : State) : State :=
  let s := s.updX g fun x => { x with phase := .defer, received := [], gapTimer := none }
  let c := s.seg g
  if c.line.tx = .quiet then
    if settleTime c.config ≤ c.line.idle then enterSend g s
    else s.updLine g fun l => { l with deferTimer := some (millis c.config.deferLimit) }
  else s.updLine g fun l => { l with deferTimer := none }

/-! ## Starting an exchange -/

/-- The attempt limit (R49). -/
def attemptLimit (c : SegConfig) (origin : XOrigin) (e : Option Entry) : Nat :=
  match origin with
  | .probe => 2
  | .sweep => 1
  | _ => if (e.map (·.state)) = some .silent then 1 else c.retryLimit + 1

/-- A fresh exchange record in DEFER (R48). DESIGN CHOICE (log entry 26): its reply time left, to which R47 and R48
give no value before the first AWAIT, is 0. -/
def newExchange (origin : XOrigin) (entry : Option Index) (addr port : Nat) (stage : Stage)
    (kind : MasterKind) (toggle resync : Bool) (attempt limit : Nat) : Exchange where
  origin := origin
  entry := entry
  addr := addr
  port := port
  stage := stage
  kind := kind
  toggle := toggle
  resync := resync
  attempt := attempt
  limit := limit
  phase := .defer
  unanswered := false
  replyLeft := 0
  counted := false
  received := []
  gapTimer := none

/-- The record is filled and the first attempt begins in DEFER (R48). -/
def beginExchange (g : Seg) (x : Exchange) (s : State) : State :=
  enterDefer g (s.updSeg g fun c => { c with exchange := some x })

/-- The exchange of a job with a station (R48): a READ or WRITE to an UNSYNCED entry starts in its prelude. -/
def stationJobExchange (c : SegConfig) (h : Handle) (j : Job) (i : Index) (e : Entry) : Exchange :=
  let limit := attemptLimit c (.job h) (some e)
  let unsynced := e.sync == .unsynced
  match j.kind with
  | .status =>
    newExchange (.job h) (some i) j.addr j.port .main .status e.toggle unsynced j.attempts limit
  | k =>
    if unsynced then
      newExchange (.job h) (some i) j.addr 0 .prelude .status e.toggle true j.attempts limit
    else
      newExchange (.job h) (some i) j.addr j.port .main (if k = .read then .read else .write) e.toggle
        false j.attempts limit

/-- The exchange of a job (R48). A broadcast names no entry and goes to address 0. -/
def jobExchange (s : State) (g : Seg) (h : Handle) (j : Job) : Exchange :=
  let broadcast := newExchange (.job h) none j.addr j.port .main .write false false j.attempts
    (attemptLimit (s.seg g).config (.job h) none)
  if j.kind = .broadcast then broadcast
  else
    match findEntry s g j.addr with
    | none => broadcast
    | some i =>
      match s.entry i with
      | none => broadcast
      | some e => stationJobExchange (s.seg g).config h j i e

/-- The picked job is started (R32): it leaves its lane, becomes ACTIVE, and its deadline timer is disarmed
for good. -/
def startJob (g : Seg) (h : Handle) (s : State) : State :=
  match s.job h with
  | none => s.updSeg g (leaveHolders h)
  | some j =>
    let x := jobExchange s g h j
    beginExchange g x <|
      (s.updSeg g (leaveHolders h)).updJob h fun j =>
        { j with state := .active, started := true, deadlineTimer := none }

/-- A STATUS poll of an entry, for the sweep or as an attention follow-up (R48, R97, R105). -/
def startPoll (g : Seg) (origin : XOrigin) (i : Index) (s : State) : State :=
  match s.entry i with
  | none => s
  | some e =>
    beginExchange g
      (newExchange origin (some i) e.addr 0 .main .status e.toggle (e.sync == .unsynced) 0
        (attemptLimit (s.seg g).config origin (some e))) s

/-- A probe of an address, noted in the probe mark (R48, R113). -/
def startProbe (g : Seg) (a : Nat) (s : State) : State :=
  beginExchange g
    (newExchange .probe none a 0 .main .probe false true 0 (attemptLimit (s.seg g).config .probe none))
    (s.updDisc g fun u => { u with mark := some ⟨a, .none⟩ })

/-! ## The sweep's look -/

/-- Membership in the segment's sweep (R105). -/
def Entry.isMember (e : Entry) : Bool :=
  match e.state with
  | .enlisted => e.pollClass == .cyclic
  | .online => e.pollClass == .cyclic
  | .silent => true
  | .offline => false
  | .retiring => false

/-- The address is that of a member of the segment's sweep. -/
def memberAt (s : State) (g : Seg) (a : Nat) : Bool :=
  match (findEntry s g a).bind s.entry with
  | some e => e.isMember
  | none => false

/-- The member with the lowest address above a cursor (R105). -/
def nextMember (s : State) (g : Seg) (cursor : Nat) : Option Nat :=
  (List.range 127).find? fun a => decide (cursor < a) && memberAt s g a

/-- The sweep after the end of a pass with no repeat due (R107). -/
def Sweep.passEnded (w : Sweep) : Sweep := { w with active := false, cursor := 0, repeatDue := false }

/-- A look of the sweep (R105). With no member above the cursor the pass ends, and begins again at once if
a repeat is due (R107). -/
def lookSweep (g : Seg) (s : State) : State × Option Nat :=
  let w := (s.seg g).sweep
  if w.active then
    match nextMember s g w.cursor with
    | some a => (s, some a)
    | none =>
      if w.repeatDue then
        match nextMember s g 0 with
        | some a => (s.updSweep g fun w => { w with cursor := 0, repeatDue := false }, some a)
        | none => (s.updSweep g Sweep.passEnded, none)
      else (s.updSweep g Sweep.passEnded, none)
  else (s, none)

/-! ## The discovery unit's look -/

/-- The lowest address of the range, from the cursor on, that no entry of the segment holds (R113). -/
def nextProbe (s : State) (g : Seg) : Option Nat :=
  (List.range 127).find? fun a =>
    decide ((s.seg g).disc.cursor ≤ a) && decide (a ≤ (s.seg g).disc.high) && (findEntry s g a).isNone

/-- The unit IDLE, its run dropped, the probe mark kept (R112, R116, R124). -/
def Discovery.idleKeepingMark (u : Discovery) : Discovery := { Discovery.reset with mark := u.mark }

/-- The end of a run (R116): DISCOVERY_DONE by the unit's reservation, and the unit IDLE. -/
def endRun (g : Seg) (s : State) : State :=
  (enterReserved (.discoveryDone g (s.seg g).disc.counts) s).updDisc g Discovery.idleKeepingMark

/-- A look of a PROBING unit (R113). If it finds no address, the run ends. -/
def lookDisc (g : Seg) (s : State) : State × Option Nat :=
  if (s.seg g).disc.state = .probing then
    match nextProbe s g with
    | some a => (s, some a)
    | none => (endRun g s, none)
  else (s, none)

/-! ## The pick order -/

/-- A segment is free when it is RUNNING, holds no exchange and its line unit is not sending an abort break
(R82, R141). -/
def isFree (c : Column) : Bool :=
  c.state == .running && c.exchange.isNone && c.line.tx == .quiet

/-- Source 5 of R84. -/
def pickDiscovery (g : Seg) (s : State) : State :=
  match (lookDisc g s).2 with
  | some a => startProbe g a (lookDisc g s).1
  | none => (lookDisc g s).1

/-- Source 4 of R84, then 5. The pick of a normal job sets the turn flag to SWEEP (R83). -/
def pickNormal (g : Seg) (s : State) : State :=
  match (s.seg g).normal with
  | h :: _ => startJob g h (s.updSeg g fun c => { c with turn := .sweep })
  | [] => pickDiscovery g s

/-- The sweep's member is polled: the cursor moves to it and the turn flag becomes LANE (R83, R105). -/
def startSweepStep (g : Seg) (a : Nat) (s : State) : State :=
  match findEntry s g a with
  | none => s
  | some i =>
    startPoll g .sweep i
      (s.updSeg g fun c => { c with turn := .lane, sweep := { c.sweep with cursor := a } })

/-- Source 3 of R84, then 4 and 5. -/
def pickSweep (g : Seg) (s : State) : State :=
  match (lookSweep g s).2 with
  | some a =>
    if (s.seg g).turn = .sweep ∨ (s.seg g).normal = [] then startSweepStep g a (lookSweep g s).1
    else pickNormal g (lookSweep g s).1
  | none => pickNormal g (lookSweep g s).1

/-- A free segment takes the first of the five sources that has work (R84). A segment that is not free
picks nothing. -/
def pick (g : Seg) (s : State) : State :=
  if isFree (s.seg g) then
    match (s.seg g).attention with
    | i :: _ => startPoll g .attention i s
    | [] =>
      match (s.seg g).urgent with
      | h :: _ => startJob g h s
      | [] => pickSweep g s
  else s

/-! ## Room for discovery units -/

/-- A unit without a reservation takes one and becomes PROBING (R111). -/
def beginProbing (g : Seg) (s : State) : State :=
  (takeReservation s).updDisc g fun u => { u with state := .probing }

/-- The unit looks, and a free segment picks if an address is found (R112, R113, R120). -/
def lookAndPick (g : Seg) (s : State) : State :=
  match (lookDisc g s).2 with
  | some _ => pick g (lookDisc g s).1
  | none => (lookDisc g s).1

/-- A unit in WAIT_ROOM takes a reservation if there is free room (R120, R121). -/
def takeRoom (g : Seg) (s : State) : State :=
  if (s.seg g).disc.state = .waitRoom ∧ 0 < freeRoom s then lookAndPick g (beginProbing g s) else s

/-- Free room has appeared: the units in WAIT_ROOM are served in ascending order of segment (R121). -/
def serveWaitRoom (s : State) : State := takeRoom 3 (takeRoom 2 (takeRoom 1 (takeRoom 0 s)))

/-- A unit resumes after its hold has ended or an unclear find has used its reservation (R120). -/
def resumeDisc (g : Seg) (s : State) : State :=
  takeRoom g (s.updDisc g fun u => { u with state := .waitRoom, record := none })

end Sys2Proof.Machine
end

