-- ==== Sys2Proof/Machine/Operands.lean ====
section
/-! DEFINITION. How a host frame reaches its request: the CSN rise (R168, R171), the acknowledgement (R161,
R163), repeats, lengths and the answer slot (R173 to R175), and the operand readers that the requests share
(R183). -/

namespace Sys2Proof.Machine

/-! ## The CSN rise -/

/-- CSN rises: the window is over and the gap begins to count (R168). -/
def State.raiseCsn (s : State) : State := s.updLink fun l => { l with window := .closed, gap := 0 }

/-- A CSN rise `wait` after the happening before it. In an ignored window, and with CSN low without a window,
nothing of the host frame is taken (R168). A rise with no fall before it stands for a whole window, whose
fall comes at the same time and is ignored if it comes sooner than 4 µs after the rise or release before it
(R168, log entry 11). -/
def atCsnRise (wait : Time) (k : State → State) (s : State) : State :=
  let s := s.elapse wait
  if s.rstnLow then s.raiseCsn
  else
    match s.link.window with
    | .closed => if s.link.gap < windowGap then s.raiseCsn else k s.raiseCsn
    | .serving _ => k s.raiseCsn
    | .ignored => s.raiseCsn
    | .noWindow => s.raiseCsn

/-! ## The link counters (R172) -/

def countTaken (s : State) : State := s.updLink fun l => { l with taken := satInc l.taken }
def countCrcFault (s : State) : State := s.updLink fun l => { l with crcFaults := satInc l.crcFaults }
def countTruncated (s : State) : State := s.updLink fun l => { l with truncated := satInc l.truncated }
def countMalformed (s : State) : State := s.updLink fun l => { l with malformed := satInc l.malformed }
def countRepeat (s : State) : State := s.updLink fun l => { l with repeats := satInc l.repeats }

/-! ## The acknowledgement (R161, R163) -/

/-- The head leaves the queue. The re-edge interval starts if another report remains. -/
def Queue.removeHead (rest : List Report) (q : Queue) : Queue :=
  { q with reports := rest, reEdge := if rest = [] then q.reEdge else some reEdgeTime }

/-- An acknowledgement removes the head if it names its number; the room this frees goes to waiting units in
the same step (R121). -/
def applyAck (number : Nat) (s : State) : State :=
  match s.queue.reports with
  | [] => s
  | r :: rest => if number = r.number then serveWaitRoom (s.updQueue (Queue.removeHead rest)) else s

/-! ## A taken frame -/

/-- A frame that passes every check is counted and its acknowledgement applied (R171, R173). -/
def takeFrame (f : HostFrame) (s : State) : State := applyAck f.ack.toNat (countTaken s)

/-- The answer slot is set (R174). -/
def setSlot (tag : BitVec 16) (o : AnsOutcome) (data : List Byte) (s : State) : State :=
  s.updLink fun l => { l with slot := some ⟨tag, o, data⟩ }

/-- The tag held in the answer slot. -/
def slotTag (s : State) : Option (BitVec 16) := s.link.slot.map (·.tag)

/-- What the owner of a request decides: the state after it, the outcome and the answer data. -/
structure Ruling where
  state   : State
  outcome : AnsOutcome
  data    : List Byte

/-- The request is refused: its owner's state is unchanged and the answer carries the outcome alone. -/
def refuse (o : AnsOutcome) (s : State) : Ruling := ⟨s, o, []⟩

/-- A frame with a request other than NOP: checks 3 and 6 of R171, then the frame is taken. -/
def takeRequest (f : HostFrame) (deal : State → State) (s : State) : State :=
  atCsnRise f.wait
    (fun s =>
      if 80 < f.body.length then countMalformed s
      else if f.tag = 0#16 then countMalformed s
      else deal (takeFrame f s)) s

/-- Steps 3, 5 and 6 of R173: a repeat is not executed; a body that does not suit is refused; otherwise the
owner acts and its outcome and data go to the slot. -/
def answerRequest (f : HostFrame) (suits : Bool) (owner : State → Ruling) (s : State) : State :=
  if slotTag s = some f.tag then countRepeat s
  else if suits then setSlot f.tag (owner s).outcome (owner s).data (owner s).state
  else setSlot f.tag .badLength [] s

/-- A request whose body has one exact length (section 11.3). -/
def exactRequest (n : Nat) (f : HostFrame) (owner : State → Ruling) (s : State) : Result :=
  .next (takeRequest f (answerRequest f (f.body.length == n) owner) s)

/-! ## Operand readers (R183) -/

/-- Byte `k` of the body. -/
def bodyByte (f : HostFrame) (k : Nat) : Nat := byteAt f.body k

/-- The word at byte `k` of the body. -/
def bodyWord (f : HostFrame) (k : Nat) : Nat := wordAt f.body k

/-- A segment byte above 3 is refused with NO_SEGMENT (R183). -/
def withSegment (n : Nat) (k : Seg → State → Ruling) (s : State) : Ruling :=
  if h : n < 4 then k ⟨n, h⟩ s else refuse .noSegment s

/-- An address 1..126. -/
def validAddr (a : Nat) : Bool := within 1 126 a

/-- A number of ports 1..8. -/
def validPorts (p : Nat) : Bool := within 1 8 p

end Sys2Proof.Machine
end

