-- ==== Sys2Proof/Machine/StationCommands.lean ====
section
/-! DEFINITION. The requests on a station: ADD_STATION, REMOVE_STATION, REVIVE_STATION, SET_CLASS,
QUERY_STATION, LIST_STATIONS (section 1.4). -/

namespace Sys2Proof.Machine

/-- The entry of a segment and address that is in use, if any (R1). -/
def entryAt (s : State) (g : Seg) (a : Nat) : Option (Index × Entry) :=
  (findEntry s g a).bind fun i => (s.entry i).map fun e => (i, e)

/-- The entry of a segment and address, with RETIRING counted as absent (R15, R16, R17, R28). -/
def workingEntryAt (s : State) (g : Seg) (a : Nat) : Option (Index × Entry) :=
  (entryAt s g a).filter fun p => p.2.state != .retiring

/-- The segment's admission record holds the address (R14, R122). -/
def heldAt (s : State) (g : Seg) (a : Nat) : Bool :=
  match (s.seg g).disc.record with
  | some r => r.addr == a
  | none => false

/-- An entry as ADD_STATION makes it (R2). -/
def addedEntry (g : Seg) (a ports : Nat) (cls : PollClass) : Entry where
  seg := g
  addr := a
  ports := ports
  pollClass := cls
  state := .enlisted
  misses := 0
  silentFails := 0
  toggle := false
  sync := .unsynced
  attention := false
  lastStatus := none
  identity := none
  origin := .added
  goodReplies := 0

/-! ## ADD_STATION -/

/-- A probe in flight at the address becomes void (R115). -/
def voidProbe (a : Nat) (u : Discovery) : Discovery :=
  { u with mark := u.mark.map fun m => if m.addr = a ∧ m.void = .none then { m with void := .added } else m }

/-- The checks of R14 in their order, then the entry of R2. -/
def rulingAddStation (a ports : Nat) (cls : Nat) (g : Seg) (s : State) : Ruling :=
  match PollClass.ofCode cls with
  | none => refuse .badValue s
  | some cls =>
    if !validAddr a || !validPorts ports then refuse .badValue s
    else if (findEntry s g a).isSome then refuse .addressInUse s
    else if heldAt s g a then refuse .addressHeld s
    else
      match lowestFreeIndex s with
      | none => refuse .tableFull s
      | some i => ⟨(s.setEntry i (some (addedEntry g a ports cls))).updDisc g (voidProbe a), .ok, []⟩

/-- ADD_STATION (R14). -/
def execAddStation (f : HostFrame) (s : State) : Result :=
  exactRequest 4 f
    (withSegment (bodyByte f 0) (rulingAddStation (bodyByte f 1) (bodyByte f 2) (bodyByte f 3))) s

/-! ## REMOVE_STATION -/

/-- The exchange on the segment names the entry (R15). -/
def namedByExchange (s : State) (g : Seg) (i : Index) : Bool :=
  match (s.seg g).exchange with
  | some x => x.entry == some i
  | none => false

/-- The job carried by the segment's exchange has its cancel-requested mark set (R15, R66). -/
def cancelCarried (g : Seg) (s : State) : State :=
  match (s.seg g).exchange with
  | some x =>
    match x.origin with
    | .job h => s.updJob h fun j => { j with cancel := true }
    | _ => s
  | none => s

/-- Step 3 of R15. -/
def freeOrRetire (g : Seg) (i : Index) (s : State) : State :=
  if namedByExchange s g i then cancelCarried g (s.updEntry i fun e => { e with state := .retiring })
  else s.setEntry i none

/-- The three steps of R15 on entry `i` at address `a`. -/
def removeEntry (g : Seg) (a : Nat) (i : Index) (s : State) : State :=
  freeOrRetire g i (leaveAttention i (completeJobs (stationJobs s g a) .cancelled s))

/-- R15. -/
def rulingRemoveStation (a : Nat) (g : Seg) (s : State) : Ruling :=
  if !validAddr a then refuse .badValue s
  else
    match workingEntryAt s g a with
    | none => refuse .noStation s
    | some (i, _) =>
      ⟨removeEntry g a i s, .ok,
        [byte (dispositionCode (namedByExchange s g i)), byte (stationJobs s g a).length]⟩

/-- REMOVE_STATION (R15). -/
def execRemoveStation (f : HostFrame) (s : State) : Result :=
  exactRequest 2 f (withSegment (bodyByte f 0) (rulingRemoveStation (bodyByte f 1))) s

/-! ## REVIVE_STATION, SET_CLASS -/

/-- An entry returned to service (R16). -/
def revived (e : Entry) : Entry :=
  { e with state := .enlisted, sync := .unsynced, toggle := false, misses := 0, silentFails := 0 }

/-- R16. -/
def rulingReviveStation (a : Nat) (g : Seg) (s : State) : Ruling :=
  if !validAddr a then refuse .badValue s
  else
    match workingEntryAt s g a with
    | none => refuse .noStation s
    | some (i, e) => if e.state = .offline then ⟨s.updEntry i revived, .ok, []⟩ else refuse .wrongState s

/-- REVIVE_STATION (R16). -/
def execReviveStation (f : HostFrame) (s : State) : Result :=
  exactRequest 2 f (withSegment (bodyByte f 0) (rulingReviveStation (bodyByte f 1))) s

/-- R17. -/
def rulingSetClass (a : Nat) (cls : Nat) (g : Seg) (s : State) : Ruling :=
  match PollClass.ofCode cls with
  | none => refuse .badValue s
  | some cls =>
    if !validAddr a then refuse .badValue s
    else
      match workingEntryAt s g a with
      | none => refuse .noStation s
      | some (i, e) => ⟨s.updEntry i fun e => { e with pollClass := cls }, .ok, [byte e.pollClass.code]⟩

/-- SET_CLASS (R17). -/
def execSetClass (f : HostFrame) (s : State) : Result :=
  exactRequest 3 f (withSegment (bodyByte f 0) (rulingSetClass (bodyByte f 1) (bodyByte f 2))) s

/-! ## QUERY_STATION, LIST_STATIONS -/

/-- The whole of an entry in the order of section 11.3; what is absent is left out (R18, R181). -/
def stationAnswer (i : Index) (e : Entry) : List Byte :=
  [byte i.val, byte e.seg.val, byte e.addr, byte e.ports, byte e.pollClass.code, byte e.state.code,
    byte e.misses, byte e.silentFails, byte (bit e.toggle), byte e.sync.code, byte (bit e.attention),
    byte e.origin.code] ++ bytes2 e.goodReplies ++ [presenceByte e]
    ++ e.lastStatus.toList ++ e.identity.getD []

/-- R18. A RETIRING entry is answered. -/
def rulingQueryStation (a : Nat) (g : Seg) (s : State) : Ruling :=
  if !validAddr a then refuse .badValue s
  else
    match entryAt s g a with
    | none => refuse .noStation s
    | some (i, e) => ⟨s, .ok, stationAnswer i e⟩

/-- QUERY_STATION (R18). -/
def execQueryStation (f : HostFrame) (s : State) : Result :=
  exactRequest 2 f (withSegment (bodyByte f 0) (rulingQueryStation (bodyByte f 1))) s

/-- The entries of a segment at or above an address, in ascending order of address, at most 16 (R19). -/
def listedEntries (s : State) (g : Seg) (start : Nat) : List (Index × Entry) :=
  (((List.range 127).filter fun a => decide (start ≤ a)).filterMap fun a => entryAt s g a).take 16

/-- R19. -/
def rulingListStations (start : Nat) (g : Seg) (s : State) : Ruling :=
  if !validAddr start then refuse .badValue s
  else
    ⟨s, .ok, (listedEntries s g start).flatMap fun p => [byte p.1.val, byte p.2.addr, listByte p.2]⟩

/-- LIST_STATIONS (R19). -/
def execListStations (f : HostFrame) (s : State) : Result :=
  exactRequest 2 f (withSegment (bodyByte f 0) (rulingListStations (bodyByte f 1))) s

end Sys2Proof.Machine
end

