-- ==== Sys2Proof/Machine/DiscoveryCommands.lean ====
section
/-! DEFINITION. The requests on a discovery unit: DISCOVER, STOP_DISCOVERY, ADMIT, REFUSE (sections 6.2 and
6.4). -/

namespace Sys2Proof.Machine

/-! ## DISCOVER -/

/-- The unit with a new run over a range (R112). A probe mark left from an earlier run is kept. -/
def newRun (low high : Nat) (u : Discovery) : Discovery :=
  { u with low := low, high := high, cursor := low, counts := RunCounts.zero, record := none }

/-- The checks of R112 in their order, then the run. -/
def rulingDiscover (low high : Nat) (g : Seg) (s : State) : Ruling :=
  if !(decide (1 ≤ low) && decide (low ≤ high) && decide (high ≤ 126)) then refuse .badValue s
  else if (s.seg g).disc.state ≠ .idle then refuse .busy s
  else if queuePlaces ≤ s.queue.reports.length + s.queue.reservations then refuse .noReportRoom s
  else ⟨lookAndPick g (beginProbing g (s.updDisc g (newRun low high))), .ok, []⟩

/-- DISCOVER (R112). -/
def execDiscover (f : HostFrame) (s : State) : Result :=
  exactRequest 3 f (withSegment (bodyByte f 0) (rulingDiscover (bodyByte f 1) (bodyByte f 2))) s

/-! ## STOP_DISCOVERY -/

/-- A probe in flight becomes void with cause STOPPED, whatever its cause was (R115). -/
def stopProbe (u : Discovery) : Discovery :=
  { u with mark := u.mark.map fun m => { m with void := .stopped } }

/-- R124, by the unit's state. -/
def stopUnit (g : Seg) (s : State) : State :=
  if (s.seg g).disc.state = .probing then
    serveWaitRoom ((releaseReservation s).updDisc g fun u => (stopProbe u).idleKeepingMark)
  else s.updDisc g Discovery.idleKeepingMark

/-- R124: the answer carries the old state and the six counts. -/
def rulingStopDiscovery (g : Seg) (s : State) : Ruling :=
  if (s.seg g).disc.state = .idle then refuse .wrongState s
  else
    ⟨stopUnit g s, .ok, byte (s.seg g).disc.state.code :: (s.seg g).disc.counts.bytes⟩

/-- STOP_DISCOVERY (R124). -/
def execStopDiscovery (f : HostFrame) (s : State) : Result :=
  exactRequest 1 f (withSegment (bodyByte f 0) rulingStopDiscovery) s

/-! ## ADMIT -/

/-- An entry as ADMIT makes it (R2): with its identity ONLINE, SYNCED and with toggle 1, and without it
ENLISTED, UNSYNCED and with toggle 0. -/
def admittedEntry (g : Seg) (a ports : Nat) (cls : PollClass) (identity : Option (List Byte)) : Entry :=
  { addedEntry g a ports cls with
    state := if identity.isSome then .online else .enlisted
    sync := if identity.isSome then .synced else .unsynced
    toggle := identity.isSome
    identity := identity
    origin := .admitted }

/-- The four steps of R122. The hold's end clears the record with its timer, and the unit resumes. -/
def admitEntry (g : Seg) (i : Index) (e : Entry) (s : State) : State :=
  resumeDisc g <| (s.setEntry i (some e)).updDisc g fun u =>
    { u with counts := { u.counts with admitted := u.counts.admitted + 1 } }

/-- The segment's admission record, if it is for this address (R122, R123). -/
def recordFor (s : State) (g : Seg) (a : Nat) : Option Admission :=
  (s.seg g).disc.record.filter fun r => r.addr == a

/-- The checks of R122 in their order, then its steps. -/
def rulingAdmit (a ports : Nat) (cls : Nat) (g : Seg) (s : State) : Ruling :=
  match PollClass.ofCode cls with
  | none => refuse .badValue s
  | some cls =>
    if !validAddr a || !validPorts ports then refuse .badValue s
    else if (findEntry s g a).isSome then refuse .addressInUse s
    else
      match recordFor s g a with
      | none => refuse .noAdmission s
      | some r =>
        match lowestFreeIndex s with
        | none => refuse .tableFull s
        | some i =>
          let e := admittedEntry g a ports cls r.identity
          ⟨admitEntry g i e s, .ok, [byte i.val, byte e.state.code]⟩

/-- ADMIT (R122). -/
def execAdmit (f : HostFrame) (s : State) : Result :=
  exactRequest 4 f
    (withSegment (bodyByte f 0) (rulingAdmit (bodyByte f 1) (bodyByte f 2) (bodyByte f 3))) s

/-! ## REFUSE -/

/-- The find is dropped and the unit resumes (R123). -/
def dropFind (g : Seg) (s : State) : State :=
  resumeDisc g <| s.updDisc g fun u => { u with counts := { u.counts with refused := u.counts.refused + 1 } }

/-- R123. -/
def rulingRefuse (a : Nat) (g : Seg) (s : State) : Ruling :=
  if !validAddr a then refuse .badValue s
  else
    match recordFor s g a with
    | none => refuse .noAdmission s
    | some _ => ⟨dropFind g s, .ok, []⟩

/-- REFUSE (R123). -/
def execRefuse (f : HostFrame) (s : State) : Result :=
  exactRequest 2 f (withSegment (bodyByte f 0) (rulingRefuse (bodyByte f 1))) s

end Sys2Proof.Machine
end

