-- ==== Sys2Proof/Machine/JobCommands.lean ====
section
/-! DEFINITION. The requests on jobs: SUBMIT, CANCEL, QUERY_JOB (sections 2.3 and 2.7). -/

namespace Sys2Proof.Machine

/-! ## SUBMIT -/

/-- The request bytes of a SUBMIT: the body after its 8 fixed bytes (R183). -/
def requestBytes (f : HostFrame) : List Byte := f.body.drop 8

/-- The number of request bytes suits the kind (R28, second check). -/
def requestLengthOk (k : JobKind) (n : Nat) : Bool :=
  match k with
  | .read => within 0 16 n
  | .write => within 1 64 n
  | .status => n == 0
  | .broadcast => within 1 64 n

/-- The address suits the kind (R28, second check): 0 for a broadcast alone, at most 126 for the others. -/
def jobAddrOk (k : JobKind) (a : Nat) : Bool :=
  match k with
  | .broadcast => a == 0
  | _ => validAddr a

/-- The deadline presence byte and deadline read as a deadline, or `none` where R183 refuses them. -/
def readDeadline (presence ms : Nat) : Option (Option Nat) :=
  if presence = 0 then some none
  else if presence = 1 ∧ ms ≠ 0 then some (some ms)
  else none

/-- The kind, lane and deadline of a SUBMIT body, if its second check of R28 passes. -/
def readSubmit (f : HostFrame) : Option (JobKind × Lane × Option Nat) :=
  match JobKind.ofCode (bodyByte f 3), Lane.ofCode (bodyByte f 4),
      readDeadline (bodyByte f 5) (bodyWord f 6) with
  | some k, some l, some d =>
    if requestLengthOk k (requestBytes f).length && jobAddrOk k (bodyByte f 1) then some (k, l, d) else none
  | _, _, _ => none

/-- Checks 3 to 5 of R28, on the station and the port; `none` if they pass. -/
def stationCheck (s : State) (g : Seg) (k : JobKind) (a port : Nat) : Option AnsOutcome :=
  if k = .broadcast then (if port ≠ 0 then some .badPort else none)
  else
    match workingEntryAt s g a with
    | none => some .noStation
    | some (_, e) =>
      if e.state = .offline then some .stationOffline
      else if e.ports ≤ port then some .badPort
      else none

/-- The record of a new job (R29). -/
def newJob (f : HostFrame) (g : Seg) (k : JobKind) (l : Lane) (d : Option Nat) : Job where
  tag := f.tag
  seg := g
  addr := bodyByte f 1
  port := bodyByte f 2
  kind := k
  lane := l
  deadline := d
  request := requestBytes f
  state := .queued
  attempts := 0
  busy := 0
  started := false
  cancel := false
  lastFault := none
  deadlineTimer := d.map millis
  backoff := none

/-- Steps 1 to 4 of R29: the reservation, the record, the tail of the lane, the deadline timer. -/
def acceptJob (h : Handle) (j : Job) (s : State) : State :=
  ((takeReservation s).setJob h (some j)).updSeg j.seg (updLane j.lane (· ++ [h]))

/-- R29: the position is the lane's length after the join, and a free segment picks at once. -/
def submitJob (f : HostFrame) (g : Seg) (k : JobKind) (l : Lane) (d : Option Nat) (h : Handle) (s : State) :
    Ruling :=
  ⟨pick g (acceptJob h (newJob f g k l d) s), .ok,
    [byte h.val, byte ((laneOf (s.seg g) l).length + 1)]⟩

/-- The checks of R28 in their order, then R29. -/
def rulingSubmit (f : HostFrame) (g : Seg) (s : State) : Ruling :=
  match readSubmit f with
  | none => refuse .badValue s
  | some (k, l, d) =>
    match stationCheck s g k (bodyByte f 1) (bodyByte f 2) with
    | some o => refuse o s
    | none =>
      if (findTag s f.tag).isSome then refuse .tagInUse s
      else
        match lowestFreeJob s with
        | none => refuse .noJobSlot s
        | some h =>
          if queuePlaces ≤ s.queue.reports.length + s.queue.reservations then refuse .noReportRoom s
          else submitJob f g k l d h s

/-- SUBMIT (R28, R29): its body suits when it holds at least the 8 fixed bytes (R173). -/
def execSubmit (f : HostFrame) (s : State) : Result :=
  .next (takeRequest f
    (answerRequest f (decide (8 ≤ f.body.length)) (withSegment (bodyByte f 0) (rulingSubmit f))) s)

/-! ## CANCEL -/

/-- The job tag in the body of CANCEL and QUERY_JOB. -/
def bodyTag (f : HostFrame) : BitVec 16 := BitVec.ofNat 16 (bodyWord f 0)

/-- R41, on the job that holds the tag. -/
def cancelJob (h : Handle) (j : Job) (s : State) : Ruling :=
  match j.state with
  | .active => ⟨s.updJob h fun j => { j with cancel := true }, .cancelLate, []⟩
  | .queued => ⟨completeJob h .cancelled [] s, .cancelTaken, []⟩
  | .waiting => ⟨completeJob h .cancelled [] s, .cancelTaken, []⟩

/-- R41. -/
def rulingCancel (f : HostFrame) (s : State) : Ruling :=
  if bodyWord f 0 = 0 then refuse .badValue s
  else
    match (findTag s (bodyTag f)).bind fun h => (s.job h).map fun j => (h, j) with
    | none => refuse .notFound s
    | some (h, j) => cancelJob h j s

/-- CANCEL (R41). -/
def execCancel (f : HostFrame) (s : State) : Result := exactRequest 2 f (rulingCancel f) s

/-! ## QUERY_JOB -/

/-- The position of a QUEUED job in its lane, 1 for the head, or 0 (R42). -/
def lanePosition (s : State) (h : Handle) (j : Job) : Nat :=
  if j.state = .queued then (((laneOf (s.seg j.seg) j.lane).findIdx? (· == h)).map (· + 1)).getD 0 else 0

/-- The snapshot of R42 in the order of section 11.3. -/
def jobAnswer (s : State) (h : Handle) (j : Job) : List Byte :=
  [byte h.val, byte j.seg.val, byte j.kind.code, byte j.lane.code, byte j.state.code, byte j.attempts,
    byte j.busy, byte (lanePosition s h j), marksByte j, faultByte j.lastFault]

/-- R42. -/
def rulingQueryJob (f : HostFrame) (s : State) : Ruling :=
  if bodyWord f 0 = 0 then refuse .badValue s
  else
    match (findTag s (bodyTag f)).bind fun h => (s.job h).map fun j => (h, j) with
    | none => refuse .notFound s
    | some (h, j) => ⟨s, .ok, jobAnswer s h j⟩

/-- QUERY_JOB (R42). -/
def execQueryJob (f : HostFrame) (s : State) : Result := exactRequest 2 f (rulingQueryJob f) s

end Sys2Proof.Machine
end

