-- ==== Sys2Proof/Machine/Outcomes.lean ====
section
/-! DEFINITION. What the end of an exchange hands to each owner: toggle and sync (R62), health (R7 to R11),
status and attention (R96 to R99), the job (R34 to R39), the sweep step (R106), the attention follow-up
(R98) and the probe (R114 to R118). -/

namespace Sys2Proof.Machine

/-! ## Toggle and sync -/

/-- R62, on the entry of an exchange that ended. -/
def toggleAfter (form : EndForm) (unanswered : Bool) (e : Entry) : Entry :=
  match form with
  | .reply r => if r.kind = .busy then e else { e with toggle := !e.toggle, sync := .synced }
  | .failed _ => if unanswered then { e with sync := .unsynced } else e
  | .cut _ => if unanswered then { e with sync := .unsynced } else e
  | .sent => e
  | .retired _ => e

/-- Step 1 of R65. -/
def setToggle (x : Exchange) (form : EndForm) (s : State) : State :=
  match x.entry with
  | none => s
  | some i => if retiringEntry s x then s else s.updEntry i (toggleAfter form x.unanswered)

/-! ## Health -/

/-- The outcome class that a form hands to the entry, if it hands one (R7, R64). -/
def outcomeClass : EndForm → Option OutcomeClass
  | .reply _ => some .good
  | .sent => none
  | .failed (.fault k) => if k = .contention then some .neutral else some .failed
  | .failed .jabber => some .neutral
  | .cut _ => some .neutral
  | .retired _ => some .neutral

/-- A GOOD outcome (R8). -/
def goodOutcome (i : Index) (e : Entry) (s : State) : State :=
  let s1 := s.updEntry i fun e =>
    { e with misses := 0, silentFails := 0, goodReplies := satInc e.goodReplies }
  if e.state = .enlisted ∨ e.state = .silent then
    eventReport (.stationState e.seg e.addr e.state .online .contact)
      (s1.updEntry i fun e => { e with state := .online })
  else s1

/-- A FAILED outcome in ENLISTED or ONLINE (R9). -/
def missOutcome (i : Index) (e : Entry) (s : State) : State :=
  if e.misses + 1 = (s.seg e.seg).config.missLimit then
    eventReport (.stationState e.seg e.addr e.state .silent .misses)
      (s.updEntry i fun e => { e with state := .silent, misses := 0, silentFails := 0 })
  else s.updEntry i fun e => { e with misses := e.misses + 1 }

/-- The move to OFFLINE: the report, the station's jobs, the attention list (R10, R43). -/
def goOffline (i : Index) (e : Entry) (s : State) : State :=
  let s1 := eventReport (.stationState e.seg e.addr .silent .offline .silence)
    (s.updEntry i fun e => { e with state := .offline, silentFails := e.silentFails + 1 })
  leaveAttention i (completeJobs (stationJobs s1 e.seg e.addr) .stationOffline s1)

/-- A FAILED outcome in SILENT (R10). -/
def silentOutcome (i : Index) (e : Entry) (s : State) : State :=
  if e.silentFails + 1 = (s.seg e.seg).config.offlineLimit then goOffline i e s
  else s.updEntry i fun e => { e with silentFails := e.silentFails + 1 }

/-- A FAILED outcome, by the entry's state (R9, R10). -/
def failedOutcome (i : Index) (e : Entry) (s : State) : State :=
  match e.state with
  | .enlisted => missOutcome i e s
  | .online => missOutcome i e s
  | .silent => silentOutcome i e s
  | .offline => s
  | .retiring => s

/-- An entry is handed an outcome of a class (R7). NEUTRAL changes nothing (R11). -/
def handClass (i : Index) (cls : OutcomeClass) (s : State) : State :=
  match s.entry i with
  | none => s
  | some e =>
    if e.state = .retiring then s
    else
      match cls with
      | .good => goodOutcome i e s
      | .failed => failedOutcome i e s
      | .neutral => s

/-- Step 2 of R65. -/
def handOutcome (x : Exchange) (form : EndForm) (s : State) : State :=
  match x.entry, outcomeClass form with
  | some i, some cls => handClass i cls s
  | _, _ => s

/-! ## Status replies and attention -/

/-- The entry's mark is set. -/
def markSet (s : State) (i : Index) : Bool :=
  match s.entry i with
  | some e => e.attention
  | none => false

/-- The report of R99's third step. `old` is the last status before the reply. -/
def statusReport (i : Index) (origin : XOrigin) (e : Entry) (r : Reply) (s : State) : State :=
  let status := r.payload.getD 0 0#8
  let told := ReportBody.attention e.seg e.addr status (r.payload.drop 1)
  match origin with
  | .attention => leaveAttention i (eventReport told s)
  | .sweep =>
    if markSet s i then leaveAttention i (eventReport told s)
    else if e.lastStatus = some status then s
    else eventReport (.statusChanged e.seg e.addr e.lastStatus status) s
  | .job _ => leaveAttention i s
  | .probe => s

/-- The status-reply rule (R99): the joining rule first, then the last status, then the report by origin
and mark. -/
def statusRule (i : Index) (origin : XOrigin) (r : Reply) (s : State) : State :=
  match s.entry i with
  | none => s
  | some e =>
    let s1 := if r.attention then joinAttention i s else s
    statusReport i origin e r
      (s1.updEntry i fun e => { e with lastStatus := some (r.payload.getD 0 0#8) })

/-- A valid reply is handed to the status-reply rule if it is a STATUS_REPLY, and to the joining rule
(step 3 of R65, R96). -/
def handReply (i : Index) (origin : XOrigin) (r : Reply) (s : State) : State :=
  if r.kind = .statusReply then statusRule i origin r s
  else if r.attention then joinAttention i s
  else s

/-- Step 3 of R65. An ATTENTION exchange that ended failed takes its entry off the list (R98). -/
def handStatus (x : Exchange) (form : EndForm) (s : State) : State :=
  match x.entry with
  | none => s
  | some i =>
    if retiringEntry s x then s
    else
      match form with
      | .reply r => handReply i x.origin r s
      | .failed _ => if x.origin = .attention then leaveAttention i s else s
      | _ => s

/-! ## The exchange's own job -/

/-- The outcome a valid reply gives a job (R39, R36). A PRESENT or BUSY gives no outcome of its own: the job
of a BUSY that ends here has had its cancel requested. -/
def replyOutcome : ReplyKind → JobOutcome
  | .data => .data
  | .done => .done
  | .statusReply => .status
  | .refuse => .refused
  | .present => .cancelled
  | .busy => .cancelled

/-- The data a valid reply puts in the RESULT (R39). -/
def replyData (r : Reply) : List Byte :=
  match r.kind with
  | .data => r.payload
  | .statusReply => r.payload
  | .refuse => r.payload
  | .done => []
  | .present => []
  | .busy => []

/-- The outcome of a job whose exchange ended failed without a cancel request (R39). -/
def failOutcome : FailClass → JobOutcome
  | .fault .noReply => .noReply
  | .fault .contention => .contention
  | .jabber => .cancelled
  | .fault _ => .replyFault

/-- A BUSY without a cancel request: the job waits, or ends STATION_BUSY at the busy limit (R34). DESIGN CHOICE
(log entry 25): so it does above the limit, where a CONFIGURE_SEGMENT that lowered it can leave its count. -/
def busyJob (g : Seg) (h : Handle) (j : Job) (s : State) : State :=
  if j.busy < (s.seg g).config.busyLimit then
    (s.updJob h fun j =>
      { j with
        busy := j.busy + 1
        state := .waiting
        backoff := some (millis (s.seg g).config.busyBackoff) }).updSeg g
      fun c => { c with waitSet := insertAsc h c.waitSet }
  else completeJob h .stationBusy [] s

/-- A job whose exchange was cut short returns QUEUED to the head of its lane (R35). -/
def returnToLane (g : Seg) (h : Handle) (j : Job) (s : State) : State :=
  (s.updJob h fun j => { j with state := .queued }).updSeg g (updLane j.lane (h :: ·))

/-- A valid reply ends the job of a cancelled or retired exchange (R36), the STATUS_REPLY of a prelude and a
BUSY leaving it CANCELLED. -/
def endByReply (h : Handle) (x : Exchange) (r : Reply) (s : State) : State :=
  if r.kind = .statusReply ∧ x.stage = .prelude then completeJob h .cancelled [] s
  else completeJob h (replyOutcome r.kind) (replyData r) s

/-- The job takes the form of its exchange's end (R34 to R39, R64). -/
def endJob (g : Seg) (h : Handle) (x : Exchange) (form : EndForm) (s : State) : State :=
  match s.job h with
  | none => s
  | some j =>
    match form with
    | .reply r =>
      if r.kind = .busy ∧ j.cancel = false then busyJob g h j s else endByReply h x r s
    | .sent => completeJob h .done [] s
    | .failed c => completeJob h (if j.cancel then .cancelled else failOutcome c) [] s
    | .cut _ => returnToLane g h j s
    | .retired (some r) => endByReply h x r s
    | .retired none => completeJob h .cancelled [] s

/-! ## The sweep step and the attention follow-up -/

/-- A sweep step closes and the sweep looks for its next member, or is kept if it was cut short (R106). -/
def endSweepStep (g : Seg) (x : Exchange) (form : EndForm) (s : State) : State :=
  match form with
  | .cut _ => s.updSweep g fun w => { w with cursor := x.addr - 1 }
  | _ => (lookSweep g s).1

/-- The end of an attention follow-up on the list (R98, R59). A STATUS_REPLY and a failed end have been dealt
with by step 3. -/
def endFollowUp (x : Exchange) (form : EndForm) (s : State) : State :=
  match x.entry, form with
  | some i, .reply r =>
    match r.kind with
    | .busy => attentionToTail i s
    | .refuse => if r.attention then attentionToTail i s else leaveAttention i s
    | _ => s
  | _, _ => s

/-! ## The probe -/

/-- The cursor passes an address (R114). -/
def Discovery.passed (a : Nat) (u : Discovery) : Discovery := { u with cursor := a + 1 }

/-- A find is held (R117): FOUND by the reservation, the admission record with its timer, HELD. -/
def holdFind (g : Seg) (a : Nat) (identity : Option (List Byte)) (s : State) : State :=
  (enterReserved (.found g a identity false) s).updDisc g fun u =>
    { u with
      state := .held
      cursor := a + 1
      counts := { u.counts with probed := u.counts.probed + 1, found := u.counts.found + 1 }
      record := some ⟨a, identity, seconds (s.seg g).config.admissionTimeout⟩ }

/-- An unclear find (R114, R118): FOUND flagged UNCLEAR by the reservation, then resumption (R120). -/
def unclearFind (g : Seg) (a : Nat) (s : State) : State :=
  resumeDisc g <| (enterReserved (.found g a none true) s).updDisc g fun u =>
    { u with
      state := .waitRoom
      cursor := a + 1
      counts := { u.counts with probed := u.counts.probed + 1, unclear := u.counts.unclear + 1 } }

/-- The form of a probe's end, void cause NONE, unit PROBING (the table of R114). -/
def probeOutcome (g : Seg) (a : Nat) (form : EndForm) (s : State) : State :=
  match form with
  | .reply r => holdFind g a (if r.kind = .present then some r.payload else none) s
  | .failed (.fault .noReply) =>
    (lookDisc g (s.updDisc g fun u =>
      { u with cursor := a + 1, counts := { u.counts with probed := u.counts.probed + 1 } })).1
  | .failed (.fault .contention) => (lookDisc g s).1
  | .failed (.fault _) => unclearFind g a s
  | .failed .jabber => s
  | .cut _ => s
  | .sent => s
  | .retired _ => s

/-- The discovery unit takes a probe's outcome (R114), unless it is void (R115). -/
def endProbe (g : Seg) (form : EndForm) (s : State) : State :=
  match (s.seg g).disc.mark with
  | none => s
  | some m =>
    let s1 := s.updDisc g fun u => { u with mark := none }
    if (s.seg g).disc.state ≠ .probing then s1
    else
      match m.void with
      | .none => probeOutcome g m.addr form s1
      | .added => (lookDisc g (s1.updDisc g (Discovery.passed m.addr))).1
      | .stopped => s1

/-- Step 4 of R65: the origin owner takes the form. -/
def handOrigin (g : Seg) (x : Exchange) (form : EndForm) (s : State) : State :=
  match x.origin with
  | .job h => endJob g h x form s
  | .sweep => endSweepStep g x form s
  | .attention => endFollowUp x form s
  | .probe => endProbe g form s

end Sys2Proof.Machine
end

