-- ==== Sys2Proof/Machine/Exchanges.lean ====
section
/-! DEFINITION. The exchange engine: the end of an exchange in its order (R65), the end of an attempt (R58 to
R61), contention (R52, R85 to R87), and the reception of a reply (R54 to R56). -/

namespace Sys2Proof.Machine

/-! ## The end of an exchange -/

/-- The cause code of a SEGMENT_STATE report for a fault (R90). -/
def SegFault.cause : SegFault → SegCause
  | .contention => .contention
  | .jabber => .jabber

/-- Step 5 of R65: a RETIRING entry is freed (R12). -/
def freeRetiring (x : Exchange) (s : State) : State :=
  match x.entry with
  | some i => if retiringEntry s x then s.setEntry i none else s
  | none => s

/-- The segment enters FAULTED; its sweep timer stops (R87, R88, R103) and SEGMENT_STATE is produced (R90). -/
def enterFaulted (g : Seg) (f : SegFault) (s : State) : State :=
  eventReport (.segmentState g (s.seg g).state .faulted f.cause)
    (s.updSeg g fun c => { c with state := .faulted, sweep := { c.sweep with timer := none } })

/-- The drain ends: HALTED with streak 0 and the sweep timer stopped, and SEGMENT_STATE with cause STOPPED
(R77, R85, R103). -/
def endDrain (g : Seg) (s : State) : State :=
  eventReport (.segmentState g .draining .halted .stopped)
    (s.updSeg g fun c => { c with state := .halted, streak := 0, sweep := { c.sweep with timer := none } })

/-- Step 6 of R65: the record is emptied and the segment controller acts. -/
def segmentFreed (g : Seg) (fault : Option SegFault) (s : State) : State :=
  let s := s.updSeg g fun c => { c with exchange := none }
  match fault with
  | some f => enterFaulted g f s
  | none =>
    match (s.seg g).state with
    | .draining => endDrain g s
    | .running => pick g s
    | .halted => s
    | .faulted => s

/-- The end of an exchange in any form but discarded: the six steps of R65. `fault` says that the segment
enters FAULTED at this end. -/
def endExchange (g : Seg) (x : Exchange) (form : EndForm) (fault : Option SegFault) (s : State) : State :=
  segmentFreed g fault <| freeRetiring x <| handOrigin g x form <| handStatus x form <|
    handOutcome x form <| setToggle x form s

/-! ## The end of an attempt -/

/-- The cancel of the exchange's job is requested (R36). -/
def cancelRequested (s : State) (x : Exchange) : Bool :=
  match x.origin with
  | .job h => ((s.job h).map (·.cancel)).getD false
  | _ => false

/-- Another attempt is due (third item of R60). -/
def attemptDue (x : Exchange) (k : FailKind) : Bool :=
  decide (x.attempt < x.limit) && (x.origin != .probe || k.isReplyFault)

/-- The failure is counted in the job (R33). -/
def noteFailure (x : Exchange) (k : FailKind) (s : State) : State :=
  match x.origin with
  | .job h => s.updJob h fun j => { j with lastFault := some k }
  | _ => s

/-- The segment enters FAULTED at this attempt's end: a CONTENTION that has brought the streak to the limit
(R60, R87). -/
def faultOf (c : Column) (k : FailKind) : Option SegFault :=
  if k = .contention ∧ c.streak = c.config.contentionLimit then some .contention else none

/-- A failed attempt with another due (R60): cut short by a fault or a drain, or the next attempt. -/
def attemptAgain (g : Seg) (x : Exchange) (fault : Option SegFault) (s : State) : State :=
  match fault with
  | some f => endExchange g x (.cut .fault) (some f) s
  | none =>
    if (s.seg g).state = .draining then endExchange g x (.cut .drain) none s
    else enterDefer g (s.updX g fun x => { x with counted := false })

/-- A failed attempt with none due (fourth item of R60). -/
def attemptsSpent (g : Seg) (x : Exchange) (k : FailKind) (fault : Option SegFault) (s : State) : State :=
  match fault, x.origin with
  | some f, .sweep => endExchange g x (.cut .fault) (some f) s
  | some f, .attention => endExchange g x (.cut .fault) (some f) s
  | some f, .probe => endExchange g x (.cut .fault) (some f) s
  | fault, _ => endExchange g x (.failed (.fault k)) fault s

/-- An attempt of exchange `x` fails with a kind (R60). -/
def failAttempt (g : Seg) (x : Exchange) (k : FailKind) (s : State) : State :=
  let s := noteFailure x k s
  let fault := faultOf (s.seg g) k
  if retiringEntry s x then endExchange g x (.retired none) fault s
  else if cancelRequested s x then endExchange g x (.failed (.fault k)) fault s
  else if attemptDue x k then attemptAgain g x fault s
  else attemptsSpent g x k fault s

/-- The attempt fails with NO_REPLY and is counted (R54, R56). -/
def failNoReply (g : Seg) (x : Exchange) (s : State) : State :=
  failAttempt g x .noReply (s.count g Counters.incNoReplies)

/-- The attempt fails with a reply fault and is counted (R56). -/
def failReply (g : Seg) (x : Exchange) (k : FailKind) (s : State) : State :=
  failAttempt g x k (s.count g Counters.incReplyFaults)

/-- An echo mismatch in SEND (R52, R146, R147): an abort break begins, the contention is counted in the
counters and the streak, and the attempt fails. -/
def contend (g : Seg) (x : Exchange) (s : State) : State :=
  failAttempt g x .contention <|
    s.updSeg g fun c =>
      { c with
        counters := c.counters.incContentions
        streak := c.streak + 1
        line := { c.line with tx := .brk (breakTime c.config) c.config.polarity, idle := 0 } }

/-! ## Valid replies -/

/-- The record takes stage MAIN for the job's own frame (R61). -/
def Exchange.toMain (j : Job) (toggle : Bool) (x : Exchange) : Exchange :=
  { x with
    stage := .main
    kind := if j.kind = .read then .read else .write
    port := j.port
    toggle := toggle
    resync := false }

/-- The STATUS_REPLY of a prelude, cancel not requested (R61): the reply is handed on at once, the entry is
synced and its toggle flipped, and the same attempt returns to DEFER with the job's own frame. -/
def preludeSuccess (g : Seg) (x : Exchange) (h : Handle) (r : Reply) (s : State) : State :=
  match x.entry, s.job h with
  | some i, some j =>
    let s := (statusRule i x.origin r s).updEntry i fun e =>
      { e with sync := .synced, toggle := !e.toggle }
    let toggle := ((s.entry i).map (·.toggle)).getD false
    enterDefer g (s.updX g (Exchange.toMain j toggle))
  | _, _ => s

/-- The exchange ends with a valid reply, or retired with it (R58, R59, R66). -/
def endWithReply (g : Seg) (x : Exchange) (r : Reply) (s : State) : State :=
  endExchange g x (if retiringEntry s x then .retired (some r) else .reply r) none s

/-- A valid reply ends the attempt (R56, R58, R59, R61). -/
def validReply (g : Seg) (x : Exchange) (r : Reply) (s : State) : State :=
  let s := (s.count g Counters.incValid).updX g fun x => { x with unanswered := false }
  let x := { x with unanswered := false }
  match x.origin with
  | .job h =>
    if x.stage = .prelude ∧ r.kind = .statusReply ∧ cancelRequested s x = false
        ∧ retiringEntry s x = false then preludeSuccess g x h r s
    else endWithReply g x r s
  | _ => endWithReply g x r s

/-- A STALE reply is discarded and the attempt goes back to AWAIT; with no reply time left it fails NO_REPLY
at once (R56). -/
def staleReply (g : Seg) (x : Exchange) (s : State) : State :=
  let s := (s.count g Counters.incStale).updX g fun x =>
    { x with phase := .await, received := [], gapTimer := none }
  if x.replyLeft = 0 then failNoReply g x s else s

/-- A complete reply is classified (R56, R136, R137). -/
def evaluate (g : Seg) (x : Exchange) (chars : List Byte) (s : State) : State :=
  match classify x.addr x.kind x.toggle chars with
  | .valid r => validReply g x r s
  | .stale => staleReply g x s
  | .fault k => failReply g x k s

/-! ## Received items -/

/-- The character gap timer as it is started at the completion of a character: the limit from the
character's end, half a bit time on (R55, R144). -/
def gapFromCompletion (c : SegConfig) : Time := gapTime c + halfBit c

/-- A reply's SOF in AWAIT (R54, R134): the reply timer stops with its time left, and RECV begins. -/
def replySof (g : Seg) (s : State) : State :=
  s.updX g fun x =>
    { x with
      phase := .recv
      received := []
      gapTimer := some (gapFromCompletion (s.seg g).config) }

/-- An item in RECV (R55, R135). -/
def receiveInReply (g : Seg) (x : Exchange) (item : Item) (s : State) : State :=
  match assemble x.received item with
  | .more now =>
    s.updX g fun x =>
      { x with received := now, gapTimer := some (gapFromCompletion (s.seg g).config) }
  | .complete now => evaluate g x now s
  | .fault k => failReply g x k s

/-- An item with no attempt ready for it: a stray character, or a break seen (R145). -/
def strayItem (g : Seg) (item : Item) (s : State) : State :=
  match item with
  | .good _ => s.count g Counters.incStray
  | .erroneous _ => s.count g Counters.incStray
  | .brk => s.count g Counters.incBreaks

/-- The echo check of a frame's characters (R146). With every echo matched there is no character left to
judge. -/
def echoCheck (g : Seg) (item : Item) (chars : List Byte) (echoed : Nat) (left : Time) (s : State) : State :=
  match chars[echoed]? with
  | none => s
  | some sent =>
    if item = .good sent then s.updLine g fun l => { l with tx := .frame chars (echoed + 1) left }
    else
      match (s.seg g).exchange with
      | some x => contend g x s
      | none => s

/-- The destination of an item with the transmitter QUIET (R145). -/
def itemWhenQuiet (g : Seg) (item : Item) (s : State) : State :=
  match (s.seg g).exchange with
  | none => strayItem g item s
  | some x =>
    match x.phase with
    | .await => if item = .good sofChar then replySof g s else strayItem g item s
    | .recv => receiveInReply g x item s
    | .defer => strayItem g item s
    | .send => strayItem g item s
    | .turn => strayItem g item s

/-- A completed item is handed to its one destination (the table of R145). -/
def handItem (g : Seg) (item : Item) (s : State) : State :=
  match (s.seg g).line.tx with
  | .frame chars echoed left => echoCheck g item chars echoed left s
  | .brk _ _ => s
  | .guard _ => strayItem g item s
  | .quiet => itemWhenQuiet g item s

/-! ## The end of the guard -/

/-- DIR is released (R53, R143): the transmitter is QUIET and its line begins to be idle. A broadcast exchange
ends with its frame sent, and any other attempt goes to AWAIT with the reply timer started. -/
def releaseDir (g : Seg) (s : State) : State :=
  let s := s.updLine g fun l => { l with tx := .quiet, idle := 0 }
  match (s.seg g).exchange with
  | none => s
  | some x =>
    if x.phase = .turn then
      if x.addr = 0 then endExchange g x .sent none s
      else s.updX g fun x => { x with phase := .await, replyLeft := millis (s.seg g).config.replyTimeout }
    else s

/-- A probe's jabber is cut short, as is every other origin's, unless the entry is RETIRING or the job's
cancel is requested (R57). -/
def jabberForm (s : State) (x : Exchange) : EndForm :=
  if retiringEntry s x then .retired none
  else if cancelRequested s x then .failed .jabber
  else .cut .fault

end Sys2Proof.Machine
end

