-- ==== Sys2Proof/Machine/TimerCommands.lean ====
section
/-! DEFINITION. The expiries of the part's own timers. Each takes the time that was left on its timer, and
changes nothing where that timer is not running (log entries 3 and 4). -/

namespace Sys2Proof.Machine

/-- DEADLINE_EXPIRY: a QUEUED job that was never started ends EXPIRED (R31). -/
def execDeadlineExpiry (h : Handle) (s : State) : Result :=
  whileLive (fun s =>
    match (s.job h).bind (·.deadlineTimer) with
    | none => s
    | some left => completeJob h .expired [] (s.elapse left)) s

/-- A job leaves the waiting set with attempts 0 for the head of its lane, and a free segment picks (R27,
R82). -/
def endBackoff (h : Handle) (j : Job) (s : State) : State :=
  pick j.seg <|
    (s.updJob h fun j => { j with state := .queued, attempts := 0, backoff := none }).updSeg j.seg fun c =>
      updLane j.lane (h :: ·) { c with waitSet := c.waitSet.filter (· != h) }

/-- BACKOFF_EXPIRY (R27). -/
def execBackoffExpiry (h : Handle) (s : State) : Result :=
  whileLive (fun s =>
    match s.job h with
    | none => s
    | some j =>
      match j.backoff with
      | none => s
      | some left => endBackoff h j (s.elapse left)) s

/-- The exchange of a segment, if its attempt is in a phase. -/
def exchangeIn (s : State) (g : Seg) (p : Phase) : Option Exchange :=
  (s.seg g).exchange.filter fun x => x.phase == p

/-- SETTLE_GAP_REACHED: an attempt in DEFER on a line that is not active goes to SEND (R149). -/
def execSettleGapReached (g : Seg) (s : State) : Result :=
  whileLive (fun s =>
    match exchangeIn s g .defer, (s.seg g).line.untilSettled (s.seg g).config with
    | some _, some left => enterSend g (s.elapse left)
    | _, _ => s) s

/-- The reply timer's expiry in AWAIT, after its time has passed (R54). -/
def expireReply (g : Seg) (s : State) : State :=
  match (s.seg g).exchange with
  | some x => failNoReply g x s
  | none => s

/-- REPLY_TIMER_EXPIRY (R54). -/
def execReplyTimerExpiry (g : Seg) (s : State) : Result :=
  whileLive (fun s =>
    match exchangeIn s g .await with
    | some x => expireReply g (s.elapse x.replyLeft)
    | none => s) s

/-- The character gap timer's expiry in RECV: the reply fault BROKEN (R55, R56). -/
def expireGap (g : Seg) (s : State) : State :=
  match (s.seg g).exchange with
  | some x => failReply g x .broken s
  | none => s

/-- CHARACTER_GAP_EXPIRY (R55). -/
def execCharacterGapExpiry (g : Seg) (s : State) : Result :=
  whileLive (fun s =>
    match (exchangeIn s g .recv).bind (·.gapTimer) with
    | some left => expireGap g (s.elapse left)
    | none => s) s

/-- The defer timer's expiry (R57, R88): the attempt ends without sending, and the segment enters FAULTED
with cause JABBER. -/
def expireDefer (g : Seg) (s : State) : State :=
  match (s.seg g).exchange with
  | some x =>
    endExchange g x (jabberForm s x) (some .jabber) (s.updLine g fun l => { l with deferTimer := none })
  | none => s

/-- DEFER_TIMER_EXPIRY (R150). -/
def execDeferTimerExpiry (g : Seg) (s : State) : Result :=
  whileLive (fun s =>
    match exchangeIn s g .defer, (s.seg g).line.deferTimer with
    | some _, some left => expireDefer g (s.elapse left)
    | _, _ => s) s

/-- R104, with the timer restarted: a pass begins and looks, a repeat falls due, or an overrun is counted. -/
def sweepDue (g : Seg) (s : State) : State :=
  let w := (s.seg g).sweep
  if w.active then
    if w.repeatDue then s.count g Counters.incOverruns
    else s.updSweep g fun w => { w with repeatDue := true }
  else
    let s1 := s.updSweep g fun w => { w with active := true, cursor := 0, repeatDue := false }
    match (lookSweep g s1).2 with
    | some _ => pick g (lookSweep g s1).1
    | none => (lookSweep g s1).1

/-- The sweep timer is started with the full period, unless it is 0 (R103). -/
def restartSweepTimer (g : Seg) (s : State) : State :=
  s.updSeg g fun c =>
    { c with sweep := { c.sweep with
      timer := if c.config.sweepPeriod = 0 then none else some (millis c.config.sweepPeriod) } }

/-- SWEEP_TIMER_EXPIRY (R103, R104). -/
def execSweepTimerExpiry (g : Seg) (s : State) : Result :=
  whileLive (fun s =>
    match (s.seg g).sweep.timer with
    | some left => sweepDue g (restartSweepTimer g (s.elapse left))
    | none => s) s

/-- A held find lapses and the unit resumes (R119, R120). -/
def lapseFind (g : Seg) (s : State) : State :=
  resumeDisc g <| s.updDisc g fun u => { u with counts := { u.counts with lapsed := u.counts.lapsed + 1 } }

/-- ADMISSION_TIMER_EXPIRY (R119). -/
def execAdmissionTimerExpiry (g : Seg) (s : State) : Result :=
  whileLive (fun s =>
    match (s.seg g).disc.record with
    | some r => lapseFind g (s.elapse r.timer)
    | none => s) s

/-- RE_EDGE_INTERVAL_END: the interval becomes idle (R163); ATTN follows the queue (R162). -/
def execReEdgeIntervalEnd (s : State) : Result :=
  whileLive (fun s =>
    match s.queue.reEdge with
    | some left => (s.elapse left).updQueue fun q => { q with reEdge := none }
    | none => s) s

end Sys2Proof.Machine
end

