-- ==== Sys2Proof/Machine/LineCommands.lean ====
section
/-! DEFINITION. The happenings at a line unit: RECEIVED_ITEM, FRAME_SENT_WHOLE, GUARD_END, ABORT_BREAK_END,
CHARACTER_SENT_WITHOUT_ECHO, START_BIT_CONFIRMED, LINE_RETURN_TO_MARK (chapter 8). -/

namespace Sys2Proof.Machine

/-- RECEIVED_ITEM (R144, R145): the item is line activity to the end of its character, and goes to its one
destination. While the line stays at space the receiver forms no further item (R144). -/
def execReceivedItem (wait : Time) (g : Seg) (item : Item) (spaceAtEnd : Bool) (s : State) : Result :=
  whileLive (fun s =>
    let s := s.elapse wait
    if (s.seg g).line.rx = .atSpace then s
    else handItem g item (s.updSeg g fun c => { c with line := c.line.completed c.config item spaceAtEnd })) s

/-- The frame has been sent whole (R51): counted, streak 0, unanswered send yes, TURN; the transmitter holds
the guard (R142, R143). -/
def sentWhole (g : Seg) (s : State) : State :=
  s.updSeg g fun c =>
    { c with
      counters := c.counters.incFramesSent
      streak := 0
      exchange := c.exchange.map fun x => { x with phase := .turn, unanswered := true }
      line := { c.line with tx := .guard (guardTime c.config) } }

/-- FRAME_SENT_WHOLE: the last stop bit ends with every echo matched (R142). With a guard of 0 DIR is released
in the same step (R143). -/
def execFrameSentWhole (g : Seg) (s : State) : Result :=
  whileLive (fun s =>
    match (s.seg g).line.tx with
    | .frame chars echoed left =>
      if echoed = chars.length then
        let s1 := sentWhole g (s.elapse left)
        if (s.seg g).config.guardBits = 0 then releaseDir g s1 else s1
      else s
    | _ => s) s

/-- GUARD_END (R143, R53). -/
def execGuardEnd (g : Seg) (s : State) : Result :=
  whileLive (fun s =>
    match (s.seg g).line.tx with
    | .guard left => releaseDir g (s.elapse left)
    | _ => s) s

/-- The break is over (R147, R149, R150): DIR is released and the idle time begins at 0; an attempt waiting in
DEFER has its defer timer started; a free segment picks. -/
def breakOver (g : Seg) (s : State) : State :=
  let s1 := s.updSeg g fun c =>
    { c with line := { c.line with
      tx := .quiet
      idle := 0
      deferTimer := if c.exchange.isSome then some (millis c.config.deferLimit) else none } }
  pick g s1

/-- ABORT_BREAK_END (R147). -/
def execAbortBreakEnd (g : Seg) (s : State) : Result :=
  whileLive (fun s =>
    match (s.seg g).line.tx with
    | .brk left _ => breakOver g (s.elapse left)
    | _ => s) s

/-- An echo check without an item: a mismatch (R146). -/
def missEcho (g : Seg) (s : State) : State :=
  match (s.seg g).exchange with
  | some x => contend g x s
  | none => s

/-- CHARACTER_SENT_WITHOUT_ECHO: the character whose echo is awaited ends with no item completed during it
(R146). -/
def execCharacterSentWithoutEcho (g : Seg) (s : State) : Result :=
  whileLive (fun s =>
    match (s.seg g).line.tx with
    | .frame chars echoed left =>
      if echoed < chars.length then
        missEcho g (s.elapse (untilCharEnd (s.seg g).config chars.length echoed left))
      else s
    | _ => s) s

/-- A start bit that fell half a bit time ago is confirmed: a character is in progress, in the format in force at
the fall, the idle time is 0 and the character gap timer stops (R140, R144, R148, R55). DESIGN CHOICE (log entry
23): the idle time and the gap timer run up to the confirmation. -/
def confirmStart (g : Seg) (half : Time) (s : State) : State :=
  (s.updSeg g fun c => { c with line := { c.line with rx := .inChar half, idle := 0 } }).updX g
    fun x => { x with gapTimer := none }

/-- START_BIT_CONFIRMED (R144). The receiver looks for no start bit in a character or at space, and confirms one
at its middle alone. -/
def execStartBitConfirmed (start : StartBit) (g : Seg) (s : State) : Result :=
  whileLive (fun s =>
    let s := s.elapse start.wait
    let c := s.seg g
    if c.line.looksForStart ∧ c.line.sampledNow c.config start.since then confirmStart g start.since s else s) s

/-- LINE_RETURN_TO_MARK: the receiver may look for a start bit again, and the idle time begins from 0
(R144, R148). -/
def execLineReturnToMark (wait : Time) (g : Seg) (s : State) : Result :=
  whileLive (fun s =>
    let s := s.elapse wait
    if (s.seg g).line.rx = .atSpace then s.updLine g fun l => { l with rx := .waiting, idle := 0 } else s) s

end Sys2Proof.Machine
end

