-- ==== Sys2Proof/Machine/LinkCommands.lean ====
section
/-! DEFINITION. The host link's commands: CSN_FALL, HOST_FRAME_IGNORED, UNKNOWN_REQUEST, NOP, SYNC, RESTART,
QUERY_DEVICE (chapter 10). -/

namespace Sys2Proof.Machine

/-- The window that a fall of CSN opens (R168, R169). -/
def openWindow (s : State) : Window :=
  if s.rstnLow then .noWindow
  else if s.link.gap < windowGap then .ignored
  else .serving (buildPartFrame s)

/-- CSN_FALL: with CSN high, a window opens and its part frame is built from the state at that moment
(R169), or the window is ignored for its early fall (R168). -/
def execCsnFall (wait : Time) (s : State) : Result :=
  let s := s.elapse wait
  .next (if s.link.window = .closed then s.updLink fun l => { l with window := openWindow s } else s)

/-- The counter of the check that a frame fails (R171, R172). -/
def countIgnored (clocked : List Byte) (s : State) : State :=
  match judge clocked with
  | .truncated => countTruncated s
  | .malformed => countMalformed s
  | .crcFault => countCrcFault s
  | .whole .. => s

/-- HOST_FRAME_IGNORED (R171): the whole bytes of what was clocked in are judged (R167). -/
def execHostFrameIgnored (wait : Time) (bits : List Bool) (s : State) : Result :=
  .next (atCsnRise wait (countIgnored (bytesOfBits bits)) s)

/-- UNKNOWN_REQUEST (R173, steps 3 and 4). A code that names a request is none of this command's frames and
changes nothing but the window (log entry 4). -/
def execUnknownRequest (code : Byte) (f : HostFrame) (s : State) : Result :=
  if requestCodes.contains code then .next (atCsnRise f.wait id s)
  else
    .next (takeRequest f (fun s =>
      if slotTag s = some f.tag then countRepeat s else setSlot f.tag .unknownRequest [] s) s)

/-- NOP (R176): the frame is taken and its acknowledgement applied, whatever its tag and body. -/
def execNop (f : HostFrame) (s : State) : Result :=
  .next (atCsnRise f.wait
    (fun s => if 80 < f.body.length then countMalformed s else takeFrame f s) s)

/-- SYNC's answer: the tag and outcome the slot held, or 0 and 0 (R177). -/
def rulingSync (s : State) : Ruling :=
  match s.link.slot with
  | none => ⟨s, .ok, [0#8, 0#8, 0#8]⟩
  | some a => ⟨s, .ok, bytes2 a.tag.toNat ++ [byte a.outcome.code]⟩

/-- SYNC (R177). -/
def execSync (f : HostFrame) (s : State) : Result := exactRequest 0 f rulingSync s

/-- A RESTART that is no repeat (R178): a bad option is answered; a good one restarts the part and leaves the
slot empty. -/
def dealRestart (f : HostFrame) (s : State) : State :=
  if slotTag s = some f.tag then countRepeat s
  else if f.body.length ≠ 1 then setSlot f.tag .badLength [] s
  else if bodyByte f 0 = 1 then restartPart false s
  else if bodyByte f 0 = 2 then restartPart true s
  else setSlot f.tag .badValue [] s

/-- RESTART (R178). -/
def execRestart (f : HostFrame) (s : State) : Result := .next (takeRequest f (dealRestart f) s)

/-- The counts that QUERY_DEVICE answers, in the order of R179. -/
def deviceCounts (s : State) : List Byte :=
  [hardwareRevision, byte (liveJobs s), byte s.queue.reports.length, byte s.queue.reservations,
    byte (entriesUsed s)]
  ++ bytes2 s.queue.lostEvents ++ bytes2 s.link.taken ++ bytes2 s.link.crcFaults
  ++ bytes2 s.link.truncated ++ bytes2 s.link.malformed ++ bytes2 s.link.repeats

/-- CLEAR: the lost-events count and the five link counters are set to 0 (R179). -/
def clearDevice (s : State) : State :=
  (s.updQueue fun q => { q with lostEvents := 0 }).updLink fun l =>
    { l with taken := 0, crcFaults := 0, truncated := 0, malformed := 0, repeats := 0 }

/-- R179. -/
def rulingQueryDevice (f : HostFrame) (s : State) : Ruling :=
  match bodyByte f 0 with
  | 0 => ⟨s, .ok, deviceCounts s⟩
  | 1 => ⟨clearDevice s, .ok, deviceCounts s⟩
  | _ => refuse .badValue s

/-- QUERY_DEVICE (R179). -/
def execQueryDevice (f : HostFrame) (s : State) : Result := exactRequest 1 f (rulingQueryDevice f) s

end Sys2Proof.Machine
end

