-- ==== Sys2Proof/Machine/PinCommands.lean ====
section
/-! DEFINITION. The reset pin: RSTN_FALL and RSTN_RELEASE (R151, R168, R184). -/

namespace Sys2Proof.Machine

/-- The window when RSTN falls: an open one ends and CSN stays low without a window (R168). -/
def Window.cutByReset : Window → Window
  | .closed => .closed
  | .serving _ => .noWindow
  | .ignored => .noWindow
  | .noWindow => .noWindow

/-- A column while RSTN is held low: its exchange is discarded (R71), its line unit stopped (R151) and its
sweep timer stopped (R103). -/
def Column.held (c : Column) : Column :=
  { c with exchange := none, line := c.line.held, sweep := { c.sweep with timer := none } }

/-- The part goes into reset. What its blocks hold is reset at the release (R184). -/
def holdInReset (s : State) : State :=
  { s with
    rstnLow := true
    segs := mapStore Column.held s.segs
    link := { s.link with window := s.link.window.cutByReset } }

/-- RSTN_FALL: a low level of at least 1 µs puts the part in reset, a shorter one is ignored and only time
passes (R184). -/
def execRstnFall (wait held : Time) (s : State) : Result :=
  if held < resetHold then .next ((s.elapse wait).elapse held)
  else .next (holdInReset (s.elapse wait))

/-- The cold start at the release of RSTN (R184): the state of State.reset, with the commands waiting kept,
and no window until CSN has risen if it is low (R168). -/
def pinStart (s : State) : State :=
  { State.reset with
    pending := s.pending
    link := { Link.reset with window := s.link.window.cutByReset } }

/-- RSTN_RELEASE (R184). With RSTN high there is nothing to release. -/
def execRstnRelease (wait : Time) (s : State) : Result :=
  .next (if s.rstnLow then pinStart s else s.elapse wait)

end Sys2Proof.Machine
end

