-- ==== Sys2Proof/Machine/SegmentCommands.lean ====
section
/-! DEFINITION. The requests on a segment: CONFIGURE_SEGMENT, START, STOP, RESUME, RESET_SEGMENT,
QUERY_SEGMENT, QUERY_COUNTERS (chapter 4). -/

namespace Sys2Proof.Machine

/-! ## CONFIGURE_SEGMENT -/

/-- The misses and silent fails of a segment's entry are set to 0 (R23). -/
def clearHealth (g : Seg) (e : Entry) : Entry :=
  if e.seg = g then { e with misses := 0, silentFails := 0 } else e

/-- The record is replaced whole (R81). A character that has begun keeps its format (R140). -/
def Column.configured (c : SegConfig) (k : Column) : Column :=
  { k with config := c, line := k.line.reconfigured k.config }

/-- A taken CONFIGURE_SEGMENT: the record is replaced and the counts of the segment's entries are cleared (R81,
R23). -/
def configure (g : Seg) (c : SegConfig) (s : State) : State :=
  { s.updSeg g (Column.configured c) with table := mapStore (Option.map (clearHealth g)) s.table }

/-- The checks of R80 in their order, then R81. -/
def rulingConfigure (f : HostFrame) (g : Seg) (s : State) : Ruling :=
  if (s.seg g).state ≠ .halted then refuse .segmentActive s
  else
    match firstOutside (offeredFields f.body) with
    | some n => ⟨s, .badValue, [byte n]⟩
    | none =>
      if deferAboveSettle (configOfBody f.body) then ⟨configure g (configOfBody f.body) s, .ok, []⟩
      else ⟨s, .badValue, [byte 16]⟩

/-- CONFIGURE_SEGMENT (R80, R81). -/
def execConfigureSegment (f : HostFrame) (s : State) : Result :=
  exactRequest 22 f (withSegment (bodyByte f 0) (rulingConfigure f)) s

/-! ## START, STOP, RESUME -/

/-- The answer that carries a change of state: old and new. -/
def stateChange (old new : SegState) (s : State) : Ruling := ⟨s, .ok, [byte old.code, byte new.code]⟩

/-- The segment becomes RUNNING and its sweep timer is started with the full period, if it is not 0
(R74, R76, R103). -/
def makeRunning (c : Column) : Column :=
  { c with
    state := .running
    sweep := { c.sweep with
      timer := if c.config.sweepPeriod = 0 then none else some (millis c.config.sweepPeriod) } }

/-- R74. From HALTED the segment is free and picks at once. -/
def rulingStart (g : Seg) (s : State) : Ruling :=
  match (s.seg g).state with
  | .halted => stateChange .halted .running (pick g (s.updSeg g makeRunning))
  | .running => stateChange .running .running s
  | .draining => stateChange .draining .running (s.updSeg g fun c => { c with state := .running })
  | .faulted => ⟨s, .wrongState, [byte SegState.faulted.code]⟩

/-- START (R74). -/
def execStart (f : HostFrame) (s : State) : Result :=
  exactRequest 1 f (withSegment (bodyByte f 0) rulingStart) s

/-- The segment becomes HALTED by STOP: streak 0 and the sweep timer stopped (R75, R85, R103). -/
def makeHalted (c : Column) : Column :=
  { c with state := .halted, streak := 0, sweep := { c.sweep with timer := none } }

/-- R75. -/
def rulingStop (g : Seg) (s : State) : Ruling :=
  match (s.seg g).state with
  | .halted => stateChange .halted .halted s
  | .running =>
    if (s.seg g).exchange.isSome then
      stateChange .running .draining (s.updSeg g fun c => { c with state := .draining })
    else stateChange .running .halted (s.updSeg g makeHalted)
  | .draining => stateChange .draining .draining s
  | .faulted => stateChange .faulted .halted (s.updSeg g makeHalted)

/-- STOP (R75). -/
def execStop (f : HostFrame) (s : State) : Result :=
  exactRequest 1 f (withSegment (bodyByte f 0) rulingStop) s

/-- R76: in FAULTED the segment becomes RUNNING with streak 0 and picks; in any other state it is refused. -/
def rulingResume (g : Seg) (s : State) : Ruling :=
  if (s.seg g).state = .faulted then
    stateChange .faulted .running (pick g (s.updSeg g fun c => { makeRunning c with streak := 0 }))
  else ⟨s, .wrongState, [byte (s.seg g).state.code]⟩

/-- RESUME (R76). -/
def execResume (f : HostFrame) (s : State) : Result :=
  exactRequest 1 f (withSegment (bodyByte f 0) rulingResume) s

/-! ## RESET_SEGMENT -/

/-- The handle of the job that the segment's exchange carries. -/
def activeJob (c : Column) : List Handle :=
  match c.exchange with
  | some x =>
    match x.origin with
    | .job h => [h]
    | _ => []
  | none => []

/-- The live jobs of a segment in the order of R45. -/
def abortOrder (s : State) (g : Seg) : List Handle :=
  (activeJob (s.seg g) ++ (s.seg g).urgent ++ (s.seg g).normal ++ (s.seg g).waitSet).filter
    fun h => (s.job h).isSome

/-- An entry under RESET_SEGMENT of segment `g` (R22). -/
def resetEntry (g : Seg) (e : Entry) : Option Entry := if e.seg = g then warmEntry e else some e

/-- Step 5 of R78: the unit becomes IDLE with no run, record or mark, and a reservation held in PROBING is
released (R126). -/
def resetDisc (g : Seg) (s : State) : State :=
  if (s.seg g).disc.state = .probing then
    serveWaitRoom ((releaseReservation s).updDisc g fun _ => Discovery.reset)
  else s.updDisc g fun _ => Discovery.reset

/-- Steps 1 to 4 of R78: the exchange is discarded and the line unit acts (R70, R152); the jobs end ABORTED
(R45); the entries are reset (R22); the attention list and the sweep are reset (R109). -/
def resetWork (g : Seg) (s : State) : State :=
  let s1 := s.updSeg g fun c => { c with exchange := none, line := c.line.discard c.config }
  let s2 := completeJobs (abortOrder s g) .aborted s1
  { s2.updSeg g fun c => { c with attention := [], sweep := Sweep.reset } with
    table := mapStore (fun e => e.bind (resetEntry g)) s2.table }

/-- Step 6 of R78. -/
def resetControl (c : Column) : Column :=
  { c with state := .halted, streak := 0, turn := .sweep, counters := Counters.zero }

/-- The six steps of R78. -/
def resetSegment (g : Seg) (s : State) : State := (resetDisc g (resetWork g s)).updSeg g resetControl

/-- R78: the old state and the number of jobs ended ABORTED. -/
def rulingResetSegment (g : Seg) (s : State) : Ruling :=
  ⟨resetSegment g s, .ok, [byte (s.seg g).state.code, byte (abortOrder s g).length]⟩

/-- RESET_SEGMENT (R78). -/
def execResetSegment (f : HostFrame) (s : State) : Result :=
  exactRequest 1 f (withSegment (bodyByte f 0) rulingResetSegment) s

/-! ## Queries -/

/-- The snapshot of R92 in the order of section 11.3. -/
def segmentSnapshot (c : Column) : List Byte :=
  [byte c.state.code, byte ((c.exchange.map (·.origin.code)).getD 0), byte c.streak,
    byte c.urgent.length, byte c.normal.length, byte c.waitSet.length, byte c.attention.length,
    byte (bit c.sweep.active), byte c.disc.state.code] ++ configBytes c.config

/-- QUERY_SEGMENT (R92). -/
def execQuerySegment (f : HostFrame) (s : State) : Result :=
  exactRequest 1 f (withSegment (bodyByte f 0) fun g s => ⟨s, .ok, segmentSnapshot (s.seg g)⟩) s

/-- The nine counters in the order of R91, two bytes each. -/
def counterBytes (c : Counters) : List Byte :=
  bytes2 c.framesSent ++ bytes2 c.validReplies ++ bytes2 c.noReplies ++ bytes2 c.replyFaults
    ++ bytes2 c.staleReplies ++ bytes2 c.contentions ++ bytes2 c.strayChars ++ bytes2 c.breaksSeen
    ++ bytes2 c.sweepOverruns

/-- R93. -/
def rulingQueryCounters (option : Nat) (g : Seg) (s : State) : Ruling :=
  match option with
  | 0 => ⟨s, .ok, counterBytes (s.seg g).counters⟩
  | 1 => ⟨s.count g fun _ => Counters.zero, .ok, counterBytes (s.seg g).counters⟩
  | _ => refuse .badValue s

/-- QUERY_COUNTERS (R93). -/
def execQueryCounters (f : HostFrame) (s : State) : Result :=
  exactRequest 2 f (withSegment (bodyByte f 0) (rulingQueryCounters (bodyByte f 1))) s

end Sys2Proof.Machine
end

