-- ==== Sys2Proof/Machine/Dispatch.lean ====
section
/-! DEFINITION. Each command to its meaning: one arm per row of spec/opcode_table.json. -/

namespace Sys2Proof.Machine

def exec (i : Instr) (s : State) : Host.Outcome State Fault Refusal :=
  match i with
  | .csnFall wait => Sys2Proof.Machine.execCsnFall wait s
  | .hostFrameIgnored wait bytes => Sys2Proof.Machine.execHostFrameIgnored wait bytes s
  | .unknownRequest code frame => Sys2Proof.Machine.execUnknownRequest code frame s
  | .nop frame => Sys2Proof.Machine.execNop frame s
  | .sync frame => Sys2Proof.Machine.execSync frame s
  | .restart frame => Sys2Proof.Machine.execRestart frame s
  | .queryDevice frame => Sys2Proof.Machine.execQueryDevice frame s
  | .configureSegment frame => Sys2Proof.Machine.execConfigureSegment frame s
  | .start frame => Sys2Proof.Machine.execStart frame s
  | .stop frame => Sys2Proof.Machine.execStop frame s
  | .resume frame => Sys2Proof.Machine.execResume frame s
  | .resetSegment frame => Sys2Proof.Machine.execResetSegment frame s
  | .querySegment frame => Sys2Proof.Machine.execQuerySegment frame s
  | .queryCounters frame => Sys2Proof.Machine.execQueryCounters frame s
  | .addStation frame => Sys2Proof.Machine.execAddStation frame s
  | .removeStation frame => Sys2Proof.Machine.execRemoveStation frame s
  | .reviveStation frame => Sys2Proof.Machine.execReviveStation frame s
  | .setClass frame => Sys2Proof.Machine.execSetClass frame s
  | .queryStation frame => Sys2Proof.Machine.execQueryStation frame s
  | .listStations frame => Sys2Proof.Machine.execListStations frame s
  | .submit frame => Sys2Proof.Machine.execSubmit frame s
  | .cancel frame => Sys2Proof.Machine.execCancel frame s
  | .queryJob frame => Sys2Proof.Machine.execQueryJob frame s
  | .discover frame => Sys2Proof.Machine.execDiscover frame s
  | .stopDiscovery frame => Sys2Proof.Machine.execStopDiscovery frame s
  | .admitFind frame => Sys2Proof.Machine.execAdmit frame s
  | .refuseFind frame => Sys2Proof.Machine.execRefuse frame s
  | .rstnFall wait held => Sys2Proof.Machine.execRstnFall wait held s
  | .rstnRelease wait => Sys2Proof.Machine.execRstnRelease wait s
  | .deadlineExpiry handle => Sys2Proof.Machine.execDeadlineExpiry handle s
  | .backoffExpiry handle => Sys2Proof.Machine.execBackoffExpiry handle s
  | .settleGapReached seg => Sys2Proof.Machine.execSettleGapReached seg s
  | .receivedItem wait seg item spaceAtEnd => Sys2Proof.Machine.execReceivedItem wait seg item spaceAtEnd s
  | .frameSentWhole seg => Sys2Proof.Machine.execFrameSentWhole seg s
  | .guardEnd seg => Sys2Proof.Machine.execGuardEnd seg s
  | .abortBreakEnd seg => Sys2Proof.Machine.execAbortBreakEnd seg s
  | .replyTimerExpiry seg => Sys2Proof.Machine.execReplyTimerExpiry seg s
  | .characterGapExpiry seg => Sys2Proof.Machine.execCharacterGapExpiry seg s
  | .deferTimerExpiry seg => Sys2Proof.Machine.execDeferTimerExpiry seg s
  | .sweepTimerExpiry seg => Sys2Proof.Machine.execSweepTimerExpiry seg s
  | .admissionTimerExpiry seg => Sys2Proof.Machine.execAdmissionTimerExpiry seg s
  | .reEdgeIntervalEnd => Sys2Proof.Machine.execReEdgeIntervalEnd s
  | .characterSentWithoutEcho seg => Sys2Proof.Machine.execCharacterSentWithoutEcho seg s
  | .startBitConfirmed start seg => Sys2Proof.Machine.execStartBitConfirmed start seg s
  | .lineReturnToMark wait seg => Sys2Proof.Machine.execLineReturnToMark wait seg s

end Sys2Proof.Machine
end

