-- ==== Sys2Proof/Safety.lean ====
section
/-! DEFINITION. The terms that claims are stated in: a window in which a host frame is taken, what a step
leaves alone, and the laws that the manual says always hold. -/

namespace Sys2Proof.Machine

/-! ## A host frame that is taken -/

/-- A rise of CSN after `wait` ends a window kept by R168, with RSTN high. A rise with no fall before it ends a
whole window, whose fall comes at the same time (log entry 11). -/
def KeptWindow (wait : Time) (s : State) : Prop :=
  s.rstnLow = false ∧ s.link.window ≠ .ignored ∧ s.link.window ≠ .noWindow
    ∧ (s.link.window = .closed → windowGap ≤ s.link.gap + wait)

/-- The state in which the request of a taken frame is executed: its time has passed, CSN has risen, the
frame is counted and its acknowledgement applied (R171, step 1 of R173). -/
def afterTake (f : HostFrame) (s : State) : State := takeFrame f (s.elapse f.wait).raiseCsn

/-- The frame of a request is taken and is no repeat (R171, R175). -/
def Taken (f : HostFrame) (s : State) : Prop :=
  KeptWindow f.wait s ∧ f.wellFormed = true ∧ slotTag s ≠ some f.tag

/-- The frame of a request on segment `g`, with a body of `n` bytes, is taken and is no repeat. -/
def OnSegment (f : HostFrame) (g : Seg) (n : Nat) (s : State) : Prop :=
  Taken f s ∧ f.body.length = n ∧ byteAt f.body 0 = g.val

/-- The state that a request of frame `f` leaves when its answer is all that it changes. -/
def answeredOnly (f : HostFrame) (o : AnsOutcome) (data : List Byte) (s : State) : State :=
  setSlot f.tag o data (afterTake f s)

/-- A request other than NOP, or a code that names none, is taken at the link (section 10.8). -/
def takenAsRequest : Instr → Option HostFrame
  | .nop _ => none
  | c => c.request.map (·.2)

/-- The requests whose body has one exact length, with that length (section 11.3). -/
def exactLength : Instr → Option (HostFrame × Nat)
  | .sync f => some (f, 0)
  | .restart f => some (f, 1)
  | .queryDevice f => some (f, 1)
  | .configureSegment f => some (f, 22)
  | .start f => some (f, 1)
  | .stop f => some (f, 1)
  | .resume f => some (f, 1)
  | .resetSegment f => some (f, 1)
  | .querySegment f => some (f, 1)
  | .queryCounters f => some (f, 2)
  | .addStation f => some (f, 4)
  | .removeStation f => some (f, 2)
  | .reviveStation f => some (f, 2)
  | .setClass f => some (f, 3)
  | .queryStation f => some (f, 2)
  | .listStations f => some (f, 2)
  | .cancel f => some (f, 2)
  | .queryJob f => some (f, 2)
  | .discover f => some (f, 3)
  | .stopDiscovery f => some (f, 1)
  | .admitFind f => some (f, 4)
  | .refuseFind f => some (f, 2)
  | _ => none

/-- The request's first body byte is a segment (section 11.3). -/
def namesSegment : Instr → Bool
  | .sync _ => false
  | .restart _ => false
  | .queryDevice _ => false
  | .cancel _ => false
  | .queryJob _ => false
  | _ => true

/-- The time to the CSN rise that a command is, if it is one. -/
def csnRiseOf : Instr → Option Time
  | .hostFrameIgnored wait _ => some wait
  | c => c.request.map (·.2.wait)

/-- The command is a happening at a segment or the end of a time that the part measures. -/
def ofSegmentOrTimer : Instr → Bool
  | .csnFall _ => false
  | .rstnFall .. => false
  | .rstnRelease _ => false
  | c => (csnRiseOf c).isNone

/-! ## What a step leaves alone -/

/-- The segments other than `g` are as they were. -/
def SameOthers (g : Seg) (s t : State) : Prop := ∀ g', g' ≠ g → t.seg g' = s.seg g'

/-- The entries other than `i` are as they were. -/
def SameEntries (i : Index) (s t : State) : Prop := ∀ k, k ≠ i → t.entry k = s.entry k

/-- The jobs other than `h` are as they were. -/
def SameJobs (h : Handle) (s t : State) : Prop := ∀ k, k ≠ h → t.job k = s.job k

/-- The host link but for the answer slot, the RSTN pin and the commands waiting are as they were. -/
def SameLink (s t : State) : Prop :=
  { t.link with slot := none } = { s.link with slot := none } ∧ t.rstnLow = s.rstnLow
    ∧ t.pending = s.pending

/-- The link, the RSTN pin and the commands waiting are as they were. -/
def SameOutside (s t : State) : Prop := t.link = s.link ∧ t.rstnLow = s.rstnLow ∧ t.pending = s.pending

/-- The answer in the slot. -/
def Answers (t : State) (tag : BitVec 16) (o : AnsOutcome) (data : List Byte) : Prop :=
  t.link.slot = some ⟨tag, o, data⟩

/-! ## What a reset and a completion leave -/

/-- What a restart or the reset pin leaves, but for the station table, the configurations and the line units:
every block as R46, R94, R109, R126, R165 and R180 give it, with HELLO of the cause alone in the queue. -/
structure StartsEmpty (cause : HelloCause) (t : State) : Prop where
  jobs     : ∀ h, t.job h = none
  segments : ∀ g, (t.seg g).state = .halted ∧ (t.seg g).streak = 0 ∧ (t.seg g).turn = .sweep
    ∧ (t.seg g).counters = ⟨0, 0, 0, 0, 0, 0, 0, 0, 0⟩ ∧ (t.seg g).exchange = none
  holders  : ∀ g, (t.seg g).urgent = [] ∧ (t.seg g).normal = [] ∧ (t.seg g).waitSet = []
    ∧ (t.seg g).attention = []
  sweeps   : ∀ g, (t.seg g).sweep = ⟨false, 0, false, none⟩
  units    : ∀ g, (t.seg g).disc.state = .idle ∧ (t.seg g).disc.record = none
    ∧ (t.seg g).disc.mark = none
  reports  : t.queue.reports = [⟨1, .hello cause 0x11#8⟩] ∧ t.queue.reservations = 0
    ∧ t.queue.lostEvents = 0 ∧ t.queue.lastNumber = 1
  link     : t.link.slot = none ∧ t.link.taken = 0 ∧ t.link.crcFaults = 0 ∧ t.link.truncated = 0
    ∧ t.link.malformed = 0 ∧ t.link.repeats = 0

/-- The same with the station table empty and every configuration at the defaults of R79 (R20, R94). -/
structure StartsCold (cause : HelloCause) (t : State) : Prop extends StartsEmpty cause t where
  table   : ∀ i, t.entry i = none
  configs : ∀ g, (t.seg g).config
    = ⟨.r19200, .none, .one, .highSends, 2, 50, 3, 4, 2, 4, 20, 3, 20, 0, 4, 500, 15⟩

/-- The RESULT of a job with an outcome and data (R40). -/
def resultOf (j : Job) (o : JobOutcome) (data : List Byte) : ReportBody :=
  .result j.tag o j.attempts j.busy j.lastFault j.cancel data

/-- The job in record `h` completes from a lane or the waiting set, and nothing else changes (R38). -/
structure CompletesJob (h : Handle) (j : Job) (o : JobOutcome) (data : List Byte) (s t : State) : Prop where
  freed   : t.job h = none
  others  : SameJobs h s t
  queue   : t.queue = { s.queue with
    reports := s.queue.reports ++ [⟨nextNumber s.queue.lastNumber, resultOf j o data⟩]
    reservations := s.queue.reservations - 1
    lastNumber := nextNumber s.queue.lastNumber }
  holders : t.seg j.seg = { s.seg j.seg with
    urgent := (s.seg j.seg).urgent.filter (· != h)
    normal := (s.seg j.seg).normal.filter (· != h)
    waitSet := (s.seg j.seg).waitSet.filter (· != h) }
  segs    : SameOthers j.seg s t
  table   : t.table = s.table

/-! ## The laws -/

/-- The segments whose discovery unit is PROBING (R154). -/
def probingUnits (s : State) : Nat := s.segs.toList.countP fun c => c.disc.state == .probing

/-- R154: the reservations equal the live jobs plus the PROBING units. -/
def ReservationLaw (s : State) : Prop := s.queue.reservations = liveJobs s + probingUnits s

/-- R155: reports and reservations never exceed the places. -/
def RoomLaw (s : State) : Prop := s.queue.reports.length + s.queue.reservations ≤ queuePlaces

/-- R159: the numbers in the queue lie in 1..255, follow one another, and end with the number last given. -/
def NumberLaw (q : Queue) : Prop :=
  q.lastNumber ≤ 255
  ∧ (∀ r ∈ q.reports, 1 ≤ r.number ∧ r.number ≤ 255)
  ∧ q.reports.IsChain (fun a b => b.number = nextNumber a.number)
  ∧ ∀ r ∈ q.reports.getLast?, r.number = q.lastNumber

/-- R1: every address lies in 1..126, the ports in 1..8, and no two entries have one segment and address. -/
def TableLaw (s : State) : Prop :=
  (∀ i e, s.entry i = some e → validAddr e.addr = true ∧ validPorts e.ports = true)
  ∧ ∀ i j e e', s.entry i = some e → s.entry j = some e' → e.seg = e'.seg → e.addr = e'.addr → i = j

/-- R1, R110, R113, R115: the admission record is present exactly while the unit is HELD, when no probe of it
is in flight; its address is that of no entry of the segment, nor is the address of a probe that is not void. -/
def HeldLaw (s : State) : Prop :=
  ∀ g, ((s.seg g).disc.record.isSome = true ↔ (s.seg g).disc.state = .held)
    ∧ ((s.seg g).disc.state = .held → (s.seg g).disc.mark = none)
    ∧ (∀ r, (s.seg g).disc.record = some r → findEntry s g r.addr = none)
    ∧ ∀ m, (s.seg g).disc.mark = some m → m.void = .none → findEntry s g m.addr = none

/-- R30: no two live jobs have one tag, and none has tag 0 (R24). -/
def TagLaw (s : State) : Prop :=
  (∀ h j, s.job h = some j → j.tag ≠ 0#16)
  ∧ ∀ h k j j', s.job h = some j → s.job k = some j' → j.tag = j'.tag → h = k

/-- R73: a segment has an exchange only while it is RUNNING or DRAINING. -/
def ExchangeLaw (s : State) : Prop :=
  ∀ g, (s.seg g).exchange.isSome = true → (s.seg g).state = .running ∨ (s.seg g).state = .draining

/-- The numbers of a record lie in the ranges of R79. The coded fields do so by their types. -/
def inRanges (c : SegConfig) : Bool :=
  within 0 255 c.guardBits && within 1 2000 c.replyTimeout && within 2 16 c.gapLimit
    && within 1 64 c.settleGap && within 0 7 c.retryLimit && within 0 15 c.busyLimit
    && within 1 1000 c.busyBackoff && within 1 15 c.missLimit && within 1 255 c.offlineLimit
    && (c.sweepPeriod == 0 || within 10 60000 c.sweepPeriod) && within 1 15 c.contentionLimit
    && within 10 5000 c.deferLimit && within 1 120 c.admissionTimeout

/-- R79, R80: every field lies in its range, and the defer limit is longer than the settle gap. -/
def ConfigLaw (s : State) : Prop :=
  ∀ g, inRanges (s.seg g).config = true ∧ deferAboveSettle (s.seg g).config = true

/-- The four places where a live job can stand (R25). -/
inductive Place where
  | urgent | normal | waiting | active
  deriving DecidableEq, Repr

/-- The place that a job's state and lane name. -/
def Job.place (j : Job) : Place :=
  match j.state, j.lane with
  | .queued, .urgent => .urgent
  | .queued, .normal => .normal
  | .waiting, _ => .waiting
  | .active, _ => .active

/-- The handles that stand at a place of a segment. -/
def Column.standing (c : Column) : Place → List Handle
  | .urgent => c.urgent
  | .normal => c.normal
  | .waiting => c.waitSet
  | .active => activeJob c

/-- R25, R26, R27: every live job stands at the one place of its segment that its state names, once, and no
other handle stands anywhere. -/
def HolderLaw (s : State) : Prop :=
  ∀ g p, ((s.seg g).standing p).Nodup
    ∧ ∀ h, h ∈ (s.seg g).standing p ↔ ∃ j, s.job h = some j ∧ j.seg = g ∧ j.place = p

/-- R27, R31: a deadline timer runs for a QUEUED job that was never started, and a backoff timer exactly for a
WAITING job. -/
def TimerLaw (s : State) : Prop :=
  ∀ h j, s.job h = some j →
    (j.deadlineTimer.isSome = true → j.state = .queued ∧ j.started = false)
    ∧ (j.backoff.isSome = true ↔ j.state = .waiting)

/-- R27, log entry 19: each waiting set stands in ascending order of handle. -/
def WaitOrderLaw (s : State) : Prop := ∀ g, (s.seg g).waitSet.Pairwise (· < ·)

/-- R95: an entry stands on its segment's attention list exactly while its mark is set, and once; its mark is not
set while it is OFFLINE or RETIRING. -/
def AttentionLaw (s : State) : Prop :=
  (∀ g, (s.seg g).attention.Nodup
    ∧ ∀ i, i ∈ (s.seg g).attention ↔ ∃ e, s.entry i = some e ∧ e.seg = g ∧ e.attention = true)
  ∧ ∀ i e, s.entry i = some e → e.attention = true → e.state ≠ .offline ∧ e.state ≠ .retiring

/-- R73: a DRAINING segment has an exchange. -/
def DrainLaw (s : State) : Prop := ∀ g, (s.seg g).state = .draining → (s.seg g).exchange.isSome = true

/-- The laws of what stands where. Those of jobs and of drains hold while RSTN is high: RSTN low takes the
exchanges (R71). -/
structure PlaceLaws (s : State) : Prop where
  attention : AttentionLaw s
  waiting   : WaitOrderLaw s
  live      : s.rstnLow = false → HolderLaw s ∧ TimerLaw s ∧ DrainLaw s

/-- The laws of the table, the jobs' tags, the discovery units, the queue and the configurations. -/
structure Inv (s : State) : Prop where
  reservations : ReservationLaw s
  room         : RoomLaw s
  numbers      : NumberLaw s.queue
  table        : TableLaw s
  held         : HeldLaw s
  tags         : TagLaw s
  exchanges    : ExchangeLaw s
  configs      : ConfigLaw s

end Sys2Proof.Machine
end

