-- ==== Sys2Proof/Certificates/Slice0/Obligations.lean ====
section
/-! DEFINITION. The statements about the block. -/

open Sys2Proof Sys2Proof.Machine

/-! ## The machine as a whole -/

/-- The command at the front of the queue is run with the queue's rest. An empty queue leaves the block as it
is, which is the model's choice (log entry 1), and so is the one queue of all who send commands (log entry 17). -/
def Obligations.StepRunsTheFrontCommand : Prop :=
  (∀ c waiting s, s.pending = c :: waiting → step s = exec c { s with pending := waiting })
  ∧ ∀ s, s.pending = [] → step s = .next s

/-- Every command ends in a next state, in every state: that no command stops is read from the spec as a whole
(log entry 5, DEDUCED). It leaves the commands waiting alone: the queue is the model's own (log entries 16 and
17, DESIGN CHOICE). Only the pin's commands change the RSTN level, and a happening at a segment or timer leaves
the answer slot, the counters and the window of the host link (R168, R174). -/
def Obligations.EveryCommandCompletes : Prop :=
  ∀ (c : Instr) (s : State), ∃ t, exec c s = .next t
    ∧ t.pending = s.pending
    ∧ ((∀ w h, c ≠ .rstnFall w h) → (∀ w, c ≠ .rstnRelease w) → t.rstnLow = s.rstnLow)
    ∧ (ofSegmentOrTimer c = true → { t.link with gap := 0 } = { s.link with gap := 0 })

/-- The machine right after the release of RSTN holds what R184 and the owners' rules say it holds. -/
def Obligations.ResetStateStartsCold : Prop :=
  StartsCold .pin State.reset
  ∧ (∀ g, (State.reset.seg g).line.tx = .quiet ∧ (State.reset.seg g).line.idle = 0
      ∧ (State.reset.seg g).line.deferTimer = none ∧ (State.reset.seg g).line.changes = [])
  ∧ State.reset.rstnLow = false ∧ State.reset.queue.reEdge = none ∧ State.reset.link.gap = 0
  ∧ attnAsserted State.reset = true ∧ freeRoom State.reset = 63

/-! ## Windows and host frames -/

/-- A fall of CSN opens a window, with the part frame of that moment, or one that is ignored for its early
fall, or none while RSTN is low; it changes nothing else (R168, R169, R170). -/
def Obligations.CsnFallOpensAWindow : Prop :=
  ∀ (w : Time) (s : State), s.link.window = .closed →
    let u := s.elapse w
    let opens (x : Window) : Prop := exec (.csnFall w) s = .next { u with link := { u.link with window := x } }
    (s.rstnLow = true → opens .noWindow)
    ∧ (s.rstnLow = false → s.link.gap + w < 4608 → opens .ignored)
    ∧ (s.rstnLow = false → 4608 ≤ s.link.gap + w → opens (.serving (buildPartFrame u)))

/-- The part frame holds its items at the places of section 11.1 (R169). The body of the report that it carries
holds its items as section 11.4 lays them out, under the kind code of section 11.4 and with the codes of section
11.5 (R181). -/
def Obligations.PartFrameAndReportLayout : Prop :=
  (∀ s : State,
    let frame := buildPartFrame s
    let flags := frame.getD 1 0#8
    let head := s.queue.reports.head?
    let answer := s.link.slot
    frame.getD 0 0#8 = 0x5C#8
    ∧ flags.getLsbD 0 = !s.queue.reports.isEmpty
    ∧ flags.getLsbD 1 = s.link.slot.isSome
    ∧ (flags.getLsbD 2 = true ↔ ∃ g, (s.seg g).disc.state = .held)
    ∧ (flags.getLsbD 3 = true ↔ ∃ g, (s.seg g).state = .faulted)
    ∧ flags.toNat < 16
    ∧ frame.getD 2 0#8 = byte ((head.map (·.number)).getD 0)
    ∧ frame.getD 3 0#8 = byte ((head.map (·.body.kindCode)).getD 0)
    ∧ frame.getD 4 0#8 = byte ((head.map (·.body.bytes.length)).getD 0)
    ∧ (frame.drop 5).take 2 = bytes2 ((answer.map (·.tag.toNat)).getD 0)
    ∧ frame.getD 7 0#8 = byte ((answer.map (·.outcome.code)).getD 0)
    ∧ frame.getD 8 0#8 = byte ((answer.map (·.data.length)).getD 0)
    ∧ (frame.drop 9).take 2 = bytes2 s.queue.lostEvents
    ∧ frame.getD 11 0#8 = byte (48 - liveJobs s)
    ∧ frame.getD 12 0#8 = byte (64 - s.queue.reports.length - s.queue.reservations)
    ∧ frame.getD 13 0#8 = byte s.queue.reports.length
    ∧ frame.drop 14 = (answer.map (·.data)).getD [] ++ (head.map (·.body.bytes)).getD []
        ++ bytes2 (crc16 (frame.take (frame.length - 2))).toNat)
  ∧ (let sent (b : ReportBody) (kind : Nat) (body : List Byte) : Prop := b.kindCode = kind ∧ b.bytes = body
    (∀ cause revision, sent (.hello cause revision) 1 [byte cause.code, revision])
    ∧ (∀ tag o attempts busy fault late data, sent (.result tag o attempts busy fault late data) 2
        (bytes2 tag.toNat ++ [byte o.code, byte attempts, byte busy,
          byte (bit fault.isSome + 2 * bit late), byte ((fault.map (·.code)).getD 0)] ++ data))
    ∧ (∀ g a old new cause, sent (.stationState g a old new cause) 3
        [byte g, byte a, byte old.code, byte new.code, byte cause.code])
    ∧ (∀ g a status detail, sent (.attention g a status detail) 4 ([byte g, byte a, status] ++ detail))
    ∧ (∀ g a new, sent (.statusChanged g a none new) 5 [byte g, byte a, 0x00#8, 0x00#8, new]
        ∧ ∀ old, sent (.statusChanged g a (some old) new) 5 [byte g, byte a, 0x01#8, old, new])
    ∧ (∀ g old new cause, sent (.segmentState g old new cause) 6
        [byte g, byte old.code, byte new.code, byte cause.code])
    ∧ (∀ g a identity unclear, sent (.found g a identity unclear) 7
        ([byte g, byte a, byte (bit identity.isSome + 2 * bit unclear)] ++ identity.getD []))
    ∧ ∀ g n, sent (.discoveryDone g n) 8
        [byte g, byte n.probed, byte n.found, byte n.admitted, byte n.refused, byte n.lapsed, byte n.unclear])
  ∧ [AnsOutcome.ok, .unknownRequest, .badLength, .badValue, .noSegment, .wrongState, .segmentActive, .noStation,
      .stationOffline, .badPort, .addressInUse, .addressHeld, .tableFull, .tagInUse, .noJobSlot, .noReportRoom,
      .notFound, .busy, .noAdmission, .cancelTaken, .cancelLate].map AnsOutcome.code = (List.range 22).drop 1
  ∧ [JobOutcome.done, .data, .status, .refused, .noReply, .replyFault, .contention, .stationBusy,
      .stationOffline, .cancelled, .expired, .aborted].map JobOutcome.code = (List.range 13).drop 1
  ∧ [FailKind.noReply, .contention, .charError, .lineBreak, .broken, .badLength, .crcError, .wrongStation,
      .badKind].map FailKind.code = (List.range 10).drop 1
  ∧ [StationState.enlisted, .online, .silent, .offline, .retiring].map StationState.code = [1, 2, 3, 4, 5]
  ∧ [SegState.halted, .running, .draining, .faulted].map SegState.code = [1, 2, 3, 4]
  ∧ (∀ h, [XOrigin.job h, .sweep, .attention, .probe].map XOrigin.code = [1, 2, 3, 4])
  ∧ [DiscState.idle, .probing, .held, .waitRoom].map DiscState.code = [1, 2, 3, 4]
  ∧ [JobKind.read, .write, .status, .broadcast].map JobKind.code = [1, 2, 3, 4]
  ∧ [JobState.queued, .waiting, .active].map JobState.code = [1, 2, 3]
  ∧ [Lane.urgent, .normal].map Lane.code = [0, 1]
  ∧ [PollClass.none, .cyclic].map PollClass.code = [0, 1]
  ∧ [Sync.synced, .unsynced].map Sync.code = [0, 1]
  ∧ [Origin.added, .admitted].map Origin.code = [0, 1]
  ∧ [Rate.r9600, .r19200, .r38400, .r57600, .r115200, .r230400, .r460800, .r921600].map rateCode
      = [1, 2, 3, 4, 5, 6, 7, 8]
  ∧ [Parity.none, .even, .odd].map parityCode = [0, 1, 2]
  ∧ [StopBits.one, .two].map stopBitsCode = [1, 2]
  ∧ [Polarity.highSends, .lowSends].map polarityCode = [0, 1]
  ∧ [HelloCause.pin, .cold, .warm].map HelloCause.code = [1, 2, 3]
  ∧ [MoveCause.contact, .misses, .silence].map MoveCause.code = [1, 2, 3]
  ∧ [SegCause.contention, .jabber, .stopped].map SegCause.code = [1, 2, 3]

/-- A window that R168 does not keep, or a CSN rise while RSTN is low, ends with nothing of its host frame
taken, whatever was clocked in: no counter, no acknowledgement, no request. A rise without a fall stands for a
whole window, not kept if it comes sooner than 4 µs after the rise or release before it (log entry 11, DESIGN
CHOICE). -/
def Obligations.UnkeptWindowTakesNothing : Prop :=
  ∀ (c : Instr) (w : Time) (s : State), csnRiseOf c = some w → ¬KeptWindow w s →
    let u := s.elapse w
    exec c s = .next { u with link := { u.link with window := .closed, gap := 0 } }

/-- A host frame that fails a check of R171 is ignored whole: the first check that fails decides which one of
the link counters is increased, and nothing else changes (R171, R172). Bits at the end of the window that make up
no whole byte are discarded (R167). A rise without a fall stands for a whole window (log entry 11). -/
def Obligations.IgnoredHostFrameIsCounted : Prop :=
  ∀ (w : Time) (b : List Byte) (tail : List Bool) (s : State), KeptWindow w s → tail.length < 8 →
    let u := s.elapse w
    let l := { u.link with window := Window.closed, gap := 0 }
    let tag := byteAt b 2 * 256 + byteAt b 3
    let len := byteAt b 5
    let ends (x : Link) : Prop := exec (.hostFrameIgnored w (spiBits b ++ tail)) s = .next { u with link := x }
    (b.length < 6 → ends { l with truncated := satInc l.truncated })
    ∧ (6 ≤ b.length → b.getD 0 0#8 ≠ 0xA7#8 → ends { l with malformed := satInc l.malformed })
    ∧ (6 ≤ b.length → b.getD 0 0#8 = 0xA7#8 →
        (80 < len → ends { l with malformed := satInc l.malformed })
        ∧ (len ≤ 80 → b.length < 8 + len → ends { l with truncated := satInc l.truncated })
        ∧ (len ≤ 80 → 8 + len ≤ b.length →
            ((b.drop (6 + len)).take 2 ≠ crcBytes (b.take (6 + len)) →
              ends { l with crcFaults := satInc l.crcFaults })
            ∧ ((b.drop (6 + len)).take 2 = crcBytes (b.take (6 + len)) → tag = 0 → b.getD 1 0#8 ≠ 0x00#8 →
              ends { l with malformed := satInc l.malformed })))

/-- The bits the host clocks for a well-formed request, or for an unknown code, are those of the host frame of
section 11.1, each byte most significant bit first, and the command is read back whole from them: its code, tag,
acknowledgement and body. Whatever the host clocks after the end of its frame is not examined (R167, R171, R181,
R182). -/
def Obligations.HostFrameRoundTrip : Prop :=
  (∀ b : Byte, spiBits [b] = [b.getLsbD 7, b.getLsbD 6, b.getLsbD 5, b.getLsbD 4, b.getLsbD 3, b.getLsbD 2,
    b.getLsbD 1, b.getLsbD 0])
  ∧ (∀ a b : List Byte, spiBits (a ++ b) = spiBits a ++ spiBits b)
  ∧ ∀ (c : Instr) (code : Byte) (f : HostFrame) (after : List Bool),
    c.wellFormed = true → c.request = some (code, f) →
    let covered := [0xA7#8, code] ++ bytes2 f.tag.toNat ++ [f.ack, byte f.body.length] ++ f.body
    let frame := covered ++ bytes2 (crc16 covered).toNat
    windowOfCommand c = some (spiBits frame) ∧ commandOfWindow f.wait (spiBits frame ++ after) = c

/-- A taken NOP is counted, its acknowledgement removes the head report if it names its number, the re-edge
interval starting if another remains, and it does nothing more: the slot stays, and no tag or body is examined
(R161, R163, R172, R176). The room that the removal makes goes in the same step to the discovery units that wait
for it, as RoomGoesToWaitingUnits says (R121); with none waiting, the removal is all. -/
def Obligations.NopAppliesItsAcknowledgement : Prop :=
  ∀ (f : HostFrame) (s : State), KeptWindow f.wait s → f.body.length ≤ 80 →
    let u := s.elapse f.wait
    let l := { u.link with window := Window.closed, gap := 0, taken := satInc u.link.taken }
    (∀ r rest, s.queue.reports = r :: rest → r.number = f.ack.toNat →
      let removed : State := { u with
        link := l
        queue := { u.queue with
          reports := rest
          reEdge := if rest = [] then u.queue.reEdge else some 2304 } }
      exec (.nop f) s = .next (serveWaitRoom removed)
      ∧ ((∀ g, (s.seg g).disc.state ≠ .waitRoom) → exec (.nop f) s = .next removed)
      ∧ ∀ g, (s.seg g).disc.state = .waitRoom → (∀ k, (s.seg k).disc.state = .waitRoom → k = g) →
        s.queue.reports.length + s.queue.reservations ≤ 64 →
        let probing := (removed.updQueue fun q => { q with reservations := q.reservations + 1 }).updSeg g
          fun c => { c with disc := { c.disc with state := .probing } }
        nextProbe probing g ≠ none → exec (.nop f) s = .next (pick g probing))
    ∧ ((∀ r ∈ s.queue.reports.head?, r.number ≠ f.ack.toNat) →
      exec (.nop f) s = .next { u with link := l })

/-- A taken frame, of a request as of a NOP, is dealt with from the state that its acknowledgement leaves, and
from nothing else of the state before it. That state is what a NOP of the same frame leaves; the answer slot and
the table are as they were (step 1 of R173). -/
def Obligations.AcknowledgementComesFirst : Prop :=
  ∀ f : HostFrame, f.body.length ≤ 80 →
    (∀ s, KeptWindow f.wait s → exec (.nop f) s = .next (afterTake f s)
      ∧ (afterTake f s).link.slot = s.link.slot ∧ (afterTake f s).table = (s.elapse f.wait).table)
    ∧ ∀ c, takenAsRequest c = some f → c.wellFormed = true →
      ∃ deal : State → State, ∀ s, KeptWindow f.wait s → exec c s = .next (deal (afterTake f s))

/-- A taken request, other than NOP, whose tag is in the answer slot is not executed: the repeats counter is
increased and all else is as its acknowledgement left it (R175). -/
def Obligations.RepeatIsNotExecuted : Prop :=
  ∀ (c : Instr) (f : HostFrame) (s : State), takenAsRequest c = some f → c.wellFormed = true →
    KeptWindow f.wait s → slotTag s = some f.tag →
    let u := afterTake f s
    exec c s = .next { u with link := { u.link with repeats := satInc u.link.repeats } }

/-- A taken request that is no repeat is answered BAD_LENGTH if its body does not suit it, and NO_SEGMENT if
its segment byte is above 3, and is otherwise not executed then (steps 5 and 6 of R173, R183). -/
def Obligations.LengthAndSegmentAreChecked : Prop :=
  ∀ (f : HostFrame) (s : State), Taken f s →
    (∀ c n, exactLength c = some (f, n) → f.body.length ≠ n →
      exec c s = .next (answeredOnly f .badLength [] s))
    ∧ (f.body.length < 8 → exec (.submit f) s = .next (answeredOnly f .badLength [] s))
    ∧ (∀ c n, exactLength c = some (f, n) → namesSegment c = true → f.body.length = n →
      3 < byteAt f.body 0 → exec c s = .next (answeredOnly f .noSegment [] s))
    ∧ (8 ≤ f.body.length → 3 < byteAt f.body 0 →
      exec (.submit f) s = .next (answeredOnly f .noSegment [] s))

/-- A taken frame whose code names no request sets the slot to its tag with UNKNOWN_REQUEST and no data
(step 4 of R173). -/
def Obligations.UnknownCodeIsAnswered : Prop :=
  ∀ (code : Byte) (f : HostFrame) (s : State), Taken f s → code ∉ requestCodes →
    exec (.unknownRequest code f) s = .next (answeredOnly f .unknownRequest [] s)

/-- SYNC sets the slot to its own tag, OK and, as data, the tag and outcome that the slot held (R177). -/
def Obligations.SyncAnswersTheLastAnswer : Prop :=
  ∀ (f : HostFrame) (s : State), Taken f s → f.body = [] →
    (s.link.slot = none → exec (.sync f) s = .next (answeredOnly f .ok [0x00#8, 0x00#8, 0x00#8] s))
    ∧ ∀ a, s.link.slot = some a →
      exec (.sync f) s = .next (answeredOnly f .ok (bytes2 a.tag.toNat ++ [byte a.outcome.code]) s)

/-! ## Restarts and the reset pin -/

/-- RESTART starts the part again: COLD leaves what R178 and the owners' rules give, WARM the same with the
configurations and the station entries kept, each entry as R21 resets it; the link's window is closed and its
gap counts from the CSN rise. Each line unit acts by its transmitter's state (R152); its receiver does not hear
the break that begins (log entry 14, DESIGN CHOICE). COLD notes at each line unit that the configuration has
changed, for the characters that have begun (R140). Any other option is refused (R178). -/
def Obligations.RestartStartsThePartAgain : Prop :=
  ∀ (f : HostFrame) (s : State), Taken f s → f.body.length = 1 →
    let u := afterTake f s
    let option := byteAt f.body 0
    let stopped (c : SegConfig) (l : Line) : Line :=
      match l.tx with
      | .quiet => { l with deferTimer := none }
      | .frame .. => { l with tx := .brk (2 * charTime c) c.polarity, idle := 0, deferTimer := none }
      | .guard _ => { l with tx := .quiet, idle := 0, deferTimer := none }
      | .brk .. => { l with deferTimer := none }
    let common (t : State) : Prop :=
      t.queue.reEdge = some 2304 ∧ t.link.window = .closed ∧ t.link.gap = 0 ∧ t.rstnLow = false
      ∧ t.pending = s.pending
    let line (g : Seg) : Line := stopped (u.seg g).config (u.seg g).line
    (option = 1 → ∃ t, exec (.restart f) s = .next t ∧ StartsCold .cold t ∧ common t
        ∧ ∀ g, (t.seg g).line
          = { line g with changes := ⟨bitTime (u.seg g).config / 2, 0⟩ :: (u.seg g).line.changes })
    ∧ (option = 2 → ∃ t, exec (.restart f) s = .next t ∧ StartsEmpty .warm t ∧ common t
        ∧ (∀ g, (t.seg g).line = line g ∧ (t.seg g).config = (u.seg g).config)
        ∧ ∀ i, t.entry i = (u.entry i).bind fun e =>
          if e.state = .retiring then none
          else some { e with
            state := .enlisted
            sync := .unsynced
            toggle := false
            misses := 0
            silentFails := 0
            goodReplies := 0
            attention := false
            lastStatus := none })
    ∧ (option ≠ 1 → option ≠ 2 → exec (.restart f) s = .next (answeredOnly f .badValue [] s))

/-- A low level of RSTN of less than 1 µs is ignored. One of at least 1 µs puts the part in reset: SDO is not
driven, ATTN is released, every DIR line is low and every TXD at mark, every frame, break and exchange is gone,
an open window is over, and nothing that happens at a segment or timer has an effect. The release makes a cold
start with HELLO of cause PIN, the re-edge interval idle and the window gap counting from it (R184). The model's
choices in it: what the fall already empties, and that a command while RSTN is low changes nothing (log entry
13); that the receiver waits at mark at the release (log entry 7); that a release with RSTN high lets time pass
alone (log entry 4). -/
def Obligations.ResetPinStartsCold : Prop :=
  ∀ (w held : Time) (s : State),
    (held < 1152 → exec (.rstnFall w held) s = .next ((s.elapse w).elapse held))
    ∧ (1152 ≤ held → ∃ t, exec (.rstnFall w held) s = .next t ∧ t.rstnLow = true ∧ t.pending = s.pending
        ∧ attnAsserted t = false ∧ (∀ k, sdoByte t k = none)
        ∧ (∀ g, dirPin t g = false ∧ txdPin t g = .mark ∧ (t.seg g).line.tx = .quiet
            ∧ (t.seg g).exchange = none)
        ∧ t.link.window = (if s.link.window = .closed then .closed else .noWindow)
        ∧ ∀ c, ofSegmentOrTimer c = true → exec c t = .next t)
    ∧ (s.rstnLow = true → ∃ t, exec (.rstnRelease w) s = .next t ∧ StartsCold .pin t
        ∧ t.rstnLow = false ∧ t.pending = s.pending ∧ t.queue.reEdge = none ∧ attnAsserted t = true
        ∧ t.link.gap = 0 ∧ t.link.window = (if s.link.window = .closed then .closed else .noWindow)
        ∧ liveJobs t = 0 ∧ freeRoom t = 63
        ∧ ∀ g, (t.seg g).line = ⟨.quiet, .waiting, 0, none, []⟩)
    ∧ (s.rstnLow = false → exec (.rstnRelease w) s = .next (s.elapse w))

/-! ## Queries and configuration -/

/-- QUERY_DEVICE answers the eleven device-wide counts as they stand when it is taken, the taken count with
its own frame in it. With CLEAR the lost events and the five link counters are then 0. Any other option is
refused (R179). -/
def Obligations.QueryDeviceAnswersTheCounts : Prop :=
  ∀ (f : HostFrame) (s : State), Taken f s → f.body.length = 1 →
    let u := afterTake f s
    let option := byteAt f.body 0
    let data := [0x11#8, byte (u.jobs.toList.countP (·.isSome)), byte u.queue.reports.length,
        byte u.queue.reservations, byte (u.table.toList.countP (·.isSome))]
      ++ bytes2 u.queue.lostEvents ++ bytes2 u.link.taken ++ bytes2 u.link.crcFaults
      ++ bytes2 u.link.truncated ++ bytes2 u.link.malformed ++ bytes2 u.link.repeats
    u.link.taken = satInc s.link.taken
    ∧ (option = 0 → exec (.queryDevice f) s = .next (answeredOnly f .ok data s))
    ∧ (option = 1 → exec (.queryDevice f) s = .next { u with
        queue := { u.queue with lostEvents := 0 }
        link := { u.link with
          slot := some ⟨f.tag, .ok, data⟩
          taken := 0
          crcFaults := 0
          truncated := 0
          malformed := 0
          repeats := 0 } })
    ∧ (option ≠ 0 → option ≠ 1 → exec (.queryDevice f) s = .next (answeredOnly f .badValue [] s))

/-- QUERY_SEGMENT answers a snapshot of the segment (R92), and QUERY_COUNTERS its nine counters, which CLEAR
then sets to 0 (R93). -/
def Obligations.SegmentQueriesAnswer : Prop :=
  ∀ (f : HostFrame) (g : Seg) (s : State),
    let u := afterTake f s
    let c := u.seg g
    let k := c.counters
    (OnSegment f g 1 s → exec (.querySegment f) s = .next (answeredOnly f .ok
      ([byte c.state.code, byte ((c.exchange.map (·.origin.code)).getD 0), byte c.streak,
        byte c.urgent.length, byte c.normal.length, byte c.waitSet.length, byte c.attention.length,
        byte (bit c.sweep.active), byte c.disc.state.code] ++ configBytes c.config) s))
    ∧ (OnSegment f g 2 s →
      let data := bytes2 k.framesSent ++ bytes2 k.validReplies ++ bytes2 k.noReplies ++ bytes2 k.replyFaults
        ++ bytes2 k.staleReplies ++ bytes2 k.contentions ++ bytes2 k.strayChars ++ bytes2 k.breaksSeen
        ++ bytes2 k.sweepOverruns
      (byteAt f.body 1 = 0 → exec (.queryCounters f) s = .next (answeredOnly f .ok data s))
      ∧ (byteAt f.body 1 = 1 → exec (.queryCounters f) s = .next (setSlot f.tag .ok data
          (u.updSeg g fun c => { c with counters := ⟨0, 0, 0, 0, 0, 0, 0, 0, 0⟩ })))
      ∧ (2 ≤ byteAt f.body 1 → exec (.queryCounters f) s = .next (answeredOnly f .badValue [] s)))

/-- CONFIGURE_SEGMENT is refused while the segment is not HALTED, then with the number of the first field
outside its range, then with 16 for a defer limit not longer than the settle gap. Otherwise the offered record
is the segment's, byte for byte, the misses and silent fails of the segment's entries are 0, and nothing else
changes (R80, R81, R23). -/
def Obligations.ConfigureReplacesTheRecord : Prop :=
  ∀ (f : HostFrame) (g : Seg) (s : State), OnSegment f g 22 s →
    let u := afterTake f s
    let fits (n : Fin 17) : Bool := (fieldRanges.getD n fun _ => true) ((offeredFields f.body).getD n 0)
    let c := configOfBody f.body
    ((u.seg g).state ≠ .halted →
      exec (.configureSegment f) s = .next (answeredOnly f .segmentActive [] s))
    ∧ ((u.seg g).state = .halted →
      (∀ n : Fin 17, fits n = false → (∀ m, m < n → fits m = true) →
        exec (.configureSegment f) s = .next (answeredOnly f .badValue [byte (n + 1)] s))
      ∧ ((∀ n, fits n = true) →
        (millis c.deferLimit ≤ settleTime c →
          exec (.configureSegment f) s = .next (answeredOnly f .badValue [16#8] s))
        ∧ (settleTime c < millis c.deferLimit →
          configBytes c = f.body.drop 1
          ∧ ∃ t, exec (.configureSegment f) s = .next t ∧ Answers t f.tag .ok [] ∧ SameLink u t
            ∧ SameOthers g u t
            ∧ t.seg g = { u.seg g with
                config := c
                line := { (u.seg g).line with
                  changes := ⟨bitTime (u.seg g).config / 2, 0⟩ :: (u.seg g).line.changes } }
            ∧ t.jobs = u.jobs ∧ t.queue = u.queue
            ∧ ∀ i, t.entry i = (u.entry i).map fun e =>
              if e.seg = g then { e with misses := 0, silentFails := 0 } else e)))

/-! ## Segment control -/

/-- START makes a HALTED segment RUNNING with its sweep timer started, and it picks; makes a DRAINING segment
RUNNING; leaves a RUNNING one; and is refused in FAULTED (R74, R103). -/
def Obligations.StartPutsASegmentToWork : Prop :=
  ∀ (f : HostFrame) (g : Seg) (s : State), OnSegment f g 1 s →
    let u := afterTake f s
    ((u.seg g).state = .halted → exec (.start f) s = .next (setSlot f.tag .ok [1#8, 2#8]
      (pick g (u.updSeg g fun c => { c with
        state := .running
        sweep := { c.sweep with
          timer := if c.config.sweepPeriod = 0 then none else some (c.config.sweepPeriod * 1152000) } }))))
    ∧ ((u.seg g).state = .running → exec (.start f) s = .next (answeredOnly f .ok [2#8, 2#8] s))
    ∧ ((u.seg g).state = .draining → exec (.start f) s = .next (setSlot f.tag .ok [3#8, 2#8]
      (u.updSeg g fun c => { c with state := .running })))
    ∧ ((u.seg g).state = .faulted → exec (.start f) s = .next (answeredOnly f .wrongState [4#8] s))

/-- STOP makes a segment HALTED with streak 0 and its sweep timer stopped, or DRAINING if it holds an exchange,
and changes nothing in HALTED and DRAINING (R75). RESUME makes a FAULTED segment RUNNING with streak 0 and its
sweep timer started, and it picks; it is refused in every other state (R76). -/
def Obligations.StopAndResumeASegment : Prop :=
  ∀ (f : HostFrame) (g : Seg) (s : State), OnSegment f g 1 s →
    let u := afterTake f s
    let halt (c : Column) : Column :=
      { c with state := .halted, streak := 0, sweep := { c.sweep with timer := none } }
    ((u.seg g).state = .halted → exec (.stop f) s = .next (answeredOnly f .ok [1#8, 1#8] s))
    ∧ ((u.seg g).state = .running → (u.seg g).exchange = none →
      exec (.stop f) s = .next (setSlot f.tag .ok [2#8, 1#8] (u.updSeg g halt)))
    ∧ ((u.seg g).state = .running → (u.seg g).exchange.isSome = true →
      exec (.stop f) s = .next (setSlot f.tag .ok [2#8, 3#8] (u.updSeg g fun c => { c with state := .draining })))
    ∧ ((u.seg g).state = .draining → exec (.stop f) s = .next (answeredOnly f .ok [3#8, 3#8] s))
    ∧ ((u.seg g).state = .faulted →
      exec (.stop f) s = .next (setSlot f.tag .ok [4#8, 1#8] (u.updSeg g halt)))
    ∧ ((u.seg g).state = .faulted → exec (.resume f) s = .next (setSlot f.tag .ok [4#8, 2#8]
      (pick g (u.updSeg g fun c => { c with
        state := .running
        streak := 0
        sweep := { c.sweep with
          timer := if c.config.sweepPeriod = 0 then none else some (c.config.sweepPeriod * 1152000) } }))))
    ∧ ((u.seg g).state ≠ .faulted →
      exec (.resume f) s = .next (answeredOnly f .wrongState [byte (u.seg g).state.code] s))

/-- RESET_SEGMENT takes everything off a segment: every job of it ends ABORTED, the active one first, then the
lanes from their heads, then the waiting set; its exchange and its discovery run are gone, its entries are
reset as R22 says, its attention list, sweep, streak and counters are as after a reset, and its configuration
stays. The reservation of a PROBING unit is released, and its room goes to the units of other segments that wait
for it; without that the other segments are as they were (R78, R22, R45, R126, R121). That the idle unit's low,
high, cursor and counts are 0 is the model's choice (log entry 6). -/
def Obligations.ResetSegmentEmptiesTheSegment : Prop :=
  ∀ (f : HostFrame) (g : Seg) (s : State), OnSegment f g 1 s → HolderLaw s → TimerLaw s →
    let u := afterTake f s
    let c := u.seg g
    let order := activeJob c ++ c.urgent ++ c.normal ++ c.waitSet
    let ends (v : State) : State := setSlot f.tag .ok [byte c.state.code, byte order.length] <|
      v.updSeg g fun c => { c with
        state := .halted
        streak := 0
        turn := .sweep
        counters := ⟨0, 0, 0, 0, 0, 0, 0, 0, 0⟩ }
    ∃ v, exec (.resetSegment f) s
        = .next (ends (if c.disc.state = .probing then serveWaitRoom v else v))
      ∧ ((∀ k, k ≠ g → (u.seg k).disc.state ≠ .waitRoom) → exec (.resetSegment f) s = .next (ends v))
      ∧ v.link = u.link ∧ v.rstnLow = u.rstnLow ∧ v.pending = u.pending ∧ SameOthers g u v
      ∧ v.seg g = { c with
          exchange := none
          urgent := []
          normal := []
          waitSet := []
          attention := []
          sweep := ⟨false, 0, false, none⟩
          disc := ⟨.idle, 0, 0, 0, ⟨0, 0, 0, 0, 0, 0⟩, none, none⟩
          line := c.line.discard c.config }
      ∧ (∀ h, v.job h = (u.job h).filter fun j => j.seg ≠ g)
      ∧ (∀ i, v.entry i = (u.entry i).bind fun e =>
          if e.seg = g then
            if e.state = .retiring then none
            else some { e with
              state := .enlisted
              sync := .unsynced
              toggle := false
              misses := 0
              silentFails := 0
              goodReplies := 0
              attention := false
              lastStatus := none }
          else some e)
      ∧ v.queue.reports.map (·.body) = u.queue.reports.map (·.body)
          ++ order.filterMap (fun h => (u.job h).map fun j => resultOf j .aborted [])
      ∧ v.queue.reservations
          = u.queue.reservations - order.length - (if c.disc.state = .probing then 1 else 0)
      ∧ v.queue.lostEvents = u.queue.lostEvents ∧ v.queue.reEdge = u.queue.reEdge

/-! ## Stations -/

/-- ADD_STATION is refused by the first of its checks that fails. If none does, the lowest free index holds an
entry with the fields of R2, a probe of that address in flight becomes void, and nothing else changes (R14, R2,
R115). -/
def Obligations.AddStationMakesAnEntry : Prop :=
  ∀ (f : HostFrame) (g : Seg) (s : State), OnSegment f g 4 s →
    let u := afterTake f s
    let a := byteAt f.body 1
    let ports := byteAt f.body 2
    let cls := byteAt f.body 3
    let refused (o : AnsOutcome) : Prop := exec (.addStation f) s = .next (answeredOnly f o [] s)
    let used : Prop := ∃ i e, u.entry i = some e ∧ e.seg = g ∧ e.addr = a
    let holds : Prop := ∃ r, (u.seg g).disc.record = some r ∧ r.addr = a
    let good : Prop := 1 ≤ a ∧ a ≤ 126 ∧ 1 ≤ ports ∧ ports ≤ 8 ∧ cls ≤ 1
    (¬good → refused .badValue)
    ∧ (good → used → refused .addressInUse)
    ∧ (good → ¬used → holds → refused .addressHeld)
    ∧ (good → ¬used → ¬holds → (∀ i, (u.entry i).isSome = true) → refused .tableFull)
    ∧ (good → ¬used → ¬holds → ∀ i, u.entry i = none → (∀ k, k < i → (u.entry k).isSome = true) →
      exec (.addStation f) s = .next (setSlot f.tag .ok [] <|
        (u.setEntry i (some {
          seg := g
          addr := a
          ports := ports
          pollClass := if cls = 0 then .none else .cyclic
          state := .enlisted
          misses := 0
          silentFails := 0
          toggle := false
          sync := .unsynced
          attention := false
          lastStatus := none
          identity := none
          origin := .added
          goodReplies := 0 })).updSeg g fun c => { c with disc := { c.disc with
            mark := c.disc.mark.map fun m =>
              if m.addr = a ∧ m.void = .none then { m with void := .added } else m } }))

/-- REMOVE_STATION is refused for an address outside 1..126 or without an entry that is not RETIRING. Otherwise
the station's QUEUED and WAITING jobs end CANCELLED, the urgent lane first, then the normal lane, then the
waiting set, and the entry leaves the attention list. It is then freed, or becomes RETIRING if the segment's
exchange names it, with the cancel of the job carried requested (R15). -/
def Obligations.RemoveStationFreesOrRetires : Prop :=
  ∀ (f : HostFrame) (g : Seg) (s : State), OnSegment f g 2 s → TableLaw s →
    let u := afterTake f s
    let a := byteAt f.body 1
    let theirs (h : Handle) : Bool :=
      (u.job h).any fun j => j.kind != .broadcast && j.seg == g && j.addr == a
    let jobs := ((u.seg g).urgent ++ (u.seg g).normal ++ (u.seg g).waitSet).filter theirs
    let named (i : Index) : Prop := ∃ x, (u.seg g).exchange = some x ∧ x.entry = some i
    (¬(1 ≤ a ∧ a ≤ 126) → exec (.removeStation f) s = .next (answeredOnly f .badValue [] s))
    ∧ (1 ≤ a ∧ a ≤ 126 → (∀ i e, u.entry i = some e → e.seg = g → e.addr = a → e.state = .retiring) →
      exec (.removeStation f) s = .next (answeredOnly f .noStation [] s))
    ∧ (∀ i e, u.entry i = some e → e.seg = g → e.addr = a → e.state ≠ .retiring →
      let v := leaveAttention i (completeJobs jobs .cancelled u)
      (¬named i → exec (.removeStation f) s
        = .next (setSlot f.tag .ok [1#8, byte jobs.length] (v.setEntry i none)))
      ∧ (∀ x, (u.seg g).exchange = some x → x.entry = some i →
        let w := v.updEntry i fun e => { e with state := .retiring }
        (∀ h, x.origin = .job h → exec (.removeStation f) s = .next (setSlot f.tag .ok
          [2#8, byte jobs.length] (w.updJob h fun j => { j with cancel := true })))
        ∧ ((∀ h, x.origin ≠ .job h) → exec (.removeStation f) s = .next (setSlot f.tag .ok
          [2#8, byte jobs.length] w))))

/-- An event report enters at the tail with the next number if there is free room, and is otherwise counted
as lost (R153, R157, R159). A job that completes puts its RESULT at the tail in place of its reservation, leaves
its lane or the waiting set, and its record is FREE; several do so in their order (R38). An entry that leaves
the attention list is unmarked, and the others stay in their order (R95). -/
def Obligations.ReportsAndCompletions : Prop :=
  ∀ s : State,
    (∀ b, let q := s.queue
      let n := if q.lastNumber = 255 then 1 else q.lastNumber + 1
      (q.reports.length + q.reservations < 64 → eventReport b s = { s with
        queue := { q with reports := q.reports ++ [⟨n, b⟩], lastNumber := n } })
      ∧ (64 ≤ q.reports.length + q.reservations → eventReport b s = { s with
        queue := { q with lostEvents := if q.lostEvents < 65535 then q.lostEvents + 1 else q.lostEvents } }))
    ∧ (∀ h j o d, s.job h = some j → CompletesJob h j o d s (completeJob h o d s)
      ∧ SameOutside s (completeJob h o d s))
    ∧ (∀ h hs o, completeJobs (h :: hs) o s = completeJobs hs o (completeJob h o [] s)
      ∧ completeJobs [] o s = s)
    ∧ ∀ i e, s.entry i = some e → leaveAttention i s
      = (s.setEntry i (some { e with attention := false })).updSeg e.seg fun c =>
          { c with attention := c.attention.filter (· ≠ i) }

/-- REVIVE_STATION makes an OFFLINE entry ENLISTED, UNSYNCED and without counts, and is refused for any other
(R16). SET_CLASS sets the poll class of an entry and answers the one before (R17). -/
def Obligations.ReviveAndSetClass : Prop :=
  ∀ (f : HostFrame) (g : Seg) (s : State), TableLaw s →
    let u := afterTake f s
    let a := byteAt f.body 1
    let cls := byteAt f.body 2
    let range : Prop := 1 ≤ a ∧ a ≤ 126
    let absent : Prop := ∀ i e, u.entry i = some e → e.seg = g → e.addr = a → e.state = .retiring
    (OnSegment f g 2 s →
      (¬range → exec (.reviveStation f) s = .next (answeredOnly f .badValue [] s))
      ∧ (range → absent → exec (.reviveStation f) s = .next (answeredOnly f .noStation [] s))
      ∧ ∀ i e, u.entry i = some e → e.seg = g → e.addr = a → e.state ≠ .retiring →
        (e.state ≠ .offline → exec (.reviveStation f) s = .next (answeredOnly f .wrongState [] s))
        ∧ (e.state = .offline → exec (.reviveStation f) s = .next (setSlot f.tag .ok []
          (u.setEntry i (some { e with
            state := .enlisted
            sync := .unsynced
            toggle := false
            misses := 0
            silentFails := 0 })))))
    ∧ (OnSegment f g 3 s →
      (¬(range ∧ cls ≤ 1) → exec (.setClass f) s = .next (answeredOnly f .badValue [] s))
      ∧ (range → cls ≤ 1 → absent → exec (.setClass f) s = .next (answeredOnly f .noStation [] s))
      ∧ (cls ≤ 1 → ∀ i e, u.entry i = some e → e.seg = g → e.addr = a → e.state ≠ .retiring →
        exec (.setClass f) s = .next (setSlot f.tag .ok [byte (if e.pollClass = .none then 0 else 1)]
          (u.setEntry i (some { e with pollClass := if cls = 0 then .none else .cyclic })))))

/-- QUERY_STATION answers the whole of an entry, RETIRING included, and leaves out what is absent (R18).
LIST_STATIONS answers the first sixteen entries of a segment from an address on, in ascending order of address,
three bytes each (R19). Neither changes anything. -/
def Obligations.StationQueriesAnswer : Prop :=
  ∀ (f : HostFrame) (g : Seg) (s : State), OnSegment f g 2 s → TableLaw s →
    let u := afterTake f s
    let a := byteAt f.body 1
    (¬(1 ≤ a ∧ a ≤ 126) → exec (.queryStation f) s = .next (answeredOnly f .badValue [] s)
      ∧ exec (.listStations f) s = .next (answeredOnly f .badValue [] s))
    ∧ (1 ≤ a ∧ a ≤ 126 → (∀ i e, u.entry i = some e → ¬(e.seg = g ∧ e.addr = a)) →
      exec (.queryStation f) s = .next (answeredOnly f .noStation [] s))
    ∧ (∀ i e, u.entry i = some e → e.seg = g → e.addr = a →
      exec (.queryStation f) s = .next (answeredOnly f .ok
        ([byte i, byte g, byte a, byte e.ports, byte e.pollClass.code, byte e.state.code, byte e.misses,
          byte e.silentFails, byte (bit e.toggle), byte e.sync.code, byte (bit e.attention),
          byte e.origin.code] ++ bytes2 e.goodReplies
          ++ [byte (bit e.lastStatus.isSome + 2 * bit e.identity.isSome)]
          ++ e.lastStatus.toList ++ e.identity.getD []) s))
    ∧ (1 ≤ a ∧ a ≤ 126 → ∃ l : List (Index × Entry),
      exec (.listStations f) s = .next (answeredOnly f .ok (l.flatMap fun p =>
        [byte p.1, byte p.2.addr, byte (p.2.state.code + 8 * bit (p.2.pollClass == .cyclic)
          + 16 * bit p.2.attention + 32 * bit (p.2.sync == .unsynced) + 64 * bit p.2.identity.isSome
          + 128 * bit (p.2.origin == .admitted))]) s)
      ∧ l.length ≤ 16 ∧ l.Pairwise (fun p q => p.2.addr < q.2.addr)
      ∧ (∀ p ∈ l, u.entry p.1 = some p.2 ∧ p.2.seg = g ∧ a ≤ p.2.addr)
      ∧ ∀ i e, u.entry i = some e → e.seg = g → a ≤ e.addr →
        (i, e) ∈ l ∨ (l.length = 16 ∧ ∀ p ∈ l, p.2.addr < e.addr))

/-! ## Jobs -/

/-- SUBMIT is refused by the first of its checks that fails, and changes nothing then (R28, R183). That 65 to 72
request bytes are answered BAD_VALUE, and not BAD_LENGTH, is read from R28 and R173 by inference (log entry 10,
DEDUCED). -/
def Obligations.SubmitIsChecked : Prop :=
  ∀ (f : HostFrame) (g : Seg) (s : State),
    Taken f s → 8 ≤ f.body.length → byteAt f.body 0 = g.val → TableLaw s →
    let u := afterTake f s
    let b := byteAt f.body
    let count := f.body.length - 8
    let refused (o : AnsOutcome) : Prop := exec (.submit f) s = .next (answeredOnly f o [] s)
    let suits : Prop :=
      (b 3 = 1 ∧ count ≤ 16) ∨ ((b 3 = 2 ∨ b 3 = 4) ∧ 1 ≤ count ∧ count ≤ 64) ∨ (b 3 = 3 ∧ count = 0)
    let valid : Prop := suits ∧ b 4 ≤ 1 ∧ (b 5 = 0 ∨ (b 5 = 1 ∧ b 6 * 256 + b 7 ≠ 0))
      ∧ (if b 3 = 4 then b 1 = 0 else 1 ≤ b 1 ∧ b 1 ≤ 126)
    let station (e : Entry) : Prop := e.seg = g ∧ e.addr = b 1 ∧ ∃ i, u.entry i = some e
    let stationGood : Prop := b 3 ≠ 4 → ∃ e, station e ∧ e.state ≠ .retiring ∧ e.state ≠ .offline
    let portGood : Prop := if b 3 = 4 then b 2 = 0 else ∀ e, station e → b 2 < e.ports
    let tagUsed : Prop := ∃ h j, u.job h = some j ∧ j.tag = f.tag
    (¬valid → refused .badValue)
    ∧ (valid → b 3 ≠ 4 → (∀ e, station e → e.state = .retiring) → refused .noStation)
    ∧ (valid → b 3 ≠ 4 → ∀ e, station e → e.state = .offline → refused .stationOffline)
    ∧ (valid → stationGood → ¬portGood → refused .badPort)
    ∧ (valid → stationGood → portGood → tagUsed → refused .tagInUse)
    ∧ (valid → stationGood → portGood → ¬tagUsed → (∀ h, (u.job h).isSome = true) → refused .noJobSlot)
    ∧ (valid → stationGood → portGood → ¬tagUsed → (∃ h, u.job h = none) →
      64 ≤ u.queue.reports.length + u.queue.reservations → refused .noReportRoom)

/-- A SUBMIT that passes the checks of R28 takes a reservation, the lowest FREE record with the fields of R29,
and the tail of its lane; its deadline timer starts if the deadline is present. The answer carries the handle
and the position, and a free segment picks (R29, R31). -/
def Obligations.SubmitTakesAJob : Prop :=
  ∀ (f : HostFrame) (g : Seg) (s : State) (k : JobKind) (lane : Lane) (deadline : Option Nat) (h : Handle),
    Taken f s → 8 ≤ f.body.length → byteAt f.body 0 = g.val →
    let u := afterTake f s
    readSubmit f = some (k, lane, deadline) →
    stationCheck u g k (byteAt f.body 1) (byteAt f.body 2) = none →
    (∀ i j, u.job i = some j → j.tag ≠ f.tag) →
    u.job h = none → (∀ i, i < h → (u.job i).isSome = true) →
    u.queue.reports.length + u.queue.reservations < 64 →
    let joined (l : List Handle) : List Handle := l ++ [h]
    let position := (match lane with | .urgent => (u.seg g).urgent | .normal => (u.seg g).normal).length + 1
    JobKind.ofCode (byteAt f.body 3) = some k ∧ lane.code = byteAt f.body 4
    ∧ deadline = (if byteAt f.body 5 = 0 then none else some (byteAt f.body 6 * 256 + byteAt f.body 7))
    ∧ exec (.submit f) s = .next (setSlot f.tag .ok [byte h, byte position] <| pick g <|
        ((u.updQueue fun q => { q with reservations := q.reservations + 1 }).setJob h (some {
          tag := f.tag
          seg := g
          addr := byteAt f.body 1
          port := byteAt f.body 2
          kind := k
          lane := lane
          deadline := deadline
          request := f.body.drop 8
          state := .queued
          attempts := 0
          busy := 0
          started := false
          cancel := false
          lastFault := none
          deadlineTimer := deadline.map (· * 1152000)
          backoff := none })).updSeg g fun c =>
            match lane with
            | .urgent => { c with urgent := joined c.urgent }
            | .normal => { c with normal := joined c.normal })

/-- CANCEL ends a QUEUED or WAITING job CANCELLED, with its RESULT in the queue, and requests the cancel of an
ACTIVE one (R41). QUERY_JOB answers where a live job stands (R42). A job tag of 0 is refused, and one of no live
job is not found. -/
def Obligations.CancelAndQueryAJob : Prop :=
  ∀ (f : HostFrame) (s : State), Taken f s → f.body.length = 2 → Inv s →
    let u := afterTake f s
    let tag := byteAt f.body 0 * 256 + byteAt f.body 1
    (tag = 0 → exec (.cancel f) s = .next (answeredOnly f .badValue [] s)
      ∧ exec (.queryJob f) s = .next (answeredOnly f .badValue [] s))
    ∧ (tag ≠ 0 → (∀ h j, u.job h = some j → j.tag.toNat ≠ tag) →
      exec (.cancel f) s = .next (answeredOnly f .notFound [] s)
      ∧ exec (.queryJob f) s = .next (answeredOnly f .notFound [] s))
    ∧ ∀ h j, u.job h = some j → j.tag.toNat = tag →
      (j.state = .active → exec (.cancel f) s = .next (setSlot f.tag .cancelLate []
        (u.setJob h (some { j with cancel := true }))))
      ∧ (j.state ≠ .active → ∃ t, exec (.cancel f) s = .next t ∧ Answers t f.tag .cancelTaken []
        ∧ SameLink u t ∧ CompletesJob h j .cancelled [] u t)
      ∧ (let lane := match j.lane with
          | .urgent => (u.seg j.seg).urgent
          | .normal => (u.seg j.seg).normal
        let position := if j.state = .queued then lane.idxOf h + 1 else 0
        (j.state = .queued → h ∈ lane) →
        exec (.queryJob f) s = .next (answeredOnly f .ok [byte h, byte j.seg, byte j.kind.code,
          byte j.lane.code, byte j.state.code, byte j.attempts, byte j.busy, byte position,
          byte (bit j.started + 2 * bit j.cancel + 4 * bit j.lastFault.isSome),
          byte ((j.lastFault.map (·.code)).getD 0)] s))

/-- At its deadline a job that was never started ends EXPIRED (R31). At the end of its backoff a job goes from
the waiting set to the head of its lane with attempts 0, and a free segment picks (R27). The expiry of a timer
that does not run changes nothing, which is the model's choice (log entry 4). -/
def Obligations.JobTimersExpire : Prop :=
  ∀ (h : Handle) (s : State), s.rstnLow = false →
    (∀ j left, s.job h = some j → j.deadlineTimer = some left →
      ∃ t, exec (.deadlineExpiry h) s = .next t ∧ SameOutside (s.elapse left) t
        ∧ CompletesJob h (j.elapse left) .expired [] (s.elapse left) t)
    ∧ ((∀ j, s.job h = some j → j.deadlineTimer = none) → exec (.deadlineExpiry h) s = .next s)
    ∧ (∀ j left, s.job h = some j → j.backoff = some left →
      exec (.backoffExpiry h) s = .next (pick j.seg <|
        ((s.elapse left).setJob h (some { j.elapse left with
          state := .queued
          attempts := 0
          backoff := none })).updSeg j.seg fun c => { c with
            waitSet := c.waitSet.filter (· ≠ h)
            urgent := if j.lane = .urgent then h :: c.urgent else c.urgent
            normal := if j.lane = .normal then h :: c.normal else c.normal }))
    ∧ ((∀ j, s.job h = some j → j.backoff = none) → exec (.backoffExpiry h) s = .next s)

/-! ## Discovery -/

/-- DISCOVER is refused by the first of its checks that fails. Otherwise it takes a reservation and begins a
run with cursor low and counts 0, the probe mark kept. If an address of the range has no entry the segment
picks; if every one has, the run ends at once with DISCOVERY_DONE and counts 0 (R112, R113, R116). That the idle unit
then holds low, high, cursor and counts at 0 is the model's choice (log entry 6). -/
def Obligations.DiscoverBeginsARun : Prop :=
  ∀ (f : HostFrame) (g : Seg) (s : State), OnSegment f g 3 s →
    let u := afterTake f s
    let low := byteAt f.body 1
    let high := byteAt f.body 2
    let range : Prop := 1 ≤ low ∧ low ≤ high ∧ high ≤ 126
    let used : Nat := u.queue.reports.length + u.queue.reservations
    let taken (a : Nat) : Prop := ∃ i e, u.entry i = some e ∧ e.seg = g ∧ e.addr = a
    let refused (o : AnsOutcome) : Prop := exec (.discover f) s = .next (answeredOnly f o [] s)
    (¬range → refused .badValue)
    ∧ (range → (u.seg g).disc.state ≠ .idle → refused .busy)
    ∧ (range → (u.seg g).disc.state = .idle → 64 ≤ used → refused .noReportRoom)
    ∧ (range → (u.seg g).disc.state = .idle → used < 64 →
      ((∃ a, low ≤ a ∧ a ≤ high ∧ ¬taken a) →
        exec (.discover f) s = .next (setSlot f.tag .ok [] <| pick g <|
          (u.updQueue fun q => { q with reservations := q.reservations + 1 }).updSeg g fun c =>
            { c with disc := ⟨.probing, low, high, low, ⟨0, 0, 0, 0, 0, 0⟩, none, c.disc.mark⟩ }))
      ∧ ((∀ a, low ≤ a → a ≤ high → taken a) →
        exec (.discover f) s = .next (setSlot f.tag .ok [] <|
          (u.updQueue fun q => { q with
            reports := q.reports ++ [⟨nextNumber q.lastNumber, .discoveryDone g ⟨0, 0, 0, 0, 0, 0⟩⟩]
            lastNumber := nextNumber q.lastNumber }).updSeg g fun c =>
              { c with disc := ⟨.idle, 0, 0, 0, ⟨0, 0, 0, 0, 0, 0⟩, none, c.disc.mark⟩ })))

/-- STOP_DISCOVERY of an IDLE unit is refused. Otherwise the unit becomes IDLE without a report and the answer
carries its old state and six counts; a PROBING unit's reservation is released, its probe in flight becomes
void with cause STOPPED, and the room goes to the units that wait for it (R124, R115, R121). That the idle unit
holds low, high, cursor and counts at 0 is the model's choice (log entry 6). -/
def Obligations.StopDiscoveryEndsARun : Prop :=
  ∀ (f : HostFrame) (g : Seg) (s : State), OnSegment f g 1 s →
    let u := afterTake f s
    let d := (u.seg g).disc
    let idle (mark : Option ProbeMark) (v : State) : State :=
      v.updSeg g fun c => { c with disc := ⟨.idle, 0, 0, 0, ⟨0, 0, 0, 0, 0, 0⟩, none, mark⟩ }
    let data := [byte d.state.code, byte d.counts.probed, byte d.counts.found, byte d.counts.admitted,
      byte d.counts.refused, byte d.counts.lapsed, byte d.counts.unclear]
    (d.state = .idle → exec (.stopDiscovery f) s = .next (answeredOnly f .wrongState [] s))
    ∧ (d.state = .held ∨ d.state = .waitRoom →
      exec (.stopDiscovery f) s = .next (setSlot f.tag .ok data (idle d.mark u)))
    ∧ (d.state = .probing → exec (.stopDiscovery f) s = .next (setSlot f.tag .ok data <| serveWaitRoom <|
        idle (d.mark.map fun m => { m with void := .stopped }) <|
          u.updQueue fun q => { q with reservations := q.reservations - 1 }))

/-- A held find ends by ADMIT, by REFUSE or by its timer: it is counted, its record is cleared and the unit
resumes. ADMIT makes the entry of R2, ONLINE, SYNCED and with toggle 1 if the station gave its identity. Each
request is refused by the first of its checks that fails (R122, R123, R119). That the expiry of an admission
timer without a record changes nothing is the model's choice (log entry 4). -/
def Obligations.HeldFindEnds : Prop :=
  ∀ (f : HostFrame) (g : Seg) (s : State),
    let u := afterTake f s
    let a := byteAt f.body 1
    let ports := byteAt f.body 2
    let cls := byteAt f.body 3
    let inUse : Prop := ∃ i e, u.entry i = some e ∧ e.seg = g ∧ e.addr = a
    let held (r : Admission) : Prop := (u.seg g).disc.record = some r ∧ r.addr = a
    let counted (f : RunCounts → RunCounts) (v : State) : State :=
      resumeDisc g (v.updSeg g fun c => { c with disc := { c.disc with counts := f c.disc.counts } })
    let fits : Prop := 1 ≤ a ∧ a ≤ 126 ∧ 1 ≤ ports ∧ ports ≤ 8 ∧ cls ≤ 1
    let refused (o : AnsOutcome) : Prop := exec (.admitFind f) s = .next (answeredOnly f o [] s)
    (OnSegment f g 4 s →
      (¬fits → refused .badValue)
      ∧ (fits → inUse → refused .addressInUse)
      ∧ (fits → ¬inUse → (∀ r, ¬held r) → refused .noAdmission)
      ∧ (fits → ¬inUse → (∃ r, held r) → (∀ i, (u.entry i).isSome = true) → refused .tableFull)
      ∧ (fits → ¬inUse → ∀ r i, held r → u.entry i = none → (∀ k, k < i → (u.entry k).isSome = true) →
        let known := r.identity.isSome
        exec (.admitFind f) s = .next (setSlot f.tag .ok [byte i, if known then 2#8 else 1#8] <|
          counted (fun n => { n with admitted := n.admitted + 1 }) <| u.setEntry i (some {
            seg := g
            addr := a
            ports := ports
            pollClass := if cls = 0 then .none else .cyclic
            state := if known then .online else .enlisted
            misses := 0
            silentFails := 0
            toggle := known
            sync := if known then .synced else .unsynced
            attention := false
            lastStatus := none
            identity := r.identity
            origin := .admitted
            goodReplies := 0 }))))
    ∧ (OnSegment f g 2 s →
      (¬(1 ≤ a ∧ a ≤ 126) → exec (.refuseFind f) s = .next (answeredOnly f .badValue [] s))
      ∧ (1 ≤ a ∧ a ≤ 126 → (∀ r, ¬held r) → exec (.refuseFind f) s = .next (answeredOnly f .noAdmission [] s))
      ∧ (1 ≤ a ∧ a ≤ 126 → ∀ r, held r → exec (.refuseFind f) s = .next (setSlot f.tag .ok [] <|
          counted (fun n => { n with refused := n.refused + 1 }) u)))
    ∧ (s.rstnLow = false → ∀ r, (s.seg g).disc.record = some r →
      exec (.admissionTimerExpiry g) s
        = .next (counted (fun n => { n with lapsed := n.lapsed + 1 }) (s.elapse r.timer)))
    ∧ ((s.seg g).disc.record = none → exec (.admissionTimerExpiry g) s = .next s)

/-- A unit that resumes has no record; with free room it takes a reservation and probes on, its run ending at
once if no address is left, and with none it waits in WAIT_ROOM (R120). Room that appears goes to the waiting
unit of the lowest segment first (R121). That a unit whose run has ended holds low, high, cursor and counts at 0
is the model's choice (log entry 6). -/
def Obligations.RoomGoesToWaitingUnits : Prop :=
  ∀ (g : Seg) (s : State),
    let room (v : State) : Prop := v.queue.reports.length + v.queue.reservations < 64
    let probing (v : State) : State :=
      (v.updQueue fun q => { q with reservations := q.reservations + 1 }).updSeg g fun c =>
        { c with disc := { c.disc with state := .probing } }
    let looks (v : State) : State :=
      match nextProbe v g with
      | some _ => pick g v
      | none => (v.updQueue fun q => { q with
          reports := q.reports ++ [⟨nextNumber q.lastNumber, .discoveryDone g (v.seg g).disc.counts⟩]
          reservations := q.reservations - 1
          lastNumber := nextNumber q.lastNumber }).updSeg g fun c =>
            { c with disc := ⟨.idle, 0, 0, 0, ⟨0, 0, 0, 0, 0, 0⟩, none, c.disc.mark⟩ }
    let waits := s.updSeg g fun c => { c with disc := { c.disc with state := .waitRoom, record := none } }
    (room s → resumeDisc g s = looks (probing waits))
    ∧ (¬room s → resumeDisc g s = waits)
    ∧ (¬room s → serveWaitRoom s = s)
    ∧ ((∀ k, (s.seg k).disc.state ≠ .waitRoom) → serveWaitRoom s = s)
    ∧ (room s → (s.seg g).disc.state = .waitRoom → (∀ k, k < g → (s.seg k).disc.state ≠ .waitRoom) →
      serveWaitRoom s = serveWaitRoom (looks (probing s)))

/-! ## Picks -/

/-- A segment that is not RUNNING, holds an exchange or sends a break picks nothing. A free one takes the first
source with work: the attention list, the urgent lane, the sweep's member if the turn is the sweep's or the
normal lane is empty, the normal lane, the discovery unit's address (R82, R83, R84). -/
def Obligations.PickOrder : Prop :=
  ∀ (g : Seg) (s : State),
    let c := s.seg g
    let free : Prop := c.state = .running ∧ c.exchange = none ∧ c.line.tx = .quiet
    let member := (lookSweep g s).2
    let v := (lookSweep g s).1
    (¬free → pick g s = s)
    ∧ (free → ∀ i rest, c.attention = i :: rest → pick g s = startPoll g .attention i s)
    ∧ (free → c.attention = [] → ∀ h rest, c.urgent = h :: rest → pick g s = startJob g h s)
    ∧ (free → c.attention = [] → c.urgent = [] →
      (∀ a i, member = some a → findEntry s g a = some i → (c.turn = .sweep ∨ c.normal = []) →
        pick g s = startPoll g .sweep i
          (v.updSeg g fun c => { c with turn := .lane, sweep := { c.sweep with cursor := a } }))
      ∧ (∀ h rest, c.normal = h :: rest → (member = none ∨ c.turn = .lane) →
        pick g s = startJob g h (v.updSeg g fun c => { c with turn := .sweep }))
      ∧ (c.normal = [] → member = none →
        (∀ a, (lookDisc g v).2 = some a → pick g s = startProbe g a (lookDisc g v).1)
        ∧ ((lookDisc g v).2 = none → pick g s = (lookDisc g v).1)))

/-- A look of the sweep finds the member with the lowest address above the cursor, or ends the pass, and begins
another if a repeat is due (R105, R107). A look of the discovery unit finds the lowest address of its range,
from the cursor on, that no entry of the segment holds, or ends the run (R113, R116). That the unit whose run has
ended holds low, high, cursor and counts at 0 is the model's choice (log entry 6). -/
def Obligations.LooksFindTheLowest : Prop :=
  ∀ (g : Seg) (s : State), TableLaw s →
    let w := (s.seg g).sweep
    let d := (s.seg g).disc
    let member (a : Nat) : Prop := ∃ i e, s.entry i = some e ∧ e.seg = g ∧ e.addr = a
      ∧ (e.state = .silent ∨ ((e.state = .enlisted ∨ e.state = .online) ∧ e.pollClass = .cyclic))
    let lowestAbove (n a : Nat) : Prop := n < a ∧ member a ∧ ∀ b, n < b → b < a → ¬member b
    let sweeps (f : Sweep → Sweep) : State := s.updSeg g fun c => { c with sweep := f c.sweep }
    let ended := sweeps fun w => { w with active := false, cursor := 0, repeatDue := false }
    let inRange (a : Nat) : Prop := d.cursor ≤ a ∧ a ≤ d.high ∧ a ≤ 126
    let taken (a : Nat) : Prop := ∃ i e, s.entry i = some e ∧ e.seg = g ∧ e.addr = a
    (w.active = false → lookSweep g s = (s, none))
    ∧ (w.active = true →
      (∀ a, lowestAbove w.cursor a → lookSweep g s = (s, some a))
      ∧ ((∀ a, w.cursor < a → ¬member a) →
        (w.repeatDue = false → lookSweep g s = (ended, none))
        ∧ (w.repeatDue = true →
          (∀ a, lowestAbove 0 a →
            lookSweep g s = (sweeps fun w => { w with cursor := 0, repeatDue := false }, some a))
          ∧ ((∀ a, ¬member a) → lookSweep g s = (ended, none)))))
    ∧ (d.state ≠ .probing → lookDisc g s = (s, none))
    ∧ (d.state = .probing →
      (∀ a, inRange a → ¬taken a → (∀ b, inRange b → b < a → taken b) → lookDisc g s = (s, some a))
      ∧ ((∀ a, inRange a → taken a) → lookDisc g s = (
        (s.updQueue fun q => { q with
          reports := q.reports ++ [⟨nextNumber q.lastNumber, .discoveryDone g d.counts⟩]
          reservations := q.reservations - 1
          lastNumber := nextNumber q.lastNumber }).updSeg g fun c =>
            { c with disc := ⟨.idle, 0, 0, 0, ⟨0, 0, 0, 0, 0, 0⟩, none, c.disc.mark⟩ }, none)))

/-! ## The start of an exchange and of an attempt -/

/-- What an exchange starts with, by the work picked: its frame, entry, toggle, resync flag and attempt limit.
A job starts ACTIVE and started, its deadline disarmed, and leaves its lane; a probe sets the probe mark
(R48, R49, R32, R113). That the reply time left is 0 until the first AWAIT is the model's choice (log entry 26). -/
def Obligations.ExchangeStarts : Prop :=
  ∀ (g : Seg) (s : State), TableLaw s →
    let c := s.seg g
    let full := c.config.retryLimit + 1
    let limit (e : Entry) : Nat := if e.state = .silent then 1 else full
    let fresh (o : XOrigin) (i : Option Index) (a p : Nat) (st : Stage) (k : MasterKind)
        (toggle resync : Bool) (attempt limit : Nat) : Exchange :=
      { origin := o, entry := i, addr := a, port := p, stage := st, kind := k, toggle := toggle,
        resync := resync, attempt := attempt, limit := limit, phase := .defer, unanswered := false,
        replyLeft := 0, counted := false, received := [], gapTimer := none }
    let begins (x : Exchange) (v : State) : State :=
      enterDefer g (v.updSeg g fun c => { c with exchange := some x })
    let started (h : Handle) (j : Job) : State :=
      (s.updSeg g fun c => { c with
        urgent := c.urgent.filter (· ≠ h)
        normal := c.normal.filter (· ≠ h)
        waitSet := c.waitSet.filter (· ≠ h) }).setJob h
          (some { j with state := .active, started := true, deadlineTimer := none })
    (∀ h j, s.job h = some j → j.kind = .broadcast → startJob g h s
      = begins (fresh (.job h) none j.addr j.port .main .write false false j.attempts full) (started h j))
    ∧ (∀ h j i e, s.job h = some j → s.entry i = some e → e.seg = g → e.addr = j.addr →
      (j.kind = .status → startJob g h s = begins (fresh (.job h) (some i) j.addr j.port .main .status e.toggle
          (e.sync == .unsynced) j.attempts (limit e)) (started h j))
      ∧ (j.kind = .read ∨ j.kind = .write → e.sync = .unsynced → startJob g h s = begins
          (fresh (.job h) (some i) j.addr 0 .prelude .status e.toggle true j.attempts (limit e)) (started h j))
      ∧ (j.kind = .read ∨ j.kind = .write → e.sync = .synced → startJob g h s = begins
          (fresh (.job h) (some i) j.addr j.port .main (if j.kind = .read then .read else .write) e.toggle false
            j.attempts (limit e)) (started h j)))
    ∧ (∀ i e, s.entry i = some e →
      startPoll g .sweep i s = begins
        (fresh .sweep (some i) e.addr 0 .main .status e.toggle (e.sync == .unsynced) 0 1) s
      ∧ startPoll g .attention i s = begins
        (fresh .attention (some i) e.addr 0 .main .status e.toggle (e.sync == .unsynced) 0 (limit e)) s)
    ∧ ∀ a, startProbe g a s = begins (fresh .probe none a 0 .main .probe false true 0 2)
        (s.updSeg g fun c => { c with disc := { c.disc with mark := some ⟨a, .none⟩ } })

/-- An attempt enters DEFER with nothing received. On a quiet line that has been idle for the settle gap it
sends at once; on one that has not, the defer timer starts; under a break it waits. When the settle gap is
found the attempt is counted, once, and its frame begins on the line, the transmitter in FRAME, for which
PinsFollowTheState says that DIR is asserted: SOF, address, CTRL, port, length, payload and CRC (R50, R51, R127,
R128, R130, R149, R150). The model's choices in it: the count has no upper bound of its own (log entry 22), and
the idle time counts up to the confirmation of a start bit (log entry 23). -/
def Obligations.AttemptSendsItsFrame : Prop :=
  ∀ (g : Seg) (s : State) (x : Exchange), (s.seg g).exchange = some x →
    let c := s.seg g
    let payload := match x.origin, x.stage, x.kind with
      | .job h, .main, .read => ((s.job h).map (·.request)).getD []
      | .job h, .main, .write => ((s.job h).map (·.request)).getD []
      | _, _, _ => []
    let kind := match x.kind with | .read => 1 | .write => 2 | .status => 3 | .probe => 4
    let covered := [byte x.addr, byte (kind + 16 * bit x.toggle + 32 * bit x.resync), byte x.port,
      byte payload.length] ++ payload
    let frame := [0xD5#8] ++ covered ++ bytes2 (crc16 covered).toNat
    let sends (v : State) : State := v.updSeg g fun c => { c with
      exchange := some { x with
        phase := .send
        attempt := if x.counted then x.attempt else x.attempt + 1
        counted := true }
      line := { c.line with
        tx := .frame frame 0 (frame.length * charTime c.config)
        idle := 0
        deferTimer := none } }
    let defers (t : Option Time) : State := s.updSeg g fun c => { c with
      exchange := some { x with phase := .defer, received := [], gapTimer := none }
      line := { c.line with deferTimer := t } }
    (∀ h, x.origin = .job h → x.counted = false →
      enterSend g s = sends (s.updJob h fun j => { j with attempts := j.attempts + 1 }))
    ∧ ((∀ h, x.origin ≠ .job h) ∨ x.counted = true → enterSend g s = sends s)
    ∧ (c.line.tx = .quiet → c.line.idle < c.config.settleGap * charTime c.config →
      enterDefer g s = defers (some (c.config.deferLimit * 1152000)))
    ∧ (c.line.tx ≠ .quiet → enterDefer g s = defers none)
    ∧ (c.line.tx = .quiet → c.config.settleGap * charTime c.config ≤ c.line.idle →
      enterDefer g s = enterSend g
        (s.updSeg g fun c => { c with exchange := some { x with phase := .defer, received := [], gapTimer := none } }))
    ∧ (s.rstnLow = false → x.phase = .defer →
      (c.line.tx = .quiet → c.line.rx = .waiting → exec (.settleGapReached g) s
        = .next (enterSend g (s.elapse (c.config.settleGap * charTime c.config - c.line.idle))))
      ∧ (∀ left, c.line.tx = .quiet → c.line.rx = .ending left → exec (.settleGapReached g) s
        = .next (enterSend g (s.elapse (left + c.config.settleGap * charTime c.config)))))

/-! ## The progress of an exchange -/

/-- With every echo matched, the end of the last stop bit is a clean send: counted, streak 0, unanswered send
yes, TURN, and the line held for the guard (R51, R142, R143). The end of the guard, at once if it is 0, releases
the line: a broadcast exchange ends sent, and any other awaits its reply with the reply timer started (R53). -/
def Obligations.SendEndsWithTheGuard : Prop :=
  ∀ (g : Seg) (s : State), s.rstnLow = false →
    let whole (v : State) : State := v.updSeg g fun c => { c with
      counters := { c.counters with framesSent := satInc c.counters.framesSent }
      streak := 0
      exchange := c.exchange.map fun x => { x with phase := .turn, unanswered := true }
      line := { c.line with tx := .guard (c.config.guardBits * bitTime c.config) } }
    let quiet (v : State) : State := v.updSeg g fun c => { c with line := { c.line with tx := .quiet, idle := 0 } }
    let awaits (v : State) : State := v.updSeg g fun c => { c with
      exchange := c.exchange.map fun x =>
        { x with phase := .await, replyLeft := c.config.replyTimeout * 1152000 } }
    let released (v w : State) : Prop :=
      ((v.seg g).exchange = none → w = quiet v)
      ∧ (∀ x, (v.seg g).exchange = some x → x.phase = .turn →
        (x.addr = 0 → w = endExchange g x .sent none (quiet v))
        ∧ (x.addr ≠ 0 → w = awaits (quiet v)))
    (∀ chars left, (s.seg g).line.tx = .frame chars chars.length left →
      ((s.seg g).config.guardBits ≠ 0 → exec (.frameSentWhole g) s = .next (whole (s.elapse left)))
      ∧ ((s.seg g).config.guardBits = 0 →
        ∃ t, exec (.frameSentWhole g) s = .next t ∧ released (whole (s.elapse left)) t))
    ∧ ∀ left, (s.seg g).line.tx = .guard left →
      ∃ t, exec (.guardEnd g) s = .next t ∧ released (s.elapse left) t

/-- An attempt fails with NO_REPLY when the reply timer runs out in AWAIT, with BROKEN when the character gap
timer runs out in RECV, and with CONTENTION when a character is sent without its echo, by which the frame stops,
an abort break of 2 character times begins and the streak rises. Each is counted (R54, R55, R52, R146, R147).
The model's choices in it: a frame on the line without an exchange, to which no rule leads, lets time pass alone
(log entry 4); the character gap timer runs up to the confirmation of a start bit (log entry 23). -/
def Obligations.AttemptsFail : Prop :=
  ∀ (g : Seg) (s : State), s.rstnLow = false →
    (∀ x, (s.seg g).exchange = some x → x.phase = .await →
      exec (.replyTimerExpiry g) s = .next (failAttempt g (x.elapse x.replyLeft) .noReply <|
        (s.elapse x.replyLeft).updSeg g fun c => { c with
          counters := { c.counters with noReplies := satInc c.counters.noReplies } }))
    ∧ (∀ x left, (s.seg g).exchange = some x → x.phase = .recv → x.gapTimer = some left →
      exec (.characterGapExpiry g) s = .next (failAttempt g (x.elapse left) .broken <|
        (s.elapse left).updSeg g fun c => { c with
          counters := { c.counters with replyFaults := satInc c.counters.replyFaults } }))
    ∧ ∀ chars echoed left, (s.seg g).line.tx = .frame chars echoed left → echoed < chars.length →
      let d := left - (chars.length - echoed - 1) * charTime (s.seg g).config
      (∀ x, (s.seg g).exchange = some x →
        exec (.characterSentWithoutEcho g) s = .next (failAttempt g (x.elapse d) .contention <|
          (s.elapse d).updSeg g fun c => { c with
            counters := { c.counters with contentions := satInc c.counters.contentions }
            streak := c.streak + 1
            line := { c.line with tx := .brk (2 * charTime c.config) c.config.polarity, idle := 0 } }))
      ∧ ((s.seg g).exchange = none → exec (.characterSentWithoutEcho g) s = .next (s.elapse d))

/-- What follows a failed attempt, first match first: its entry is RETIRING, its job's cancel is requested,
another attempt is due (and the segment faults, drains or goes on), or none is due. A CONTENTION that has
brought the streak to the limit is a fault of the segment (R60, R33, R66, R87). -/
def Obligations.FailedAttemptGoesOn : Prop :=
  ∀ (g : Seg) (x : Exchange) (k : FailKind) (s : State), (s.seg g).exchange = some x →
    let v := match x.origin with
      | .job h => s.updJob h fun j => { j with lastFault := some k }
      | .sweep => s
      | .attention => s
      | .probe => s
    let faults : Prop := k = .contention ∧ (s.seg g).streak = (s.seg g).config.contentionLimit
    let fault : Option SegFault :=
      if k = .contention ∧ (s.seg g).streak = (s.seg g).config.contentionLimit then some .contention else none
    let retiring : Prop := ∃ i e, x.entry = some i ∧ s.entry i = some e ∧ e.state = .retiring
    let cancelled : Prop := ∃ h j, x.origin = .job h ∧ s.job h = some j ∧ j.cancel = true
    let due : Prop := x.attempt < x.limit ∧ (x.origin = .probe → k.isReplyFault = true)
    (retiring → failAttempt g x k s = endExchange g x (.retired none) fault v)
    ∧ (¬retiring → cancelled → failAttempt g x k s = endExchange g x (.failed (.fault k)) fault v)
    ∧ (¬retiring → ¬cancelled → due →
      (faults → failAttempt g x k s = endExchange g x (.cut .fault) (some .contention) v)
      ∧ (¬faults → (s.seg g).state = .draining →
        failAttempt g x k s = endExchange g x (.cut .drain) none v)
      ∧ (¬faults → (s.seg g).state ≠ .draining → failAttempt g x k s
        = enterDefer g (v.updSeg g fun c => { c with exchange := some { x with counted := false } })))
    ∧ (¬retiring → ¬cancelled → ¬due →
      (faults → (∀ h, x.origin ≠ .job h) →
        failAttempt g x k s = endExchange g x (.cut .fault) (some .contention) v)
      ∧ (¬faults ∨ (∃ h, x.origin = .job h) →
        failAttempt g x k s = endExchange g x (.failed (.fault k)) fault v))

/-- A received item is line activity to the end of its character, and goes to one destination by the
transmitter's state and the attempt's phase: the echo check, the reply's SOF, the reply under assembly, the
stray and break counters, or none (R144, R145, R146, R148). While the line stays at space no item is formed. The
model's: the gap timer starts with half a bit time more than the gap limit, read from R55 and R144 (log entry 15,
DEDUCED), and an item on a line without a confirmed start bit stands for the whole character (log entry 11,
DESIGN CHOICE). -/
def Obligations.ReceivedItemsGoToOnePlace : Prop :=
  ∀ (w : Time) (g : Seg) (item : Item) (atSpace : Bool) (s : State), s.rstnLow = false →
    let l := ((s.elapse w).seg g).line
    let c := ((s.elapse w).seg g).config
    let half := match l.rx with
      | .inChar half => half
      | .waiting => bitTime c / 2
      | .ending _ => bitTime c / 2
      | .atSpace => bitTime c / 2
    let v := (s.elapse w).updSeg g fun c => { c with line := { c.line with
      rx := if item = .brk ∨ atSpace = true then .atSpace else .ending half
      idle := 0 } }
    let runs (t : State) : Prop := exec (.receivedItem w g item atSpace) s = .next t
    let stray : Prop := runs (v.updSeg g fun c => { c with counters :=
      if item = .brk then { c.counters with breaksSeen := satInc c.counters.breaksSeen }
      else { c.counters with strayChars := satInc c.counters.strayChars } })
    (l.rx = .atSpace → runs (s.elapse w))
    ∧ (l.rx ≠ .atSpace →
      (∀ left, l.tx = .guard left → stray)
      ∧ (∀ left p, l.tx = .brk left p → runs v)
      ∧ (l.tx = .quiet →
        ((v.seg g).exchange = none → stray)
        ∧ ∀ x, (v.seg g).exchange = some x →
          (x.phase = .defer → stray)
          ∧ (x.phase = .await → item ≠ .good 0xD5#8 → stray)
          ∧ (x.phase = .await → item = .good 0xD5#8 → runs (v.updSeg g fun k => { k with
              exchange := some { x with
                phase := .recv
                received := []
                gapTimer := some (c.gapLimit * charTime c + bitTime c / 2) } }))
          ∧ (x.phase = .recv →
            (∀ b, item = .erroneous b → runs (failReply g x .charError v))
            ∧ (item = .brk → runs (failReply g x .lineBreak v))
            ∧ ∀ b, item = .good b →
              let now := x.received ++ [b]
              (now.length = 4 ∧ 64 < b.toNat → runs (failReply g x .badLength v))
              ∧ (¬(now.length = 4 ∧ 64 < b.toNat) →
                (4 ≤ now.length ∧ now.length = byteAt now 3 + 6 → runs (evaluate g x now v))
                ∧ (¬(4 ≤ now.length ∧ now.length = byteAt now 3 + 6) → runs (v.updSeg g fun k => { k with
                  exchange := some { x with
                    received := now
                    gapTimer := some (c.gapLimit * charTime c + bitTime c / 2) } })))))
      ∧ (∀ chars n left sent, l.tx = .frame chars n left → chars[n]? = some sent →
        (item = .good sent → runs (v.updSeg g fun k => { k with
          line := { k.line with tx := .frame chars (n + 1) left } }))
        ∧ (∀ x, item ≠ .good sent → (v.seg g).exchange = some x →
          runs (failAttempt g x .contention <| v.updSeg g fun k => { k with
            counters := { k.counters with contentions := satInc k.counters.contentions }
            streak := k.streak + 1
            line := { k.line with tx := .brk (2 * charTime k.config) k.config.polarity, idle := 0 } }))))

/-- A complete reply: a valid one is counted, clears the unanswered send mark, and ends the exchange, but for
the STATUS_REPLY of a prelude, which hands the reply on, syncs the entry with its toggle flipped and goes back
to DEFER with the job's own frame; a STALE one is counted and the attempt awaits on with the time left; a fault
is counted and fails the attempt (R56, R58, R59, R61, R66). -/
def Obligations.CompleteRepliesAreHandled : Prop :=
  ∀ (g : Seg) (x : Exchange) (chars : List Byte) (s : State), (s.seg g).exchange = some x →
    let y := { x with unanswered := false }
    let valid := s.updSeg g fun c => { c with
      counters := { c.counters with validReplies := satInc c.counters.validReplies }
      exchange := some y }
    let retiring : Prop := ∃ i e, x.entry = some i ∧ s.entry i = some e ∧ e.state = .retiring
    let stale := s.updSeg g fun c => { c with
      counters := { c.counters with staleReplies := satInc c.counters.staleReplies }
      exchange := some { x with phase := .await, received := [], gapTimer := none } }
    (∀ k, classify x.addr x.kind x.toggle chars = .fault k →
      evaluate g x chars s = failAttempt g x k (s.updSeg g fun c => { c with
        counters := { c.counters with replyFaults := satInc c.counters.replyFaults } }))
    ∧ (classify x.addr x.kind x.toggle chars = .stale →
      (x.replyLeft ≠ 0 → evaluate g x chars s = stale)
      ∧ (x.replyLeft = 0 → evaluate g x chars s = failAttempt g x .noReply (stale.updSeg g fun c => { c with
        counters := { c.counters with noReplies := satInc c.counters.noReplies } })))
    ∧ ∀ r, classify x.addr x.kind x.toggle chars = .valid r →
      (retiring → evaluate g x chars s = endExchange g y (.retired (some r)) none valid)
      ∧ (¬retiring → ((∀ h, x.origin ≠ .job h) ∨ x.stage = .main ∨ r.kind ≠ .statusReply
          ∨ ∃ h j, x.origin = .job h ∧ s.job h = some j ∧ j.cancel = true) →
        evaluate g x chars s = endExchange g y (.reply r) none valid)
      ∧ (¬retiring → x.stage = .prelude → r.kind = .statusReply →
        ∀ h j i e, x.origin = .job h → s.job h = some j → j.cancel = false → x.entry = some i →
          s.entry i = some e →
          evaluate g x chars s = enterDefer g
            (((statusRule i x.origin r valid).updEntry i fun e =>
              { e with sync := .synced, toggle := !e.toggle }).updSeg g fun c => { c with
                exchange := some { y with
                  stage := .main
                  kind := if j.kind = .read then .read else .write
                  port := j.port
                  toggle := !e.toggle
                  resync := false } }))

/-! ## The end of an exchange -/

/-- The hand-offs at an exchange's end, in their order: toggle and sync, health, status and attention, the
origin's owner, and the freeing of a RETIRING entry. Then the record is emptied and the segment enters FAULTED,
or becomes HALTED from DRAINING, with its SEGMENT_STATE last, or picks (R65, R77, R87, R90). -/
def Obligations.ExchangeEndsInOrder : Prop :=
  ∀ (g : Seg) (x : Exchange) (form : EndForm) (fault : Option SegFault) (s : State),
    let handed := handOrigin g x form (handStatus x form (handOutcome x form (setToggle x form s)))
    let v := match x.entry with
      | none => handed
      | some i => if (handed.entry i).any (·.state == .retiring) then handed.setEntry i none else handed
    let stops (state : SegState) (v : State) : State := v.updSeg g fun c => { c with
      state := state
      exchange := none
      sweep := { c.sweep with timer := none } }
    let old := (v.seg g).state
    let t := endExchange g x form fault s
    (fault = some .contention → t = eventReport (.segmentState g old .faulted .contention) (stops .faulted v))
    ∧ (fault = some .jabber → t = eventReport (.segmentState g old .faulted .jabber) (stops .faulted v))
    ∧ (fault = none → old = .draining → t = eventReport (.segmentState g .draining .halted .stopped)
        ((stops .halted v).updSeg g fun c => { c with streak := 0 }))
    ∧ (fault = none → old = .running → t = pick g (v.updSeg g fun c => { c with exchange := none }))

/-- The toggle and sync of an entry at the end of an exchange that names it, by the form of the end. The other
fields, the other entries and all else stay (R62). -/
def Obligations.ToggleAndSyncFollowTheEnd : Prop :=
  ∀ (x : Exchange) (i : Index) (e : Entry) (s : State), x.entry = some i → s.entry i = some e →
    let unsynced := s.setEntry i (some { e with sync := .unsynced })
    (e.state = .retiring → ∀ form, setToggle x form s = s)
    ∧ (e.state ≠ .retiring →
      (∀ r, r.kind ≠ .busy → setToggle x (.reply r) s
        = s.setEntry i (some { e with toggle := !e.toggle, sync := .synced }))
      ∧ (∀ r, r.kind = .busy → setToggle x (.reply r) s = s)
      ∧ (∀ c, setToggle x (.failed c) s = if x.unanswered then unsynced else s)
      ∧ (∀ c, setToggle x (.cut c) s = if x.unanswered then unsynced else s))

/-- The health of an entry after an exchange with it. GOOD clears the counts and makes ENLISTED and SILENT
ONLINE; FAILED counts a miss, which at the limit makes it SILENT, and in SILENT a silent fail, which at the
limit makes it OFFLINE, ends its jobs and takes it off the attention list; NEUTRAL changes nothing. Each move
is reported (R7 to R11, R13, R43). A RETIRING entry is handed nothing, whatever the form of the end (R12). -/
def Obligations.HealthFollowsTheOutcome : Prop :=
  ∀ (x : Exchange) (i : Index) (e : Entry) (s : State), x.entry = some i → s.entry i = some e →
    (e.state = .retiring → ∀ form, handOutcome x form s = s)
    ∧ (e.state ≠ .retiring →
    let c := (s.seg e.seg).config
    let good := { e with misses := 0, silentFails := 0, goodReplies := satInc e.goodReplies }
    let moved (old new : StationState) (cause : MoveCause) : ReportBody :=
      .stationState e.seg e.addr old new cause
    (∀ r, (e.state = .enlisted ∨ e.state = .silent → handOutcome x (.reply r) s
        = eventReport (moved e.state .online .contact) (s.setEntry i (some { good with state := .online })))
      ∧ (e.state = .online → handOutcome x (.reply r) s = s.setEntry i (some good)))
    ∧ (∀ k, k ≠ .contention →
      (e.state = .enlisted ∨ e.state = .online →
        (e.misses + 1 ≠ c.missLimit → handOutcome x (.failed (.fault k)) s
          = s.setEntry i (some { e with misses := e.misses + 1 }))
        ∧ (e.misses + 1 = c.missLimit → handOutcome x (.failed (.fault k)) s
          = eventReport (moved e.state .silent .misses)
            (s.setEntry i (some { e with state := .silent, misses := 0, silentFails := 0 }))))
      ∧ (e.state = .silent →
        (e.silentFails + 1 ≠ c.offlineLimit → handOutcome x (.failed (.fault k)) s
          = s.setEntry i (some { e with silentFails := e.silentFails + 1 }))
        ∧ (e.silentFails + 1 = c.offlineLimit →
          let v := eventReport (moved .silent .offline .silence)
            (s.setEntry i (some { e with state := .offline, silentFails := e.silentFails + 1 }))
          let theirs (h : Handle) : Bool :=
            (v.job h).any fun j => j.kind != .broadcast && j.seg == e.seg && j.addr == e.addr
          let jobs := ((v.seg e.seg).urgent ++ (v.seg e.seg).normal ++ (v.seg e.seg).waitSet).filter theirs
          handOutcome x (.failed (.fault k)) s
            = leaveAttention i (completeJobs jobs .stationOffline v))))
    ∧ handOutcome x (.failed (.fault .contention)) s = s
    ∧ handOutcome x (.failed .jabber) s = s
    ∧ (∀ f, handOutcome x (.cut f) s = s)
    ∧ handOutcome x .sent s = s)

/-- A STATUS_REPLY sets the last status and is then dealt with by origin and mark, after a flagged reply has put
an unmarked ENLISTED or ONLINE entry at the tail of the attention list (R96, R99). A flagged reply of another
kind joins the list alone, and a failed follow-up leaves it (R98). An exchange that is cut short, sent or retired
changes nothing here (R64), and for a RETIRING entry no end of any form does (R12). -/
def Obligations.StatusAndAttention : Prop :=
  ∀ (x : Exchange) (i : Index) (e : Entry) (r : Reply) (s : State), x.entry = some i → s.entry i = some e →
    (e.state = .retiring → ∀ form, handStatus x form s = s)
    ∧ (e.state ≠ .retiring →
    let status := r.payload.getD 0 0#8
    let joins : Prop := r.attention = true ∧ e.attention = false ∧ (e.state = .enlisted ∨ e.state = .online)
    let joined := (s.setEntry i (some { e with attention := true })).updSeg e.seg fun c =>
      { c with attention := c.attention ++ [i] }
    let tells : ReportBody := .attention e.seg e.addr status (r.payload.drop 1)
    let known (v : State) : State := v.updEntry i fun e => { e with lastStatus := some status }
    (r.kind ≠ .statusReply →
      (joins → handStatus x (.reply r) s = joined) ∧ (¬joins → handStatus x (.reply r) s = s))
    ∧ (r.kind = .statusReply →
      (joins → handStatus x (.reply r) s = statusReport i x.origin e r (known joined))
      ∧ (¬joins → handStatus x (.reply r) s = statusReport i x.origin e r (known s))
      ∧ ∀ v m, v.entry i = some m →
        statusReport i .attention e r v = leaveAttention i (eventReport tells v)
        ∧ (∀ h, statusReport i (.job h) e r v = leaveAttention i v)
        ∧ (m.attention = true → statusReport i .sweep e r v = leaveAttention i (eventReport tells v))
        ∧ (m.attention = false → e.lastStatus = some status → statusReport i .sweep e r v = v)
        ∧ (m.attention = false → e.lastStatus ≠ some status → statusReport i .sweep e r v
          = eventReport (.statusChanged e.seg e.addr e.lastStatus status) v))
    ∧ (∀ f, (x.origin = .attention → handStatus x (.failed f) s = leaveAttention i s)
      ∧ (x.origin ≠ .attention → handStatus x (.failed f) s = s))
    ∧ (∀ f, handStatus x (.cut f) s = s) ∧ handStatus x .sent s = s ∧ ∀ r, handStatus x (.retired r) s = s)

/-- What becomes of a job when its exchange ends: it completes with the outcome and data of the reply or
failure, CANCELLED where its cancel is requested and nothing else answers; it waits after a BUSY below the busy
limit; or it returns to the head of its lane (R34 to R37, R39). That the waiting set stands in ascending order,
where `insertAsc` puts the handle, is the model's choice (log entry 19), and so is the end STATION_BUSY of a job
whose busy count stands above the limit (log entry 25). -/
def Obligations.JobsEndOrReturn : Prop :=
  ∀ (g : Seg) (h : Handle) (j : Job) (x : Exchange) (s : State), s.job h = some j → x.origin = .job h →
    let ends (form : EndForm) (o : JobOutcome) (d : List Byte) : Prop :=
      handOrigin g x form s = completeJob h o d s
    let c := (s.seg g).config
    (∀ r, r.kind = .data → ends (.reply r) .data r.payload ∧ ends (.retired (some r)) .data r.payload)
    ∧ (∀ r, r.kind = .done → ends (.reply r) .done [] ∧ ends (.retired (some r)) .done [])
    ∧ (∀ r, r.kind = .refuse → ends (.reply r) .refused r.payload ∧ ends (.retired (some r)) .refused r.payload)
    ∧ (∀ r, r.kind = .statusReply →
      (x.stage = .main → ends (.reply r) .status r.payload ∧ ends (.retired (some r)) .status r.payload)
      ∧ (x.stage = .prelude → ends (.reply r) .cancelled [] ∧ ends (.retired (some r)) .cancelled []))
    ∧ (∀ r, r.kind = .busy → ends (.retired (some r)) .cancelled []
      ∧ (j.cancel = true → ends (.reply r) .cancelled [])
      ∧ (j.cancel = false → c.busyLimit ≤ j.busy → ends (.reply r) .stationBusy [])
      ∧ (j.cancel = false → j.busy < c.busyLimit → handOrigin g x (.reply r) s
        = (s.setJob h (some { j with
            busy := j.busy + 1
            state := .waiting
            backoff := some (c.busyBackoff * 1152000) })).updSeg g fun c =>
              { c with waitSet := insertAsc h c.waitSet }))
    ∧ ends .sent .done []
    ∧ (j.cancel = true → ∀ f, ends (.failed f) .cancelled [])
    ∧ (j.cancel = false → ends (.failed (.fault .noReply)) .noReply []
      ∧ ends (.failed (.fault .contention)) .contention []
      ∧ ∀ k, k.isReplyFault = true → ends (.failed (.fault k)) .replyFault [])
    ∧ ends (.retired none) .cancelled []
    ∧ (∀ f, handOrigin g x (.cut f) s
      = (s.setJob h (some { j with state := .queued })).updSeg g fun c => { c with
          urgent := if j.lane = .urgent then h :: c.urgent else c.urgent
          normal := if j.lane = .normal then h :: c.normal else c.normal })

/-- What the discovery unit takes from the end of its probe: a find is reported FOUND by the reservation and
held with the admission timer started; an unclear one is reported and the unit resumes; with no reply the cursor
passes and the unit looks on; after CONTENTION or a cut the address stays. A void probe gives no outcome
(R114, R115, R117, R118). -/
def Obligations.ProbesEnd : Prop :=
  ∀ (g : Seg) (x : Exchange) (m : ProbeMark) (s : State), x.origin = .probe → (s.seg g).disc.mark = some m →
    let d := (s.seg g).disc
    let unit (f : Discovery → Discovery) (v : State) : State :=
      v.updSeg g fun c => { c with disc := { f c.disc with mark := none } }
    let founds (identity : Option (List Byte)) (unclear : Bool) : State := s.updQueue fun q => { q with
      reports := q.reports ++ [⟨nextNumber q.lastNumber, .found g m.addr identity unclear⟩]
      reservations := q.reservations - 1
      lastNumber := nextNumber q.lastNumber }
    let held (identity : Option (List Byte)) : State := unit (fun u => { u with
      state := .held
      cursor := m.addr + 1
      counts := { u.counts with probed := u.counts.probed + 1, found := u.counts.found + 1 }
      record := some ⟨m.addr, identity, (s.seg g).config.admissionTimeout * 1152000000⟩ })
        (founds identity false)
    (d.state ≠ .probing → ∀ form, handOrigin g x form s = unit id s)
    ∧ (d.state = .probing → m.void = .stopped → ∀ form, handOrigin g x form s = unit id s)
    ∧ (d.state = .probing → m.void = .added → ∀ form, handOrigin g x form s
      = (lookDisc g (unit (fun u => { u with cursor := m.addr + 1 }) s)).1)
    ∧ (d.state = .probing → m.void = .none →
      (∀ r, r.kind = .present → handOrigin g x (.reply r) s = held (some r.payload))
      ∧ (∀ r, r.kind = .busy → handOrigin g x (.reply r) s = held none)
      ∧ handOrigin g x (.failed (.fault .noReply)) s = (lookDisc g (unit (fun u => { u with
          cursor := m.addr + 1
          counts := { u.counts with probed := u.counts.probed + 1 } }) s)).1
      ∧ handOrigin g x (.failed (.fault .contention)) s = (lookDisc g (unit id s)).1
      ∧ (∀ k, k.isReplyFault = true → handOrigin g x (.failed (.fault k)) s = resumeDisc g (unit (fun u => { u with
          cursor := m.addr + 1
          counts := { u.counts with probed := u.counts.probed + 1, unclear := u.counts.unclear + 1 } })
            (founds none true)))
      ∧ ∀ f, handOrigin g x (.cut f) s = unit id s)

/-- The sweep timer restarts at its expiry; a pass begins and looks, and a free segment picks if it finds a
member; in a pass a repeat falls due, or an overrun is counted (R103, R104). A step that ends closes and the
sweep looks on; one cut short is kept (R106). A BUSY, or a flagged REFUSE, sends a follow-up's entry on the
attention list to its tail, and an unflagged REFUSE takes it off; a follow-up that ends without a reply changes
nothing here (R98, R59), where a failed one has left the list before (StatusAndAttention). -/
def Obligations.SweepsAndFollowUps : Prop :=
  ∀ (g : Seg) (s : State),
    (s.rstnLow = false → ∀ left, (s.seg g).sweep.timer = some left →
      let u := s.elapse left
      let period := (s.seg g).config.sweepPeriod
      let sweeps (f : Sweep → Sweep) : State := u.updSeg g fun c => { c with
        sweep := { f c.sweep with timer := if period = 0 then none else some (period * 1152000) } }
      let begun := sweeps fun w => { w with active := true, cursor := 0, repeatDue := false }
      ((s.seg g).sweep.active = false → exec (.sweepTimerExpiry g) s = .next
        (match nextMember begun g 0 with
        | some _ => pick g begun
        | none => sweeps fun w => { w with active := false, cursor := 0, repeatDue := false }))
      ∧ ((s.seg g).sweep.active = true → (s.seg g).sweep.repeatDue = false →
        exec (.sweepTimerExpiry g) s = .next (sweeps fun w => { w with repeatDue := true }))
      ∧ ((s.seg g).sweep.active = true → (s.seg g).sweep.repeatDue = true →
        exec (.sweepTimerExpiry g) s = .next ((sweeps id).updSeg g fun c => { c with
          counters := { c.counters with sweepOverruns := satInc c.counters.sweepOverruns } })))
    ∧ (∀ x, x.origin = .sweep →
      (∀ f, handOrigin g x (.cut f) s
        = s.updSeg g fun c => { c with sweep := { c.sweep with cursor := x.addr - 1 } })
      ∧ ∀ form, (∀ f, form ≠ .cut f) → handOrigin g x form s = (lookSweep g s).1)
    ∧ ∀ x i, x.origin = .attention → x.entry = some i →
      (∀ r e, s.entry i = some e → r.kind = .busy ∨ (r.kind = .refuse ∧ r.attention = true) →
        (i ∈ (s.seg e.seg).attention → handOrigin g x (.reply r) s = s.updSeg e.seg fun c =>
          { c with attention := c.attention.filter (· ≠ i) ++ [i] })
        ∧ (i ∉ (s.seg e.seg).attention → handOrigin g x (.reply r) s = s))
      ∧ (∀ r, r.kind = .refuse → r.attention = false → handOrigin g x (.reply r) s = leaveAttention i s)
      ∧ (∀ r, r.kind = .statusReply → handOrigin g x (.reply r) s = s)
      ∧ ∀ form, (∀ r, form ≠ .reply r) → handOrigin g x form s = s

/-- When the defer limit passes in DEFER the attempt ends without sending, uncounted: the exchange ends retired,
or failed under a cancel request, or is cut short, and the segment enters FAULTED with cause JABBER
(R150, R57, R88). -/
def Obligations.JabberFaultsTheSegment : Prop :=
  ∀ (g : Seg) (s : State) (x : Exchange) (left : Time), s.rstnLow = false →
    (s.seg g).exchange = some x → x.phase = .defer → (s.seg g).line.deferTimer = some left →
    let v := (s.elapse left).updSeg g fun c => { c with line := { c.line with deferTimer := none } }
    let retiring : Prop := ∃ i e, x.entry = some i ∧ s.entry i = some e ∧ e.state = .retiring
    let cancelled : Prop := ∃ h j, x.origin = .job h ∧ s.job h = some j ∧ j.cancel = true
    let ends (form : EndForm) : Prop :=
      exec (.deferTimerExpiry g) s = .next (endExchange g (x.elapse left) form (some .jabber) v)
    (retiring → ends (.retired none))
    ∧ (¬retiring → cancelled → ends (.failed .jabber))
    ∧ (¬retiring → ¬cancelled → ends (.cut .fault))

/-- The end of a break releases the line, starts the defer timer of an attempt in DEFER, and a free segment
picks (R147, R150). A confirmed start bit is line activity and stops the character gap timer; the line's return
to mark ends a break (R144, R148, R55). The end of the re-edge interval asserts ATTN if the queue holds a report
(R163, R162). A start bit is confirmed half a bit time after its fall, in the format in force at the fall, which
the character keeps whatever the configuration has become since (R140, R144). As time passes every running timer
goes down by it, the reply timer in AWAIT alone; the idle time grows by it exactly while the transmitter is QUIET
and the receiver waits, or by what is left of it after the end of a character; and no more changes (R27, R31, R54,
R55, R103, R119, R141, R148, R150, R163). The model's choices in it: a start bit in the middle of a character, at
space or not at its own middle, and a return to mark of a line that is not at space, let time pass alone (log entry
4); the idle time and the gap timer run up to a start bit's confirmation (log entry 23); a change of configuration
at the moment of a fall may come first or last (log entry 24); a timer stands at 0 until its expiry is taken (log
entry 3); nothing runs while RSTN is low (log entry 13). -/
def Obligations.LineAndPinHappenings : Prop :=
  ∀ (g : Seg) (w since : Time) (s : State), (s.rstnLow = true → s.elapse w = s) ∧ (s.rstnLow = false →
    let u := s.elapse w
    let c := s.seg g
    let less (timer : Option Time) : Option Time := timer.map (· - w)
    let confirmed := u.updSeg g fun c => { c with
      line := { c.line with rx := .inChar since, idle := 0 }
      exchange := c.exchange.map fun x => { x with gapTimer := none } }
    let looks : Prop := (u.seg g).line.rx = .waiting ∨ ∃ left, (u.seg g).line.rx = .ending left
    let now := bitTime (u.seg g).config / 2
    let changes := (u.seg g).line.changes
    (u.table = s.table ∧ u.rstnLow = false ∧ u.pending = s.pending
      ∧ u.queue = { s.queue with reEdge := less s.queue.reEdge }
      ∧ u.link = { s.link with gap := s.link.gap + w }
      ∧ (∀ h, u.job h = (s.job h).map fun j =>
        { j with deadlineTimer := less j.deadlineTimer, backoff := less j.backoff })
      ∧ u.seg g = { c with
        exchange := c.exchange.map fun x => { x with
          replyLeft := if x.phase = .await then x.replyLeft - w else x.replyLeft
          gapTimer := less x.gapTimer }
        sweep := { c.sweep with timer := less c.sweep.timer }
        disc := { c.disc with record := c.disc.record.map fun r => { r with timer := r.timer - w } }
        line :=
          { tx := match c.line.tx with
              | .quiet => .quiet
              | .frame chars echoed left => .frame chars echoed (left - w)
              | .guard left => .guard (left - w)
              | .brk left p => .brk (left - w) p
            rx := match c.line.rx with
              | .ending left => if w < left then .ending (left - w) else .waiting
              | rx => rx
            idle := c.line.idle + match c.line.tx, c.line.rx with
              | .quiet, .waiting => w
              | .quiet, .ending left => w - left
              | _, _ => 0
            deferTimer := less c.line.deferTimer
            changes := (c.line.changes.map fun f => { f with age := f.age + w }).filter (·.age ≤ 60000) } })
    ∧ (∀ left p, c.line.tx = .brk left p → exec (.abortBreakEnd g) s = .next (pick g <|
      (s.elapse left).updSeg g fun c => { c with line := { c.line with
        tx := .quiet
        idle := 0
        deferTimer := if c.exchange.isSome then some (c.config.deferLimit * 1152000) else none } }))
    ∧ (looks → since = now → (∀ f ∈ changes, since ≤ f.age) →
      exec (.startBitConfirmed ⟨w, since⟩ g) s = .next confirmed)
    ∧ (∀ later f older, looks → changes = later ++ f :: older → since = f.half → f.age ≤ since →
      (∀ k ∈ later, k.age ≤ since) → (∀ k ∈ older, since ≤ k.age) →
      exec (.startBitConfirmed ⟨w, since⟩ g) s = .next confirmed)
    ∧ (¬looks ∨ (since ≠ now ∧ ∀ f ∈ changes, since ≠ f.half) →
      exec (.startBitConfirmed ⟨w, since⟩ g) s = .next u)
    ∧ ((u.seg g).line.rx = .atSpace → exec (.lineReturnToMark w g) s = .next
      (u.updSeg g fun c => { c with line := { c.line with rx := .waiting, idle := 0 } }))
    ∧ ((u.seg g).line.rx ≠ .atSpace → exec (.lineReturnToMark w g) s = .next u)
    ∧ (∀ left, s.queue.reEdge = some left → ∃ t, exec .reEdgeIntervalEnd s = .next t
      ∧ t = { s.elapse left with queue := { (s.elapse left).queue with reEdge := none } }
      ∧ (attnAsserted t = true ↔ s.queue.reports ≠ [])))

/-! ## Characters and segment frames -/

/-- A character is sent as a start bit at space, eight data bits, the least significant first, the parity bit
that makes the number of 1s even or odd, and the stop bits at mark (R140). What the transmitter sends of a
character, the receiver forms into that character, under every format; with parity, a character with one data bit
changed is erroneous; one with a stop bit at space is erroneous, and a character time of space alone is a break
(R144). A bit time is one second divided by the configured rate (R140), in the model's unit of time (log entry 2). -/
def Obligations.CharacterRoundTrip : Prop :=
  ∀ (c : SegConfig) (v : Byte),
    let sent := charLevels c v
    let ones := [0, 1, 2, 3, 4, 5, 6, 7].countP v.getLsbD
    let parity : List Bool := match c.parity with
      | .none => []
      | .even => [decide (ones % 2 = 1)]
      | .odd => [decide (ones % 2 = 0)]
    let stops : List Bool := match c.stopBits with
      | .one => [true]
      | .two => [true, true]
    sent = [false, v.getLsbD 0, v.getLsbD 1, v.getLsbD 2, v.getLsbD 3, v.getLsbD 4, v.getLsbD 5, v.getLsbD 6,
      v.getLsbD 7] ++ parity ++ stops
    ∧ itemOfSamples c sent = .good v
    ∧ sent.length * bitTime c = charTime c
    ∧ (c.parity ≠ .none → ∀ k < 8, ∃ w, w ≠ v
      ∧ itemOfSamples c (sent.modify (k + 1) (! ·)) = .erroneous w)
    ∧ (∀ k < stops.length, v ≠ 0x00#8 → itemOfSamples c (sent.modify (9 + parity.length + k) (! ·)) = .erroneous v)
    ∧ itemOfSamples c (List.replicate sent.length false) = .brk
    ∧ (let second := 1152000000
      let bits (r : Rate) : Nat := bitTime { c with rate := r }
      bits .r9600 * 9600 = second ∧ bits .r19200 * 19200 = second ∧ bits .r38400 * 38400 = second
        ∧ bits .r57600 * 57600 = second ∧ bits .r115200 * 115200 = second ∧ bits .r230400 * 230400 = second
        ∧ bits .r460800 * 460800 = second ∧ bits .r921600 * 921600 = second)

/-- A reply that a station builds for a master frame, of a kind and payload length that R133 allows and with the
frame's address and toggle, is assembled whole from its characters and classified valid with its kind, payload
and attention flag, whatever its port. With the other toggle it is STALE, with another address WRONG_STATION,
and with another CRC a CRC_ERROR whatever else it says (R127, R128, R133, R135 to R137). A reply that is right in
CRC, address and toggle is a BAD_KIND with a reserved CTRL bit set, or with a kind that does not answer the frame,
and a BAD_LENGTH with a kind that does but a payload length that its kind does not allow (R133, R137). A LEN above
64 is a BAD_LENGTH as it arrives. -/
def Obligations.SegmentFrameRoundTrip : Prop :=
  ∀ (addr port : Nat) (sent : MasterKind) (toggle : Bool) (r : Reply) (lo hi : Nat),
    addr < 256 → replyAllowed sent r.kind = some (lo, hi) → lo ≤ r.payload.length → r.payload.length ≤ hi →
    let chars := frameAfterSof addr (ctrlByte r.kind.code toggle r.attention) port r.payload
    let feed : List Byte → List Byte → Assembly
      | got, [] => .more got
      | got, b :: bs => bs.foldl (fun a b => match a with
          | .more now => assemble now (.good b)
          | a => a) (assemble got (.good b))
    feed [] chars = .complete chars
    ∧ classify addr sent toggle chars = .valid r
    ∧ classify addr sent (!toggle) chars = .stale
    ∧ (∀ other, other ≠ addr → classify other sent toggle chars = .fault .wrongStation)
    ∧ (∀ covered crc : List Byte, crc.length = 2 → crc ≠ crcBytes covered →
      classify addr sent toggle (covered ++ crc) = .fault .crcError)
    ∧ (∀ (ctrl : Byte) (payload : List Byte), ctrl.getLsbD 4 = toggle →
      let judged := classify addr sent toggle (frameAfterSof addr ctrl port payload)
      (64 ≤ ctrl.toNat → judged = .fault .badKind)
      ∧ (ctrl.toNat < 64 → (∀ k range, replyAllowed sent k = some range → k.code ≠ ctrl.toNat % 16) →
        judged = .fault .badKind)
      ∧ (ctrl.toNat < 64 → ∀ k lo hi, k.code = ctrl.toNat % 16 → replyAllowed sent k = some (lo, hi) →
        payload.length < lo ∨ hi < payload.length → judged = .fault .badLength))
    ∧ ∀ (received : List Byte) (len : Byte), received.length = 3 → 64 < len.toNat →
      assemble received (.good len) = .fault .badLength

/-! ## The laws -/

/-- The laws of the next two statements hold right after the release of RSTN; the ascending order of the waiting
sets among them is the model's choice (log entry 19). -/
def Obligations.LawsHoldAtReset : Prop := Inv State.reset ∧ PlaceLaws State.reset

/-- Every step keeps the laws: reservations equal live jobs plus PROBING units (R154), reports and reservations
never exceed the 64 places (R155), report numbers follow one another (R159), no two entries have one segment and
address (R1), a held address is that of no entry (R1), live tags are distinct (R30), a segment has an exchange
only while RUNNING or DRAINING (R73), and every configuration field is in its range (R79, R80). -/
def Obligations.LawsKeptByEveryStep : Prop :=
  ∀ s t : State, Inv s → step s = .next t → Inv t

/-- Every step keeps the laws of the places. While RSTN is high, a live job stands at the one place that its state
names and nowhere else (R25, R26, R27), only a never-started QUEUED job has a deadline timer and exactly the WAITING
jobs a backoff timer (R27, R31), and a DRAINING segment has an exchange (R73, R77). Always, an entry stands on its
segment's attention list exactly while its mark is set, once, and its mark is not set while it is OFFLINE or
RETIRING (R95), and each waiting set stands in ascending order of handle, the order in which R10, R15 and R45 end
its jobs; that order of a set which R27 leaves unordered is the model's choice (log entry 19). -/
def Obligations.PlacesKeptByEveryStep : Prop :=
  ∀ s t : State, PlaceLaws s → step s = .next t → PlaceLaws t

/-- Short of a restart and of the release of RSTN, no command loses a report or a job: new reports enter at the
tail alone (R153), the head leaves only by an acknowledgement that names its number (R161), and every live job is
still live with the tag, station, port, kind, lane, deadline and request that it was taken with, or its RESULT is
among the new reports (R24, R38, R156). It holds in every state. -/
def Obligations.NoReportOrJobIsLost : Prop :=
  ∀ (c : Instr) (s t : State), exec c s = .next t → (∀ f, c ≠ .restart f) → (∀ w, c ≠ .rstnRelease w) →
    ∃ kept added : List Report, t.queue.reports = kept ++ added
      ∧ (kept = s.queue.reports ∨ ∃ code f r, c.request = some (code, f)
          ∧ s.queue.reports = r :: kept ∧ r.number = f.ack.toNat)
      ∧ ∀ h j, s.job h = some j →
        (∃ k, t.job h = some k ∧ k.tag = j.tag ∧ k.seg = j.seg ∧ k.addr = j.addr ∧ k.port = j.port
          ∧ k.kind = j.kind ∧ k.lane = j.lane ∧ k.deadline = j.deadline ∧ k.request = j.request)
        ∨ ∃ r ∈ added, ∃ o a b l m d, r.body = .result j.tag o a b l m d

/-! ## Pins -/

/-- What the pins show, in every state. DIR and TXD follow the transmitter's state and the polarity, a break
keeping the polarity it began with, and TXD within a frame is the level of the bit that is being sent (R141, R142).
SDO shows the part frame of the window bit by bit, each byte most significant bit first, then 1s; 1s alone in an
ignored window; and is not driven without a window (R167, R168). ATTN is asserted exactly while the queue holds a
report and the re-edge interval is idle (R162). While RSTN is low every pin is released (R184). -/
def Obligations.PinsFollowTheState : Prop :=
  ∀ s : State,
    (s.rstnLow = false →
      (∀ g,
        let c := (s.seg g).config
        let tx := (s.seg g).line.tx
        (tx = .quiet → dirPin s g = (c.polarity == .lowSends) ∧ txdPin s g = .mark ∧ txdLevel s g = true)
        ∧ (∀ chars echoed left, tx = .frame chars echoed left →
          dirPin s g = (c.polarity == .highSends) ∧ txdPin s g = .characters chars
          ∧ ∀ k n v, chars[k]? = some v → n < (charLevels c v).length →
            left + k * charTime c + n * bitTime c ≤ chars.length * charTime c →
            chars.length * charTime c < left + k * charTime c + (n + 1) * bitTime c →
            (charLevels c v)[n]? = some (txdLevel s g))
        ∧ (∀ left, tx = .guard left →
          dirPin s g = (c.polarity == .highSends) ∧ txdPin s g = .mark ∧ txdLevel s g = true)
        ∧ ∀ left p, tx = .brk left p →
          dirPin s g = (p == .highSends) ∧ txdPin s g = .space ∧ txdLevel s g = false)
      ∧ (∀ frame, s.link.window = .serving frame →
        (∀ k n v, frame[k]? = some v → n < 8 → sdoBit s (8 * k + n) = some (v.getLsbD (7 - n)))
        ∧ ∀ n, 8 * frame.length ≤ n → sdoBit s n = some true)
      ∧ (s.link.window = .ignored → ∀ n, sdoBit s n = some true)
      ∧ (s.link.window = .closed ∨ s.link.window = .noWindow → ∀ n, sdoBit s n = none))
    ∧ (attnAsserted s = true ↔ s.rstnLow = false ∧ s.queue.reports ≠ [] ∧ s.queue.reEdge = none)
    ∧ (s.rstnLow = true → (∀ g, dirPin s g = false ∧ txdPin s g = .mark ∧ txdLevel s g = true)
      ∧ ∀ n, sdoBit s n = none)
end

