-- ==== Sys2Proof/Laws/Bits.lean ====
section
/-! SUPPORT. The bits of the SPI port: whole bytes come back from their bits, and a tail of fewer than eight
bits is discarded. -/

namespace Sys2Proof.Machine

@[simp] theorem spiBits_nil : spiBits [] = [] := rfl

theorem spiBits_cons (b : Byte) (bs : List Byte) : spiBits (b :: bs) = spiBits [b] ++ spiBits bs := by
  simp [spiBits]

@[simp] theorem spiBits_append (a b : List Byte) : spiBits (a ++ b) = spiBits a ++ spiBits b := by
  simp [spiBits]

@[simp] theorem spiBits_length (bs : List Byte) : (spiBits bs).length = 8 * bs.length := by
  induction bs with
  | nil => rfl
  | cons b bs ih => rw [spiBits_cons, List.length_append, ih]; simp [spiBits]; omega

/-- Fewer than eight bits make up no byte. -/
theorem bytesOfBits_tail : ∀ {tail : List Bool}, tail.length < 8 → bytesOfBits tail = []
  | [], _ => rfl
  | [_], _ => rfl
  | [_, _], _ => rfl
  | [_, _, _], _ => rfl
  | [_, _, _, _], _ => rfl
  | [_, _, _, _, _], _ => rfl
  | [_, _, _, _, _, _], _ => rfl
  | [_, _, _, _, _, _, _], _ => rfl
  | _ :: _ :: _ :: _ :: _ :: _ :: _ :: _ :: _, h => by simp at h; omega

/-- The eight bits of a byte, most significant first, make it up. -/
theorem byte_of_spiBits (b : Byte) (rest : List Bool) :
    bytesOfBits (spiBits [b] ++ rest) = b :: bytesOfBits rest := by
  have key : ∀ b : Byte, BitVec.ofNat 8 (([7, 6, 5, 4, 3, 2, 1, 0].map b.getLsbD).foldl
      (fun n b => 2 * n + b.toNat) 0) = b := by decide
  simpa [spiBits, bytesOfBits] using key b

/-- The bytes come back from their bits, with the bytes of whatever is clocked after them (R167). -/
theorem bytesOfBits_spiBits (bs : List Byte) (rest : List Bool) :
    bytesOfBits (spiBits bs ++ rest) = bs ++ bytesOfBits rest := by
  induction bs with
  | nil => rfl
  | cons b bs ih => rw [spiBits_cons, List.append_assoc, byte_of_spiBits, ih, List.cons_append]

end Sys2Proof.Machine
end

