-- ==== Sys2Proof/Laws/State.lean ====
section
/-! SUPPORT. One lemma per field of the state per update, and the reads of one segment, entry and job after
each update. -/

namespace Sys2Proof.Machine

/-! ## One store, read after a change of all its items -/

@[simp] theorem mapStore_get {α β : Type} {n : Nat} (f : α → β) (v : Vector α n) (i : Fin n) :
    (mapStore f v)[i] = f v[i] := by
  simp [mapStore]

@[simp] theorem mapStore_toList {α β : Type} {n : Nat} (f : α → β) (v : Vector α n) :
    (mapStore f v).toList = v.toList.map f := by
  simp [mapStore]

/-! ## The fields that an update does not name -/

@[simp] theorem updSeg_table (g : Seg) (f : Column → Column) (s : State) : (s.updSeg g f).table = s.table := rfl
@[simp] theorem updSeg_jobs (g : Seg) (f : Column → Column) (s : State) : (s.updSeg g f).jobs = s.jobs := rfl
@[simp] theorem updSeg_queue (g : Seg) (f : Column → Column) (s : State) : (s.updSeg g f).queue = s.queue := rfl
@[simp] theorem updSeg_link (g : Seg) (f : Column → Column) (s : State) : (s.updSeg g f).link = s.link := rfl
@[simp] theorem updSeg_rstnLow (g : Seg) (f : Column → Column) (s : State) : (s.updSeg g f).rstnLow = s.rstnLow := rfl
@[simp] theorem updSeg_pending (g : Seg) (f : Column → Column) (s : State) : (s.updSeg g f).pending = s.pending := rfl
@[simp] theorem updSeg_entry (g : Seg) (f : Column → Column) (s : State) (k : Index) : (s.updSeg g f).entry k = s.entry k := rfl
@[simp] theorem updSeg_job (g : Seg) (f : Column → Column) (s : State) (k : Handle) : (s.updSeg g f).job k = s.job k := rfl

@[simp] theorem setEntry_jobs (i : Index) (e : Option Entry) (s : State) : (s.setEntry i e).jobs = s.jobs := rfl
@[simp] theorem setEntry_segs (i : Index) (e : Option Entry) (s : State) : (s.setEntry i e).segs = s.segs := rfl
@[simp] theorem setEntry_queue (i : Index) (e : Option Entry) (s : State) : (s.setEntry i e).queue = s.queue := rfl
@[simp] theorem setEntry_link (i : Index) (e : Option Entry) (s : State) : (s.setEntry i e).link = s.link := rfl
@[simp] theorem setEntry_rstnLow (i : Index) (e : Option Entry) (s : State) : (s.setEntry i e).rstnLow = s.rstnLow := rfl
@[simp] theorem setEntry_pending (i : Index) (e : Option Entry) (s : State) : (s.setEntry i e).pending = s.pending := rfl
@[simp] theorem setEntry_seg (i : Index) (e : Option Entry) (s : State) (k : Seg) : (s.setEntry i e).seg k = s.seg k := rfl
@[simp] theorem setEntry_job (i : Index) (e : Option Entry) (s : State) (k : Handle) : (s.setEntry i e).job k = s.job k := rfl

@[simp] theorem updEntry_jobs (i : Index) (f : Entry → Entry) (s : State) : (s.updEntry i f).jobs = s.jobs := rfl
@[simp] theorem updEntry_segs (i : Index) (f : Entry → Entry) (s : State) : (s.updEntry i f).segs = s.segs := rfl
@[simp] theorem updEntry_queue (i : Index) (f : Entry → Entry) (s : State) : (s.updEntry i f).queue = s.queue := rfl
@[simp] theorem updEntry_link (i : Index) (f : Entry → Entry) (s : State) : (s.updEntry i f).link = s.link := rfl
@[simp] theorem updEntry_rstnLow (i : Index) (f : Entry → Entry) (s : State) : (s.updEntry i f).rstnLow = s.rstnLow := rfl
@[simp] theorem updEntry_pending (i : Index) (f : Entry → Entry) (s : State) : (s.updEntry i f).pending = s.pending := rfl
@[simp] theorem updEntry_seg (i : Index) (f : Entry → Entry) (s : State) (k : Seg) : (s.updEntry i f).seg k = s.seg k := rfl
@[simp] theorem updEntry_job (i : Index) (f : Entry → Entry) (s : State) (k : Handle) : (s.updEntry i f).job k = s.job k := rfl

@[simp] theorem setJob_table (h : Handle) (j : Option Job) (s : State) : (s.setJob h j).table = s.table := rfl
@[simp] theorem setJob_segs (h : Handle) (j : Option Job) (s : State) : (s.setJob h j).segs = s.segs := rfl
@[simp] theorem setJob_queue (h : Handle) (j : Option Job) (s : State) : (s.setJob h j).queue = s.queue := rfl
@[simp] theorem setJob_link (h : Handle) (j : Option Job) (s : State) : (s.setJob h j).link = s.link := rfl
@[simp] theorem setJob_rstnLow (h : Handle) (j : Option Job) (s : State) : (s.setJob h j).rstnLow = s.rstnLow := rfl
@[simp] theorem setJob_pending (h : Handle) (j : Option Job) (s : State) : (s.setJob h j).pending = s.pending := rfl
@[simp] theorem setJob_seg (h : Handle) (j : Option Job) (s : State) (k : Seg) : (s.setJob h j).seg k = s.seg k := rfl
@[simp] theorem setJob_entry (h : Handle) (j : Option Job) (s : State) (k : Index) : (s.setJob h j).entry k = s.entry k := rfl

@[simp] theorem updJob_table (h : Handle) (f : Job → Job) (s : State) : (s.updJob h f).table = s.table := rfl
@[simp] theorem updJob_segs (h : Handle) (f : Job → Job) (s : State) : (s.updJob h f).segs = s.segs := rfl
@[simp] theorem updJob_queue (h : Handle) (f : Job → Job) (s : State) : (s.updJob h f).queue = s.queue := rfl
@[simp] theorem updJob_link (h : Handle) (f : Job → Job) (s : State) : (s.updJob h f).link = s.link := rfl
@[simp] theorem updJob_rstnLow (h : Handle) (f : Job → Job) (s : State) : (s.updJob h f).rstnLow = s.rstnLow := rfl
@[simp] theorem updJob_pending (h : Handle) (f : Job → Job) (s : State) : (s.updJob h f).pending = s.pending := rfl
@[simp] theorem updJob_seg (h : Handle) (f : Job → Job) (s : State) (k : Seg) : (s.updJob h f).seg k = s.seg k := rfl
@[simp] theorem updJob_entry (h : Handle) (f : Job → Job) (s : State) (k : Index) : (s.updJob h f).entry k = s.entry k := rfl

@[simp] theorem updQueue_table (f : Queue → Queue) (s : State) : (s.updQueue f).table = s.table := rfl
@[simp] theorem updQueue_jobs (f : Queue → Queue) (s : State) : (s.updQueue f).jobs = s.jobs := rfl
@[simp] theorem updQueue_segs (f : Queue → Queue) (s : State) : (s.updQueue f).segs = s.segs := rfl
@[simp] theorem updQueue_link (f : Queue → Queue) (s : State) : (s.updQueue f).link = s.link := rfl
@[simp] theorem updQueue_rstnLow (f : Queue → Queue) (s : State) : (s.updQueue f).rstnLow = s.rstnLow := rfl
@[simp] theorem updQueue_pending (f : Queue → Queue) (s : State) : (s.updQueue f).pending = s.pending := rfl
@[simp] theorem updQueue_seg (f : Queue → Queue) (s : State) (k : Seg) : (s.updQueue f).seg k = s.seg k := rfl
@[simp] theorem updQueue_entry (f : Queue → Queue) (s : State) (k : Index) : (s.updQueue f).entry k = s.entry k := rfl
@[simp] theorem updQueue_job (f : Queue → Queue) (s : State) (k : Handle) : (s.updQueue f).job k = s.job k := rfl
@[simp] theorem updQueue_queue (f : Queue → Queue) (s : State) : (s.updQueue f).queue = f s.queue := rfl

@[simp] theorem updLink_table (f : Link → Link) (s : State) : (s.updLink f).table = s.table := rfl
@[simp] theorem updLink_jobs (f : Link → Link) (s : State) : (s.updLink f).jobs = s.jobs := rfl
@[simp] theorem updLink_segs (f : Link → Link) (s : State) : (s.updLink f).segs = s.segs := rfl
@[simp] theorem updLink_queue (f : Link → Link) (s : State) : (s.updLink f).queue = s.queue := rfl
@[simp] theorem updLink_rstnLow (f : Link → Link) (s : State) : (s.updLink f).rstnLow = s.rstnLow := rfl
@[simp] theorem updLink_pending (f : Link → Link) (s : State) : (s.updLink f).pending = s.pending := rfl
@[simp] theorem updLink_seg (f : Link → Link) (s : State) (k : Seg) : (s.updLink f).seg k = s.seg k := rfl
@[simp] theorem updLink_entry (f : Link → Link) (s : State) (k : Index) : (s.updLink f).entry k = s.entry k := rfl
@[simp] theorem updLink_job (f : Link → Link) (s : State) (k : Handle) : (s.updLink f).job k = s.job k := rfl
@[simp] theorem updLink_link (f : Link → Link) (s : State) : (s.updLink f).link = f s.link := rfl

@[simp] theorem updX_table (g : Seg) (f : Exchange → Exchange) (s : State) : (s.updX g f).table = s.table := rfl
@[simp] theorem updX_jobs (g : Seg) (f : Exchange → Exchange) (s : State) : (s.updX g f).jobs = s.jobs := rfl
@[simp] theorem updX_queue (g : Seg) (f : Exchange → Exchange) (s : State) : (s.updX g f).queue = s.queue := rfl
@[simp] theorem updX_link (g : Seg) (f : Exchange → Exchange) (s : State) : (s.updX g f).link = s.link := rfl
@[simp] theorem updX_rstnLow (g : Seg) (f : Exchange → Exchange) (s : State) : (s.updX g f).rstnLow = s.rstnLow := rfl
@[simp] theorem updX_pending (g : Seg) (f : Exchange → Exchange) (s : State) : (s.updX g f).pending = s.pending := rfl
@[simp] theorem updX_entry (g : Seg) (f : Exchange → Exchange) (s : State) (k : Index) : (s.updX g f).entry k = s.entry k := rfl
@[simp] theorem updX_job (g : Seg) (f : Exchange → Exchange) (s : State) (k : Handle) : (s.updX g f).job k = s.job k := rfl

@[simp] theorem updLine_table (g : Seg) (f : Line → Line) (s : State) : (s.updLine g f).table = s.table := rfl
@[simp] theorem updLine_jobs (g : Seg) (f : Line → Line) (s : State) : (s.updLine g f).jobs = s.jobs := rfl
@[simp] theorem updLine_queue (g : Seg) (f : Line → Line) (s : State) : (s.updLine g f).queue = s.queue := rfl
@[simp] theorem updLine_link (g : Seg) (f : Line → Line) (s : State) : (s.updLine g f).link = s.link := rfl
@[simp] theorem updLine_rstnLow (g : Seg) (f : Line → Line) (s : State) : (s.updLine g f).rstnLow = s.rstnLow := rfl
@[simp] theorem updLine_pending (g : Seg) (f : Line → Line) (s : State) : (s.updLine g f).pending = s.pending := rfl
@[simp] theorem updLine_entry (g : Seg) (f : Line → Line) (s : State) (k : Index) : (s.updLine g f).entry k = s.entry k := rfl
@[simp] theorem updLine_job (g : Seg) (f : Line → Line) (s : State) (k : Handle) : (s.updLine g f).job k = s.job k := rfl

@[simp] theorem updSweep_table (g : Seg) (f : Sweep → Sweep) (s : State) : (s.updSweep g f).table = s.table := rfl
@[simp] theorem updSweep_jobs (g : Seg) (f : Sweep → Sweep) (s : State) : (s.updSweep g f).jobs = s.jobs := rfl
@[simp] theorem updSweep_queue (g : Seg) (f : Sweep → Sweep) (s : State) : (s.updSweep g f).queue = s.queue := rfl
@[simp] theorem updSweep_link (g : Seg) (f : Sweep → Sweep) (s : State) : (s.updSweep g f).link = s.link := rfl
@[simp] theorem updSweep_rstnLow (g : Seg) (f : Sweep → Sweep) (s : State) : (s.updSweep g f).rstnLow = s.rstnLow := rfl
@[simp] theorem updSweep_pending (g : Seg) (f : Sweep → Sweep) (s : State) : (s.updSweep g f).pending = s.pending := rfl
@[simp] theorem updSweep_entry (g : Seg) (f : Sweep → Sweep) (s : State) (k : Index) : (s.updSweep g f).entry k = s.entry k := rfl
@[simp] theorem updSweep_job (g : Seg) (f : Sweep → Sweep) (s : State) (k : Handle) : (s.updSweep g f).job k = s.job k := rfl

@[simp] theorem updDisc_table (g : Seg) (f : Discovery → Discovery) (s : State) : (s.updDisc g f).table = s.table := rfl
@[simp] theorem updDisc_jobs (g : Seg) (f : Discovery → Discovery) (s : State) : (s.updDisc g f).jobs = s.jobs := rfl
@[simp] theorem updDisc_queue (g : Seg) (f : Discovery → Discovery) (s : State) : (s.updDisc g f).queue = s.queue := rfl
@[simp] theorem updDisc_link (g : Seg) (f : Discovery → Discovery) (s : State) : (s.updDisc g f).link = s.link := rfl
@[simp] theorem updDisc_rstnLow (g : Seg) (f : Discovery → Discovery) (s : State) : (s.updDisc g f).rstnLow = s.rstnLow := rfl
@[simp] theorem updDisc_pending (g : Seg) (f : Discovery → Discovery) (s : State) : (s.updDisc g f).pending = s.pending := rfl
@[simp] theorem updDisc_entry (g : Seg) (f : Discovery → Discovery) (s : State) (k : Index) : (s.updDisc g f).entry k = s.entry k := rfl
@[simp] theorem updDisc_job (g : Seg) (f : Discovery → Discovery) (s : State) (k : Handle) : (s.updDisc g f).job k = s.job k := rfl

@[simp] theorem count_table (g : Seg) (f : Counters → Counters) (s : State) : (s.count g f).table = s.table := rfl
@[simp] theorem count_jobs (g : Seg) (f : Counters → Counters) (s : State) : (s.count g f).jobs = s.jobs := rfl
@[simp] theorem count_queue (g : Seg) (f : Counters → Counters) (s : State) : (s.count g f).queue = s.queue := rfl
@[simp] theorem count_link (g : Seg) (f : Counters → Counters) (s : State) : (s.count g f).link = s.link := rfl
@[simp] theorem count_rstnLow (g : Seg) (f : Counters → Counters) (s : State) : (s.count g f).rstnLow = s.rstnLow := rfl
@[simp] theorem count_pending (g : Seg) (f : Counters → Counters) (s : State) : (s.count g f).pending = s.pending := rfl
@[simp] theorem count_entry (g : Seg) (f : Counters → Counters) (s : State) (k : Index) : (s.count g f).entry k = s.entry k := rfl
@[simp] theorem count_job (g : Seg) (f : Counters → Counters) (s : State) (k : Handle) : (s.count g f).job k = s.job k := rfl

/-! ## A segment, an entry, a job read after an update of one -/

theorem seg_updSeg (g : Seg) (f : Column → Column) (s : State) (k : Seg) :
    (s.updSeg g f).seg k = if k = g then f (s.seg g) else s.seg k := by
  simp only [State.updSeg, State.seg, Fin.getElem_fin, Vector.getElem_set, Fin.val_inj]
  by_cases h : k = g
  · subst h; simp
  · simp [h, Ne.symm h]

@[simp] theorem seg_updSeg_same (g : Seg) (f : Column → Column) (s : State) :
    (s.updSeg g f).seg g = f (s.seg g) := by simp [seg_updSeg]

theorem seg_updSeg_other {g k : Seg} (h : k ≠ g) (f : Column → Column) (s : State) :
    (s.updSeg g f).seg k = s.seg k := by simp [seg_updSeg, h]

theorem entry_setEntry (i : Index) (e : Option Entry) (s : State) (k : Index) :
    (s.setEntry i e).entry k = if k = i then e else s.entry k := by
  simp only [State.setEntry, State.entry, Fin.getElem_fin, Vector.getElem_set, Fin.val_inj]
  by_cases h : k = i
  · subst h; simp
  · simp [h, Ne.symm h]

theorem entry_updEntry (i : Index) (f : Entry → Entry) (s : State) (k : Index) :
    (s.updEntry i f).entry k = if k = i then (s.entry i).map f else s.entry k := by
  simp [State.updEntry, entry_setEntry]

@[simp] theorem entry_setEntry_same (i : Index) (e : Option Entry) (s : State) :
    (s.setEntry i e).entry i = e := by simp [entry_setEntry]

@[simp] theorem entry_updEntry_same (i : Index) (f : Entry → Entry) (s : State) :
    (s.updEntry i f).entry i = (s.entry i).map f := by simp [entry_updEntry]

theorem job_setJob (h : Handle) (j : Option Job) (s : State) (k : Handle) :
    (s.setJob h j).job k = if k = h then j else s.job k := by
  simp only [State.setJob, State.job, Fin.getElem_fin, Vector.getElem_set, Fin.val_inj]
  by_cases e : k = h
  · subst e; simp
  · simp [e, Ne.symm e]

theorem job_updJob (h : Handle) (f : Job → Job) (s : State) (k : Handle) :
    (s.updJob h f).job k = if k = h then (s.job h).map f else s.job k := by
  simp [State.updJob, job_setJob]

@[simp] theorem job_setJob_same (h : Handle) (j : Option Job) (s : State) :
    (s.setJob h j).job h = j := by simp [job_setJob]

@[simp] theorem job_updJob_same (h : Handle) (f : Job → Job) (s : State) :
    (s.updJob h f).job h = (s.job h).map f := by simp [job_updJob]

/-! ## One lemma for each narrower update of a column -/

theorem seg_updX (g : Seg) (f : Exchange → Exchange) (s : State) (k : Seg) :
    (s.updX g f).seg k
      = if k = g then { s.seg g with exchange := (s.seg g).exchange.map f } else s.seg k :=
  seg_updSeg g _ s k

theorem seg_updLine (g : Seg) (f : Line → Line) (s : State) (k : Seg) :
    (s.updLine g f).seg k = if k = g then { s.seg g with line := f (s.seg g).line } else s.seg k :=
  seg_updSeg g _ s k

theorem seg_updSweep (g : Seg) (f : Sweep → Sweep) (s : State) (k : Seg) :
    (s.updSweep g f).seg k = if k = g then { s.seg g with sweep := f (s.seg g).sweep } else s.seg k :=
  seg_updSeg g _ s k

theorem seg_updDisc (g : Seg) (f : Discovery → Discovery) (s : State) (k : Seg) :
    (s.updDisc g f).seg k = if k = g then { s.seg g with disc := f (s.seg g).disc } else s.seg k :=
  seg_updSeg g _ s k

theorem seg_count (g : Seg) (f : Counters → Counters) (s : State) (k : Seg) :
    (s.count g f).seg k = if k = g then { s.seg g with counters := f (s.seg g).counters } else s.seg k :=
  seg_updSeg g _ s k

@[simp] theorem seg_updX_same (g : Seg) (f : Exchange → Exchange) (s : State) :
    (s.updX g f).seg g = { s.seg g with exchange := (s.seg g).exchange.map f } := by simp [seg_updX]

@[simp] theorem seg_updLine_same (g : Seg) (f : Line → Line) (s : State) :
    (s.updLine g f).seg g = { s.seg g with line := f (s.seg g).line } := by simp [seg_updLine]

@[simp] theorem seg_updSweep_same (g : Seg) (f : Sweep → Sweep) (s : State) :
    (s.updSweep g f).seg g = { s.seg g with sweep := f (s.seg g).sweep } := by simp [seg_updSweep]

@[simp] theorem seg_updDisc_same (g : Seg) (f : Discovery → Discovery) (s : State) :
    (s.updDisc g f).seg g = { s.seg g with disc := f (s.seg g).disc } := by simp [seg_updDisc]

@[simp] theorem seg_count_same (g : Seg) (f : Counters → Counters) (s : State) :
    (s.count g f).seg g = { s.seg g with counters := f (s.seg g).counters } := by simp [seg_count]

/-! ## Two updates of one thing are one update -/

theorem updSeg_updSeg (g : Seg) (f f' : Column → Column) (s : State) :
    (s.updSeg g f).updSeg g f' = s.updSeg g fun c => f' (f c) := by
  simp only [State.updSeg, Fin.getElem_fin, Vector.getElem_set_self, Vector.set_set]

theorem setEntry_setEntry (i : Index) (e e' : Option Entry) (s : State) :
    (s.setEntry i e).setEntry i e' = s.setEntry i e' := by
  simp only [State.setEntry, Vector.set_set]

theorem setJob_setJob (h : Handle) (j j' : Option Job) (s : State) :
    (s.setJob h j).setJob h j' = s.setJob h j' := by
  simp only [State.setJob, Vector.set_set]

/-! ## An update by what it reads -/

/-- Two updates that agree on the segment's column are one update. -/
theorem updSeg_congr {g : Seg} {f f' : Column → Column} {s : State} (h : f (s.seg g) = f' (s.seg g)) :
    s.updSeg g f = s.updSeg g f' := by
  have : f s.segs[g] = f' s.segs[g] := h
  simp only [State.updSeg, this]

theorem updSeg_eq_self {g : Seg} {f : Column → Column} {s : State} (h : f (s.seg g) = s.seg g) :
    s.updSeg g f = s := by
  have : f s.segs[g] = s.segs[g] := h
  simp only [State.updSeg, this]; simp

theorem updX_of {g : Seg} {x : Exchange} {s : State} (h : (s.seg g).exchange = some x)
    (f : Exchange → Exchange) : s.updX g f = s.updSeg g fun c => { c with exchange := some (f x) } :=
  updSeg_congr (by simp only [h, Option.map_some])

theorem updEntry_of {i : Index} {e : Entry} {s : State} (h : s.entry i = some e) (f : Entry → Entry) :
    s.updEntry i f = s.setEntry i (some (f e)) := by
  simp only [State.updEntry, h, Option.map_some]

theorem updJob_of {k : Handle} {j : Job} {s : State} (h : s.job k = some j) (f : Job → Job) :
    s.updJob k f = s.setJob k (some (f j)) := by
  simp only [State.updJob, h, Option.map_some]

/-- Two states with the same seven fields are one state. -/
theorem State.ext_fields {s t : State} (h1 : s.table = t.table) (h2 : s.jobs = t.jobs) (h3 : s.segs = t.segs)
    (h4 : s.queue = t.queue) (h5 : s.link = t.link) (h6 : s.rstnLow = t.rstnLow)
    (h7 : s.pending = t.pending) : s = t := by
  cases s; cases t; simp_all

end Sys2Proof.Machine
end

