-- ==== Sys2Proof/Laws/Holders.lean ====
section
/-! SUPPORT. What HolderLaw and TimerLaw read of a state, and the changes of it that keep them. -/

namespace Sys2Proof.Machine

/-- What the two laws read of a job: its segment, its place, and whether its deadline timer runs, it was
started, and its backoff timer runs. -/
structure JobSpot where
  seg      : Seg
  place    : Place
  deadline : Bool
  started  : Bool
  backoff  : Bool

def Job.spot (j : Job) : JobSpot := ⟨j.seg, j.place, j.deadlineTimer.isSome, j.started, j.backoff.isSome⟩

/-- The timers of a job are as TimerLaw says. -/
def JobSpot.timed (x : JobSpot) : Prop :=
  (x.deadline = true → (x.place = .urgent ∨ x.place = .normal) ∧ x.started = false)
  ∧ (x.backoff = true ↔ x.place = .waiting)

/-- What the two laws read of a state. -/
structure Spots where
  job : Handle → Option JobSpot
  at_ : Seg → Place → List Handle

def spots (s : State) : Spots := ⟨fun h => (s.job h).map Job.spot, fun g p => (s.seg g).standing p⟩

/-- The two laws. -/
structure Spots.Good (k : Spots) : Prop where
  once  : ∀ g p, (k.at_ g p).Nodup
  here  : ∀ g p h, h ∈ k.at_ g p ↔ ∃ x, k.job h = some x ∧ x.seg = g ∧ x.place = p
  timed : ∀ h x, k.job h = some x → x.timed

theorem Job.spot_timed (j : Job) : j.spot.timed ↔
    (j.deadlineTimer.isSome = true → j.state = .queued ∧ j.started = false)
    ∧ (j.backoff.isSome = true ↔ j.state = .waiting) := by
  unfold JobSpot.timed Job.spot Job.place
  cases j.state <;> cases j.lane <;> simp

theorem spots_good (s : State) : (spots s).Good ↔ HolderLaw s ∧ TimerLaw s := by
  constructor
  · intro G
    refine ⟨fun g p => ⟨G.once g p, fun h => ?_⟩, fun h j e => ?_⟩
    · have := G.here g p h
      simp only [spots, Option.map_eq_some_iff] at this
      rw [this]
      constructor
      · rintro ⟨x, ⟨j, hj, rfl⟩, h1, h2⟩; exact ⟨j, hj, h1, h2⟩
      · rintro ⟨j, hj, h1, h2⟩; exact ⟨j.spot, ⟨j, hj, rfl⟩, h1, h2⟩
    · exact (Job.spot_timed j).1 (G.timed h j.spot (by simp [spots, e]))
  · rintro ⟨H, T⟩
    refine ⟨fun g p => (H g p).1, fun g p h => ?_, fun h x e => ?_⟩
    · have := (H g p).2 h
      simp only [spots, Option.map_eq_some_iff]
      rw [this]
      constructor
      · rintro ⟨j, hj, h1, h2⟩; exact ⟨j.spot, ⟨j, hj, rfl⟩, h1, h2⟩
      · rintro ⟨x, ⟨j, hj, rfl⟩, h1, h2⟩; exact ⟨j, hj, h1, h2⟩
    · simp only [spots, Option.map_eq_some_iff] at e
      obtain ⟨j, hj, rfl⟩ := e
      exact (Job.spot_timed j).2 (T h j hj)

/-! ## Changes that keep the two laws -/

/-- The handle of a job leaves the place where it stands and its record becomes FREE. -/
def Spots.remove (k : Spots) (h : Handle) : Spots :=
  ⟨Function.update k.job h none, fun g p => (k.at_ g p).filter (· != h)⟩

/-- A FREE record takes a job, whose handle is put in a place. -/
def Spots.put (k : Spots) (h : Handle) (x : JobSpot) (l : List Handle) : Spots :=
  ⟨Function.update k.job h (some x), fun g p => if g = x.seg ∧ p = x.place then l else k.at_ g p⟩

theorem Spots.Good.remove {k : Spots} (G : k.Good) (h : Handle) : (k.remove h).Good where
  once g p := (G.once g p).filter _
  here g p i := by
    simp only [Spots.remove, List.mem_filter, bne_iff_ne, ne_eq, G.here]
    rcases eq_or_ne i h with rfl | e
    · simp
    · simp [e]
  timed i x e := by
    rcases eq_or_ne i h with rfl | n
    · simp [Spots.remove] at e
    · exact G.timed i x (by simpa [Spots.remove, Function.update_of_ne n] using e)

theorem Spots.Good.put {k : Spots} (G : k.Good) {h : Handle} {x : JobSpot} {l : List Handle}
    (n : k.job h = none) (t : x.timed) (p : l.Perm (h :: k.at_ x.seg x.place)) : (k.put h x l).Good where
  once g q := by
    simp only [Spots.put]
    split
    · rw [p.nodup_iff, List.nodup_cons]
      refine ⟨fun m => ?_, G.once ..⟩
      obtain ⟨y, hy, -⟩ := (G.here ..).1 m
      rw [n] at hy; simp at hy
    · exact G.once ..
  here g q i := by
    simp only [Spots.put]
    split
    · rename_i c
      obtain ⟨rfl, rfl⟩ := c
      rw [p.mem_iff, List.mem_cons, G.here]
      rcases eq_or_ne i h with rfl | e
      · simp
      · simp [e]
    · rename_i c
      rw [G.here]
      rcases eq_or_ne i h with rfl | e
      · simp only [n, Function.update_self]
        constructor
        · rintro ⟨y, hy, -⟩; simp at hy
        · rintro ⟨y, hy, h1, h2⟩
          injection hy with hy; subst hy; exact absurd ⟨h1.symm, h2.symm⟩ c
      · simp [Function.update_of_ne e]
  timed i y e := by
    rcases eq_or_ne i h with rfl | m
    · simp [Spots.put] at e; subst e; exact t
    · exact G.timed i y (by simpa [Spots.put, Function.update_of_ne m] using e)

end Sys2Proof.Machine
end

