-- ==== Sys2Proof/Laws/HoldersOps.lean ====
section
/-! SUPPORT. The operations that leave the places and timers of all jobs alone, each by one simp lemma. -/

namespace Sys2Proof.Machine

/-- The holders of a segment. -/
def Column.work (c : Column) : List Handle × List Handle × List Handle × List Handle :=
  (c.urgent, c.normal, c.waitSet, activeJob c)

theorem Column.standing_of_work {c d : Column} (h : c.work = d.work) (p : Place) :
    c.standing p = d.standing p := by
  simp only [Column.work, Prod.mk.injEq] at h
  cases p
  · exact h.1
  · exact h.2.1
  · exact h.2.2.1
  · exact h.2.2.2

theorem spots_updSeg_work {g : Seg} {f : Column → Column} {s : State}
    (h : (f (s.seg g)).work = (s.seg g).work) : spots (s.updSeg g f) = spots s := by
  have : (fun k p => ((s.updSeg g f).seg k).standing p) = fun k p => (s.seg k).standing p := by
    funext k p; rw [seg_updSeg]
    split
    · rename_i e; subst e; exact Column.standing_of_work h p
    · rfl
  simp only [spots, updSeg_job, this]

/-- The holders of a segment with a changed exchange of the same origin. -/
theorem activeJob_map (c : Column) {f : Exchange → Exchange} (h : ∀ x, (f x).origin = x.origin) :
    activeJob { c with exchange := c.exchange.map f } = activeJob c := by
  unfold activeJob
  cases e : c.exchange <;> simp [h]

theorem spots_updX {g : Seg} {f : Exchange → Exchange} {s : State} (h : ∀ x, (f x).origin = x.origin) :
    spots (s.updX g f) = spots s :=
  spots_updSeg_work (by simp only [Column.work, activeJob_map _ h])

theorem spots_updJob {h : Handle} {f : Job → Job} {s : State} (e : ∀ j, (f j).spot = j.spot) :
    spots (s.updJob h f) = spots s := by
  have : (fun k => ((s.updJob h f).job k).map Job.spot) = fun k => (s.job k).map Job.spot := by
    funext k; rw [job_updJob]
    split
    · rename_i n; subst n; cases s.job k <;> simp [e]
    · rfl
  simp only [spots, updJob_seg, this]

section
variable (s : State)

@[simp] theorem spots_setEntry (i : Index) (e : Option Entry) : spots (s.setEntry i e) = spots s := rfl
@[simp] theorem spots_updEntry (i : Index) (f : Entry → Entry) : spots (s.updEntry i f) = spots s := rfl
@[simp] theorem spots_updQueue (f : Queue → Queue) : spots (s.updQueue f) = spots s := rfl
@[simp] theorem spots_updLink (f : Link → Link) : spots (s.updLink f) = spots s := rfl
@[simp] theorem spots_withTable (v : Vector (Option Entry) 64) : spots (({ s with table := v } : State)) = spots s := rfl
@[simp] theorem spots_enterReserved (b : ReportBody) : spots (enterReserved b s) = spots s := rfl
@[simp] theorem spots_takeReservation : spots (takeReservation s) = spots s := rfl
@[simp] theorem spots_releaseReservation : spots (releaseReservation s) = spots s := rfl
@[simp] theorem spots_updLine (g : Seg) (f : Line → Line) : spots (s.updLine g f) = spots s := spots_updSeg_work rfl
@[simp] theorem spots_updSweep (g : Seg) (f : Sweep → Sweep) : spots (s.updSweep g f) = spots s := spots_updSeg_work rfl
@[simp] theorem spots_updDisc (g : Seg) (f : Discovery → Discovery) : spots (s.updDisc g f) = spots s := spots_updSeg_work rfl
@[simp] theorem spots_count (g : Seg) (f : Counters → Counters) : spots (s.count g f) = spots s := spots_updSeg_work rfl

@[simp] theorem spots_eventReport (b : ReportBody) : spots (eventReport b s) = spots s := by
  unfold eventReport; split <;> rfl

@[simp] theorem spots_elapse (d : Time) : spots (s.elapse d) = spots s := by
  unfold State.elapse
  split
  · rfl
  · have e1 : ∀ h : Fin 48, Option.map Job.spot ((mapStore (Option.map (Job.elapse d)) s.jobs)[h])
        = Option.map Job.spot (s.jobs[h]) := by
      intro h; rw [mapStore_get]
      cases s.jobs[h] <;> simp [Job.spot, Job.elapse, Job.place]
    have e2 : ∀ g : Fin 4, (mapStore (Column.elapse d) s.segs)[g] = Column.elapse d s.segs[g] :=
      fun g => mapStore_get ..
    have e3 : ∀ c : Column, (c.elapse d).work = c.work := by
      intro c
      have : activeJob (c.elapse d) = activeJob c := by
        unfold activeJob Column.elapse
        cases c.exchange <;> simp [Exchange.elapse]
      simp only [Column.work, this]; rfl
    simp only [spots, State.job, State.seg, e1, e2]
    congr 1
    funext g p; exact Column.standing_of_work (e3 _) p

@[simp] theorem spots_countAttempt (g : Seg) (x : Exchange) : spots (countAttempt g x s) = spots s := by
  have e : spots (s.updX g fun x => { x with attempt := x.attempt + 1, counted := true }) = spots s :=
    spots_updX fun _ => rfl
  simp only [countAttempt]
  split
  · rfl
  · split
    · refine (spots_updJob (f := fun j => { j with attempts := j.attempts + 1 }) fun _ => ?_).trans e
      rfl
    · exact e

@[simp] theorem spots_enterSend (g : Seg) : spots (enterSend g s) = spots s := by
  unfold enterSend
  split
  · rfl
  · rw [spots_updLine]
    refine (spots_updX fun _ => ?_).trans (spots_countAttempt ..)
    rfl

@[simp] theorem spots_enterDefer (g : Seg) : spots (enterDefer g s) = spots s := by
  have e : spots (s.updX g fun x => { x with phase := .defer, received := [], gapTimer := none })
      = spots s := spots_updX fun _ => rfl
  simp only [enterDefer]
  split
  · split
    · rw [spots_enterSend, e]
    · rw [spots_updLine, e]
  · rw [spots_updLine, e]

@[simp] theorem spots_leaveAttention (i : Index) : spots (leaveAttention i s) = spots s := by
  unfold leaveAttention
  split
  · rfl
  · exact (spots_updSeg_work rfl).trans (spots_updEntry ..)

@[simp] theorem spots_joinAttention (i : Index) : spots (joinAttention i s) = spots s := by
  unfold joinAttention
  split
  · rfl
  · split
    · exact (spots_updSeg_work rfl).trans (spots_updEntry ..)
    · rfl

@[simp] theorem spots_attentionToTail (i : Index) : spots (attentionToTail i s) = spots s := by
  unfold attentionToTail
  split
  · rfl
  · exact spots_updSeg_work rfl

@[simp] theorem spots_lookSweep (g : Seg) : spots (lookSweep g s).1 = spots s := by
  simp only [lookSweep]
  split
  · split
    · rfl
    · split
      · split <;> simp
      · simp
  · rfl

@[simp] theorem spots_lookDisc (g : Seg) : spots (lookDisc g s).1 = spots s := by
  simp only [lookDisc, endRun]
  split
  · split <;> simp
  · rfl

@[simp] theorem spots_setToggle (x : Exchange) (form : EndForm) : spots (setToggle x form s) = spots s := by
  simp only [setToggle]
  repeat' split
  all_goals simp

@[simp] theorem spots_goodOutcome (i : Index) (e : Entry) : spots (goodOutcome i e s) = spots s := by
  simp only [goodOutcome]
  repeat' split
  all_goals simp

@[simp] theorem spots_missOutcome (i : Index) (e : Entry) : spots (missOutcome i e s) = spots s := by
  simp only [missOutcome]
  repeat' split
  all_goals simp

@[simp] theorem spots_statusReport (i : Index) (o : XOrigin) (e : Entry) (r : Reply) : spots (statusReport i o e r s) = spots s := by
  simp only [statusReport]
  repeat' split
  all_goals simp

@[simp] theorem spots_statusRule (i : Index) (o : XOrigin) (r : Reply) : spots (statusRule i o r s) = spots s := by
  simp only [statusRule]
  repeat' split
  all_goals simp

@[simp] theorem spots_handStatus (x : Exchange) (form : EndForm) : spots (handStatus x form s) = spots s := by
  simp only [handStatus, handReply]
  repeat' split
  all_goals simp

@[simp] theorem spots_endSweepStep (g : Seg) (x : Exchange) (form : EndForm) : spots (endSweepStep g x form s) = spots s := by
  simp only [endSweepStep]
  repeat' split
  all_goals simp

@[simp] theorem spots_endFollowUp (x : Exchange) (form : EndForm) : spots (endFollowUp x form s) = spots s := by
  simp only [endFollowUp]
  repeat' split
  all_goals simp

@[simp] theorem spots_freeRetiring (x : Exchange) : spots (freeRetiring x s) = spots s := by
  simp only [freeRetiring]
  repeat' split
  all_goals simp

@[simp] theorem spots_strayItem (g : Seg) (item : Item) : spots (strayItem g item s) = spots s := by
  simp only [strayItem]
  repeat' split
  all_goals simp

@[simp] theorem spots_noteFailure (x : Exchange) (k : FailKind) : spots (noteFailure x k s) = spots s := by
  unfold noteFailure
  split
  · refine spots_updJob (f := fun j => { j with lastFault := some k }) fun _ => ?_
    rfl
  · rfl

@[simp] theorem spots_cancelCarried (g : Seg) : spots (cancelCarried g s) = spots s := by
  unfold cancelCarried
  split
  · split
    · refine spots_updJob (f := fun j => { j with cancel := true }) fun _ => ?_
      rfl
    · rfl
  · rfl

@[simp] theorem spots_confirmStart (g : Seg) (half : Time) : spots (confirmStart g half s) = spots s := by
  unfold confirmStart
  refine (spots_updX fun _ => ?_).trans (spots_updSeg_work ?_) <;> rfl

@[simp] theorem spots_sentWhole (g : Seg) : spots (sentWhole g s) = spots s := by
  unfold sentWhole
  refine spots_updSeg_work ?_
  have := activeJob_map (s.seg g) (f := fun x => { x with phase := .turn, unanswered := true })
    fun _ => rfl
  exact congrArg (fun a => ((s.seg g).urgent, (s.seg g).normal, (s.seg g).waitSet, a)) this

@[simp] theorem spots_restartSweepTimer (g : Seg) : spots (restartSweepTimer g s) = spots s :=
  spots_updSeg_work rfl

end

end Sys2Proof.Machine
end

