-- ==== Sys2Proof/Laws/Frames.lean ====
section
/-! SUPPORT. What the operations on one segment leave alone: the other segments, the host link, the RSTN pin,
the commands waiting and, for a pick, the station table. -/

namespace Sys2Proof.Machine

/-- What lies outside segment `g` and the device-wide stores. -/
def outer (g : Seg) (s : State) : (Seg → Option Column) × Link × Bool × List Instr :=
  (fun k => if k = g then none else some (s.seg k), s.link, s.rstnLow, s.pending)

/-- The equality of outsides, field by field. -/
theorem outer_eq {g : Seg} {s t : State} (h : outer g t = outer g s) :
    SameOthers g s t ∧ t.link = s.link ∧ t.rstnLow = s.rstnLow ∧ t.pending = s.pending := by
  simp only [outer, Prod.mk.injEq] at h
  refine ⟨fun k n => ?_, h.2.1, h.2.2.1, h.2.2.2⟩
  have := congrFun h.1 k
  simpa [n] using this

section
variable (g : Seg) (s : State)

@[simp] theorem outer_updSeg (f : Column → Column) : outer g (s.updSeg g f) = outer g s := by
  have : (fun k => if k = g then none else some ((s.updSeg g f).seg k))
      = fun k => if k = g then none else some (s.seg k) := by
    funext k
    by_cases h : k = g
    · simp [h]
    · simp [h, seg_updSeg_other h]
  simp only [outer, this]; rfl

@[simp] theorem outer_updX (f : Exchange → Exchange) : outer g (s.updX g f) = outer g s := outer_updSeg ..
@[simp] theorem outer_updLine (f : Line → Line) : outer g (s.updLine g f) = outer g s := outer_updSeg ..
@[simp] theorem outer_updSweep (f : Sweep → Sweep) : outer g (s.updSweep g f) = outer g s :=
  outer_updSeg ..
@[simp] theorem outer_updDisc (f : Discovery → Discovery) : outer g (s.updDisc g f) = outer g s :=
  outer_updSeg ..
@[simp] theorem outer_count (f : Counters → Counters) : outer g (s.count g f) = outer g s :=
  outer_updSeg ..
@[simp] theorem outer_setEntry (i : Index) (e : Option Entry) : outer g (s.setEntry i e) = outer g s := rfl
@[simp] theorem outer_updEntry (i : Index) (f : Entry → Entry) :
    outer g (s.updEntry i f) = outer g s := rfl
@[simp] theorem outer_setJob (h : Handle) (j : Option Job) : outer g (s.setJob h j) = outer g s := rfl
@[simp] theorem outer_updJob (h : Handle) (f : Job → Job) : outer g (s.updJob h f) = outer g s := rfl
@[simp] theorem outer_updQueue (f : Queue → Queue) : outer g (s.updQueue f) = outer g s := rfl

/-! ## Reports -/

@[simp] theorem outer_eventReport (b : ReportBody) : outer g (eventReport b s) = outer g s := by
  unfold eventReport; split <;> rfl
@[simp] theorem outer_enterReserved (b : ReportBody) : outer g (enterReserved b s) = outer g s := rfl
@[simp] theorem outer_takeReservation : outer g (takeReservation s) = outer g s := rfl
@[simp] theorem outer_releaseReservation : outer g (releaseReservation s) = outer g s := rfl

@[simp] theorem eventReport_table (b : ReportBody) : (eventReport b s).table = s.table := by
  unfold eventReport; split <;> rfl
@[simp] theorem eventReport_jobs (b : ReportBody) : (eventReport b s).jobs = s.jobs := by
  unfold eventReport; split <;> rfl
@[simp] theorem eventReport_segs (b : ReportBody) : (eventReport b s).segs = s.segs := by
  unfold eventReport; split <;> rfl
@[simp] theorem eventReport_link (b : ReportBody) : (eventReport b s).link = s.link := by
  unfold eventReport; split <;> rfl
@[simp] theorem eventReport_rstnLow (b : ReportBody) : (eventReport b s).rstnLow = s.rstnLow := by
  unfold eventReport; split <;> rfl
@[simp] theorem eventReport_pending (b : ReportBody) : (eventReport b s).pending = s.pending := by
  unfold eventReport; split <;> rfl
@[simp] theorem eventReport_seg (b : ReportBody) (k : Seg) : (eventReport b s).seg k = s.seg k := by
  unfold eventReport; split <;> rfl
@[simp] theorem eventReport_entry (b : ReportBody) (k : Index) :
    (eventReport b s).entry k = s.entry k := by
  unfold eventReport; split <;> rfl
@[simp] theorem eventReport_job (b : ReportBody) (k : Handle) : (eventReport b s).job k = s.job k := by
  unfold eventReport; split <;> rfl

/-! ## Starting an exchange -/

theorem countAttempt_frame (x : Exchange) :
    outer g (countAttempt g x s) = outer g s ∧ (countAttempt g x s).table = s.table
      ∧ (countAttempt g x s).queue = s.queue := by
  simp only [countAttempt]
  split
  · simp
  · split <;> simp

theorem enterSend_frame :
    outer g (enterSend g s) = outer g s ∧ (enterSend g s).table = s.table
      ∧ (enterSend g s).queue = s.queue := by
  unfold enterSend
  split
  · simp
  · rename_i x _
    have := countAttempt_frame g s x
    simp [this]

theorem enterDefer_frame :
    outer g (enterDefer g s) = outer g s ∧ (enterDefer g s).table = s.table
      ∧ (enterDefer g s).queue = s.queue := by
  simp only [enterDefer]
  split
  · split
    · have := enterSend_frame g (s.updX g fun x => { x with phase := .defer, received := [], gapTimer := none })
      simp [this]
    · simp
  · simp

theorem beginExchange_frame (x : Exchange) :
    outer g (beginExchange g x s) = outer g s ∧ (beginExchange g x s).table = s.table
      ∧ (beginExchange g x s).queue = s.queue := by
  have := enterDefer_frame g (s.updSeg g fun c => { c with exchange := some x })
  unfold beginExchange
  simp [this]

theorem startJob_frame (h : Handle) :
    outer g (startJob g h s) = outer g s ∧ (startJob g h s).table = s.table
      ∧ (startJob g h s).queue = s.queue := by
  unfold startJob
  split
  · simp
  · simp [beginExchange_frame]

theorem startPoll_frame (o : XOrigin) (i : Index) :
    outer g (startPoll g o i s) = outer g s ∧ (startPoll g o i s).table = s.table
      ∧ (startPoll g o i s).queue = s.queue := by
  unfold startPoll
  split
  · simp
  · simp [beginExchange_frame]

theorem startProbe_frame (a : Nat) :
    outer g (startProbe g a s) = outer g s ∧ (startProbe g a s).table = s.table
      ∧ (startProbe g a s).queue = s.queue := by
  unfold startProbe
  simp [beginExchange_frame]

/-! ## Looks and picks. A look of the discovery unit may put DISCOVERY_DONE in the queue. -/

theorem lookSweep_frame :
    outer g (lookSweep g s).1 = outer g s ∧ (lookSweep g s).1.table = s.table
      ∧ (lookSweep g s).1.queue = s.queue ∧ (lookSweep g s).1.jobs = s.jobs := by
  simp only [lookSweep]
  split
  · split
    · simp
    · split
      · split <;> simp
      · simp
  · simp

theorem endRun_frame :
    outer g (endRun g s) = outer g s ∧ (endRun g s).table = s.table ∧ (endRun g s).jobs = s.jobs := by
  unfold endRun
  simp [enterReserved]

theorem lookDisc_frame :
    outer g (lookDisc g s).1 = outer g s ∧ (lookDisc g s).1.table = s.table
      ∧ (lookDisc g s).1.jobs = s.jobs := by
  unfold lookDisc
  split
  · split
    · simp
    · exact endRun_frame g s
  · simp

theorem pickDiscovery_frame :
    outer g (pickDiscovery g s) = outer g s ∧ (pickDiscovery g s).table = s.table := by
  unfold pickDiscovery
  split <;> simp [startProbe_frame, lookDisc_frame]

theorem pickNormal_frame :
    outer g (pickNormal g s) = outer g s ∧ (pickNormal g s).table = s.table := by
  unfold pickNormal
  split
  · simp [startJob_frame]
  · exact pickDiscovery_frame g s

theorem startSweepStep_frame (a : Nat) :
    outer g (startSweepStep g a s) = outer g s ∧ (startSweepStep g a s).table = s.table := by
  unfold startSweepStep
  split
  · simp
  · simp [startPoll_frame]

theorem pickSweep_frame :
    outer g (pickSweep g s) = outer g s ∧ (pickSweep g s).table = s.table := by
  have := lookSweep_frame g s
  unfold pickSweep
  split
  · split
    · simp [startSweepStep_frame, this]
    · simp [pickNormal_frame, this]
  · simp [pickNormal_frame, this]

/-- A pick at a segment touches that segment, the jobs and the queue alone. -/
theorem pick_frame : outer g (pick g s) = outer g s ∧ (pick g s).table = s.table := by
  unfold pick
  split
  · split
    · simp [startPoll_frame]
    · split
      · simp [startJob_frame]
      · exact pickSweep_frame g s
  · simp

theorem lookAndPick_frame : outer g (lookAndPick g s) = outer g s ∧ (lookAndPick g s).table = s.table := by
  unfold lookAndPick
  split <;> simp [pick_frame, lookDisc_frame]

theorem takeRoom_frame : outer g (takeRoom g s) = outer g s ∧ (takeRoom g s).table = s.table := by
  unfold takeRoom beginProbing
  split
  · simp [lookAndPick_frame, takeReservation]
  · simp

theorem resumeDisc_frame : outer g (resumeDisc g s) = outer g s ∧ (resumeDisc g s).table = s.table := by
  unfold resumeDisc
  simp [takeRoom_frame]

end

/-- A segment whose unit does not wait for room is not touched when room appears. -/
theorem takeRoom_seg_other {g k : Seg} {s : State} (h : k ≠ g ∨ (s.seg g).disc.state ≠ .waitRoom) :
    (takeRoom g s).seg k = s.seg k := by
  by_cases e : k = g
  · subst e
    rcases h with h | h
    · exact absurd rfl h
    · simp [takeRoom, h]
  · exact (outer_eq (takeRoom_frame g s).1).1 k e

theorem serveWaitRoom_seg {g : Seg} {s : State} (h : (s.seg g).disc.state ≠ .waitRoom) :
    (serveWaitRoom s).seg g = s.seg g := by
  unfold serveWaitRoom
  have e0 : (takeRoom 0 s).seg g = s.seg g := takeRoom_seg_other (by
    by_cases e : g = 0
    · subst e; exact .inr h
    · exact .inl e)
  have e1 : (takeRoom 1 (takeRoom 0 s)).seg g = s.seg g := (takeRoom_seg_other (by
    by_cases e : g = 1
    · subst e; rw [e0]; exact .inr h
    · exact .inl e)).trans e0
  have e2 : (takeRoom 2 (takeRoom 1 (takeRoom 0 s))).seg g = s.seg g := (takeRoom_seg_other (by
    by_cases e : g = 2
    · subst e; rw [e1]; exact .inr h
    · exact .inl e)).trans e1
  exact (takeRoom_seg_other (by
    by_cases e : g = 3
    · subst e; rw [e2]; exact .inr h
    · exact .inl e)).trans e2

/-- Room served to waiting units leaves the table, the link, the pin and the commands waiting. -/
theorem serveWaitRoom_frame (s : State) :
    (serveWaitRoom s).table = s.table ∧ (serveWaitRoom s).link = s.link
      ∧ (serveWaitRoom s).rstnLow = s.rstnLow ∧ (serveWaitRoom s).pending = s.pending := by
  have f (g : Seg) (t : State) : (takeRoom g t).table = t.table ∧ (takeRoom g t).link = t.link
      ∧ (takeRoom g t).rstnLow = t.rstnLow ∧ (takeRoom g t).pending = t.pending := by
    have h := outer_eq (takeRoom_frame g t).1
    exact ⟨(takeRoom_frame g t).2, h.2.1, h.2.2.1, h.2.2.2⟩
  unfold serveWaitRoom
  refine ⟨?_, ?_, ?_, ?_⟩ <;> simp only [(f _ _).1, (f _ _).2.1, (f _ _).2.2.1, (f _ _).2.2.2]

/-- With no unit in WAIT_ROOM, room that appears changes nothing. -/
theorem serveWaitRoom_none {s : State} (h : ∀ g, (s.seg g).disc.state ≠ .waitRoom) :
    serveWaitRoom s = s := by
  have f (g : Seg) : takeRoom g s = s := by simp [takeRoom, h g]
  simp [serveWaitRoom, f]

end Sys2Proof.Machine
end

