-- ==== Sys2Proof/Laws/Skeleton.lean ====
section
/-! SUPPORT. What the laws of Safety.lean read of a state, its skeleton, and the changes of a skeleton that
keep the laws. -/

namespace Sys2Proof.Machine

/-- What the laws read: the keys of the entries, the tags of the jobs, each discovery unit's state, record
address and mark, each segment's exchange presence, state and configuration, and the queue's counts. -/
structure Skel where
  keys         : Index → Option (Seg × Nat × Nat)
  tags         : Handle → Option (BitVec 16)
  discs        : Seg → DiscState × Option Nat × Option ProbeMark
  ctl          : Seg → Bool × SegState × SegConfig
  numbers      : List Nat
  reservations : Nat
  lastNumber   : Nat

def Entry.key (e : Entry) : Seg × Nat × Nat := (e.seg, e.addr, e.ports)

def Discovery.skel (u : Discovery) : DiscState × Option Nat × Option ProbeMark :=
  (u.state, u.record.map (·.addr), u.mark)

def Column.ctl (c : Column) : Bool × SegState × SegConfig := (c.exchange.isSome, c.state, c.config)

def skel (s : State) : Skel where
  keys i := (s.entry i).map Entry.key
  tags h := (s.job h).map (·.tag)
  discs g := (s.seg g).disc.skel
  ctl g := (s.seg g).ctl
  numbers := s.queue.reports.map (·.number)
  reservations := s.queue.reservations
  lastNumber := s.queue.lastNumber

/-- The number of live jobs and of PROBING units. -/
def Skel.live (k : Skel) : Nat := (List.finRange 48).countP fun h => (k.tags h).isSome
def Skel.probing (k : Skel) : Nat := (List.finRange 4).countP fun g => (k.discs g).1 == .probing

/-- No entry has this segment and address. -/
def Skel.free (keys : Index → Option (Seg × Nat × Nat)) (g : Seg) (a : Nat) : Prop :=
  ∀ i k, keys i = some k → ¬(k.1 = g ∧ k.2.1 = a)

/-- A discovery unit is as HeldLaw says. -/
structure DiscOk (keys : Index → Option (Seg × Nat × Nat)) (g : Seg)
    (d : DiscState × Option Nat × Option ProbeMark) : Prop where
  record : d.2.1.isSome = true ↔ d.1 = .held
  mark   : d.1 = .held → d.2.2 = none
  held   : ∀ a, d.2.1 = some a → Skel.free keys g a
  probed : ∀ m, d.2.2 = some m → m.void = .none → Skel.free keys g m.addr

/-- A segment controller is as ExchangeLaw and ConfigLaw say. -/
structure CtlOk (c : Bool × SegState × SegConfig) : Prop where
  exchange : c.1 = true → c.2.1 = .running ∨ c.2.1 = .draining
  ranges   : inRanges c.2.2 = true
  defer    : deferAboveSettle c.2.2 = true

/-- The laws, read from the skeleton. -/
structure Skel.Good (k : Skel) : Prop where
  reservations : k.reservations = k.live + k.probing
  room         : k.numbers.length + k.reservations ≤ queuePlaces
  last         : k.lastNumber ≤ 255
  range        : ∀ n ∈ k.numbers, 1 ≤ n ∧ n ≤ 255
  chain        : k.numbers.IsChain fun a b => b = nextNumber a
  tail         : ∀ n ∈ k.numbers.getLast?, n = k.lastNumber
  valid        : ∀ i x, k.keys i = some x → validAddr x.2.1 = true ∧ validPorts x.2.2 = true
  unique       : ∀ i j x y, k.keys i = some x → k.keys j = some y → x.1 = y.1 → x.2.1 = y.2.1 → i = j
  tagged       : ∀ h t, k.tags h = some t → t ≠ 0#16
  distinct     : ∀ h h' t, k.tags h = some t → k.tags h' = some t → h = h'
  discs        : ∀ g, DiscOk k.keys g (k.discs g)
  ctl          : ∀ g, CtlOk (k.ctl g)

/-! ## The laws and the skeleton -/

theorem countP_toList {α : Type} {n : Nat} (p : α → Bool) (v : Vector α n) :
    v.toList.countP p = (List.finRange n).countP fun i => p v[i] := by
  have h : v.toList = (List.finRange n).map fun i => v[i] := by
    apply List.ext_getElem
    · simp
    · intro i h1 h2; simp
  rw [h, List.countP_map]; rfl

theorem live_skel (s : State) : (skel s).live = liveJobs s := by
  simp only [Skel.live, liveJobs, countP_toList, skel, Option.isSome_map]; rfl

theorem probing_skel (s : State) : (skel s).probing = probingUnits s := by
  simp only [Skel.probing, probingUnits, countP_toList]; rfl

theorem findEntry_none (s : State) (g : Seg) (a : Nat) :
    findEntry s g a = none ↔ Skel.free (skel s).keys g a := by
  simp only [findEntry, List.find?_eq_none, Skel.free, skel]
  constructor
  · intro h i k hk hc
    have := h i (List.mem_finRange i)
    cases e : s.entry i with
    | none => simp [e] at hk
    | some e' =>
      simp [e, Entry.key] at hk; subst hk
      simp [e] at this; exact this hc.1 hc.2
  · intro h i _
    cases e : s.entry i with
    | none => simp
    | some e' =>
      have := h i (Entry.key e') (by simp [e])
      simpa [Entry.key] using this

theorem inv_iff (s : State) : Inv s ↔ (skel s).Good := by
  constructor
  · rintro ⟨h1, h2, ⟨h3, h4, h5, h6⟩, ⟨h7, h8⟩, h9, ⟨h10, h11⟩, h12, h13⟩
    refine ⟨?_, ?_, h3, ?_, ?_, ?_, ?_, ?_, ?_, ?_, ?_, ?_⟩
    · rw [live_skel, probing_skel]; exact h1
    · simpa [skel, RoomLaw] using h2
    · intro n hn; simp [skel] at hn; obtain ⟨r, hr, rfl⟩ := hn; exact h4 r hr
    · simpa [skel, List.isChain_map] using h5
    · intro n hn
      simp only [skel, List.getLast?_map, Option.mem_def, Option.map_eq_some_iff] at hn
      obtain ⟨r, hr, rfl⟩ := hn; exact h6 r hr
    · intro i x hx; simp only [skel, Option.map_eq_some_iff] at hx
      obtain ⟨e, he, rfl⟩ := hx; exact h7 i e he
    · intro i j x y hx hy hs ha
      simp only [skel, Option.map_eq_some_iff] at hx hy
      obtain ⟨e, he, rfl⟩ := hx; obtain ⟨e', he', rfl⟩ := hy
      exact h8 i j e e' he he' hs ha
    · intro h t ht; simp only [skel, Option.map_eq_some_iff] at ht
      obtain ⟨j, hj, rfl⟩ := ht; exact h10 h j hj
    · intro h h' t ht ht'; simp only [skel, Option.map_eq_some_iff] at ht ht'
      obtain ⟨j, hj, rfl⟩ := ht; obtain ⟨j', hj', e⟩ := ht'; exact h11 h h' j j' hj hj' e.symm
    · intro g; obtain ⟨a, b, c, d⟩ := h9 g
      refine ⟨by simpa [skel, Discovery.skel] using a, b, ?_, ?_⟩
      · intro x hx; simp only [skel, Discovery.skel, Option.map_eq_some_iff] at hx
        obtain ⟨r, hr, rfl⟩ := hx; exact (findEntry_none s g _).1 (c r hr)
      · intro m hm hv; exact (findEntry_none s g _).1 (d m hm hv)
    · intro g; exact ⟨h12 g, (h13 g).1, (h13 g).2⟩
  · intro k
    refine ⟨?_, ?_, ⟨k.last, ?_, ?_, ?_⟩, ⟨?_, ?_⟩, ?_, ⟨?_, ?_⟩, ?_, ?_⟩
    · have := k.reservations; rw [live_skel, probing_skel] at this; exact this
    · simpa [skel, RoomLaw] using k.room
    · intro r hr; exact k.range _ (by simp only [skel, List.mem_map]; exact ⟨r, hr, rfl⟩)
    · simpa [skel, List.isChain_map] using k.chain
    · intro r hr
      exact k.tail _ (by simp only [skel, List.getLast?_map, Option.mem_def, Option.map_eq_some_iff]
                         exact ⟨r, hr, rfl⟩)
    · intro i e he; exact k.valid i e.key (by simp [skel, he])
    · intro i j e e' he he' hs ha
      exact k.unique i j e.key e'.key (by simp [skel, he]) (by simp [skel, he']) hs ha
    · intro g
      refine ⟨by simpa [skel, Discovery.skel] using (k.discs g).record, (k.discs g).mark, ?_, ?_⟩
      · intro r hr
        exact (findEntry_none s g _).2 ((k.discs g).held r.addr (by simp [skel, Discovery.skel, hr]))
      · intro m hm hv; exact (findEntry_none s g _).2 ((k.discs g).probed m hm hv)
    · intro h j hj; exact k.tagged h j.tag (by simp [skel, hj])
    · intro h h' j j' hj hj' e
      exact k.distinct h h' j.tag (by simp [skel, hj]) (by simp [skel, hj', e])
    · intro g; exact (k.ctl g).exchange
    · intro g; exact ⟨(k.ctl g).ranges, (k.ctl g).defer⟩

/-- A step that leaves the skeleton alone keeps the laws. -/
theorem Inv.of_skel {s t : State} (h : Inv s) (e : skel t = skel s) : Inv t := by
  rw [inv_iff] at h ⊢; rwa [e]

/-! ## Counting under a change at one place -/

theorem countP_update {n : Nat} (p q : Fin n → Bool) (i : Fin n) (h : ∀ j, j ≠ i → q j = p j) :
    (List.finRange n).countP q + (if p i then 1 else 0)
      = (List.finRange n).countP p + (if q i then 1 else 0) := by
  have hp := List.perm_cons_erase (List.mem_finRange i)
  have e : ∀ j ∈ (List.finRange n).erase i, (q j = true ↔ p j = true) := by
    intro j hj
    have : j ≠ i := by
      rintro rfl; exact (List.Nodup.not_mem_erase (List.nodup_finRange n)) hj
    rw [h j this]
  rw [hp.countP_eq q, hp.countP_eq p, List.countP_cons, List.countP_cons, List.countP_congr e]
  omega

theorem probing_update (k : Skel) (g : Seg) (d : DiscState × Option Nat × Option ProbeMark) :
    Skel.probing { k with discs := Function.update k.discs g d }
        + (if (k.discs g).1 = .probing then 1 else 0)
      = k.probing + (if d.1 = .probing then 1 else 0) := by
  have := countP_update (fun x => (k.discs x).1 == DiscState.probing)
    (fun x => (Function.update k.discs g d x).1 == DiscState.probing) g
    (fun j hj => by simp [Function.update_of_ne hj])
  simpa [Skel.probing] using this

theorem live_update (k : Skel) (h : Handle) (t : Option (BitVec 16)) :
    Skel.live { k with tags := Function.update k.tags h t } + (if (k.tags h).isSome then 1 else 0)
      = k.live + (if t.isSome then 1 else 0) := by
  have := countP_update (fun x => (k.tags x).isSome)
    (fun x => (Function.update k.tags h t x).isSome) h
    (fun j hj => by simp [Function.update_of_ne hj])
  simpa [Skel.live] using this

/-! ## Changes of a skeleton that keep the laws -/

theorem nextNumber_range {n : Nat} (h : n ≤ 255) : 1 ≤ nextNumber n ∧ nextNumber n ≤ 255 := by
  unfold nextNumber; split <;> omega

/-- The queue's part of a report that enters. -/
def Skel.enter (k : Skel) : Skel :=
  { k with numbers := k.numbers ++ [nextNumber k.lastNumber], lastNumber := nextNumber k.lastNumber }

section
variable {k : Skel} (G : k.Good)
include G

theorem Skel.Good.enter_range :
    ∀ n ∈ k.numbers ++ [nextNumber k.lastNumber], 1 ≤ n ∧ n ≤ 255 := by
  intro n hn
  rcases List.mem_append.1 hn with hn | hn
  · exact G.range n hn
  · rw [List.mem_singleton] at hn; subst hn; exact nextNumber_range G.last

theorem Skel.Good.enter_chain :
    (k.numbers ++ [nextNumber k.lastNumber]).IsChain fun a b => b = nextNumber a := by
  rw [List.isChain_append]
  refine ⟨G.chain, by simp, ?_⟩
  intro x hx y hy
  simp only [List.head?_cons, Option.mem_def, Option.some.injEq] at hy
  rw [← hy, G.tail x hx]

/-- An event report that finds room. -/
theorem Skel.Good.event (r : k.numbers.length + k.reservations < queuePlaces) : k.enter.Good where
  reservations := G.reservations
  room := by simp [Skel.enter]; omega
  last := (nextNumber_range G.last).2
  range := G.enter_range
  chain := G.enter_chain
  tail := by simp [Skel.enter]
  valid := G.valid
  unique := G.unique
  tagged := G.tagged
  distinct := G.distinct
  discs := G.discs
  ctl := G.ctl

/-- A job completes. -/
theorem Skel.Good.result {h : Handle} (l : (k.tags h).isSome = true) :
    Skel.Good { k.enter with
      tags := Function.update k.tags h none, reservations := k.reservations - 1 } where
  reservations := by
    have := live_update k h none
    have r := G.reservations
    simp only [l, if_true, Option.isSome_none, Bool.false_eq_true, if_false] at this
    show k.reservations - 1
      = Skel.live { k with tags := Function.update k.tags h none } + k.probing
    omega
  room := by
    have := live_update k h none
    have r := G.reservations
    have := G.room
    simp only [l, if_true, Option.isSome_none, Bool.false_eq_true, if_false] at *
    simp [Skel.enter]; omega
  last := (nextNumber_range G.last).2
  range := G.enter_range
  chain := G.enter_chain
  tail := by simp [Skel.enter]
  valid := G.valid
  unique := G.unique
  tagged := by
    intro x t hx
    rcases eq_or_ne x h with rfl | e
    · simp at hx
    · exact G.tagged x t (by simpa [Function.update_of_ne e] using hx)
  distinct := by
    intro x y t hx hy
    rcases eq_or_ne x h with rfl | e
    · simp at hx
    rcases eq_or_ne y h with rfl | e'
    · simp at hy
    exact G.distinct x y t (by simpa [Function.update_of_ne e] using hx)
      (by simpa [Function.update_of_ne e'] using hy)
  discs := G.discs
  ctl := G.ctl

theorem Skel.Good.discs_update {g : Seg} {d : DiscState × Option Nat × Option ProbeMark}
    (o : DiscOk k.keys g d) : ∀ x, DiscOk k.keys x (Function.update k.discs g d x) := by
  intro x
  rcases eq_or_ne x g with rfl | e
  · simpa using o
  · simpa [Function.update_of_ne e] using G.discs x

/-- A PROBING unit uses its reservation for a report and leaves PROBING. -/
theorem Skel.Good.unitReport {g : Seg} {d : DiscState × Option Nat × Option ProbeMark}
    (p : (k.discs g).1 = .probing) (n : d.1 ≠ .probing) (o : DiscOk k.keys g d) :
    Skel.Good { k.enter with
      discs := Function.update k.discs g d, reservations := k.reservations - 1 } where
  reservations := by
    have := probing_update k g d
    have r := G.reservations
    simp only [p, n, if_true, if_false] at this
    show k.reservations - 1 = k.live + Skel.probing { k with discs := Function.update k.discs g d }
    omega
  room := by
    have := probing_update k g d
    have r := G.reservations
    have := G.room
    simp only [p, n, if_true, if_false] at *
    simp [Skel.enter]; omega
  last := (nextNumber_range G.last).2
  range := G.enter_range
  chain := G.enter_chain
  tail := by simp [Skel.enter]
  valid := G.valid
  unique := G.unique
  tagged := G.tagged
  distinct := G.distinct
  discs := G.discs_update o
  ctl := G.ctl

/-- A PROBING unit releases its reservation and leaves PROBING. -/
theorem Skel.Good.unitRelease {g : Seg} {d : DiscState × Option Nat × Option ProbeMark}
    (p : (k.discs g).1 = .probing) (n : d.1 ≠ .probing) (o : DiscOk k.keys g d) :
    Skel.Good { k with
      discs := Function.update k.discs g d, reservations := k.reservations - 1 } where
  reservations := by
    have := probing_update k g d
    have r := G.reservations
    simp only [p, n, if_true, if_false] at this
    show k.reservations - 1 = k.live + Skel.probing { k with discs := Function.update k.discs g d }
    omega
  room := by have := G.room; show k.numbers.length + (k.reservations - 1) ≤ queuePlaces; omega
  last := G.last
  range := G.range
  chain := G.chain
  tail := G.tail
  valid := G.valid
  unique := G.unique
  tagged := G.tagged
  distinct := G.distinct
  discs := G.discs_update o
  ctl := G.ctl

/-- A unit takes a reservation and becomes PROBING. -/
theorem Skel.Good.unitTake {g : Seg} {d : DiscState × Option Nat × Option ProbeMark}
    (p : (k.discs g).1 ≠ .probing) (n : d.1 = .probing) (o : DiscOk k.keys g d)
    (r : k.numbers.length + k.reservations < queuePlaces) :
    Skel.Good { k with
      discs := Function.update k.discs g d, reservations := k.reservations + 1 } where
  reservations := by
    have := probing_update k g d
    have r := G.reservations
    simp only [p, n, if_true, if_false] at this
    show k.reservations + 1 = k.live + Skel.probing { k with discs := Function.update k.discs g d }
    omega
  room := by show k.numbers.length + (k.reservations + 1) ≤ queuePlaces; omega
  last := G.last
  range := G.range
  chain := G.chain
  tail := G.tail
  valid := G.valid
  unique := G.unique
  tagged := G.tagged
  distinct := G.distinct
  discs := G.discs_update o
  ctl := G.ctl

/-- A unit changes without taking or giving up a reservation. -/
theorem Skel.Good.unit {g : Seg} {d : DiscState × Option Nat × Option ProbeMark}
    (p : (k.discs g).1 = .probing ↔ d.1 = .probing) (o : DiscOk k.keys g d) :
    Skel.Good { k with discs := Function.update k.discs g d } where
  reservations := by
    have := probing_update k g d
    have r := G.reservations
    simp only [p] at this
    show k.reservations = k.live + Skel.probing { k with discs := Function.update k.discs g d }
    omega
  room := G.room
  last := G.last
  range := G.range
  chain := G.chain
  tail := G.tail
  valid := G.valid
  unique := G.unique
  tagged := G.tagged
  distinct := G.distinct
  discs := G.discs_update o
  ctl := G.ctl

/-- A segment controller changes. -/
theorem Skel.Good.control {g : Seg} {c : Bool × SegState × SegConfig} (o : CtlOk c) :
    Skel.Good { k with ctl := Function.update k.ctl g c } :=
  { G with
    ctl := by
      intro x
      rcases eq_or_ne x g with rfl | e
      · simpa using o
      · simpa [Function.update_of_ne e] using G.ctl x }

/-- Entries are freed: every key that remains was there before. -/
theorem Skel.Good.freed {keys : Index → Option (Seg × Nat × Nat)}
    (e : ∀ i x, keys i = some x → k.keys i = some x) : Skel.Good { k with keys := keys } :=
  { G with
    valid := fun i x h => G.valid i x (e i x h)
    unique := fun i j x y hx hy => G.unique i j x y (e i x hx) (e j y hy)
    discs := fun g =>
      { record := (G.discs g).record
        mark := (G.discs g).mark
        held := fun a h i x hx => (G.discs g).held a h i x (e i x hx)
        probed := fun m h v i x hx => (G.discs g).probed m h v i x (e i x hx) } }

/-- An entry is made at an address that none of the segment's entries, record and probe has. -/
theorem Skel.Good.made {i : Index} {x : Seg × Nat × Nat} (va : validAddr x.2.1 = true)
    (vp : validPorts x.2.2 = true) (f : Skel.free k.keys x.1 x.2.1)
    (nr : (k.discs x.1).2.1 ≠ some x.2.1)
    (nm : ∀ m, (k.discs x.1).2.2 = some m → m.void = .none → m.addr ≠ x.2.1) :
    Skel.Good { k with keys := Function.update k.keys i (some x) } :=
  { G with
    valid := by
      intro j y h
      rcases eq_or_ne j i with rfl | e
      · simp at h; subst h; exact ⟨va, vp⟩
      · exact G.valid j y (by simpa [Function.update_of_ne e] using h)
    unique := by
      intro j l y z hy hz hs ha
      rcases eq_or_ne j i with e | e <;> rcases eq_or_ne l i with e' | e' <;> try subst e
      all_goals try subst e'
      · rfl
      · simp at hy; subst hy
        simp only [Function.update_of_ne e'] at hz
        exact absurd ⟨hs.symm, ha.symm⟩ (f l z hz)
      · simp at hz; subst hz
        simp only [Function.update_of_ne e] at hy
        exact absurd ⟨hs, ha⟩ (f j y hy)
      · simp only [Function.update_of_ne e] at hy
        simp only [Function.update_of_ne e'] at hz
        exact G.unique j l y z hy hz hs ha
    discs := fun g =>
      { record := (G.discs g).record
        mark := (G.discs g).mark
        held := by
          intro a h j y hy
          rcases eq_or_ne j i with rfl | e
          · simp at hy; subst hy
            rintro ⟨rfl, rfl⟩; exact nr h
          · exact (G.discs g).held a h j y (by simpa [Function.update_of_ne e] using hy)
        probed := by
          intro m h v j y hy
          rcases eq_or_ne j i with rfl | e
          · simp at hy; subst hy
            rintro ⟨rfl, hc⟩; exact nm m h v hc.symm
          · exact (G.discs g).probed m h v j y (by simpa [Function.update_of_ne e] using hy) } }

/-- A job is accepted. -/
theorem Skel.Good.accepted {h : Handle} {t : BitVec 16} (l : k.tags h = none) (z : t ≠ 0#16)
    (n : ∀ x, k.tags x ≠ some t) (r : k.numbers.length + k.reservations < queuePlaces) :
    Skel.Good { k with
      tags := Function.update k.tags h (some t), reservations := k.reservations + 1 } :=
  { G with
    reservations := by
      have := live_update k h (some t)
      have r := G.reservations
      simp only [l, if_true, Option.isSome_none, Option.isSome_some, Bool.false_eq_true, if_false] at this
      show k.reservations + 1
        = Skel.live { k with tags := Function.update k.tags h (some t) } + k.probing
      omega
    room := by show k.numbers.length + (k.reservations + 1) ≤ queuePlaces; omega
    tagged := by
      intro x t' hx
      rcases eq_or_ne x h with rfl | e
      · simp at hx; subst hx; exact z
      · exact G.tagged x t' (by simpa [Function.update_of_ne e] using hx)
    distinct := by
      intro x y t' hx hy
      rcases eq_or_ne x h with e | e <;> rcases eq_or_ne y h with e' | e' <;> try subst e
      all_goals try subst e'
      · rfl
      · simp at hx; subst hx
        exact absurd (by simpa [Function.update_of_ne e'] using hy) (n y)
      · simp at hy; subst hy
        exact absurd (by simpa [Function.update_of_ne e] using hx) (n x)
      · exact G.distinct x y t' (by simpa [Function.update_of_ne e] using hx)
          (by simpa [Function.update_of_ne e'] using hy) }

/-- The head report is removed. -/
theorem Skel.Good.removed {n : Nat} {rest : List Nat} (e : k.numbers = n :: rest) :
    Skel.Good { k with numbers := rest } :=
  { G with
    room := by have := G.room; rw [e] at this; simp at this ⊢; omega
    range := fun x hx => G.range x (by rw [e]; exact List.mem_cons_of_mem _ hx)
    chain := by have := G.chain; rw [e] at this; exact this.tail
    tail := by
      intro x hx
      refine G.tail x ?_
      rw [e]
      cases rest with
      | nil => simp at hx
      | cons a l => simpa [List.getLast?_cons] using hx }

end

end Sys2Proof.Machine
end

