-- ==== Sys2Proof/Laws/SkeletonOps.lean ====
section
/-! SUPPORT. The operations that leave the skeleton alone, each by one simp lemma. -/

namespace Sys2Proof.Machine

/-! ## The skeleton after each update -/

theorem skel_updSeg (g : Seg) (f : Column → Column) (s : State) :
    skel (s.updSeg g f) = { skel s with
      discs := Function.update (skel s).discs g (f (s.seg g)).disc.skel
      ctl := Function.update (skel s).ctl g (f (s.seg g)).ctl } := by
  have d : (fun k => ((s.updSeg g f).seg k).disc.skel)
      = Function.update (fun k => (s.seg k).disc.skel) g (f (s.seg g)).disc.skel := by
    funext k; rw [seg_updSeg]
    by_cases h : k = g
    · subst h; simp
    · simp [h]
  have c : (fun k => ((s.updSeg g f).seg k).ctl)
      = Function.update (fun k => (s.seg k).ctl) g (f (s.seg g)).ctl := by
    funext k; rw [seg_updSeg]
    by_cases h : k = g
    · subst h; simp
    · simp [h]
  simp only [skel, updSeg_entry, updSeg_job, updSeg_queue, d, c]

theorem skel_updSeg_silent {g : Seg} {f : Column → Column} {s : State}
    (hd : (f (s.seg g)).disc.skel = (s.seg g).disc.skel) (hc : (f (s.seg g)).ctl = (s.seg g).ctl) :
    skel (s.updSeg g f) = skel s := by
  rw [skel_updSeg, hd, hc]
  simp [skel]

@[simp] theorem skel_updX (g : Seg) (f : Exchange → Exchange) (s : State) :
    skel (s.updX g f) = skel s :=
  skel_updSeg_silent rfl (by simp [Column.ctl])

@[simp] theorem skel_updLine (g : Seg) (f : Line → Line) (s : State) :
    skel (s.updLine g f) = skel s := skel_updSeg_silent rfl rfl

@[simp] theorem skel_updSweep (g : Seg) (f : Sweep → Sweep) (s : State) :
    skel (s.updSweep g f) = skel s := skel_updSeg_silent rfl rfl

@[simp] theorem skel_count (g : Seg) (f : Counters → Counters) (s : State) :
    skel (s.count g f) = skel s := skel_updSeg_silent rfl rfl

@[simp] theorem skel_updLink (f : Link → Link) (s : State) : skel (s.updLink f) = skel s := rfl

theorem skel_updDisc (g : Seg) (f : Discovery → Discovery) (s : State) :
    skel (s.updDisc g f) = { skel s with
      discs := Function.update (skel s).discs g (f (s.seg g).disc).skel } := by
  rw [State.updDisc, skel_updSeg]
  simp [skel, Column.ctl]

theorem skel_setEntry (i : Index) (e : Option Entry) (s : State) :
    skel (s.setEntry i e) = { skel s with
      keys := Function.update (skel s).keys i (e.map Entry.key) } := by
  have d : (fun k => ((s.setEntry i e).entry k).map Entry.key)
      = Function.update (fun k => (s.entry k).map Entry.key) i (e.map Entry.key) := by
    funext k; rw [entry_setEntry]
    by_cases h : k = i
    · subst h; simp
    · simp [h]
  simp only [skel, setEntry_job, setEntry_seg, setEntry_queue, d]

theorem skel_updEntry {i : Index} {f : Entry → Entry} {s : State} (h : ∀ e, (f e).key = e.key) :
    skel (s.updEntry i f) = skel s := by
  have : ((s.entry i).map f).map Entry.key = (s.entry i).map Entry.key := by
    cases s.entry i <;> simp [h]
  rw [State.updEntry, skel_setEntry, this]
  simp [skel]

theorem skel_setJob (h : Handle) (j : Option Job) (s : State) :
    skel (s.setJob h j) = { skel s with
      tags := Function.update (skel s).tags h (j.map (·.tag)) } := by
  have d : (fun k => ((s.setJob h j).job k).map (·.tag))
      = Function.update (fun k => (s.job k).map (·.tag)) h (j.map (·.tag)) := by
    funext k; rw [job_setJob]
    by_cases e : k = h
    · subst e; simp
    · simp [e]
  simp only [skel, setJob_entry, setJob_seg, setJob_queue, d]

theorem skel_updJob {h : Handle} {f : Job → Job} {s : State} (e : ∀ j, (f j).tag = j.tag) :
    skel (s.updJob h f) = skel s := by
  have : ((s.job h).map f).map (·.tag) = (s.job h).map (·.tag) := by
    cases s.job h <;> simp [e]
  rw [State.updJob, skel_setJob, this]
  simp [skel]

/-- What the skeleton reads of one segment. -/
@[simp] theorem skel_discs (s : State) (g : Seg) : (skel s).discs g = (s.seg g).disc.skel := rfl
@[simp] theorem skel_ctl (s : State) (g : Seg) : (skel s).ctl g = (s.seg g).ctl := rfl
@[simp] theorem skel_keys (s : State) (i : Index) : (skel s).keys i = (s.entry i).map Entry.key := rfl
@[simp] theorem skel_tags (s : State) (h : Handle) : (skel s).tags h = (s.job h).map (·.tag) := rfl

theorem leaveHolders_disc (h : Handle) (c : Column) : (leaveHolders h c).disc = c.disc := rfl
theorem leaveHolders_ctl (h : Handle) (c : Column) : (leaveHolders h c).ctl = c.ctl := rfl

theorem updLane_disc (l : Lane) (f : List Handle → List Handle) (c : Column) :
    (updLane l f c).disc = c.disc := by cases l <;> rfl
theorem updLane_ctl (l : Lane) (f : List Handle → List Handle) (c : Column) :
    (updLane l f c).ctl = c.ctl := by cases l <;> rfl

/-! ## Operations that leave the skeleton alone -/

@[simp] theorem skel_leaveHolders (g : Seg) (h : Handle) (s : State) :
    skel (s.updSeg g (leaveHolders h)) = skel s := skel_updSeg_silent rfl rfl

@[simp] theorem skel_updLane (g : Seg) (l : Lane) (f : List Handle → List Handle) (s : State) :
    skel (s.updSeg g (updLane l f)) = skel s :=
  skel_updSeg_silent (by rw [updLane_disc]) (updLane_ctl ..)

@[simp] theorem skel_elapse (d : Time) (s : State) : skel (s.elapse d) = skel s := by
  unfold State.elapse
  split
  · rfl
  · have e1 : ∀ h : Fin 48, Option.map (·.tag) ((mapStore (Option.map (Job.elapse d)) s.jobs)[h])
        = Option.map (·.tag) (s.jobs[h]) := by
      intro h; rw [mapStore_get]; cases s.jobs[h] <;> rfl
    have e2 : ∀ g : Fin 4, (mapStore (Column.elapse d) s.segs)[g] = Column.elapse d s.segs[g] :=
      fun g => mapStore_get ..
    have e3 : ∀ u : Discovery, (u.elapse d).skel = u.skel := by
      intro u; cases u with | mk a b c e f r m => cases r <;> rfl
    have e4 : ∀ c : Column, (c.elapse d).ctl = c.ctl := by
      intro c; simp [Column.ctl, Column.elapse]
    simp only [skel, State.job, State.seg, State.entry, e1, e2, e4]
    congr 1
    funext g; exact e3 _

@[simp] theorem skel_leaveAttention (i : Index) (s : State) : skel (leaveAttention i s) = skel s := by
  unfold leaveAttention
  split
  · rfl
  · exact (skel_updSeg_silent rfl rfl).trans (skel_updEntry fun _ => rfl)

@[simp] theorem skel_joinAttention (i : Index) (s : State) : skel (joinAttention i s) = skel s := by
  unfold joinAttention
  split
  · rfl
  · split
    · exact (skel_updSeg_silent rfl rfl).trans (skel_updEntry fun _ => rfl)
    · rfl

@[simp] theorem skel_attentionToTail (i : Index) (s : State) :
    skel (attentionToTail i s) = skel s := by
  unfold attentionToTail
  split
  · rfl
  · exact skel_updSeg_silent rfl rfl

@[simp] theorem skel_countAttempt (g : Seg) (x : Exchange) (s : State) :
    skel (countAttempt g x s) = skel s := by
  simp only [countAttempt]
  split
  · rfl
  · split
    · refine (skel_updJob fun _ => ?_).trans (skel_updX ..)
      rfl
    · exact skel_updX ..

@[simp] theorem skel_enterSend (g : Seg) (s : State) : skel (enterSend g s) = skel s := by
  unfold enterSend
  split
  · rfl
  · simp

@[simp] theorem skel_enterDefer (g : Seg) (s : State) : skel (enterDefer g s) = skel s := by
  simp only [enterDefer]
  split
  · split <;> simp
  · simp

@[simp] theorem skel_lookSweep (g : Seg) (s : State) : skel (lookSweep g s).1 = skel s := by
  simp only [lookSweep]
  split
  · split
    · rfl
    · split
      · split <;> simp
      · simp
  · rfl

@[simp] theorem skel_setToggle (x : Exchange) (form : EndForm) (s : State) :
    skel (setToggle x form s) = skel s := by
  unfold setToggle
  split
  · rfl
  · split
    · rfl
    · refine skel_updEntry fun e => ?_
      unfold toggleAfter
      split
      · split <;> rfl
      · split <;> rfl
      · split <;> rfl
      · rfl
      · rfl

@[simp] theorem skel_endSweepStep (g : Seg) (x : Exchange) (form : EndForm) (s : State) :
    skel (endSweepStep g x form s) = skel s := by
  unfold endSweepStep
  split <;> simp

@[simp] theorem skel_endFollowUp (x : Exchange) (form : EndForm) (s : State) :
    skel (endFollowUp x form s) = skel s := by
  unfold endFollowUp
  split
  · split
    · simp
    · split <;> simp
    · rfl
  · rfl

@[simp] theorem skel_returnToLane (g : Seg) (h : Handle) (j : Job) (s : State) :
    skel (returnToLane g h j s) = skel s := by
  unfold returnToLane
  refine (skel_updLane ..).trans (skel_updJob fun _ => ?_)
  rfl

@[simp] theorem skel_noteFailure (x : Exchange) (k : FailKind) (s : State) :
    skel (noteFailure x k s) = skel s := by
  unfold noteFailure
  split
  · exact skel_updJob fun _ => rfl
  · rfl

@[simp] theorem skel_strayItem (g : Seg) (i : Item) (s : State) : skel (strayItem g i s) = skel s := by
  unfold strayItem; split <;> simp

@[simp] theorem skel_replySof (g : Seg) (s : State) : skel (replySof g s) = skel s := skel_updX ..

@[simp] theorem skel_raiseCsn (s : State) : skel s.raiseCsn = skel s := rfl
@[simp] theorem skel_setSlot (t : BitVec 16) (o : AnsOutcome) (d : List Byte) (s : State) :
    skel (setSlot t o d s) = skel s := rfl
@[simp] theorem skel_countTaken (s : State) : skel (countTaken s) = skel s := rfl
@[simp] theorem skel_countRepeat (s : State) : skel (countRepeat s) = skel s := rfl
@[simp] theorem skel_countMalformed (s : State) : skel (countMalformed s) = skel s := rfl
@[simp] theorem skel_countTruncated (s : State) : skel (countTruncated s) = skel s := rfl
@[simp] theorem skel_countCrcFault (s : State) : skel (countCrcFault s) = skel s := rfl
@[simp] theorem skel_cancelCarried (g : Seg) (s : State) : skel (cancelCarried g s) = skel s := by
  unfold cancelCarried
  split
  · split
    · exact skel_updJob fun _ => rfl
    · rfl
  · rfl

@[simp] theorem skel_confirmStart (g : Seg) (half : Time) (s : State) : skel (confirmStart g half s) = skel s := by
  unfold confirmStart
  rw [skel_updX]; exact skel_updSeg_silent rfl rfl

@[simp] theorem skel_sentWhole (g : Seg) (s : State) : skel (sentWhole g s) = skel s := by
  unfold sentWhole
  exact skel_updSeg_silent rfl (by simp [Column.ctl])

@[simp] theorem skel_restartSweepTimer (g : Seg) (s : State) :
    skel (restartSweepTimer g s) = skel s := skel_updSeg_silent rfl rfl

end Sys2Proof.Machine
end

