-- ==== Sys2Proof/Laws/Keeps.lean ====
section
/-! SUPPORT. The shared operations keep the laws: reports, completions, picks, discovery units. -/

namespace Sys2Proof.Machine

/-! ## From a change of the skeleton to the laws -/

theorem Inv.good {s : State} (h : Inv s) : (skel s).Good := (inv_iff s).1 h

theorem Inv.intro {s : State} {k : Skel} (g : k.Good) (e : skel s = k) : Inv s :=
  (inv_iff s).2 (e ▸ g)

section
variable {s : State}

theorem freeRoom_pos : 0 < freeRoom s ↔ (skel s).numbers.length + (skel s).reservations < queuePlaces := by
  simp only [freeRoom, skel, List.length_map]; omega

/-! ## Reports -/

theorem skel_enterQueue (b : ReportBody) (s : State) :
    skel (s.updQueue (Queue.enter b)) = (skel s).enter := by
  simp [skel, Skel.enter, Queue.enter, State.updQueue, State.entry, State.job, State.seg]

theorem Inv.eventReport (h : Inv s) (b : ReportBody) : Inv (eventReport b s) := by
  unfold Machine.eventReport
  split
  · rename_i r
    exact .intro (h.good.event (freeRoom_pos.1 r)) (skel_enterQueue b s)
  · exact h.of_skel rfl

theorem skel_enterReserved (b : ReportBody) (s : State) :
    skel (enterReserved b s) = { (skel s).enter with reservations := (skel s).reservations - 1 } := by
  simp [skel, Skel.enter, enterReserved, Queue.enter, State.updQueue, State.entry, State.job, State.seg]

/-! ## Jobs -/

theorem Inv.completeJob (i : Inv s) (h : Handle) (o : JobOutcome) (d : List Byte) :
    Inv (completeJob h o d s) := by
  unfold Machine.completeJob
  split
  · exact i
  · rename_i j e
    refine .intro (i.good.result (h := h) (by simp [e])) ?_
    rw [skel_setJob, skel_leaveHolders, skel_enterReserved]
    rfl

theorem Inv.completeJobs (i : Inv s) (hs : List Handle) (o : JobOutcome) : Inv (completeJobs hs o s) := by
  unfold Machine.completeJobs
  induction hs generalizing s with
  | nil => exact i
  | cons h hs ih => exact ih (i.completeJob h o [])

/-! ## Segments -/

theorem skel_setExchange (g : Seg) (x : Option Exchange) (s : State) :
    skel (s.updSeg g fun c => { c with exchange := x }) = { skel s with
      ctl := Function.update (skel s).ctl g (x.isSome, (s.seg g).state, (s.seg g).config) } := by
  rw [skel_updSeg]; simp [Column.ctl, skel]

/-- A RUNNING segment may be given an exchange. -/
theorem Inv.beginExchange (i : Inv s) {g : Seg} (r : (s.seg g).state = .running) (x : Exchange) :
    Inv (beginExchange g x s) := by
  unfold Machine.beginExchange
  refine .intro (k := _) (i.good.control (g := g) (c := (true, (s.seg g).state, (s.seg g).config)) ?_)
    ((skel_enterDefer ..).trans (skel_setExchange ..))
  exact ⟨fun _ => .inl r, (i.configs g).1, (i.configs g).2⟩

/-- A segment is given up by its exchange. -/
theorem Inv.dropExchange (i : Inv s) (g : Seg) :
    Inv (s.updSeg g fun c => { c with exchange := none }) := by
  refine .intro (i.good.control (g := g) (c := (false, (s.seg g).state, (s.seg g).config)) ?_)
    (skel_setExchange ..)
  exact ⟨fun h => (by simp at h), (i.configs g).1, (i.configs g).2⟩

/-- A segment's column changes within its own laws, its discovery unit and configuration staying. -/
theorem Inv.column (i : Inv s) (g : Seg) {f : Column → Column}
    (d : (f (s.seg g)).disc.skel = (s.seg g).disc.skel) (c : (f (s.seg g)).config = (s.seg g).config)
    (x : (f (s.seg g)).exchange.isSome = true →
      (f (s.seg g)).state = .running ∨ (f (s.seg g)).state = .draining) :
    Inv (s.updSeg g f) := by
  refine .intro (i.good.control (g := g) (c := (f (s.seg g)).ctl) ?_) ?_
  · exact ⟨x, by simpa [Column.ctl, c] using (i.configs g).1, by simpa [Column.ctl, c] using (i.configs g).2⟩
  · rw [skel_updSeg, d]; simp [skel]

/-! ## Starting an exchange -/

theorem isFree_running {c : Column} (h : isFree c = true) : c.state = .running := by
  simp [isFree] at h; exact h.1.1

theorem Inv.startJob (i : Inv s) {g : Seg} (r : (s.seg g).state = .running) (h : Handle) :
    Inv (startJob g h s) := by
  unfold Machine.startJob
  split
  · exact i.of_skel (skel_leaveHolders ..)
  · have e : skel ((s.updSeg g (leaveHolders h)).updJob h fun j =>
        { j with state := .active, started := true, deadlineTimer := none }) = skel s := by
      refine (skel_updJob fun _ => ?_).trans (skel_leaveHolders ..)
      rfl
    exact (i.of_skel e).beginExchange (by rw [updJob_seg, seg_updSeg_same]; exact r) _

theorem Inv.startPoll (i : Inv s) {g : Seg} (r : (s.seg g).state = .running) (o : XOrigin) (k : Index) :
    Inv (startPoll g o k s) := by
  unfold Machine.startPoll
  split
  · exact i
  · exact i.beginExchange r _

/-- A discovery unit's new skeleton is allowed if it neither becomes nor stops being PROBING. -/
theorem Inv.unit (i : Inv s) {g : Seg} {f : Discovery → Discovery}
    (p : (s.seg g).disc.state = .probing ↔ (f (s.seg g).disc).state = .probing)
    (o : DiscOk (skel s).keys g (f (s.seg g).disc).skel) : Inv (s.updDisc g f) :=
  .intro (i.good.unit (g := g) (d := (f (s.seg g).disc).skel) p o) (skel_updDisc ..)

theorem Inv.startProbe (i : Inv s) {g : Seg} (r : (s.seg g).state = .running)
    (p : (s.seg g).disc.state = .probing) {a : Nat} (n : findEntry s g a = none) :
    Inv (startProbe g a s) := by
  unfold Machine.startProbe
  refine Inv.beginExchange (i.unit Iff.rfl ?_) (by simpa using r) _
  have o := i.good.discs g
  refine ⟨o.record, fun h => ?_, o.held, fun m h _ => ?_⟩
  · have : (s.seg g).disc.state = .held := h
    rw [p] at this; simp at this
  · simp [Discovery.skel] at h; subst h
    exact (findEntry_none s g a).1 n

/-! ## Looks and picks -/

theorem DiscOk.idle (keys : Index → Option (Seg × Nat × Nat)) (g : Seg) (m : Option ProbeMark)
    (n : ∀ x, m = some x → x.void = .none → Skel.free keys g x.addr) : DiscOk keys g (.idle, none, m) :=
  ⟨by simp, by simp, by simp, n⟩

theorem Inv.endRun (i : Inv s) {g : Seg} (p : (s.seg g).disc.state = .probing) : Inv (endRun g s) := by
  unfold Machine.endRun
  refine .intro (i.good.unitReport (g := g) (d := (.idle, none, (s.seg g).disc.mark)) p (by simp)
    (.idle _ _ _ (i.good.discs g).probed)) ?_
  rw [skel_updDisc, skel_enterReserved]
  rfl

theorem nextProbe_free {g : Seg} {a : Nat} (h : nextProbe s g = some a) : findEntry s g a = none := by
  have := List.find?_some h
  simp at this; exact this.2

theorem lookDisc_some {g : Seg} {a : Nat} (h : (lookDisc g s).2 = some a) :
    (lookDisc g s).1 = s ∧ (s.seg g).disc.state = .probing ∧ findEntry s g a = none := by
  unfold lookDisc at h ⊢
  split at h
  · rename_i p
    split at h
    · rename_i b e
      simp at h; subst h
      simp only [p, if_true]
      exact ⟨trivial, trivial, nextProbe_free e⟩
    · simp at h
  · simp at h

theorem Inv.lookDisc (i : Inv s) (g : Seg) : Inv (lookDisc g s).1 := by
  unfold Machine.lookDisc
  split
  · rename_i p
    split
    · exact i
    · exact i.endRun p
  · exact i

theorem Inv.pickDiscovery (i : Inv s) {g : Seg} (r : (s.seg g).state = .running) :
    Inv (pickDiscovery g s) := by
  unfold Machine.pickDiscovery
  split
  · rename_i a e
    obtain ⟨h1, h2, h3⟩ := lookDisc_some e
    rw [h1]; exact i.startProbe r h2 h3
  · exact i.lookDisc g

theorem Inv.pickNormal (i : Inv s) {g : Seg} (r : (s.seg g).state = .running) :
    Inv (pickNormal g s) := by
  unfold Machine.pickNormal
  split
  · exact (i.of_skel (skel_updSeg_silent rfl rfl)).startJob (by simpa using r) _
  · exact i.pickDiscovery r

theorem Inv.startSweepStep (i : Inv s) {g : Seg} (r : (s.seg g).state = .running) (a : Nat) :
    Inv (startSweepStep g a s) := by
  unfold Machine.startSweepStep
  split
  · exact i
  · exact (i.of_skel (skel_updSeg_silent rfl rfl)).startPoll (by simpa using r) _ _

/-- A look of the sweep changes the sweep alone. -/
theorem lookSweep_state (g k : Seg) (s : State) :
    ((lookSweep g s).1.seg k).state = (s.seg k).state := by
  have := congrFun (congrArg Skel.ctl (skel_lookSweep g s)) k
  exact congrArg (fun c => c.2.1) this

theorem Inv.pickSweep (i : Inv s) {g : Seg} (r : (s.seg g).state = .running) :
    Inv (pickSweep g s) := by
  have l : Inv (lookSweep g s).1 := i.of_skel (skel_lookSweep g s)
  have r' : ((lookSweep g s).1.seg g).state = .running := by rw [lookSweep_state]; exact r
  unfold Machine.pickSweep
  split
  · split
    · exact l.startSweepStep r' _
    · exact l.pickNormal r'
  · exact l.pickNormal r'

theorem Inv.pick (i : Inv s) (g : Seg) : Inv (pick g s) := by
  unfold Machine.pick
  split
  · rename_i f
    have r := isFree_running f
    split
    · exact i.startPoll r _ _
    · split
      · exact i.startJob r _
      · exact i.pickSweep r
  · exact i

/-! ## Room for discovery units -/

theorem Inv.lookAndPick (i : Inv s) (g : Seg) : Inv (lookAndPick g s) := by
  unfold Machine.lookAndPick
  split
  · exact (i.lookDisc g).pick g
  · exact i.lookDisc g

/-- A unit that holds no record takes a reservation in free room. -/
theorem Inv.beginProbing (i : Inv s) {g : Seg} (n : (s.seg g).disc.state ≠ .probing)
    (e : (s.seg g).disc.record = none) (r : 0 < freeRoom s) : Inv (beginProbing g s) := by
  unfold Machine.beginProbing
  refine .intro (i.good.unitTake (g := g) (d := (.probing, none, (s.seg g).disc.mark)) n rfl
    ⟨by simp, by simp, by simp, (i.good.discs g).probed⟩ (freeRoom_pos.1 r)) ?_
  have d : (({ (s.seg g).disc with state := .probing } : Discovery)).skel
      = (.probing, none, (s.seg g).disc.mark) := by simp [Discovery.skel, e]
  rw [skel_updDisc, ← d]
  rfl

theorem waiting_no_record (i : Inv s) {g : Seg} (w : (s.seg g).disc.state ≠ .held) :
    (s.seg g).disc.record = none := by
  have := (i.held g).1
  cases e : (s.seg g).disc.record with
  | none => rfl
  | some r => rw [e] at this; exact absurd (this.1 rfl) w

theorem Inv.takeRoom (i : Inv s) (g : Seg) : Inv (takeRoom g s) := by
  unfold Machine.takeRoom
  split
  · rename_i c
    exact (i.beginProbing (by simp [c.1]) (waiting_no_record i (by simp [c.1])) c.2).lookAndPick g
  · exact i

theorem Inv.serveWaitRoom (i : Inv s) : Inv (serveWaitRoom s) :=
  (((i.takeRoom 0).takeRoom 1).takeRoom 2).takeRoom 3

/-- A unit that is not PROBING resumes. -/
theorem Inv.resumeDisc (i : Inv s) {g : Seg} (n : (s.seg g).disc.state ≠ .probing) :
    Inv (resumeDisc g s) := by
  unfold Machine.resumeDisc
  refine Inv.takeRoom (i.unit ⟨fun h => absurd h n, by simp⟩ ?_) g
  exact ⟨by simp [Discovery.skel], by simp [Discovery.skel], by simp [Discovery.skel],
    (i.good.discs g).probed⟩

end

end Sys2Proof.Machine
end

