-- ==== Sys2Proof/Laws/KeepsExchanges.lean ====
section
/-! SUPPORT. The end of an exchange, of an attempt and the reception of a reply keep the laws. -/

namespace Sys2Proof.Machine

section
variable {s : State}

/-- An entry changes without its key. -/
theorem Inv.entryFields (i : Inv s) (k : Index) {f : Entry → Entry} (h : ∀ e, (f e).key = e.key) :
    Inv (s.updEntry k f) := i.of_skel (skel_updEntry h)

/-- A job changes without its tag. -/
theorem Inv.jobFields (i : Inv s) (h : Handle) {f : Job → Job} (e : ∀ j, (f j).tag = j.tag) :
    Inv (s.updJob h f) := i.of_skel (skel_updJob e)

/-! ## Health, status and attention -/

theorem Inv.goodOutcome (i : Inv s) (k : Index) (e : Entry) : Inv (goodOutcome k e s) := by
  simp only [Machine.goodOutcome]
  split
  · refine Inv.eventReport (Inv.entryFields (i.entryFields k fun _ => ?_) k fun _ => ?_) _ <;> rfl
  · exact i.entryFields k fun _ => rfl

theorem Inv.missOutcome (i : Inv s) (k : Index) (e : Entry) : Inv (missOutcome k e s) := by
  unfold Machine.missOutcome
  split
  · exact (i.entryFields k (f := fun e => { e with state := .silent, misses := 0, silentFails := 0 })
      fun _ => rfl).eventReport _
  · exact i.entryFields k fun _ => rfl

theorem Inv.goOffline (i : Inv s) (k : Index) (e : Entry) : Inv (goOffline k e s) := by
  unfold Machine.goOffline
  refine Inv.of_skel (Inv.completeJobs (Inv.eventReport (i.entryFields k fun _ => ?_) _) _ _)
    (skel_leaveAttention ..)
  rfl

theorem Inv.handClass (i : Inv s) (k : Index) (c : OutcomeClass) : Inv (handClass k c s) := by
  unfold Machine.handClass failedOutcome silentOutcome
  split
  · exact i
  · split
    · exact i
    · split
      · exact i.goodOutcome ..
      · split
        · exact i.missOutcome ..
        · exact i.missOutcome ..
        · split
          · exact i.goOffline ..
          · exact i.entryFields k fun _ => rfl
        · exact i
        · exact i
      · exact i

theorem Inv.handOutcome (i : Inv s) (x : Exchange) (f : EndForm) : Inv (handOutcome x f s) := by
  unfold Machine.handOutcome
  split
  · exact i.handClass ..
  · exact i

theorem Inv.statusReport (i : Inv s) (k : Index) (o : XOrigin) (e : Entry) (r : Reply) :
    Inv (statusReport k o e r s) := by
  simp only [Machine.statusReport]
  split
  · exact (i.eventReport _).of_skel (skel_leaveAttention ..)
  · split
    · exact (i.eventReport _).of_skel (skel_leaveAttention ..)
    · split
      · exact i
      · exact i.eventReport _
  · exact i.of_skel (skel_leaveAttention ..)
  · exact i

theorem Inv.statusRule (i : Inv s) (k : Index) (o : XOrigin) (r : Reply) : Inv (statusRule k o r s) := by
  simp only [Machine.statusRule]
  split
  · exact i
  · refine Inv.statusReport (Inv.entryFields ?_ k fun _ => ?_) _ _ _ _
    · split
      · exact i.of_skel (skel_joinAttention ..)
      · exact i
    · rfl

theorem Inv.handStatus (i : Inv s) (x : Exchange) (f : EndForm) : Inv (handStatus x f s) := by
  unfold Machine.handStatus handReply
  split
  · exact i
  · split
    · exact i
    · split
      · split
        · exact i.statusRule ..
        · split
          · exact i.of_skel (skel_joinAttention ..)
          · exact i
      · split
        · exact i.of_skel (skel_leaveAttention ..)
        · exact i
      · exact i

/-! ## The job, the probe -/

theorem Inv.busyJob (i : Inv s) (g : Seg) (h : Handle) (j : Job) : Inv (busyJob g h j s) := by
  unfold Machine.busyJob
  split
  · refine i.of_skel ((skel_updSeg_silent rfl rfl).trans (skel_updJob fun _ => ?_))
    rfl
  · exact i.completeJob ..

theorem Inv.endByReply (i : Inv s) (h : Handle) (x : Exchange) (r : Reply) : Inv (endByReply h x r s) := by
  unfold Machine.endByReply
  split <;> exact i.completeJob ..

theorem Inv.endJob (i : Inv s) (g : Seg) (h : Handle) (x : Exchange) (f : EndForm) :
    Inv (endJob g h x f s) := by
  unfold Machine.endJob
  split
  · exact i
  · split
    · split
      · exact i.busyJob ..
      · exact i.endByReply ..
    · exact i.completeJob ..
    · exact i.completeJob ..
    · exact i.of_skel (skel_returnToLane ..)
    · exact i.endByReply ..
    · exact i.completeJob ..

theorem Inv.holdFind (i : Inv s) {g : Seg} (p : (s.seg g).disc.state = .probing)
    (n : (s.seg g).disc.mark = none) {a : Nat} (f : findEntry s g a = none)
    (identity : Option (List Byte)) : Inv (holdFind g a identity s) := by
  unfold Machine.holdFind
  refine .intro (i.good.unitReport (g := g) (d := (.held, some a, none)) p (by simp)
    ⟨by simp, by simp, ?_, by simp⟩) ?_
  · intro b hb; simp at hb; subst hb; exact (findEntry_none s g a).1 f
  · rw [skel_updDisc, skel_enterReserved]
    simp only [enterReserved, updQueue_seg, Discovery.skel, Option.map_some, n]
    rfl

theorem Inv.unclearFind (i : Inv s) {g : Seg} (p : (s.seg g).disc.state = .probing)
    (a : Nat) : Inv (unclearFind g a s) := by
  unfold Machine.unclearFind
  have r := waiting_no_record i (g := g) (by simp [p])
  refine Inv.resumeDisc ?_ (by simp)
  refine .intro (i.good.unitReport (g := g) (d := (.waitRoom, none, (s.seg g).disc.mark)) p (by simp)
    ⟨by simp, by simp, by simp, (i.good.discs g).probed⟩) ?_
  rw [skel_updDisc, skel_enterReserved]
  simp only [enterReserved, updQueue_seg, Discovery.skel, Option.map_none, r]
  rfl

/-- The unit's counts and cursor are no part of the laws. -/
theorem Inv.unitCounts (i : Inv s) {g : Seg} {f : Discovery → Discovery}
    (h : ∀ u, (f u).skel = u.skel) : Inv (s.updDisc g f) :=
  i.of_skel (skel_updSeg_silent (h _) rfl)

theorem Inv.probeOutcome (i : Inv s) {g : Seg} (p : (s.seg g).disc.state = .probing)
    (n : (s.seg g).disc.mark = none) {a : Nat} (f : findEntry s g a = none) (form : EndForm) :
    Inv (probeOutcome g a form s) := by
  unfold Machine.probeOutcome
  split
  · exact i.holdFind p n f _
  · refine (i.unitCounts fun _ => ?_).lookDisc g
    rfl
  · exact i.lookDisc g
  · exact i.unclearFind p a
  all_goals exact i

theorem Inv.endProbe (i : Inv s) (g : Seg) (form : EndForm) : Inv (endProbe g form s) := by
  unfold Machine.endProbe
  split
  · exact i
  · rename_i m hm
    have i1 : Inv (s.updDisc g fun u => { u with mark := none }) := by
      refine i.unit Iff.rfl ?_
      have o := i.good.discs g
      exact ⟨o.record, fun _ => rfl, o.held, by simp [Discovery.skel]⟩
    simp only []
    split
    · exact i1
    · rename_i c
      have p : (s.seg g).disc.state = .probing := by simpa using c
      split
      · rename_i v
        refine i1.probeOutcome (by simpa using p) (by simp) ?_ form
        rw [findEntry_none, skel_updDisc]
        exact (i.good.discs g).probed m hm v
      · refine (i1.unitCounts fun _ => ?_).lookDisc g
        rfl
      · exact i1

theorem Inv.handOrigin (i : Inv s) (g : Seg) (x : Exchange) (f : EndForm) : Inv (handOrigin g x f s) := by
  unfold Machine.handOrigin
  split
  · exact i.endJob ..
  · exact i.of_skel (skel_endSweepStep ..)
  · exact i.of_skel (skel_endFollowUp ..)
  · exact i.endProbe ..

/-! ## The end of an exchange -/

theorem Inv.freeEntry (i : Inv s) (k : Index) : Inv (s.setEntry k none) := by
  refine .intro (i.good.freed (keys := Function.update (skel s).keys k none) ?_) (skel_setEntry ..)
  intro l x h
  rcases eq_or_ne l k with rfl | e
  · simp at h
  · simpa [Function.update_of_ne e] using h

theorem Inv.freeRetiring (i : Inv s) (x : Exchange) : Inv (freeRetiring x s) := by
  unfold Machine.freeRetiring
  split
  · split
    · exact i.freeEntry _
    · exact i
  · exact i

theorem Inv.segmentFreed (i : Inv s) (g : Seg) (f : Option SegFault) : Inv (segmentFreed g f s) := by
  have d := i.dropExchange g
  simp only [Machine.segmentFreed]
  split
  · unfold enterFaulted
    exact Inv.eventReport (d.column g rfl rfl (by simp)) _
  · split
    · unfold endDrain
      exact Inv.eventReport (d.column g rfl rfl (by simp)) _
    · exact d.pick g
    · exact d
    · exact d

theorem Inv.endExchange (i : Inv s) (g : Seg) (x : Exchange) (form : EndForm) (f : Option SegFault) :
    Inv (endExchange g x form f s) := by
  unfold Machine.endExchange
  have t : Inv (setToggle x form s) := i.of_skel (skel_setToggle ..)
  exact ((((t.handOutcome x form).handStatus x form).handOrigin g x form).freeRetiring x).segmentFreed g f

/-! ## The end of an attempt -/

theorem Inv.exchangeFields (i : Inv s) (g : Seg) (f : Exchange → Exchange) : Inv (s.updX g f) :=
  i.of_skel (skel_updX ..)

theorem Inv.enterDefer (i : Inv s) (g : Seg) : Inv (enterDefer g s) := i.of_skel (skel_enterDefer ..)

theorem Inv.failAttempt (i : Inv s) (g : Seg) (x : Exchange) (k : FailKind) :
    Inv (failAttempt g x k s) := by
  have n : Inv (noteFailure x k s) := i.of_skel (skel_noteFailure ..)
  simp only [Machine.failAttempt]
  split
  · exact n.endExchange ..
  · split
    · exact n.endExchange ..
    · split
      · unfold attemptAgain
        split
        · exact n.endExchange ..
        · split
          · exact n.endExchange ..
          · exact (n.exchangeFields ..).enterDefer g
      · unfold attemptsSpent
        split <;> exact n.endExchange ..

theorem Inv.failNoReply (i : Inv s) (g : Seg) (x : Exchange) : Inv (failNoReply g x s) :=
  (i.of_skel (skel_count ..)).failAttempt ..

theorem Inv.failReply (i : Inv s) (g : Seg) (x : Exchange) (k : FailKind) : Inv (failReply g x k s) :=
  (i.of_skel (skel_count ..)).failAttempt ..

theorem Inv.contend (i : Inv s) (g : Seg) (x : Exchange) : Inv (contend g x s) := by
  unfold Machine.contend
  exact Inv.failAttempt (i.of_skel (skel_updSeg_silent rfl rfl)) ..

/-! ## Replies and items -/

theorem Inv.endWithReply (i : Inv s) (g : Seg) (x : Exchange) (r : Reply) : Inv (endWithReply g x r s) :=
  i.endExchange ..

theorem Inv.preludeSuccess (i : Inv s) (g : Seg) (x : Exchange) (h : Handle) (r : Reply) :
    Inv (preludeSuccess g x h r s) := by
  simp only [Machine.preludeSuccess]
  split
  · refine Inv.enterDefer (Inv.exchangeFields ((i.statusRule _ _ r).entryFields _ fun _ => ?_) _ _) g
    rfl
  · exact i

theorem Inv.validReply (i : Inv s) (g : Seg) (x : Exchange) (r : Reply) : Inv (validReply g x r s) := by
  have c : Inv ((s.count g Counters.incValid).updX g fun x => { x with unanswered := false }) :=
    (i.of_skel (skel_count ..)).exchangeFields ..
  simp only [Machine.validReply]
  split
  · split
    · exact c.preludeSuccess ..
    · exact c.endWithReply ..
  · exact c.endWithReply ..

theorem Inv.evaluate (i : Inv s) (g : Seg) (x : Exchange) (chars : List Byte) :
    Inv (evaluate g x chars s) := by
  unfold Machine.evaluate staleReply
  split
  · exact i.validReply ..
  · have c : Inv ((s.count g Counters.incStale).updX g fun x =>
        { x with phase := .await, received := [], gapTimer := none }) :=
      (i.of_skel (skel_count ..)).exchangeFields ..
    simp only []
    split
    · exact c.failNoReply ..
    · exact c
  · exact i.failReply ..

theorem Inv.handItem (i : Inv s) (g : Seg) (item : Item) : Inv (handItem g item s) := by
  unfold Machine.handItem echoCheck itemWhenQuiet receiveInReply
  split
  · split
    · exact i
    · split
      · exact i.of_skel (skel_updLine ..)
      · split
        · exact i.contend ..
        · exact i
  · exact i
  · exact i.of_skel (skel_strayItem ..)
  · split
    · exact i.of_skel (skel_strayItem ..)
    · split
      · split
        · exact i.of_skel (skel_replySof ..)
        · exact i.of_skel (skel_strayItem ..)
      · split
        · exact i.exchangeFields ..
        · exact i.evaluate ..
        · exact i.failReply ..
      all_goals exact i.of_skel (skel_strayItem ..)

theorem Inv.releaseDir (i : Inv s) (g : Seg) : Inv (releaseDir g s) := by
  have l : Inv (s.updLine g fun l => { l with tx := .quiet, idle := 0 }) := i.of_skel (skel_updLine ..)
  simp only [Machine.releaseDir]
  split
  · exact l
  · split
    · split
      · exact l.endExchange ..
      · exact l.exchangeFields ..
    · exact l

end

end Sys2Proof.Machine
end

