-- ==== Sys2Proof/Laws/Requests.lean ====
section
/-! SUPPORT. How a taken request reaches its owner, said once for all of them. -/

namespace Sys2Proof.Machine

section
variable {s : State} {f : HostFrame}

/-! ## The CSN rise -/

@[simp] theorem elapse_rstnLow (d : Time) (s : State) : (s.elapse d).rstnLow = s.rstnLow := by
  unfold State.elapse; split <;> rfl
@[simp] theorem elapse_pending (d : Time) (s : State) : (s.elapse d).pending = s.pending := by
  unfold State.elapse; split <;> rfl
@[simp] theorem elapse_window (d : Time) (s : State) : (s.elapse d).link.window = s.link.window := by
  unfold State.elapse; split <;> rfl
@[simp] theorem elapse_slot (d : Time) (s : State) : (s.elapse d).link.slot = s.link.slot := by
  unfold State.elapse; split <;> rfl

@[simp] theorem elapse_table (d : Time) (s : State) : (s.elapse d).table = s.table := by
  unfold State.elapse; split <;> rfl
@[simp] theorem elapse_entry (d : Time) (s : State) (i : Index) : (s.elapse d).entry i = s.entry i := by
  unfold State.entry; rw [elapse_table]
@[simp] theorem elapse_reports (d : Time) (s : State) : (s.elapse d).queue.reports = s.queue.reports := by
  unfold State.elapse; split <;> rfl
@[simp] theorem elapse_reservations (d : Time) (s : State) :
    (s.elapse d).queue.reservations = s.queue.reservations := by
  unfold State.elapse; split <;> rfl

/-- What a segment holds after a time: its timers moved on, unless RSTN is low. -/
theorem elapse_seg (d : Time) (s : State) (g : Seg) :
    (s.elapse d).seg g = if s.rstnLow then s.seg g else (s.seg g).elapse d := by
  unfold State.elapse
  split
  · rfl
  · exact mapStore_get ..

/-- The parts of a column that time leaves alone. -/
theorem elapse_column (d : Time) (s : State) (g : Seg) :
    ((s.elapse d).seg g).state = (s.seg g).state ∧ ((s.elapse d).seg g).config = (s.seg g).config
      ∧ ((s.elapse d).seg g).disc.state = (s.seg g).disc.state
      ∧ ((s.elapse d).seg g).disc.mark = (s.seg g).disc.mark
      ∧ ((s.elapse d).seg g).exchange.isSome = (s.seg g).exchange.isSome
      ∧ ((s.elapse d).seg g).urgent = (s.seg g).urgent ∧ ((s.elapse d).seg g).normal = (s.seg g).normal
      ∧ ((s.elapse d).seg g).waitSet = (s.seg g).waitSet
      ∧ ((s.elapse d).seg g).attention = (s.seg g).attention := by
  rw [elapse_seg]
  split
  · simp
  · refine ⟨rfl, rfl, rfl, rfl, ?_, rfl, rfl, rfl, rfl⟩
    simp [Column.elapse]

theorem elapse_gap (d : Time) (low : s.rstnLow = false) : (s.elapse d).link.gap = s.link.gap + d := by
  simp [State.elapse, low]

theorem atCsnRise_kept {w : Time} (h : KeptWindow w s) (k : State → State) :
    atCsnRise w k s = k (s.elapse w).raiseCsn := by
  obtain ⟨a, b, c, d⟩ := h
  simp only [atCsnRise, elapse_rstnLow, elapse_window, elapse_gap w a, a]
  cases e : s.link.window <;> simp_all

theorem atCsnRise_lost {w : Time} (h : ¬KeptWindow w s) (k : State → State) :
    atCsnRise w k s = (s.elapse w).raiseCsn := by
  simp only [atCsnRise, elapse_rstnLow, elapse_window]
  cases a : s.rstnLow
  · rw [elapse_gap w a]
    cases e : s.link.window <;> simp_all [KeptWindow]
  · simp

/-! ## Taking a frame -/

theorem serveWaitRoom_outside (s : State) :
    (serveWaitRoom s).link = s.link ∧ (serveWaitRoom s).rstnLow = s.rstnLow
      ∧ (serveWaitRoom s).pending = s.pending := by
  have h (g : Seg) (s : State) := outer_eq (takeRoom_frame g s).1
  simp only [serveWaitRoom]
  exact ⟨by rw [(h ..).2.1, (h ..).2.1, (h ..).2.1, (h ..).2.1],
    by rw [(h ..).2.2.1, (h ..).2.2.1, (h ..).2.2.1, (h ..).2.2.1],
    by rw [(h ..).2.2.2, (h ..).2.2.2, (h ..).2.2.2, (h ..).2.2.2]⟩

theorem applyAck_outside (n : Nat) (s : State) :
    (applyAck n s).link = s.link ∧ (applyAck n s).rstnLow = s.rstnLow
      ∧ (applyAck n s).pending = s.pending := by
  unfold applyAck
  split
  · simp
  · split
    · have := serveWaitRoom_outside (s.updQueue (Queue.removeHead ‹_›))
      simpa using this
    · simp

@[simp] theorem slotTag_afterTake (f : HostFrame) (s : State) : slotTag (afterTake f s) = slotTag s := by
  simp only [slotTag, afterTake, takeFrame, (applyAck_outside ..).1, countTaken, State.updLink,
    State.raiseCsn, elapse_slot]

theorem takeRequest_taken (h : Taken f s) (deal : State → State) :
    takeRequest f deal s = deal (afterTake f s) := by
  obtain ⟨k, w, -⟩ := h
  simp only [HostFrame.wellFormed, Bool.and_eq_true, decide_eq_true_eq] at w
  rw [takeRequest, atCsnRise_kept k, if_neg (by omega), if_neg w.2]; rfl

theorem answerRequest_fresh (h : Taken f s) (suits : Bool) (owner : State → Ruling) :
    answerRequest f suits owner (afterTake f s) =
      if suits then setSlot f.tag (owner (afterTake f s)).outcome (owner (afterTake f s)).data
        (owner (afterTake f s)).state
      else answeredOnly f .badLength [] s := by
  rw [answerRequest, slotTag_afterTake, if_neg h.2.2]; rfl

/-- A taken request of the right length is its owner's ruling. -/
theorem exactRequest_taken (h : Taken f s) {n : Nat} (l : f.body.length = n) (owner : State → Ruling) :
    exactRequest n f owner s = .next (setSlot f.tag (owner (afterTake f s)).outcome
      (owner (afterTake f s)).data (owner (afterTake f s)).state) := by
  rw [exactRequest, takeRequest_taken h, answerRequest_fresh h]; simp [l]

theorem withSegment_of {n : Nat} {g : Seg} (h : n = g.val) (k : Seg → State → Ruling) (s : State) :
    withSegment n k s = k g s := by
  subst h; simp [withSegment]

/-- A taken request on a segment is that segment's ruling. -/
theorem segmentRequest_taken (h : Taken f s) {n : Nat} (l : f.body.length = n) {g : Seg}
    (b : bodyByte f 0 = g.val) (k : Seg → State → Ruling) :
    exactRequest n f (withSegment (bodyByte f 0) k) s = .next (setSlot f.tag
      (k g (afterTake f s)).outcome (k g (afterTake f s)).data (k g (afterTake f s)).state) := by
  rw [exactRequest_taken h l, withSegment_of b]

theorem setSlot_answers (f : HostFrame) (o : AnsOutcome) (d : List Byte) (s : State) :
    Answers (setSlot f.tag o d s) f.tag o d := rfl

theorem setSlot_sameLink (f : HostFrame) (o : AnsOutcome) (d : List Byte) (s : State) :
    SameLink s (setSlot f.tag o d s) := ⟨rfl, rfl, rfl⟩

end

end Sys2Proof.Machine
end

