-- ==== Sys2Proof/Laws/KeepsCommands.lean ====
section
/-! SUPPORT. What the commands do to the laws, command by command's own operation. -/

namespace Sys2Proof.Machine

section
variable {s : State}

theorem Inv.elapse (i : Inv s) (d : Time) : Inv (s.elapse d) := i.of_skel (skel_elapse ..)

/-- A happening at the live part keeps the laws if its effect does. -/
theorem whileLive_keeps {k : State → State} (i : Inv s) (h : Inv (k s)) {t : State}
    (e : whileLive k s = .next t) : Inv t := by
  unfold whileLive at e
  injection e with e; subst e
  split
  · exact i
  · exact h

/-! ## The host link -/

theorem Inv.applyAck (i : Inv s) (n : Nat) : Inv (applyAck n s) := by
  unfold Machine.applyAck
  split
  · exact i
  · rename_i r rest e
    split
    · refine Inv.serveWaitRoom (.intro (i.good.removed (n := r.number) (rest := rest.map (·.number)) ?_) ?_)
      · simp [skel, e]
      · simp [skel, Queue.removeHead, State.updQueue, State.entry, State.job, State.seg]
    · exact i

theorem Inv.takeFrame (i : Inv s) (f : HostFrame) : Inv (takeFrame f s) :=
  Inv.applyAck (i.of_skel (skel_countTaken s)) _

theorem Inv.atCsnRise (i : Inv s) (w : Time) {k : State → State} (h : ∀ u, Inv u → Inv (k u)) :
    Inv (atCsnRise w k s) := by
  have r : Inv (s.elapse w).raiseCsn := (i.elapse w).of_skel rfl
  by_cases c : KeptWindow w s
  · rw [atCsnRise_kept c]; exact h _ r
  · rw [atCsnRise_lost c]; exact r

/-- The request of a taken frame keeps the laws if it does so for a frame with a tag that is not 0. -/
theorem Inv.takeRequest (i : Inv s) (f : HostFrame) {deal : State → State}
    (h : f.tag ≠ 0#16 → ∀ u, Inv u → Inv (deal u)) : Inv (takeRequest f deal s) := by
  unfold Machine.takeRequest
  refine i.atCsnRise _ fun u iu => ?_
  split
  · exact iu.of_skel rfl
  · split
    · exact iu.of_skel rfl
    · rename_i n; exact h n _ (iu.takeFrame f)

theorem Inv.answerRequest (i : Inv s) (f : HostFrame) (b : Bool) {owner : State → Ruling}
    (h : Inv (owner s).state) : Inv (answerRequest f b owner s) := by
  unfold Machine.answerRequest
  split
  · exact i.of_skel rfl
  · split
    · exact h.of_skel rfl
    · exact i.of_skel rfl

theorem Inv.exactRequest (i : Inv s) (n : Nat) (f : HostFrame) {owner : State → Ruling}
    (h : f.tag ≠ 0#16 → ∀ u, Inv u → Inv (owner u).state) {t : State}
    (e : exactRequest n f owner s = .next t) : Inv t := by
  unfold Machine.exactRequest at e
  injection e with e; subst e
  exact i.takeRequest f fun z u iu => iu.answerRequest f _ (h z u iu)

theorem Inv.withSegment (i : Inv s) (n : Nat) {k : Seg → State → Ruling}
    (h : ∀ g, Inv (k g s).state) : Inv (withSegment n k s).state := by
  unfold Machine.withSegment
  split
  · exact h _
  · exact i

theorem default_ranges :
    inRanges SegConfig.default = true ∧ deferAboveSettle SegConfig.default = true :=
  ⟨by decide, by decide +kernel⟩

theorem afterReset_numbers (c : HelloCause) (r : Option Time) : NumberLaw (Queue.afterReset c r) := by
  refine ⟨by simp [Queue.afterReset], ?_, by simp [Queue.afterReset], ?_⟩ <;> simp [Queue.afterReset]

/-- The laws hold right after any reset: no job, no discovery unit at work, HELLO alone in the queue. -/
theorem Inv.ofReset {t : State} {c : HelloCause} {r : Option Time}
    (q : t.queue = Queue.afterReset c r) (j : ∀ h, t.job h = none)
    (d : ∀ g, (t.seg g).disc = Discovery.reset)
    (x : ∀ g, (t.seg g).exchange = none)
    (o : ∀ g, inRanges (t.seg g).config = true ∧ deferAboveSettle (t.seg g).config = true)
    (w : TableLaw t) : Inv t := by
  have l : liveJobs t = 0 := by
    rw [liveJobs, List.countP_eq_zero]
    intro a ha
    obtain ⟨k, hk, rfl⟩ := List.getElem_of_mem ha
    have := j ⟨k, by simpa using hk⟩
    simp [State.job] at this; simp [this]
  have p : probingUnits t = 0 := by
    rw [probingUnits, List.countP_eq_zero]
    intro a ha
    obtain ⟨k, hk, rfl⟩ := List.getElem_of_mem ha
    have := d ⟨k, by simpa using hk⟩
    simp [State.seg] at this; simp [this, Discovery.reset]
  refine ⟨?_, ?_, ?_, w, ?_, ⟨?_, ?_⟩, ?_, o⟩
  · simp [ReservationLaw, q, l, p, Queue.afterReset]
  · simp [RoomLaw, q, Queue.afterReset, queuePlaces]
  · rw [q]; exact afterReset_numbers c r
  · intro g; simp [d g, Discovery.reset]
  · intro h a ha; simp [j h] at ha
  · intro h k a b ha; simp [j h] at ha
  · intro g h; simp [x g] at h

/-! ## A restart and the reset pin -/

theorem warmEntry_key {e e' : Entry} (h : warmEntry e = some e') : e'.key = e.key := by
  unfold warmEntry at h
  split at h
  · simp at h
  · injection h with h; subst h; rfl

theorem restartPart_entry (w : Bool) (s : State) (i : Index) :
    (restartPart w s).entry i = if w then (s.entry i).bind warmEntry else none := by
  cases w
  · simp [restartPart, State.entry]
  · simp only [restartPart, State.entry, if_true]; exact mapStore_get ..

theorem restartPart_seg (w : Bool) (s : State) (g : Seg) :
    (restartPart w s).seg g = Column.restart w (s.seg g) := by
  simp only [restartPart, State.seg]; exact mapStore_get ..

theorem Inv.restartPart (i : Inv s) (w : Bool) : Inv (restartPart w s) := by
  refine .ofReset (c := if w then .warm else .cold) (r := some reEdgeTime) rfl ?_ ?_ ?_ ?_ ⟨?_, ?_⟩
  · intro h; simp [Machine.restartPart, State.job]
  · intro g; rw [restartPart_seg]; rfl
  · intro g; rw [restartPart_seg]; rfl
  · intro g; rw [restartPart_seg]
    cases w
    · exact default_ranges
    · exact i.configs g
  · intro k e h
    rw [restartPart_entry] at h
    cases w
    · simp at h
    · simp only [if_true, Option.bind_eq_some_iff] at h
      obtain ⟨a, ha, hb⟩ := h
      have := i.table.1 k a ha
      have e := warmEntry_key hb
      simp only [Entry.key, Prod.mk.injEq] at e
      rw [e.2.1, e.2.2]; exact this
  · intro k l e e' h h' hs ha
    rw [restartPart_entry] at h h'
    cases w
    · simp at h
    · simp only [if_true, Option.bind_eq_some_iff] at h h'
      obtain ⟨a, ha', hb⟩ := h
      obtain ⟨b, hb', hc⟩ := h'
      have e1 := warmEntry_key hb
      have e2 := warmEntry_key hc
      simp only [Entry.key, Prod.mk.injEq] at e1 e2
      exact i.table.2 k l a b ha' hb' (by rw [← e1.1, ← e2.1, hs]) (by rw [← e1.2.1, ← e2.2.1, ha])

theorem reset_entry (i : Index) : State.reset.entry i = none := by
  simp [State.reset, State.entry]
theorem reset_job (h : Handle) : State.reset.job h = none := by
  simp [State.reset, State.job]
theorem reset_seg (g : Seg) : State.reset.seg g = Column.reset := by
  simp [State.reset, State.seg]

theorem Inv.pinStart (s : State) : Inv (pinStart s) := by
  refine .ofReset (c := .pin) (r := none) rfl reset_job ?_ ?_ ?_ ⟨?_, ?_⟩
  · intro g; exact congrArg Column.disc (reset_seg g)
  · intro g; exact congrArg Column.exchange (reset_seg g)
  · intro g
    have : ((Machine.pinStart s).seg g).config = SegConfig.default := congrArg Column.config (reset_seg g)
    rw [this]; exact default_ranges
  · intro k e h; exact absurd ((reset_entry k).symm.trans h) (by simp)
  · intro k l e e' h; exact absurd ((reset_entry k).symm.trans h) (by simp)

theorem holdInReset_seg (s : State) (g : Seg) : (holdInReset s).seg g = Column.held (s.seg g) := by
  simp only [holdInReset, State.seg]; exact mapStore_get ..

theorem Inv.holdInReset (i : Inv s) : Inv (holdInReset s) := by
  have e : skel (Machine.holdInReset s) = { skel s with
      ctl := fun g => (false, (s.seg g).state, (s.seg g).config) } := by
    have a : ∀ g, ((Machine.holdInReset s).seg g).disc = (s.seg g).disc := by
      intro g; rw [holdInReset_seg]; rfl
    have b : ∀ g, ((Machine.holdInReset s).seg g).ctl = (false, (s.seg g).state, (s.seg g).config) := by
      intro g; rw [holdInReset_seg]; rfl
    simp only [skel, a, b]; rfl
  have G : Skel.Good { skel s with ctl := fun g => (false, (s.seg g).state, (s.seg g).config) } :=
    { i.good with ctl := fun g => ⟨fun h => by simp at h, (i.configs g).1, (i.configs g).2⟩ }
  exact .intro G e

/-! ## Requests on segments -/

theorem Inv.stateAlone (i : Inv s) (g : Seg) {f : Column → Column}
    (d : (f (s.seg g)).disc = (s.seg g).disc) (c : (f (s.seg g)).config = (s.seg g).config)
    (x : (f (s.seg g)).exchange = (s.seg g).exchange)
    (r : (s.seg g).exchange.isSome = true →
      (f (s.seg g)).state = .running ∨ (f (s.seg g)).state = .draining) : Inv (s.updSeg g f) :=
  i.column g (by rw [d]) c (by rw [x]; exact r)

theorem idle_of_state (i : Inv s) {g : Seg} (h : (s.seg g).state = .halted ∨ (s.seg g).state = .faulted) :
    (s.seg g).exchange.isSome = false := by
  by_contra c
  have := i.exchanges g (Bool.eq_true_of_not_eq_false c)
  rcases h with h | h <;> rw [h] at this <;> simp at this

theorem Inv.rulingStart (i : Inv s) (g : Seg) : Inv (rulingStart g s).state := by
  unfold Machine.rulingStart
  split
  · exact (i.stateAlone g (f := makeRunning) rfl rfl rfl fun _ => .inl rfl).pick g
  · exact i
  · exact i.stateAlone g (f := fun c => { c with state := .running }) rfl rfl rfl fun _ => .inl rfl
  · exact i

theorem Inv.rulingStop (i : Inv s) (g : Seg) : Inv (rulingStop g s).state := by
  unfold Machine.rulingStop
  split
  · exact i
  · split
    · exact i.stateAlone g (f := fun c => { c with state := .draining }) rfl rfl rfl fun _ => .inr rfl
    · rename_i h
      exact i.stateAlone g (f := makeHalted) rfl rfl rfl fun c => absurd c h
  · exact i
  · rename_i h
    exact i.stateAlone g (f := makeHalted) rfl rfl rfl fun c => by
      rw [idle_of_state i (.inr h)] at c; simp at c

theorem Inv.rulingResume (i : Inv s) (g : Seg) : Inv (rulingResume g s).state := by
  unfold Machine.rulingResume
  split
  · exact Inv.pick (i.stateAlone g (f := fun c => { makeRunning c with streak := 0 })
      rfl rfl rfl fun _ => .inl rfl) g
  · exact i

theorem Inv.entries (i : Inv s) {f : Entry → Option Entry} (h : ∀ e e', f e = some e' → e'.key = e.key)
    {t : State} (e : t = { s with table := mapStore (fun x => x.bind f) s.table }) : Inv t := by
  subst e
  refine .intro (i.good.freed (keys := fun k => ((s.entry k).bind f).map Entry.key) ?_) ?_
  · intro k x hx
    simp only [Option.map_eq_some_iff, Option.bind_eq_some_iff] at hx
    obtain ⟨a, ⟨b, hb, hc⟩, rfl⟩ := hx
    simp [hb, h b a hc]
  · have : ∀ k : Index, (mapStore (fun x : Option Entry => x.bind f) s.table)[k] = (s.table[k]).bind f :=
      fun k => mapStore_get ..
    simp only [skel, State.entry, this]; rfl

/-- What CONFIGURE_SEGMENT offers, with every field in its range (R80). -/
theorem offered_inRanges {b : List Byte} (h : firstOutside (offeredFields b) = none) :
    inRanges (configOfBody b) = true := by
  have r : ∀ p ∈ List.zip (offeredFields b) fieldRanges, p.2 p.1 = true := by
    intro p hp
    simp only [firstOutside, Option.map_eq_none_iff, List.findIdx?_eq_none_iff] at h
    simpa using h p hp
  simp only [offeredFields, fieldRanges, List.zip_cons_cons, List.zip_nil_right, List.forall_mem_cons] at r
  obtain ⟨-, -, -, -, h5, h6, h7, h8, h9, h10, h11, h12, h13, h14, h15, h16, h17, -⟩ := r
  simp only [inRanges, configOfBody, h5, h6, h7, h8, h9, h10, h11, h12, h13, h14, h15, h16, h17,
    Bool.and_self]

theorem Inv.configure (i : Inv s) (g : Seg) {c : SegConfig} (r : inRanges c = true)
    (d : deferAboveSettle c = true) : Inv (configure g c s) := by
  have i1 : Inv (s.updSeg g (Column.configured c)) := by
    refine .intro (i.good.control (g := g) (c := ((s.seg g).exchange.isSome, (s.seg g).state, c)) ?_) ?_
    · exact ⟨i.exchanges g, r, d⟩
    · rw [skel_updSeg]; simp [skel, Column.ctl, Column.configured]
  refine i1.entries (f := fun e => some (clearHealth g e)) ?_ ?_
  · intro e e' h
    injection h with h; subst h
    unfold clearHealth; split <;> rfl
  · have : (fun x : Option Entry => x.bind fun e => some (clearHealth g e)) = Option.map (clearHealth g) := by
      funext x; cases x <;> rfl
    unfold Machine.configure
    rw [this]; rfl

theorem Inv.rulingConfigure (i : Inv s) (f : HostFrame) (g : Seg) : Inv (rulingConfigure f g s).state := by
  unfold Machine.rulingConfigure
  split
  · exact i
  · split
    · exact i
    · rename_i h
      split
      · rename_i d
        exact i.configure g (offered_inRanges h) d
      · exact i

/-! ## RESET_SEGMENT -/

/-- A report's, a job's or an entry's change leaves the discovery unit and the exchange of a segment. -/
theorem completeJob_seg (h : Handle) (o : JobOutcome) (d : List Byte) (s : State) (g : Seg) :
    ((completeJob h o d s).seg g).disc = (s.seg g).disc
      ∧ ((completeJob h o d s).seg g).exchange = (s.seg g).exchange
      ∧ ((completeJob h o d s).seg g).state = (s.seg g).state := by
  unfold completeJob
  split
  · simp
  · rw [setJob_seg, seg_updSeg]
    split
    · rename_i e; subst e; exact ⟨rfl, rfl, rfl⟩
    · exact ⟨rfl, rfl, rfl⟩

theorem completeJobs_seg (hs : List Handle) (o : JobOutcome) (s : State) (g : Seg) :
    ((completeJobs hs o s).seg g).disc = (s.seg g).disc
      ∧ ((completeJobs hs o s).seg g).exchange = (s.seg g).exchange
      ∧ ((completeJobs hs o s).seg g).state = (s.seg g).state := by
  unfold completeJobs
  induction hs generalizing s with
  | nil => simp
  | cons h hs ih =>
    obtain ⟨a, b, c⟩ := ih (completeJob h o [] s)
    obtain ⟨a', b', c'⟩ := completeJob_seg h o [] s g
    exact ⟨a.trans a', b.trans b', c.trans c'⟩

theorem resetEntry_key {g : Seg} {e e' : Entry} (h : resetEntry g e = some e') : e'.key = e.key := by
  unfold resetEntry at h
  split at h
  · exact warmEntry_key h
  · injection h with h; subst h; rfl

theorem Inv.resetWork (i : Inv s) (g : Seg) : Inv (resetWork g s) := by
  unfold Machine.resetWork
  have i1 : Inv (s.updSeg g fun c => { c with exchange := none, line := c.line.discard c.config }) :=
    i.column g rfl rfl (by simp)
  have i2 := i1.completeJobs (abortOrder s g) .aborted
  refine Inv.entries (f := resetEntry g) (i2.of_skel
    (skel_updSeg_silent (g := g) (f := fun c => { c with attention := [], sweep := Sweep.reset }) rfl rfl))
    (fun _ _ => resetEntry_key) rfl

theorem seg_withTable (s : State) (v : Vector (Option Entry) 64) (k : Seg) :
    ({ s with table := v } : State).seg k = s.seg k := rfl

theorem resetWork_seg (g : Seg) (s : State) :
    ((resetWork g s).seg g).exchange = none ∧ ((resetWork g s).seg g).disc = (s.seg g).disc := by
  unfold resetWork
  have := completeJobs_seg (abortOrder s g) .aborted
    (s.updSeg g fun c => { c with exchange := none, line := c.line.discard c.config }) g
  simp only [seg_withTable, seg_updSeg_same]
  rw [this.1, this.2.1]
  simp

end

end Sys2Proof.Machine
end

