-- ==== Sys2Proof/Laws/KeepsRequests.lean ====
section
/-! SUPPORT. What the requests on stations, jobs and discovery units, RESET_SEGMENT and the expiries do to
the laws. -/

namespace Sys2Proof.Machine

section
variable {s : State}

/-! ## RESET_SEGMENT -/

theorem Inv.resetDisc (i : Inv s) (g : Seg) : Inv (resetDisc g s) := by
  have o : DiscOk (skel s).keys g Discovery.reset.skel :=
    ⟨by simp [Discovery.skel, Discovery.reset], by simp [Discovery.skel, Discovery.reset],
      by simp [Discovery.skel, Discovery.reset], by simp [Discovery.skel, Discovery.reset]⟩
  unfold Machine.resetDisc
  split
  · rename_i p
    refine Inv.serveWaitRoom (.intro (i.good.unitRelease (g := g) p (by simp [Discovery.skel,
      Discovery.reset]) o) ?_)
    rw [skel_updDisc]
    rfl
  · rename_i p
    exact i.unit ⟨fun h => absurd h p, fun h => by simp [Discovery.reset] at h⟩ o

theorem resetDisc_seg (g : Seg) (s : State) :
    ((resetDisc g s).seg g).exchange = (s.seg g).exchange
      ∧ ((resetDisc g s).seg g).config = (s.seg g).config := by
  unfold resetDisc
  split
  · rw [serveWaitRoom_seg (by simp [Discovery.reset])]
    simp [releaseReservation]
  · simp

theorem Inv.resetControl (i : Inv s) {g : Seg} (n : (s.seg g).exchange = none) :
    Inv (s.updSeg g resetControl) :=
  i.column g (f := Machine.resetControl) rfl rfl fun h => by simp [Machine.resetControl, n] at h

theorem Inv.resetSegment (i : Inv s) (g : Seg) : Inv (resetSegment g s) := by
  unfold Machine.resetSegment
  refine ((i.resetWork g).resetDisc g).resetControl ?_
  rw [(resetDisc_seg ..).1, (resetWork_seg ..).1]

/-! ## Requests on stations -/

theorem entryAt_some {g : Seg} {a : Nat} {i : Index} {e : Entry} (h : entryAt s g a = some (i, e)) :
    s.entry i = some e ∧ findEntry s g a = some i := by
  simp only [entryAt, Option.bind_eq_some_iff, Option.map_eq_some_iff, Prod.mk.injEq] at h
  obtain ⟨j, hj, e', he, rfl, rfl⟩ := h
  exact ⟨he, hj⟩

theorem lowestFreeIndex_none {i : Index} (h : lowestFreeIndex s = some i) : s.entry i = none := by
  have := List.find?_some h; simpa using this

/-- An entry is made at an address that is free in the segment, no held find's and no live probe's. -/
theorem Inv.makeEntry (i : Inv s) (k : Index) {e : Entry} (va : validAddr e.addr = true)
    (vp : validPorts e.ports = true) (f : findEntry s e.seg e.addr = none)
    (nr : ∀ r, (s.seg e.seg).disc.record = some r → r.addr ≠ e.addr)
    (nm : ∀ m, (s.seg e.seg).disc.mark = some m → m.void = .none → m.addr ≠ e.addr) :
    Inv (s.setEntry k (some e)) := by
  refine .intro (i.good.made (i := k) (x := e.key) va vp ((findEntry_none ..).1 f) ?_ nm) (skel_setEntry ..)
  show (s.seg e.seg).disc.record.map (·.addr) ≠ some e.addr
  intro h
  obtain ⟨r, hr, ha⟩ := Option.map_eq_some_iff.1 h
  exact nr r hr ha

theorem setEntry_updDisc_comm (k : Index) (e : Option Entry) (g : Seg) (f : Discovery → Discovery)
    (s : State) : (s.setEntry k e).updDisc g f = (s.updDisc g f).setEntry k e := rfl

theorem findEntry_updDisc (g h : Seg) (a : Nat) (f : Discovery → Discovery) (s : State) :
    findEntry (s.updDisc g f) h a = findEntry s h a := rfl

theorem heldAt_false {g : Seg} {a : Nat} (h : heldAt s g a = false) :
    ∀ r, (s.seg g).disc.record = some r → r.addr ≠ a := by
  intro r hr
  simpa [heldAt, hr] using h

theorem Inv.voidProbe (i : Inv s) (g : Seg) (a : Nat) : Inv (s.updDisc g (voidProbe a)) := by
  have o := i.good.discs g
  refine i.unit Iff.rfl ⟨o.record, ?_, o.held, ?_⟩
  · intro h
    have hm : (s.seg g).disc.mark = none := o.mark h
    simp [Discovery.skel, Machine.voidProbe, hm]
  · intro m hm hv
    simp only [Discovery.skel, Machine.voidProbe, Option.map_eq_some_iff] at hm
    obtain ⟨m', hm', rfl⟩ := hm
    by_cases c : m'.addr = a ∧ m'.void = .none
    · simp [c] at hv
    · rw [if_neg c] at hv ⊢
      exact o.probed m' hm' hv

theorem Inv.rulingAddStation (i : Inv s) (a p c : Nat) (g : Seg) :
    Inv (rulingAddStation a p c g s).state := by
  unfold Machine.rulingAddStation
  split
  · exact i
  · split
    · exact i
    · split
      · exact i
      · split
        · exact i
        · split
          · exact i
          · rename_i cls _ v f h _ k _
            simp only [Bool.or_eq_true, Bool.not_eq_true', not_or, Bool.not_eq_false] at v
            have f' : findEntry s g a = none := by simpa using f
            rw [setEntry_updDisc_comm]
            refine (i.voidProbe g a).makeEntry k (e := addedEntry g a p cls) v.1 v.2 f' ?_ ?_
            · simpa [addedEntry, Machine.voidProbe] using heldAt_false (by simpa using h)
            · intro m hm hv
              simp only [addedEntry, State.updDisc, seg_updSeg_same, Machine.voidProbe] at hm
              obtain ⟨m', hm', rfl⟩ := Option.map_eq_some_iff.1 hm
              by_cases c : m'.addr = a ∧ m'.void = .none
              · simp [c] at hv
              · rw [if_neg c] at hv ⊢
                intro e; exact c ⟨e, hv⟩

theorem Inv.removeEntry (i : Inv s) (g : Seg) (a : Nat) (k : Index) : Inv (removeEntry g a k s) := by
  unfold Machine.removeEntry freeOrRetire
  have l : Inv (leaveAttention k (Machine.completeJobs (stationJobs s g a) .cancelled s)) :=
    (i.completeJobs (stationJobs s g a) .cancelled).of_skel (skel_leaveAttention ..)
  split
  · refine (l.entryFields k (f := fun e => { e with state := .retiring }) fun _ => ?_).of_skel
      (skel_cancelCarried ..)
    rfl
  · exact l.freeEntry k

theorem Inv.rulingRemoveStation (i : Inv s) (a : Nat) (g : Seg) : Inv (rulingRemoveStation a g s).state := by
  unfold Machine.rulingRemoveStation
  split
  · exact i
  · split
    · exact i
    · exact i.removeEntry ..

theorem Inv.rulingReviveStation (i : Inv s) (a : Nat) (g : Seg) : Inv (rulingReviveStation a g s).state := by
  unfold Machine.rulingReviveStation
  split
  · exact i
  · split
    · exact i
    · split
      · exact i.entryFields _ fun _ => rfl
      · exact i

theorem Inv.rulingSetClass (i : Inv s) (a c : Nat) (g : Seg) : Inv (rulingSetClass a c g s).state := by
  unfold Machine.rulingSetClass
  split
  · exact i
  · rename_i cls _
    split
    · exact i
    · split
      · exact i
      · refine i.entryFields _ (f := fun e => { e with pollClass := cls }) fun _ => ?_
        rfl

theorem rulingQueryStation_state (a : Nat) (g : Seg) (s : State) : (rulingQueryStation a g s).state = s := by
  unfold rulingQueryStation; split
  · rfl
  · split <;> rfl

theorem rulingListStations_state (a : Nat) (g : Seg) (s : State) : (rulingListStations a g s).state = s := by
  unfold rulingListStations; split <;> rfl

/-! ## Requests on jobs -/

theorem lowestFreeJob_none {h : Handle} (e : lowestFreeJob s = some h) : s.job h = none := by
  have := List.find?_some e; simpa using this

theorem findTag_none {t : BitVec 16} (e : findTag s t = none) {h : Handle} {j : Job}
    (hj : s.job h = some j) : j.tag ≠ t := by
  have := List.find?_eq_none.1 e h (List.mem_finRange h)
  simpa [hj] using this

theorem Inv.acceptJob (i : Inv s) {h : Handle} {j : Job} (l : s.job h = none) (z : j.tag ≠ 0#16)
    (n : findTag s j.tag = none) (r : s.queue.reports.length + s.queue.reservations < queuePlaces) :
    Inv (acceptJob h j s) := by
  unfold Machine.acceptJob
  refine .intro (i.good.accepted (h := h) (t := j.tag) (by simp [l]) z ?_
    (by simpa [skel] using r)) ?_
  · intro x hx
    simp only [skel_tags, Option.map_eq_some_iff] at hx
    obtain ⟨j', hj', e⟩ := hx
    exact findTag_none n hj' e
  · rw [skel_updLane, skel_setJob]
    rfl

theorem Inv.rulingSubmit (i : Inv s) {f : HostFrame} (z : f.tag ≠ 0#16) (g : Seg) :
    Inv (rulingSubmit f g s).state := by
  unfold Machine.rulingSubmit
  split
  · exact i
  · split
    · exact i
    · split
      · exact i
      · split
        · exact i
        · split
          · exact i
          · rename_i t _ h e r
            refine Inv.pick (i.acceptJob (lowestFreeJob_none e) z (Option.not_isSome_iff_eq_none.1 t) (by omega)) g

theorem Inv.rulingCancel (i : Inv s) (f : HostFrame) : Inv (rulingCancel f s).state := by
  unfold Machine.rulingCancel cancelJob
  split
  · exact i
  · split
    · exact i
    · split
      · exact i.jobFields _ fun _ => rfl
      · exact i.completeJob ..
      · exact i.completeJob ..

theorem rulingQueryJob_state (f : HostFrame) (s : State) : (rulingQueryJob f s).state = s := by
  unfold rulingQueryJob; split
  · rfl
  · split <;> rfl

/-! ## Requests on discovery units -/

theorem Inv.rulingDiscover (i : Inv s) (a b : Nat) (g : Seg) : Inv (rulingDiscover a b g s).state := by
  unfold Machine.rulingDiscover
  split
  · exact i
  · split
    · exact i
    · split
      · exact i
      · rename_i p r
        have p' : (s.seg g).disc.state = .idle := by simpa using p
        have n := waiting_no_record i (g := g) (by simp [p'])
        have k : Inv (s.updDisc g (newRun a b)) := by
          refine i.unit (by simp [newRun]) ?_
          have o := i.good.discs g
          refine ⟨?_, o.mark, by simp [Discovery.skel, newRun], o.probed⟩
          simp [Discovery.skel, newRun, p']
        refine (k.beginProbing (by simp [newRun, p']) (by simp [newRun]) ?_).lookAndPick g
        simp only [freeRoom, State.updDisc, updSeg_queue]
        omega

theorem Inv.stopUnit (i : Inv s) (g : Seg) : Inv (stopUnit g s) := by
  unfold Machine.stopUnit
  split
  · rename_i p
    refine Inv.serveWaitRoom (.intro (i.good.unitRelease (g := g)
      (d := (stopProbe (s.seg g).disc).idleKeepingMark.skel) p
      (by simp [Discovery.skel, Discovery.idleKeepingMark, Discovery.reset]) ?_) ?_)
    · refine .idle _ _ _ fun m hm hv => ?_
      obtain ⟨m', -, rfl⟩ := Option.map_eq_some_iff.1 hm
      simp at hv
    · rw [skel_updDisc]; rfl
  · rename_i p
    exact i.unit ⟨fun h => absurd h p, fun h => by simp [Discovery.idleKeepingMark, Discovery.reset] at h⟩
      (.idle _ _ _ (i.good.discs g).probed)

theorem Inv.rulingStopDiscovery (i : Inv s) (g : Seg) : Inv (rulingStopDiscovery g s).state := by
  unfold Machine.rulingStopDiscovery
  split
  · exact i
  · exact i.stopUnit g

theorem recordFor_some {g : Seg} {a : Nat} {r : Admission} (h : recordFor s g a = some r) :
    (s.seg g).disc.record = some r ∧ r.addr = a := by
  simpa [recordFor, Option.filter_eq_some_iff] using h

/-- A held unit's find is dropped. -/
theorem Inv.endHold (i : Inv s) {g : Seg} (h : (s.seg g).disc.state = .held) (f : Discovery → Discovery)
    (e : ∀ u, (f u).skel = u.skel) : Inv (Machine.resumeDisc g (s.updDisc g f)) := by
  refine (i.unitCounts e).resumeDisc ?_
  have := congrArg Prod.fst (e (s.seg g).disc)
  simp only [Discovery.skel] at this
  simp [this, h]

theorem held_of_record (i : Inv s) {g : Seg} {r : Admission} (h : (s.seg g).disc.record = some r) :
    (s.seg g).disc.state = .held := (i.held g).1.1 (by simp [h])

theorem resumeDisc_setEntry_form (g : Seg) (k : Index) (e : Entry) (s : State) (f : Discovery → Discovery)
    (hf : ∀ u, { f u with state := .waitRoom, record := none }
      = { f { u with state := .waitRoom, record := none } with state := .waitRoom, record := none }) :
    resumeDisc g ((s.setEntry k (some e)).updDisc g f)
      = takeRoom g (((s.updDisc g fun u => { u with state := .waitRoom, record := none }).setEntry k
          (some e)).updDisc g fun u => { f u with state := .waitRoom, record := none }) := by
  unfold resumeDisc
  congr 1
  simp only [State.updDisc, State.setEntry, State.updSeg]
  congr 1
  simp [Vector.set_set, ← hf]

theorem Inv.admitEntry (i : Inv s) {g : Seg} (k : Index) {e : Entry} {r : Admission}
    (h : (s.seg g).disc.record = some r) (es : e.seg = g)
    (va : validAddr e.addr = true) (vp : validPorts e.ports = true)
    (f : findEntry s g e.addr = none) : Inv (admitEntry g k e s) := by
  have st := held_of_record i h
  have m : (s.seg g).disc.mark = none := (i.held g).2.1 st
  unfold Machine.admitEntry
  rw [resumeDisc_setEntry_form]
  · refine Inv.takeRoom ?_ g
    have i1 : Inv (s.updDisc g fun u => { u with state := .waitRoom, record := none }) := by
      refine i.unit (by simp [st]) ?_
      exact ⟨by simp [Discovery.skel], by simp [Discovery.skel], by simp [Discovery.skel],
        (i.good.discs g).probed⟩
    subst es
    have i2 := i1.makeEntry k va vp f (by simp) (by simp [m])
    refine i2.unit (by simp) ?_
    exact ⟨by simp [Discovery.skel], by simp [Discovery.skel], by simp [Discovery.skel],
      by simp [Discovery.skel, m]⟩
  · intro u; rfl

theorem Inv.rulingAdmit (i : Inv s) (a p c : Nat) (g : Seg) : Inv (rulingAdmit a p c g s).state := by
  unfold Machine.rulingAdmit
  split
  · exact i
  · split
    · exact i
    · split
      · exact i
      · split
        · exact i
        · split
          · exact i
          · rename_i cls _ v f _ r hr _ k _
            simp only [Bool.or_eq_true, Bool.not_eq_true', not_or, Bool.not_eq_false] at v
            exact i.admitEntry k (e := admittedEntry g a p cls r.identity) (recordFor_some hr).1 rfl v.1 v.2
              (by simpa [admittedEntry, addedEntry] using f)

theorem Inv.rulingRefuse (i : Inv s) (a : Nat) (g : Seg) : Inv (rulingRefuse a g s).state := by
  unfold Machine.rulingRefuse
  split
  · exact i
  · split
    · exact i
    · rename_i r hr
      refine i.endHold (held_of_record i (recordFor_some hr).1) _ fun _ => ?_
      rfl

/-! ## Expiries and the line -/

theorem Inv.endBackoff (i : Inv s) (h : Handle) (j : Job) : Inv (endBackoff h j s) := by
  unfold Machine.endBackoff
  refine Inv.pick (i.of_skel ?_) _
  refine (skel_updSeg_silent ?_ ?_).trans (skel_updJob fun _ => ?_)
  · rw [updLane_disc]
  · rw [updLane_ctl]; rfl
  · rfl

theorem Inv.sweepDue (i : Inv s) (g : Seg) : Inv (sweepDue g s) := by
  simp only [Machine.sweepDue]
  split
  · split
    · exact i.of_skel (skel_count ..)
    · exact i.of_skel (skel_updSweep ..)
  · have k : Inv (s.updSweep g fun w => { w with active := true, cursor := 0, repeatDue := false }) :=
      i.of_skel (skel_updSweep ..)
    split
    · exact Inv.pick (k.of_skel (skel_lookSweep ..)) g
    · exact k.of_skel (skel_lookSweep ..)

theorem Inv.lapseFind (i : Inv s) {g : Seg} (h : (s.seg g).disc.state = .held) : Inv (lapseFind g s) := by
  refine i.endHold h _ fun _ => ?_
  rfl

theorem Inv.breakOver (i : Inv s) (g : Seg) : Inv (breakOver g s) := by
  refine Inv.pick (i.of_skel (skel_updSeg_silent rfl rfl)) g

end

end Sys2Proof.Machine
end

