-- ==== Sys2Proof/Laws/HoldersKeep.lean ====
section
/-! SUPPORT. The operations that move a job between its places, or complete it, keep HolderLaw and TimerLaw. -/

namespace Sys2Proof.Machine

/-! ## The exchange of a segment -/

/-- The exchanges of the segments. -/
def exchanges (s : State) : Seg → Option Exchange := fun k => (s.seg k).exchange

/-- Segment `g` holds an exchange with the origin and entry of `x`. -/
def Carries (g : Seg) (x : Exchange) (s : State) : Prop :=
  ∃ y, (s.seg g).exchange = some y ∧ y.origin = x.origin ∧ y.entry = x.entry

/-- The handles that an origin names. -/
def XOrigin.handles : XOrigin → List Handle
  | .job h => [h]
  | .sweep => []
  | .attention => []
  | .probe => []

theorem Carries.active {g : Seg} {x : Exchange} {s : State} (h : Carries g x s) :
    activeJob (s.seg g) = x.origin.handles := by
  obtain ⟨y, e, o, -⟩ := h
  simp only [activeJob, e, o]
  cases x.origin <;> rfl

theorem Carries.of_exchanges {g : Seg} {x : Exchange} {s t : State} (h : Carries g x s)
    (e : exchanges t = exchanges s) : Carries g x t := by
  obtain ⟨y, hy, r⟩ := h
  exact ⟨y, (congrFun e g).trans hy, r⟩

section
variable (s : State)

theorem exchanges_updSeg {g : Seg} {f : Column → Column} {s : State}
    (h : (f (s.seg g)).exchange = (s.seg g).exchange) : exchanges (s.updSeg g f) = exchanges s := by
  funext k
  simp only [exchanges, seg_updSeg]
  split
  · rename_i e; subst e; exact h
  · rfl

@[simp] theorem exchanges_updEntry (i : Index) (f : Entry → Entry) :
    exchanges (s.updEntry i f) = exchanges s := rfl
@[simp] theorem exchanges_setEntry (i : Index) (e : Option Entry) :
    exchanges (s.setEntry i e) = exchanges s := rfl
@[simp] theorem exchanges_eventReport (b : ReportBody) : exchanges (eventReport b s) = exchanges s := by
  funext k; simp [exchanges]
@[simp] theorem exchanges_completeJob (h : Handle) (o : JobOutcome) (d : List Byte) :
    exchanges (completeJob h o d s) = exchanges s := by
  funext k; exact (completeJob_seg h o d s k).2.1
@[simp] theorem exchanges_completeJobs (hs : List Handle) (o : JobOutcome) :
    exchanges (completeJobs hs o s) = exchanges s := by
  funext k; exact (completeJobs_seg hs o s k).2.1
@[simp] theorem exchanges_leaveAttention (i : Index) : exchanges (leaveAttention i s) = exchanges s := by
  unfold leaveAttention; split
  · rfl
  · exact exchanges_updSeg rfl
@[simp] theorem exchanges_joinAttention (i : Index) : exchanges (joinAttention i s) = exchanges s := by
  unfold joinAttention; split
  · rfl
  · split
    · exact exchanges_updSeg rfl
    · rfl
@[simp] theorem exchanges_setToggle (x : Exchange) (form : EndForm) :
    exchanges (setToggle x form s) = exchanges s := by
  unfold setToggle; split
  · rfl
  · split <;> rfl
@[simp] theorem exchanges_handOutcome (x : Exchange) (form : EndForm) :
    exchanges (handOutcome x form s) = exchanges s := by
  simp only [handOutcome, handClass, goodOutcome, failedOutcome, missOutcome, silentOutcome, goOffline]
  repeat' split
  all_goals simp
@[simp] theorem exchanges_statusRule (i : Index) (o : XOrigin) (r : Reply) :
    exchanges (statusRule i o r s) = exchanges s := by
  simp only [statusRule, statusReport]
  repeat' split
  all_goals simp
@[simp] theorem exchanges_handStatus (x : Exchange) (form : EndForm) :
    exchanges (handStatus x form s) = exchanges s := by
  simp only [handStatus, handReply]
  repeat' split
  all_goals simp
@[simp] theorem exchanges_noteFailure (x : Exchange) (k : FailKind) :
    exchanges (noteFailure x k s) = exchanges s := by
  unfold noteFailure; split <;> rfl

end

/-! ## A job completes -/

/-- The segment's exchange is out of its record. -/
def dropExchange (g : Seg) (s : State) : State := s.updSeg g fun c => { c with exchange := none }

section
variable {s : State}

theorem filter_absent {h : Handle} {l : List Handle} (n : h ∉ l) : l.filter (· != h) = l := by
  rw [List.filter_eq_self]
  intro a m
  simp only [bne_iff_ne, ne_eq]
  rintro rfl; exact n m

/-- The place of a live job. -/
theorem Spots.Good.absent (G : (spots s).Good) {h : Handle} {j : Job} (e : s.job h = some j) {g : Seg}
    {p : Place} (n : ¬(j.seg = g ∧ j.place = p)) : h ∉ (s.seg g).standing p := by
  intro m
  obtain ⟨x, hx, h1, h2⟩ := (G.here g p h).1 m
  simp only [spots, e, Option.map_some, Option.some.injEq] at hx
  subst hx; exact n ⟨h1, h2⟩

theorem leaveHolders_standing (h : Handle) (c : Column) (p : Place) :
    (leaveHolders h c).standing p
      = if p = .active then c.standing p else (c.standing p).filter (· != h) := by
  cases p <;> rfl

theorem completeJob_live {h : Handle} {j : Job} (e : s.job h = some j) (o : JobOutcome) (d : List Byte) :
    completeJob h o d s = ((enterReserved (.result j.tag o j.attempts j.busy j.lastFault j.cancel d) s).updSeg
      j.seg (leaveHolders h)).setJob h none := by
  simp only [completeJob, e]

theorem spots_complete_job {h : Handle} {j : Job} (e : s.job h = some j) (o : JobOutcome) (d : List Byte) :
    (spots (completeJob h o d s)).job = Function.update (spots s).job h none := by
  rw [completeJob_live e]
  funext k
  simp only [spots, job_setJob, updSeg_job, enterReserved, updQueue_job]
  rcases eq_or_ne k h with rfl | n
  · simp
  · simp [n]

/-- A job completes from a lane or the waiting set. -/
theorem spots_completeJob (G : (spots s).Good) {h : Handle} {j : Job} (e : s.job h = some j)
    (n : j.place ≠ .active) (o : JobOutcome) (d : List Byte) :
    spots (completeJob h o d s) = (spots s).remove h := by
  have a : (spots (completeJob h o d s)).at_ = ((spots s).remove h).at_ := by
    rw [completeJob_live e]
    funext g p
    simp only [spots, Spots.remove, setJob_seg, seg_updSeg, enterReserved, updQueue_seg]
    split
    · rename_i c
      subst c
      rw [leaveHolders_standing]
      split
      · rename_i c; subst c
        exact (filter_absent (G.absent e fun c => n c.2)).symm
      · rfl
    · rename_i c
      exact (filter_absent (G.absent e fun x => c x.1.symm)).symm
  have b := spots_complete_job e o d
  calc spots (completeJob h o d s) = ⟨(spots (completeJob h o d s)).job, (spots (completeJob h o d s)).at_⟩ := rfl
    _ = (spots s).remove h := by rw [a, b]; rfl

theorem spots_dropExchange_at (g k : Seg) (p : Place) (s : State) :
    (spots (dropExchange g s)).at_ k p
      = if k = g ∧ p = .active then [] else (spots s).at_ k p := by
  simp only [spots, dropExchange, seg_updSeg]
  split
  · rename_i c; subst c
    cases p <;> simp [Column.standing, activeJob]
  · rename_i c; simp [c]

/-- The job of an exchange completes, and the exchange leaves its record. -/
theorem spots_completeActive (G : (spots s).Good) {g : Seg} {h : Handle}
    (a : activeJob (s.seg g) = [h]) (o : JobOutcome) (d : List Byte) :
    spots (dropExchange g (completeJob h o d s)) = (spots s).remove h := by
  have m : h ∈ (spots s).at_ g .active := by simp [spots, Column.standing, a]
  obtain ⟨x, hx, h1, h2⟩ := (G.here ..).1 m
  simp only [spots, Option.map_eq_some_iff] at hx
  obtain ⟨j, e, rfl⟩ := hx
  have js : j.seg = g := h1
  have jp : j.place = .active := h2
  have b : (spots (dropExchange g (completeJob h o d s))).job = Function.update (spots s).job h none :=
    (by rfl : _ = (spots (completeJob h o d s)).job).trans (spots_complete_job e o d)
  have c : (spots (dropExchange g (completeJob h o d s))).at_ = ((spots s).remove h).at_ := by
    funext k p
    rw [spots_dropExchange_at]
    split
    · rename_i r
      obtain ⟨rfl, rfl⟩ := r
      simp [spots, Spots.remove, Column.standing, a]
    · rename_i r
      rw [completeJob_live e]
      simp only [spots, Spots.remove, setJob_seg, seg_updSeg, enterReserved, updQueue_seg]
      split
      · rename_i q
        rw [js] at q; subst q
        rw [leaveHolders_standing, if_neg (by simpa using r), ← js]
      · rename_i q
        exact (filter_absent (G.absent e fun x => q x.1.symm)).symm
  calc spots (dropExchange g (completeJob h o d s))
      = ⟨(spots (dropExchange g (completeJob h o d s))).job,
          (spots (dropExchange g (completeJob h o d s))).at_⟩ := rfl
    _ = (spots s).remove h := by rw [b, c]; rfl

/-- Several jobs complete, none of them active. -/
theorem Spots.Good.completeJobs (G : (spots s).Good) (hs : List Handle) (o : JobOutcome)
    (n : ∀ h ∈ hs, ∀ j, s.job h = some j → j.place ≠ .active) : (spots (completeJobs hs o s)).Good := by
  unfold Machine.completeJobs
  induction hs generalizing s with
  | nil => exact G
  | cons h hs ih =>
    simp only [List.foldl_cons]
    cases e : s.job h with
    | none =>
      have : completeJob h o [] s = s := by simp [completeJob, e]
      rw [this]; exact ih G fun k m => n k (List.mem_cons_of_mem _ m)
    | some j =>
      have nj := n h List.mem_cons_self j e
      refine ih (by rw [spots_completeJob G e nj]; exact G.remove h) fun k m i hi => ?_
      rw [completeJob_live e, job_setJob] at hi
      split at hi
      · simp at hi
      · exact n k (List.mem_cons_of_mem _ m) i hi

theorem lane_places (G : (spots s).Good) {g : Seg} {h : Handle}
    (m : h ∈ (s.seg g).urgent ++ (s.seg g).normal ++ (s.seg g).waitSet) :
    ∀ j, s.job h = some j → j.place ≠ .active := by
  intro j e c
  have f (p : Place) (hp : h ∈ (s.seg g).standing p) : j.place = p := by
    obtain ⟨x, hx, -, h2⟩ := (G.here g p h).1 hp
    simp only [spots, e, Option.map_some, Option.some.injEq] at hx
    subst hx; exact h2
  simp only [List.mem_append] at m
  rcases m with (m | m) | m
  · rw [f .urgent m] at c; simp at c
  · rw [f .normal m] at c; simp at c
  · rw [f .waiting m] at c; simp at c

theorem Spots.Good.stationJobs (G : (spots s).Good) (g : Seg) (a : Nat) (o : JobOutcome) :
    (spots (Machine.completeJobs (stationJobs s g a) o s)).Good :=
  G.completeJobs _ o fun _ m => lane_places (g := g) G (List.mem_filter.1 m).1

end

end Sys2Proof.Machine
end

