-- ==== Sys2Proof/Laws/HoldersEngine.lean ====
section
/-! SUPPORT. Picks and the exchange engine keep HolderLaw and TimerLaw. -/

namespace Sys2Proof.Machine

section
variable {s : State}

/-! ## Picks -/

theorem spots_eq {k l : Spots} (a : k.job = l.job) (b : k.at_ = l.at_) : k = l := by
  cases k; cases l; simp_all

/-- A segment without an exchange is given one of an origin that is no job. -/
theorem spots_beginOther {g : Seg} {x : Exchange} (n : (s.seg g).exchange = none)
    (o : x.origin.handles = []) : spots (beginExchange g x s) = spots s := by
  unfold beginExchange
  rw [spots_enterDefer]
  refine spots_updSeg_work ?_
  have : activeJob { s.seg g with exchange := some x } = activeJob (s.seg g) := by
    simp only [activeJob, n]
    revert o; cases x.origin <;> simp [XOrigin.handles]
  simp only [Column.work, this]

theorem jobExchange_origin (s : State) (g : Seg) (h : Handle) (j : Job) :
    (jobExchange s g h j).origin = .job h := by
  unfold jobExchange
  simp only
  split
  · rfl
  · split
    · rfl
    · split
      · rfl
      · simp only [stationJobExchange]
        split
        · rfl
        · split <;> rfl

/-- The job at a lane's head is started. -/
theorem spots_startJob (G : (spots s).Good) {g : Seg} {h : Handle}
    (n : (s.seg g).exchange = none) (m : h ∈ (s.seg g).urgent ∨ h ∈ (s.seg g).normal) :
    (spots (startJob g h s)).Good := by
  obtain ⟨j, e, js, jp⟩ : ∃ j, s.job h = some j ∧ j.seg = g ∧ j.place ≠ .active := by
    have f (p : Place) (hp : h ∈ (s.seg g).standing p) (np : p ≠ .active) :
        ∃ j, s.job h = some j ∧ j.seg = g ∧ j.place ≠ .active := by
      obtain ⟨x, hx, h1, h2⟩ := (G.here g p h).1 hp
      simp only [spots, Option.map_eq_some_iff] at hx
      obtain ⟨j, hj, rfl⟩ := hx
      exact ⟨j, hj, h1, by rw [show j.place = p from h2]; exact np⟩
    rcases m with m | m
    · exact f .urgent m (by simp)
    · exact f .normal m (by simp)
  have b : j.backoff.isSome = false := by
    by_contra c
    have := ((G.timed h j.spot (by simp [spots, e])).2.1 (Bool.eq_true_of_not_eq_false c))
    have u : h ∈ (s.seg g).standing .waiting := (G.here g .waiting h).2
      ⟨j.spot, by simp [spots, e], js, this⟩
    rcases m with m | m
    · obtain ⟨x, hx, -, h2⟩ := (G.here g .urgent h).1 m
      simp only [spots, e, Option.map_some, Option.some.injEq] at hx
      subst hx; rw [this] at h2; simp at h2
    · obtain ⟨x, hx, -, h2⟩ := (G.here g .normal h).1 m
      simp only [spots, e, Option.map_some, Option.some.injEq] at hx
      subst hx; rw [this] at h2; simp at h2
  have key : spots (startJob g h s)
      = ((spots s).remove h).put h ⟨g, .active, false, true, false⟩ [h] := by
    unfold startJob
    simp only [e]
    unfold beginExchange
    rw [spots_enterDefer]
    apply spots_eq
    · funext k
      simp only [spots, Spots.put, Spots.remove, updSeg_job, job_updJob]
      rcases eq_or_ne k h with rfl | c
      · simp only [if_true, e, Option.map_some, Function.update_self, Job.spot, Job.place, js, b]
        rfl
      · simp [c]
    · funext k p
      simp only [spots, Spots.put, Spots.remove, updJob_seg, seg_updSeg]
      rcases eq_or_ne k g with rfl | c
      · simp only [if_true, true_and]
        cases p
        · simp [Column.standing, leaveHolders]
        · simp [Column.standing, leaveHolders]
        · simp [Column.standing, leaveHolders]
        · simp [Column.standing, activeJob, jobExchange_origin]
      · simp only [c, if_false, false_and]
        exact (filter_absent (G.absent e fun x => c (x.1.symm.trans js))).symm
  rw [key]
  refine (G.remove h).put (by simp [Spots.remove]) ⟨by simp, by simp⟩ ?_
  have : ((spots s).remove h).at_ g .active = [] := by
    simp [Spots.remove, spots, Column.standing, activeJob, n]
  simp [this]

theorem startPoll_spots {g : Seg} (n : (s.seg g).exchange = none) {o : XOrigin} (ho : o.handles = [])
    (k : Index) : spots (startPoll g o k s) = spots s := by
  unfold startPoll
  split
  · rfl
  · exact spots_beginOther n ho

theorem startProbe_spots {g : Seg} (n : (s.seg g).exchange = none) (a : Nat) :
    spots (startProbe g a s) = spots s := by
  unfold startProbe
  exact (spots_beginOther (by simpa using n) rfl).trans (spots_updDisc ..)

theorem lookDisc_exchange (g k : Seg) (s : State) :
    ((lookDisc g s).1.seg k).exchange = (s.seg k).exchange := by
  unfold lookDisc endRun
  split
  · split
    · rfl
    · simp only [State.updDisc, seg_updSeg, enterReserved, updQueue_seg]
      split
      · rename_i c; subst c; rfl
      · rfl
  · rfl

theorem lookSweep_column (g k : Seg) (s : State) :
    ((lookSweep g s).1.seg k).exchange = (s.seg k).exchange
      ∧ ((lookSweep g s).1.seg k).normal = (s.seg k).normal := by
  have f (f : Sweep → Sweep) : ((s.updSweep g f).seg k).exchange = (s.seg k).exchange
      ∧ ((s.updSweep g f).seg k).normal = (s.seg k).normal := by
    rw [seg_updSweep]; split
    · rename_i c; subst c; exact ⟨rfl, rfl⟩
    · exact ⟨rfl, rfl⟩
  simp only [lookSweep]
  split
  · split
    · exact ⟨rfl, rfl⟩
    · split
      · split <;> exact f _
      · exact f _
  · exact ⟨rfl, rfl⟩

theorem pickDiscovery_spots {g : Seg} (n : (s.seg g).exchange = none) :
    spots (pickDiscovery g s) = spots s := by
  unfold pickDiscovery
  split
  · exact (startProbe_spots (by rw [lookDisc_exchange]; exact n) _).trans (spots_lookDisc ..)
  · exact spots_lookDisc ..

theorem Spots.Good.pickNormal (G : (spots s).Good) {g : Seg} (n : (s.seg g).exchange = none) :
    (spots (pickNormal g s)).Good := by
  unfold Machine.pickNormal
  split
  · rename_i h _ e
    refine spots_startJob ?_ (by simpa using n) (.inr (by simp [e]))
    rw [spots_updSeg_work rfl]; exact G
  · rw [pickDiscovery_spots n]; exact G

theorem Spots.Good.pickSweep (G : (spots s).Good) {g : Seg} (n : (s.seg g).exchange = none) :
    (spots (pickSweep g s)).Good := by
  have n' : ((lookSweep g s).1.seg g).exchange = none := by rw [(lookSweep_column ..).1]; exact n
  have G' : (spots (lookSweep g s).1).Good := by rw [spots_lookSweep]; exact G
  unfold Machine.pickSweep
  split
  · split
    · unfold startSweepStep
      split
      · exact G'
      · rw [startPoll_spots (by simpa using n') rfl, spots_updSeg_work rfl]; exact G'
    · exact G'.pickNormal n'
  · exact G'.pickNormal n'

theorem isFree_exchange {c : Column} (h : isFree c = true) : c.exchange = none := by
  simp [isFree] at h; exact h.1.2

theorem Spots.Good.pick (G : (spots s).Good) (g : Seg) : (spots (pick g s)).Good := by
  unfold Machine.pick
  split
  · rename_i f
    have n := isFree_exchange f
    split
    · rw [startPoll_spots n rfl]; exact G
    · split
      · rename_i h _ e
        exact spots_startJob G n (.inl (by simp [e]))
      · exact G.pickSweep n
  · exact G

theorem Spots.Good.lookAndPick (G : (spots s).Good) (g : Seg) : (spots (lookAndPick g s)).Good := by
  have G' : (spots (lookDisc g s).1).Good := by rw [spots_lookDisc]; exact G
  unfold Machine.lookAndPick
  split
  · exact G'.pick g
  · exact G'

theorem Spots.Good.takeRoom (G : (spots s).Good) (g : Seg) : (spots (takeRoom g s)).Good := by
  unfold Machine.takeRoom beginProbing
  split
  · refine Spots.Good.lookAndPick ?_ g
    rw [spots_updDisc, spots_takeReservation]; exact G
  · exact G

theorem Spots.Good.serveWaitRoom (G : (spots s).Good) : (spots (serveWaitRoom s)).Good :=
  (((G.takeRoom 0).takeRoom 1).takeRoom 2).takeRoom 3

theorem Spots.Good.resumeDisc (G : (spots s).Good) (g : Seg) : (spots (resumeDisc g s)).Good := by
  unfold Machine.resumeDisc
  exact Spots.Good.takeRoom (by rw [spots_updDisc]; exact G) g

/-! ## A segment that holds an exchange picks nothing -/

theorem pick_busy {g : Seg} {x : Exchange} (h : (s.seg g).exchange = some x) : pick g s = s := by
  simp [pick, isFree, h]

theorem takeRoom_busy {g : Seg} {x : Exchange} (h : (s.seg g).exchange = some x) :
    spots (takeRoom g s) = spots s ∧ exchanges (takeRoom g s) = exchanges s := by
  have l (t : State) : exchanges (lookDisc g t).1 = exchanges t := by
    funext k; exact lookDisc_exchange g k t
  unfold takeRoom
  split
  · have e : exchanges (beginProbing g s) = exchanges s :=
      (exchanges_updSeg rfl).trans rfl
    have h' : ((lookDisc g (beginProbing g s)).1.seg g).exchange = some x := by
      rw [lookDisc_exchange]; exact (congrFun e g).trans h
    unfold lookAndPick
    split
    · rw [pick_busy h', spots_lookDisc, l]
      exact ⟨by rw [beginProbing, spots_updDisc, spots_takeReservation], e⟩
    · rw [spots_lookDisc, l]
      exact ⟨by rw [beginProbing, spots_updDisc, spots_takeReservation], e⟩
  · exact ⟨rfl, rfl⟩

theorem resumeDisc_busy {g : Seg} {x : Exchange} (h : (s.seg g).exchange = some x) :
    spots (resumeDisc g s) = spots s ∧ exchanges (resumeDisc g s) = exchanges s := by
  unfold resumeDisc
  have e := takeRoom_busy (s := s.updDisc g fun u => { u with state := .waitRoom, record := none })
    (g := g) (x := x) (by simpa using h)
  exact ⟨e.1.trans (spots_updDisc ..), e.2.trans (exchanges_updSeg rfl)⟩

/-! ## The end of an exchange -/

theorem Spots.Good.handOutcome (G : (spots s).Good) (x : Exchange) (form : EndForm) :
    (spots (handOutcome x form s)).Good := by
  simp only [Machine.handOutcome, handClass, failedOutcome, silentOutcome]
  repeat' split
  all_goals try exact G
  · rw [spots_goodOutcome]; exact G
  · rw [spots_missOutcome]; exact G
  · rw [spots_missOutcome]; exact G
  · simp only [goOffline]
    rw [spots_leaveAttention]
    refine Spots.Good.stationJobs ?_ _ _ _
    rw [spots_eventReport, spots_updEntry]; exact G

theorem dropExchange_spots {g : Seg} (a : activeJob (s.seg g) = []) :
    spots (dropExchange g s) = spots s := by
  refine spots_updSeg_work ?_
  simp only [Column.work, a]; rfl

/-- The active job of a segment. -/
theorem Spots.Good.activeLive (G : (spots s).Good) {g : Seg} {h : Handle}
    (a : activeJob (s.seg g) = [h]) :
    ∃ j, s.job h = some j ∧ j.seg = g ∧ j.state = .active ∧ j.deadlineTimer = none ∧ j.backoff = none := by
  have m : h ∈ (spots s).at_ g .active := by simp [spots, Column.standing, a]
  obtain ⟨x, hx, h1, h2⟩ := (G.here ..).1 m
  have t := G.timed h x hx
  simp only [spots, Option.map_eq_some_iff] at hx
  obtain ⟨j, e, rfl⟩ := hx
  have h2' : j.place = .active := h2
  have st : j.state = .active := by
    unfold Job.place at h2'
    cases hs : j.state <;> cases hl : j.lane <;> simp_all
  have t' := (Job.spot_timed j).1 t
  refine ⟨j, e, h1, st, ?_, ?_⟩
  · by_contra c
    have := t'.1 (Option.isSome_iff_ne_none.2 c)
    rw [st] at this; simp at this
  · by_contra c
    have := t'.2.1 (Option.isSome_iff_ne_none.2 c)
    rw [st] at this; simp at this

/-- An active job is put back into a lane or the waiting set of its segment. -/
theorem Spots.Good.moveActive (G : (spots s).Good) {g : Seg} {h : Handle} {j : Job}
    (a : activeJob (s.seg g) = [h]) (e : s.job h = some j) (js : j.seg = g) {f : Job → Job}
    {c : Column → Column} (fs : (f j).seg = g) (np : (f j).place ≠ .active) (ft : (f j).spot.timed)
    (cp : ∀ p, p ≠ .active → p ≠ (f j).place → (c (s.seg g)).standing p = (s.seg g).standing p)
    (cl : ((c (s.seg g)).standing (f j).place).Perm (h :: (s.seg g).standing (f j).place)) :
    (spots (dropExchange g ((s.updJob h f).updSeg g c))).Good := by
  have ja : j.place = .active := by
    have m : h ∈ (spots s).at_ g .active := by simp [spots, Column.standing, a]
    obtain ⟨x, hx, -, h2⟩ := (G.here ..).1 m
    simp only [spots, e, Option.map_some, Option.some.injEq] at hx
    subst hx; exact h2
  have key : spots (dropExchange g ((s.updJob h f).updSeg g c))
      = ((spots s).remove h).put h (f j).spot ((c (s.seg g)).standing (f j).place) := by
    apply spots_eq
    · funext k
      have : (spots (dropExchange g ((s.updJob h f).updSeg g c))).job
          = (spots (s.updJob h f)).job := rfl
      rw [this]
      simp only [spots, Spots.put, Spots.remove, job_updJob]
      rcases eq_or_ne k h with rfl | q
      · simp [e]
      · simp [q]
    · funext k p
      rw [spots_dropExchange_at]
      simp only [spots, Spots.put, Spots.remove, updJob_seg, seg_updSeg]
      have fs' : (f j).spot.seg = g := fs
      have fp : (f j).spot.place = (f j).place := rfl
      rw [fs', fp]
      rcases eq_or_ne k g with rfl | q
      · simp only [true_and, if_true]
        rcases eq_or_ne p .active with rfl | r
        · rw [if_pos rfl, if_neg (fun c => np c.symm)]
          simp [Column.standing, a]
        · rw [if_neg r]
          split
          · rename_i w; rw [w]
          · rename_i w
            rw [cp p r w]
            exact (filter_absent (G.absent e fun x => r (x.2.symm.trans ja))).symm
      · simp only [q, false_and, if_false]
        exact (filter_absent (G.absent e fun x => q (x.1.symm.trans js))).symm
  rw [key]
  refine (G.remove h).put (by simp [Spots.remove]) ft ?_
  have fs' : (f j).spot.seg = g := fs
  have fp : (f j).spot.place = (f j).place := rfl
  rw [fs', fp]
  have w : ((spots s).remove h).at_ g (f j).place = (s.seg g).standing (f j).place := by
    simp only [Spots.remove, spots]
    exact filter_absent (G.absent e fun x => np (x.2.symm.trans ja))
  rw [w]; exact cl

theorem insertAsc_perm {h : Handle} {l : List Handle} (n : h ∉ l) : (insertAsc h l).Perm (h :: l) := by
  induction l with
  | nil => rfl
  | cons k ks ih =>
    simp only [List.mem_cons, not_or] at n
    unfold insertAsc
    split
    · rfl
    · rw [if_neg n.1]
      exact ((ih n.2).cons k).trans (List.Perm.swap ..)

theorem Spots.Good.endJob (G : (spots s).Good) {g : Seg} {h : Handle}
    (a : activeJob (s.seg g) = [h]) (x : Exchange) (form : EndForm) :
    (spots (dropExchange g (endJob g h x form s))).Good := by
  obtain ⟨j, e, js, st, dt, bt⟩ := G.activeLive a
  have done (o : JobOutcome) (d : List Byte) :
      (spots (dropExchange g (completeJob h o d s))).Good := by
    rw [spots_completeActive G a]; exact G.remove h
  have reply (r : Reply) : (spots (dropExchange g (endByReply h x r s))).Good := by
    unfold endByReply; split <;> exact done _ _
  unfold Machine.endJob
  simp only [e]
  split
  · split
    · unfold busyJob
      split
      · refine G.moveActive a e js js (by simp [Job.place]) ?_ ?_ ?_
        · rw [Job.spot_timed]; simp [dt]
        · intro p n w; cases p <;> simp_all [Column.standing, Job.place]
        · simp only [Job.place, Column.standing]
          refine insertAsc_perm ?_
          exact G.absent (p := .waiting) e fun c => by
            have := c.2; unfold Job.place at this; rw [st] at this; simp at this
      · exact done _ _
    · exact reply _
  · exact done _ _
  · exact done _ _
  · unfold returnToLane
    refine G.moveActive a e js js ?_ ?_ ?_ ?_
    · cases j.lane <;> simp [Job.place]
    · rw [Job.spot_timed]; simp [dt, bt]
    · intro p n w
      cases hl : j.lane <;> cases p <;> simp_all [Column.standing, Job.place, updLane]
    · cases j.lane <;> simp [Column.standing, Job.place, updLane]
  · exact reply _
  · exact done _ _

theorem spots_endProbe {g : Seg} {x : Exchange} (h : (s.seg g).exchange = some x) (form : EndForm) :
    spots (endProbe g form s) = spots s := by
  have look (t : State) : spots (lookDisc g t).1 = spots t := spots_lookDisc ..
  simp only [endProbe, probeOutcome, holdFind, unclearFind]
  repeat' split
  all_goals try simp only [look, spots_updDisc, spots_enterReserved]
  rw [(resumeDisc_busy (x := x) ?_).1]
  · simp only [spots_updDisc, spots_enterReserved]
  · simpa [enterReserved] using h

theorem Spots.Good.handOrigin (G : (spots s).Good) {g : Seg} {x : Exchange} (c : Carries g x s)
    (form : EndForm) : (spots (dropExchange g (handOrigin g x form s))).Good := by
  have a := c.active
  obtain ⟨y, hy, -, -⟩ := c
  have other (t : State) (e : spots t = spots s) (n : activeJob (s.seg g) = []) :
      (spots (dropExchange g t)).Good := by
    rw [dropExchange_spots, e]
    · exact G
    · have : (spots t).at_ g .active = (spots s).at_ g .active := by rw [e]
      exact this.trans n
  unfold Machine.handOrigin
  split
  · rename_i h o
    rw [o] at a
    exact G.endJob a x form
  · rename_i o
    rw [o] at a
    exact other _ (spots_endSweepStep ..) a
  · rename_i o
    rw [o] at a
    exact other _ (spots_endFollowUp ..) a
  · rename_i o
    rw [o] at a
    exact other _ (spots_endProbe hy form) a

theorem spots_dropExchange_congr {g : Seg} {s t : State} (e : spots t = spots s) :
    spots (dropExchange g t) = spots (dropExchange g s) := by
  apply spots_eq
  · exact (congrArg Spots.job e : (spots t).job = (spots s).job)
  · funext k p
    rw [spots_dropExchange_at, spots_dropExchange_at, e]

theorem Spots.Good.segmentFreed {g : Seg} (G : (spots (dropExchange g s)).Good) (f : Option SegFault) :
    (spots (segmentFreed g f s)).Good := by
  have e : (spots (s.updSeg g fun c => { c with exchange := none })).Good := G
  simp only [Machine.segmentFreed]
  split
  · unfold enterFaulted
    rw [spots_eventReport, spots_updSeg_work rfl]; exact e
  · split
    · unfold endDrain
      rw [spots_eventReport, spots_updSeg_work rfl]; exact e
    · exact e.pick g
    · exact e
    · exact e

theorem Spots.Good.endExchange (G : (spots s).Good) {g : Seg} {x : Exchange} (c : Carries g x s)
    (form : EndForm) (f : Option SegFault) : (spots (endExchange g x form f s)).Good := by
  unfold Machine.endExchange
  refine Spots.Good.segmentFreed ?_ f
  rw [spots_dropExchange_congr (spots_freeRetiring ..)]
  refine Spots.Good.handOrigin ?_ (c.of_exchanges ?_) form
  · rw [spots_handStatus]
    refine Spots.Good.handOutcome ?_ x form
    rw [spots_setToggle]; exact G
  · simp

/-! ## The end of an attempt -/

theorem Spots.Good.ofX (G : (spots s).Good) {g : Seg} {f : Exchange → Exchange}
    (h : ∀ x, (f x).origin = x.origin) : (spots (s.updX g f)).Good := by
  rw [spots_updX h]; exact G

theorem Spots.Good.ofCount (G : (spots s).Good) (g : Seg) (f : Counters → Counters) :
    (spots (s.count g f)).Good := by
  rw [spots_count]; exact G

theorem Spots.Good.failAttempt (G : (spots s).Good) {g : Seg} {x : Exchange} (c : Carries g x s)
    (k : FailKind) : (spots (failAttempt g x k s)).Good := by
  have G' : (spots (noteFailure x k s)).Good := by rw [spots_noteFailure]; exact G
  have c' : Carries g x (noteFailure x k s) := c.of_exchanges (exchanges_noteFailure ..)
  simp only [Machine.failAttempt]
  split
  · exact G'.endExchange c' ..
  · split
    · exact G'.endExchange c' ..
    · split
      · unfold attemptAgain
        split
        · exact G'.endExchange c' ..
        · split
          · exact G'.endExchange c' ..
          · rw [spots_enterDefer]; exact G'.ofX fun _ => rfl
      · unfold attemptsSpent
        split <;> exact G'.endExchange c' ..

theorem Carries.count {g : Seg} {x : Exchange} (c : Carries g x s) (f : Counters → Counters) :
    Carries g x (s.count g f) := c.of_exchanges (exchanges_updSeg rfl)

theorem Carries.updX {g : Seg} {x : Exchange} (c : Carries g x s) {f : Exchange → Exchange}
    (ho : ∀ x, (f x).origin = x.origin) (he : ∀ x, (f x).entry = x.entry) : Carries g x (s.updX g f) := by
  obtain ⟨y, hy, h1, h2⟩ := c
  exact ⟨f y, by simp [hy], (ho y).trans h1, (he y).trans h2⟩

theorem Spots.Good.failNoReply (G : (spots s).Good) {g : Seg} {x : Exchange} (c : Carries g x s) :
    (spots (failNoReply g x s)).Good :=
  Spots.Good.failAttempt (by rw [spots_count]; exact G) (c.count _) _

theorem Spots.Good.failReply (G : (spots s).Good) {g : Seg} {x : Exchange} (c : Carries g x s)
    (k : FailKind) : (spots (failReply g x k s)).Good :=
  Spots.Good.failAttempt (by rw [spots_count]; exact G) (c.count _) _

theorem Spots.Good.contend (G : (spots s).Good) {g : Seg} {x : Exchange} (c : Carries g x s) :
    (spots (contend g x s)).Good := by
  unfold Machine.contend
  refine Spots.Good.failAttempt ?_ (c.of_exchanges (exchanges_updSeg ?_)) _
  · rw [spots_updSeg_work rfl]; exact G
  · rfl

/-! ## Replies and items -/

theorem Spots.Good.validReply (G : (spots s).Good) {g : Seg} {x : Exchange} (c : Carries g x s)
    (r : Reply) : (spots (validReply g x r s)).Good := by
  have G' : (spots ((s.count g Counters.incValid).updX g fun x => { x with unanswered := false })).Good :=
    (G.ofCount ..).ofX fun _ => rfl
  have c' : Carries g { x with unanswered := false }
      ((s.count g Counters.incValid).updX g fun x => { x with unanswered := false }) :=
    (c.count _).updX (fun _ => rfl) fun _ => rfl
  simp only [Machine.validReply]
  split
  · split
    · simp only [preludeSuccess]
      split
      · have e (k : Index) (t : State) : spots (t.updEntry k fun e =>
            { e with sync := .synced, toggle := !e.toggle }) = spots t := rfl
        rw [spots_enterDefer, spots_updX (f := Exchange.toMain _ _) fun _ => rfl, e, spots_statusRule]
        exact G'
      · exact G'
    · exact G'.endExchange c' ..
  · exact G'.endExchange c' ..

theorem Spots.Good.evaluate (G : (spots s).Good) {g : Seg} {x : Exchange} (c : Carries g x s)
    (chars : List Byte) : (spots (evaluate g x chars s)).Good := by
  unfold Machine.evaluate staleReply
  split
  · exact G.validReply c _
  · have G' : (spots ((s.count g Counters.incStale).updX g fun x =>
        { x with phase := .await, received := [], gapTimer := none })).Good :=
      (G.ofCount ..).ofX fun _ => rfl
    simp only []
    split
    · exact G'.failNoReply ((c.count _).updX (fun _ => rfl) fun _ => rfl)
    · exact G'
  · exact G.failReply c _

theorem Carries.self {g : Seg} {x : Exchange} (h : (s.seg g).exchange = some x) : Carries g x s :=
  ⟨x, h, rfl, rfl⟩

theorem Spots.Good.handItem (G : (spots s).Good) (g : Seg) (item : Item) :
    (spots (handItem g item s)).Good := by
  unfold Machine.handItem echoCheck itemWhenQuiet receiveInReply replySof
  split
  · split
    · exact G
    · split
      · rw [spots_updLine]; exact G
      · split
        · rename_i e; exact G.contend (.self e)
        · exact G
  · exact G
  · rw [spots_strayItem]; exact G
  · split
    · rw [spots_strayItem]; exact G
    · rename_i x e
      split
      · split
        · exact G.ofX fun _ => rfl
        · rw [spots_strayItem]; exact G
      · split
        · exact G.ofX fun _ => rfl
        · exact G.evaluate (.self e) _
        · exact G.failReply (.self e) _
      all_goals rw [spots_strayItem]; exact G

theorem Spots.Good.releaseDir (G : (spots s).Good) (g : Seg) : (spots (releaseDir g s)).Good := by
  have G' : (spots (s.updLine g fun l => { l with tx := .quiet, idle := 0 })).Good := by
    rw [spots_updLine]; exact G
  simp only [Machine.releaseDir]
  split
  · exact G'
  · rename_i e
    split
    · split
      · exact G'.endExchange (.self e) ..
      · exact G'.ofX fun _ => rfl
    · exact G'

end

end Sys2Proof.Machine
end

