-- ==== Sys2Proof/Laws/HoldersRequests.lean ====
section
/-! SUPPORT. The requests and the expiries keep HolderLaw and TimerLaw. -/

namespace Sys2Proof.Machine

section
variable {s : State}

/-! ## Resets -/

theorem Spots.Good.ofEmpty (j : ∀ h, s.job h = none) (c : ∀ g, (s.seg g).work = ([], [], [], [])) :
    (spots s).Good := by
  have e (g : Seg) (p : Place) : (spots s).at_ g p = [] := by
    have := c g
    simp only [Column.work, Prod.mk.injEq] at this
    obtain ⟨h1, h2, h3, h4⟩ := this
    cases p
    · exact h1
    · exact h2
    · exact h3
    · exact h4
  have n (h : Handle) : (spots s).job h = none := by simp [spots, j h]
  exact ⟨fun g p => by rw [e]; exact List.nodup_nil, fun g p h => by rw [e, n]; simp,
    fun h x q => by rw [n] at q; simp at q⟩

theorem Spots.Good.restartPart (w : Bool) (s : State) : (spots (restartPart w s)).Good := by
  refine .ofEmpty (fun h => by simp [Machine.restartPart, State.job]) fun g => ?_
  rw [restartPart_seg]; rfl

theorem Spots.Good.pinStart (s : State) : (spots (pinStart s)).Good := by
  refine .ofEmpty reset_job fun g => ?_
  have := reset_seg g
  exact congrArg Column.work this

/-! ## RESET_SEGMENT -/

/-- The discarded exchange's job completes. -/
theorem spots_completeDropped (G : (spots s).Good) {t : State} {g : Seg} {h : Handle}
    (a : activeJob (s.seg g) = [h]) (e : spots t = spots (dropExchange g s)) (o : JobOutcome)
    (d : List Byte) : spots (completeJob h o d t) = (spots s).remove h := by
  obtain ⟨j, hj, js, st, -, -⟩ := G.activeLive a
  have jp : j.place = .active := by unfold Job.place; rw [st]
  have tj : (t.job h).map Job.spot = some j.spot := by
    have : (spots t).job h = (spots s).job h := by rw [e]; rfl
    simpa [spots, hj] using this
  obtain ⟨i, hi, hs⟩ := Option.map_eq_some_iff.1 tj
  have is : i.seg = g := by have := congrArg JobSpot.seg hs; exact this.trans js
  apply spots_eq
  · rw [spots_complete_job hi, e]; rfl
  · rw [completeJob_live hi]
    funext k p
    have atk : (t.seg k).standing p = if k = g ∧ p = .active then [] else (s.seg k).standing p := by
      have := congrFun (congrFun (congrArg Spots.at_ e) k) p
      rw [spots_dropExchange_at] at this; exact this
    simp only [spots, Spots.remove, setJob_seg, seg_updSeg, enterReserved, updQueue_seg, is]
    split
    · rename_i c
      subst c
      rw [leaveHolders_standing, atk]
      rcases eq_or_ne p .active with rfl | q
      · simp [Column.standing, a]
      · simp [q]
    · rename_i c
      rw [atk, if_neg (fun x => c x.1)]
      exact (filter_absent (G.absent hj fun x => c (x.1.symm.trans js))).symm

theorem Spots.Good.live (G : (spots s).Good) {g : Seg} {p : Place} {h : Handle}
    (m : h ∈ (s.seg g).standing p) : (s.job h).isSome = true := by
  obtain ⟨x, hx, -⟩ := (G.here g p h).1 m
  simp only [spots, Option.map_eq_some_iff] at hx
  obtain ⟨j, e, -⟩ := hx
  simp [e]

/-- Every handle of a segment is that of a live job. -/
theorem abortOrder_all (G : (spots s).Good) (g : Seg) :
    abortOrder s g = activeJob (s.seg g) ++ (s.seg g).urgent ++ (s.seg g).normal ++ (s.seg g).waitSet := by
  unfold abortOrder
  rw [List.filter_eq_self]
  intro h m
  simp only [List.mem_append] at m
  rcases m with ((m | m) | m) | m
  · exact G.live (p := .active) m
  · exact G.live (p := .urgent) m
  · exact G.live (p := .normal) m
  · exact G.live (p := .waiting) m

theorem activeJob_shape (c : Column) : activeJob c = [] ∨ ∃ h, activeJob c = [h] := by
  unfold activeJob
  split
  · split
    · exact .inr ⟨_, rfl⟩
    · exact .inl rfl
  · exact .inl rfl

theorem Spots.Good.resetWork (G : (spots s).Good) (g : Seg) : (spots (resetWork g s)).Good := by
  unfold Machine.resetWork
  rw [abortOrder_all G]
  set t := s.updSeg g fun c => { c with exchange := none, line := c.line.discard c.config } with ht
  have e : spots t = spots (dropExchange g s) := by
    apply spots_eq
    · rfl
    · funext k p
      rw [spots_dropExchange_at]
      simp only [spots, ht, seg_updSeg]
      split
      · rename_i c; subst c
        cases p <;> simp [Column.standing, activeJob]
      · rename_i c; simp [c]
  have tj (h : Handle) : t.job h = s.job h := rfl
  have lanes : ∀ h ∈ (s.seg g).urgent ++ (s.seg g).normal ++ (s.seg g).waitSet, ∀ j, s.job h = some j →
      j.place ≠ .active := fun h m => lane_places (g := g) G m
  have main : (spots (Machine.completeJobs (activeJob (s.seg g) ++ (s.seg g).urgent ++ (s.seg g).normal
      ++ (s.seg g).waitSet) .aborted t)).Good := by
    rcases activeJob_shape (s.seg g) with a | ⟨h, a⟩
    · rw [a, List.nil_append]
      have : spots t = spots s := by rw [e, dropExchange_spots a]
      exact Spots.Good.completeJobs (by rw [this]; exact G) _ _ lanes
    · rw [a]
      have k : spots (completeJob h .aborted [] t) = (spots s).remove h := spots_completeDropped G a e _ _
      have : Machine.completeJobs ([h] ++ (s.seg g).urgent ++ (s.seg g).normal ++ (s.seg g).waitSet)
          .aborted t = Machine.completeJobs ((s.seg g).urgent ++ (s.seg g).normal ++ (s.seg g).waitSet)
          .aborted (completeJob h .aborted [] t) := by
        simp [Machine.completeJobs]
      rw [this]
      refine Spots.Good.completeJobs (by rw [k]; exact G.remove h) _ _ fun i m j hj => ?_
      obtain ⟨j', hj', -⟩ := G.activeLive a
      rw [completeJob_live (by rw [tj]; exact hj'), job_setJob] at hj
      split at hj
      · simp at hj
      · exact lanes i m j hj
  have l := main
  rw [← spots_updSeg_work (g := g) (f := fun c => { c with attention := [], sweep := Sweep.reset }) rfl] at l
  exact l

theorem resetControl_work (c : Column) : (resetControl c).work = c.work := rfl

theorem Spots.Good.resetSegment (G : (spots s).Good) (g : Seg) : (spots (resetSegment g s)).Good := by
  unfold Machine.resetSegment
  rw [spots_updSeg_work (resetControl_work _)]
  unfold Machine.resetDisc
  split
  · refine Spots.Good.serveWaitRoom ?_
    rw [spots_updDisc, spots_releaseReservation]; exact G.resetWork g
  · rw [spots_updDisc]; exact G.resetWork g

/-! ## Jobs -/

theorem Spots.Good.acceptJob (G : (spots s).Good) {h : Handle} {j : Job} (l : s.job h = none)
    (st : j.state = .queued) (sd : j.started = false) (b : j.backoff = none) :
    (spots (acceptJob h j s)).Good := by
  have key : spots (Machine.acceptJob h j s)
      = (spots s).put h j.spot ((s.seg j.seg).standing j.place ++ [h]) := by
    unfold Machine.acceptJob
    apply spots_eq
    · funext k
      simp only [spots, Spots.put, updSeg_job, job_setJob]
      rcases eq_or_ne k h with rfl | c
      · simp
      · simp [c, takeReservation]
    · funext k p
      have fs : j.spot.seg = j.seg := rfl
      have fp : j.spot.place = j.place := rfl
      simp only [spots, Spots.put, seg_updSeg, setJob_seg, takeReservation, updQueue_seg, fs, fp]
      rcases eq_or_ne k j.seg with rfl | c
      · simp only [if_true, true_and]
        unfold Job.place
        rw [st]
        cases j.lane <;> cases p <;> simp [updLane, Column.standing, activeJob]
      · simp [c]
  rw [key]
  refine G.put (by simp [spots, l]) ?_ ?_
  · rw [Job.spot_timed]; simp [st, sd, b]
  · exact List.perm_append_comm.trans (List.Perm.refl _)

theorem Spots.Good.rulingSubmit (G : (spots s).Good) (f : HostFrame) (g : Seg) :
    (spots (rulingSubmit f g s).state).Good := by
  unfold Machine.rulingSubmit
  split
  · exact G
  · split
    · exact G
    · split
      · exact G
      · split
        · exact G
        · split
          · exact G
          · rename_i e _
            exact (G.acceptJob (lowestFreeJob_none e) rfl rfl rfl).pick g

theorem Spots.Good.completeWaiting (G : (spots s).Good) {h : Handle} {j : Job} (e : s.job h = some j)
    (n : j.state ≠ .active) (o : JobOutcome) (d : List Byte) : (spots (completeJob h o d s)).Good := by
  rw [spots_completeJob G e]
  · exact G.remove h
  · unfold Job.place; cases hs : j.state <;> cases j.lane <;> simp_all

theorem Spots.Good.rulingCancel (G : (spots s).Good) (f : HostFrame) :
    (spots (rulingCancel f s).state).Good := by
  unfold Machine.rulingCancel cancelJob
  split
  · exact G
  · split
    · exact G
    · rename_i h j e
      simp only [Option.bind_eq_some_iff, Option.map_eq_some_iff, Prod.mk.injEq] at e
      obtain ⟨a, -, b, hb, rfl, rfl⟩ := e
      split
      · rw [spots_updJob (f := fun j => { j with cancel := true }) fun _ => rfl]; exact G
      · rename_i st
        exact G.completeWaiting hb (by simp [st]) _ _
      · rename_i st
        exact G.completeWaiting hb (by simp [st]) _ _

theorem elapse_job (d : Time) (s : State) (h : Handle) (low : s.rstnLow = false) :
    (s.elapse d).job h = (s.job h).map (Job.elapse d) := by
  simp only [State.elapse, low, Bool.false_eq_true, if_false, State.job]; exact mapStore_get ..

/-- A job leaves the waiting set for the head of its lane. -/
theorem Spots.Good.endBackoff (G : (spots s).Good) {h : Handle} {i j : Job} (e : s.job h = some i)
    (st : i.state = .waiting) (js : j.seg = i.seg) (jl : j.lane = i.lane) :
    (spots (endBackoff h j s)).Good := by
  have ip : i.place = .waiting := by unfold Job.place; rw [st]
  have dt : i.deadlineTimer = none := by
    by_contra c
    have := ((Job.spot_timed i).1 (G.timed h i.spot (by simp [spots, e]))).1 (Option.isSome_iff_ne_none.2 c)
    rw [st] at this; simp at this
  unfold Machine.endBackoff
  refine Spots.Good.pick ?_ _
  have key : spots ((s.updJob h fun j => { j with state := .queued, attempts := 0, backoff := none }).updSeg
      j.seg fun c => updLane j.lane (h :: ·) { c with waitSet := c.waitSet.filter (· != h) })
      = ((spots s).remove h).put h
          (Job.spot { i with state := .queued, attempts := 0, backoff := none })
          (h :: (s.seg i.seg).standing (Job.place { i with state := .queued })) := by
    apply spots_eq
    · funext k
      simp only [spots, Spots.put, Spots.remove, updSeg_job, job_updJob]
      rcases eq_or_ne k h with rfl | q
      · simp [e]
      · simp [q]
    · funext k p
      simp only [spots, Spots.put, Spots.remove, updJob_seg, seg_updSeg, js, jl]
      have fs : (Job.spot { i with state := .queued, attempts := 0, backoff := none }).seg = i.seg := rfl
      have fp : (Job.spot { i with state := .queued, attempts := 0, backoff := none }).place
          = Job.place { i with state := .queued } := rfl
      rw [fs, fp]
      have ab (p : Place) (n : p ≠ .waiting) : h ∉ (s.seg i.seg).standing p :=
        G.absent e fun c => n (c.2.symm.trans ip)
      rcases eq_or_ne k i.seg with rfl | q
      · have u := filter_absent (ab .urgent (by simp))
        have n := filter_absent (ab .normal (by simp))
        have a := filter_absent (ab .active (by simp))
        simp only [Column.standing] at u n a
        simp only [if_true, true_and]
        cases hl : i.lane <;> cases p <;> simp only [updLane, Column.standing, Job.place, if_true,
          reduceCtorEq, if_false]
        all_goals first | rfl | exact u.symm | exact n.symm | exact a.symm
      · simp only [q, if_false, false_and]
        exact (filter_absent (G.absent e fun x => q x.1.symm)).symm
  rw [key]
  refine (G.remove h).put (by simp [Spots.remove]) ?_ ?_
  · rw [Job.spot_timed]; simp [dt]
  · have fs : (Job.spot { i with state := .queued, attempts := 0, backoff := none }).seg = i.seg := rfl
    have fp : (Job.spot { i with state := .queued, attempts := 0, backoff := none }).place
        = Job.place { i with state := .queued } := rfl
    rw [fs, fp]
    have w : ((spots s).remove h).at_ i.seg (Job.place { i with state := .queued })
        = (s.seg i.seg).standing (Job.place { i with state := .queued }) := by
      simp only [Spots.remove, spots]
      refine filter_absent (G.absent e fun c => ?_)
      have c2 := c.2
      rw [ip] at c2
      unfold Job.place at c2; cases hl : i.lane <;> simp [hl] at c2
    rw [w]

/-! ## Stations, discovery, timers -/

theorem Spots.Good.removeEntry (G : (spots s).Good) (g : Seg) (a : Nat) (k : Index) :
    (spots (removeEntry g a k s)).Good := by
  unfold Machine.removeEntry freeOrRetire
  have l : (spots (leaveAttention k (Machine.completeJobs (Machine.stationJobs s g a) .cancelled s))).Good := by
    rw [spots_leaveAttention]; exact G.stationJobs g a _
  split
  · rw [spots_cancelCarried, spots_updEntry]; exact l
  · rw [spots_setEntry]; exact l

theorem Spots.Good.stopUnit (G : (spots s).Good) (g : Seg) : (spots (stopUnit g s)).Good := by
  unfold Machine.stopUnit
  split
  · refine Spots.Good.serveWaitRoom ?_
    rw [spots_updDisc, spots_releaseReservation]; exact G
  · rw [spots_updDisc]; exact G

theorem Spots.Good.sweepDue (G : (spots s).Good) (g : Seg) : (spots (sweepDue g s)).Good := by
  simp only [Machine.sweepDue]
  split
  · split
    · rw [spots_count]; exact G
    · rw [spots_updSweep]; exact G
  · split
    · refine Spots.Good.pick ?_ g
      rw [spots_lookSweep, spots_updSweep]; exact G
    · rw [spots_lookSweep, spots_updSweep]; exact G

theorem Spots.Good.breakOver (G : (spots s).Good) (g : Seg) : (spots (breakOver g s)).Good := by
  unfold Machine.breakOver
  refine Spots.Good.pick ?_ g
  rw [spots_updSeg_work rfl]; exact G

theorem Spots.Good.column (G : (spots s).Good) (g : Seg) {f : Column → Column}
    (h : (f (s.seg g)).work = (s.seg g).work) : (spots (s.updSeg g f)).Good := by
  rw [spots_updSeg_work h]; exact G

theorem Spots.Good.takeFrame (G : (spots s).Good) (f : HostFrame) : (spots (takeFrame f s)).Good := by
  unfold Machine.takeFrame Machine.applyAck countTaken
  split
  · rw [spots_updLink]; exact G
  · split
    · refine Spots.Good.serveWaitRoom ?_
      rw [spots_updQueue, spots_updLink]; exact G
    · rw [spots_updLink]; exact G

end

end Sys2Proof.Machine
end

