-- ==== Sys2Proof/Laws/Outside.lean ====
section
/-! SUPPORT. What lies outside the segments and the device-wide stores (the host link, the RSTN pin, the
commands waiting) and is left alone by everything that happens at a segment, job, station or timer. -/

namespace Sys2Proof.Machine

/-- The host link, the RSTN pin and the commands waiting. -/
def rest (s : State) : Link × Bool × List Instr := (s.link, s.rstnLow, s.pending)

theorem rest_eq {s t : State} (h : rest t = rest s) : SameOutside s t := by
  simp only [rest, Prod.mk.injEq] at h; exact h

theorem rest_of_outer {g : Seg} {s t : State} (h : outer g t = outer g s) : rest t = rest s := by
  have := outer_eq h
  simp [rest, this.2.1, this.2.2.1, this.2.2.2]

section
variable (s : State)

@[simp] theorem rest_updSeg (g : Seg) (f : Column → Column) : rest (s.updSeg g f) = rest s := rfl
@[simp] theorem rest_setEntry (i : Index) (e : Option Entry) : rest (s.setEntry i e) = rest s := rfl
@[simp] theorem rest_updEntry (i : Index) (f : Entry → Entry) : rest (s.updEntry i f) = rest s := rfl
@[simp] theorem rest_setJob (h : Handle) (j : Option Job) : rest (s.setJob h j) = rest s := rfl
@[simp] theorem rest_updJob (h : Handle) (f : Job → Job) : rest (s.updJob h f) = rest s := rfl
@[simp] theorem rest_updQueue (f : Queue → Queue) : rest (s.updQueue f) = rest s := rfl
@[simp] theorem rest_updX (g : Seg) (f : Exchange → Exchange) : rest (s.updX g f) = rest s := rfl
@[simp] theorem rest_updLine (g : Seg) (f : Line → Line) : rest (s.updLine g f) = rest s := rfl
@[simp] theorem rest_updSweep (g : Seg) (f : Sweep → Sweep) : rest (s.updSweep g f) = rest s := rfl
@[simp] theorem rest_updDisc (g : Seg) (f : Discovery → Discovery) : rest (s.updDisc g f) = rest s := rfl
@[simp] theorem rest_count (g : Seg) (f : Counters → Counters) : rest (s.count g f) = rest s := rfl
@[simp] theorem rest_withTable (v : Vector (Option Entry) 64) : rest (({ s with table := v } : State)) = rest s := rfl
@[simp] theorem rest_enterReserved (b : ReportBody) : rest (enterReserved b s) = rest s := rfl
@[simp] theorem rest_takeReservation : rest (takeReservation s) = rest s := rfl
@[simp] theorem rest_releaseReservation : rest (releaseReservation s) = rest s := rfl

@[simp] theorem rest_eventReport (b : ReportBody) : rest (eventReport b s) = rest s := by
  unfold eventReport; split <;> rfl

@[simp] theorem rest_enterDefer (g : Seg) : rest (enterDefer g s) = rest s := rest_of_outer (enterDefer_frame g s).1
@[simp] theorem rest_enterSend (g : Seg) : rest (enterSend g s) = rest s := rest_of_outer (enterSend_frame g s).1
@[simp] theorem rest_pick (g : Seg) : rest (pick g s) = rest s := rest_of_outer (pick_frame g s).1
@[simp] theorem rest_takeRoom (g : Seg) : rest (takeRoom g s) = rest s := rest_of_outer (takeRoom_frame g s).1
@[simp] theorem rest_resumeDisc (g : Seg) : rest (resumeDisc g s) = rest s := rest_of_outer (resumeDisc_frame g s).1
@[simp] theorem rest_lookAndPick (g : Seg) : rest (lookAndPick g s) = rest s := rest_of_outer (lookAndPick_frame g s).1
@[simp] theorem rest_lookSweep (g : Seg) : rest (lookSweep g s).1 = rest s := rest_of_outer (lookSweep_frame g s).1
@[simp] theorem rest_lookDisc (g : Seg) : rest (lookDisc g s).1 = rest s := rest_of_outer (lookDisc_frame g s).1
@[simp] theorem rest_serveWaitRoom : rest (serveWaitRoom s) = rest s := by simp [serveWaitRoom]

@[simp] theorem rest_completeJob (h : Handle) (o : JobOutcome) (d : List Byte) : rest (completeJob h o d s) = rest s := by
  simp only [completeJob]
  repeat' split
  all_goals simp

@[simp] theorem rest_completeJobs (hs : List Handle) (o : JobOutcome) :
    rest (completeJobs hs o s) = rest s := by
  unfold completeJobs
  induction hs generalizing s with
  | nil => rfl
  | cons h hs ih => exact (ih _).trans (rest_completeJob ..)

@[simp] theorem rest_leaveAttention (i : Index) : rest (leaveAttention i s) = rest s := by
  simp only [leaveAttention]
  repeat' split
  all_goals simp

@[simp] theorem rest_joinAttention (i : Index) : rest (joinAttention i s) = rest s := by
  simp only [joinAttention]
  repeat' split
  all_goals simp

@[simp] theorem rest_attentionToTail (i : Index) : rest (attentionToTail i s) = rest s := by
  simp only [attentionToTail]
  repeat' split
  all_goals simp

@[simp] theorem rest_setToggle (x : Exchange) (form : EndForm) : rest (setToggle x form s) = rest s := by
  simp only [setToggle]
  repeat' split
  all_goals simp

@[simp] theorem rest_handOutcome (x : Exchange) (form : EndForm) : rest (handOutcome x form s) = rest s := by
  simp only [handOutcome, handClass, goodOutcome, failedOutcome, missOutcome, silentOutcome, goOffline]
  repeat' split
  all_goals simp

@[simp] theorem rest_statusReport (i : Index) (o : XOrigin) (e : Entry) (r : Reply) : rest (statusReport i o e r s) = rest s := by
  simp only [statusReport]
  repeat' split
  all_goals simp

@[simp] theorem rest_statusRule (i : Index) (o : XOrigin) (r : Reply) : rest (statusRule i o r s) = rest s := by
  simp only [statusRule]
  repeat' split
  all_goals simp

@[simp] theorem rest_handStatus (x : Exchange) (form : EndForm) : rest (handStatus x form s) = rest s := by
  simp only [handStatus, handReply]
  repeat' split
  all_goals simp

@[simp] theorem rest_endJob (g : Seg) (h : Handle) (x : Exchange) (form : EndForm) : rest (endJob g h x form s) = rest s := by
  simp only [endJob, busyJob, endByReply, returnToLane]
  repeat' split
  all_goals simp

@[simp] theorem rest_endProbe (g : Seg) (form : EndForm) : rest (endProbe g form s) = rest s := by
  simp only [endProbe, probeOutcome, holdFind, unclearFind]
  repeat' split
  all_goals simp

@[simp] theorem rest_handOrigin (g : Seg) (x : Exchange) (form : EndForm) : rest (handOrigin g x form s) = rest s := by
  simp only [handOrigin, endSweepStep, endFollowUp]
  repeat' split
  all_goals simp

@[simp] theorem rest_freeRetiring (x : Exchange) : rest (freeRetiring x s) = rest s := by
  simp only [freeRetiring]
  repeat' split
  all_goals simp

@[simp] theorem rest_segmentFreed (g : Seg) (f : Option SegFault) : rest (segmentFreed g f s) = rest s := by
  simp only [segmentFreed, enterFaulted, endDrain]
  repeat' split
  all_goals simp

@[simp] theorem rest_endExchange (g : Seg) (x : Exchange) (form : EndForm) (f : Option SegFault) :
    rest (endExchange g x form f s) = rest s := by
  simp [endExchange]

@[simp] theorem rest_noteFailure (x : Exchange) (k : FailKind) : rest (noteFailure x k s) = rest s := by
  simp only [noteFailure]
  repeat' split
  all_goals simp

@[simp] theorem rest_failAttempt (g : Seg) (x : Exchange) (k : FailKind) : rest (failAttempt g x k s) = rest s := by
  simp only [failAttempt, attemptAgain, attemptsSpent]
  repeat' split
  all_goals simp

@[simp] theorem rest_failNoReply (g : Seg) (x : Exchange) : rest (failNoReply g x s) = rest s := by
  simp only [failNoReply]
  simp

@[simp] theorem rest_failReply (g : Seg) (x : Exchange) (k : FailKind) : rest (failReply g x k s) = rest s := by
  simp only [failReply]
  simp

@[simp] theorem rest_contend (g : Seg) (x : Exchange) : rest (contend g x s) = rest s := by
  simp only [contend]
  simp

@[simp] theorem rest_validReply (g : Seg) (x : Exchange) (r : Reply) : rest (validReply g x r s) = rest s := by
  simp only [validReply, preludeSuccess, endWithReply]
  repeat' split
  all_goals simp

@[simp] theorem rest_evaluate (g : Seg) (x : Exchange) (chars : List Byte) : rest (evaluate g x chars s) = rest s := by
  simp only [evaluate, staleReply]
  repeat' split
  all_goals simp

@[simp] theorem rest_strayItem (g : Seg) (item : Item) : rest (strayItem g item s) = rest s := by
  simp only [strayItem]
  repeat' split
  all_goals simp

@[simp] theorem rest_handItem (g : Seg) (item : Item) : rest (handItem g item s) = rest s := by
  simp only [handItem, echoCheck, itemWhenQuiet, replySof, receiveInReply]
  repeat' split
  all_goals simp

@[simp] theorem rest_releaseDir (g : Seg) : rest (releaseDir g s) = rest s := by
  simp only [releaseDir]
  repeat' split
  all_goals simp

@[simp] theorem rest_sweepDue (g : Seg) : rest (sweepDue g s) = rest s := by
  simp only [sweepDue]
  repeat' split
  all_goals simp

@[simp] theorem rest_endBackoff (h : Handle) (j : Job) : rest (endBackoff h j s) = rest s := by
  simp only [endBackoff]
  simp

@[simp] theorem rest_lapseFind (g : Seg) : rest (lapseFind g s) = rest s := by
  simp only [lapseFind]
  simp

@[simp] theorem rest_breakOver (g : Seg) : rest (breakOver g s) = rest s := by
  simp only [breakOver]
  simp

end

end Sys2Proof.Machine
end

