-- ==== Sys2Proof/Laws/Completions.lean ====
section
/-! SUPPORT. All that the completion of one job, or of several jobs of one segment, can do (R38). -/

namespace Sys2Proof.Machine

section
variable {s : State}

/-- A live job completes. -/
theorem completeJob_completes {h : Handle} {j : Job} (e : s.job h = some j) (o : JobOutcome)
    (d : List Byte) : CompletesJob h j o d s (completeJob h o d s) := by
  rw [completeJob_live e]
  refine ⟨by simp, fun k n => ?_, rfl, ?_, fun k n => ?_, rfl⟩
  · rw [job_setJob, if_neg n]; rfl
  · rw [setJob_seg, seg_updSeg_same]; rfl
  · rw [setJob_seg, seg_updSeg_other n]; rfl

/-- What the completion of some jobs of one segment, in order, leaves. -/
structure CompletesAll (hs : List Handle) (g : Seg) (o : JobOutcome) (s t : State) : Prop where
  job          : ∀ k, t.job k = if k ∈ hs then none else s.job k
  segs         : SameOthers g s t
  holders      : t.seg g = { s.seg g with
    urgent := (s.seg g).urgent.filter (· ∉ hs)
    normal := (s.seg g).normal.filter (· ∉ hs)
    waitSet := (s.seg g).waitSet.filter (· ∉ hs) }
  table        : t.table = s.table
  bodies       : t.queue.reports.map (·.body) = s.queue.reports.map (·.body)
    ++ hs.filterMap fun h => (s.job h).map fun j => resultOf j o []
  reservations : t.queue.reservations = s.queue.reservations - hs.length
  lost         : t.queue.lostEvents = s.queue.lostEvents
  reEdge       : t.queue.reEdge = s.queue.reEdge
  outside      : SameOutside s t

theorem completeJobs_completes (g : Seg) (o : JobOutcome) (hs : List Handle) (nd : hs.Nodup)
    (live : ∀ h ∈ hs, ∃ j, s.job h = some j ∧ j.seg = g) : CompletesAll hs g o s (completeJobs hs o s) := by
  induction hs generalizing s with
  | nil =>
    refine ⟨fun k => by simp [completeJobs], fun _ _ => rfl, ?_, rfl, by simp [completeJobs],
      by simp [completeJobs], rfl, rfl, rfl, rfl, rfl⟩
    have : completeJobs [] o s = s := rfl
    rw [this]; cases s.seg g; simp
  | cons h hs ih =>
    obtain ⟨j, e, rfl⟩ := live h List.mem_cons_self
    have C := completeJob_completes e o []
    have nh : h ∉ hs := (List.nodup_cons.1 nd).1
    have I := ih (s := completeJob h o [] s) (List.nodup_cons.1 nd).2 fun k m => by
      obtain ⟨i, hi, q⟩ := live k (List.mem_cons_of_mem _ m)
      exact ⟨i, by rw [C.others k fun c => nh (c ▸ m)]; exact hi, q⟩
    have st : completeJobs (h :: hs) o s = completeJobs hs o (completeJob h o [] s) := rfl
    rw [st]
    refine ⟨fun k => ?_, fun k n => (I.segs k n).trans (C.segs k n), ?_, I.table.trans C.table, ?_, ?_, ?_, ?_,
      rest_eq (by simp)⟩
    · rw [I.job k]
      rcases eq_or_ne k h with rfl | c
      · simp [C.freed]
      · simp [c, C.others k c]
    · rw [I.holders, C.holders]
      have f (l : List Handle) : (l.filter (· != h)).filter (· ∉ hs) = l.filter (· ∉ h :: hs) := by
        rw [List.filter_filter]
        refine List.filter_congr fun k _ => ?_
        by_cases c : k = h <;> simp [c]
      simp only [f]
    · rw [I.bodies, C.queue]
      simp only [List.map_append, List.map_cons, List.map_nil, List.append_assoc, List.filterMap_cons, e,
        Option.map_some, List.cons_append, List.nil_append]
      congr 2
      refine List.filterMap_congr fun k m => ?_
      rw [C.others k fun c => nh (c ▸ m)]
    · rw [I.reservations, C.queue, List.length_cons]; simp only; omega
    · rw [I.lost, C.queue]
    · rw [I.reEdge, C.queue]

/-! ## The jobs of a segment -/

theorem Spots.Good.afterTake (G : (spots s).Good) (f : HostFrame) : (spots (afterTake f s)).Good := by
  unfold Machine.afterTake
  refine Spots.Good.takeFrame ?_ f
  unfold State.raiseCsn; rw [spots_updLink, spots_elapse]; exact G

/-- The order of R45 holds each job of the segment once. -/
theorem abort_nodup (G : (spots s).Good) (g : Seg) :
    (activeJob (s.seg g) ++ (s.seg g).urgent ++ (s.seg g).normal ++ (s.seg g).waitSet).Nodup := by
  have n (p : Place) : ((s.seg g).standing p).Nodup := G.once g p
  have d (p q : Place) (pq : p ≠ q) : List.Disjoint ((s.seg g).standing p) ((s.seg g).standing q) := by
    intro h m1 m2
    obtain ⟨x, hx, -, h2⟩ := (G.here g p h).1 m1
    obtain ⟨y, hy, -, h3⟩ := (G.here g q h).1 m2
    rw [hx] at hy; injection hy with hy; subst hy; exact pq (h2.symm.trans h3)
  simp only [List.nodup_append', List.disjoint_append_left]
  exact ⟨⟨⟨n .active, n .urgent, d .active .urgent (by simp)⟩, n .normal, d .active .normal (by simp),
    d .urgent .normal (by simp)⟩, n .waiting, ⟨d .active .waiting (by simp), d .urgent .waiting (by simp)⟩,
    d .normal .waiting (by simp)⟩

/-- The order of R45 holds the jobs of the segment and no others. -/
theorem abort_mem (G : (spots s).Good) (g : Seg) (h : Handle) :
    h ∈ activeJob (s.seg g) ++ (s.seg g).urgent ++ (s.seg g).normal ++ (s.seg g).waitSet
      ↔ ∃ j, s.job h = some j ∧ j.seg = g := by
  have f (p : Place) : h ∈ (s.seg g).standing p ↔ ∃ j, s.job h = some j ∧ j.seg = g ∧ j.place = p :=
    (((spots_good s).1 G).1 g p).2 h
  simp only [List.mem_append]
  have a := f .active; have b := f .urgent; have c := f .normal; have d := f .waiting
  simp only [Column.standing] at a b c d
  rw [a, b, c, d]
  constructor
  · rintro (((⟨j, h1, h2, -⟩ | ⟨j, h1, h2, -⟩) | ⟨j, h1, h2, -⟩) | ⟨j, h1, h2, -⟩) <;> exact ⟨j, h1, h2⟩
  · rintro ⟨j, h1, h2⟩
    cases e : j.place
    · exact .inl (.inl (.inr ⟨j, h1, h2, e⟩))
    · exact .inl (.inr ⟨j, h1, h2, e⟩)
    · exact .inr ⟨j, h1, h2, e⟩
    · exact .inl (.inl (.inl ⟨j, h1, h2, e⟩))

end

end Sys2Proof.Machine
end

