-- ==== Sys2Proof/Laws/LookUps.lean ====
section
/-! SUPPORT. What the look-ups of the station table and the job pool find. -/

namespace Sys2Proof.Machine

theorem find_finRange {n : Nat} {p : Fin n → Bool} {i : Fin n} (h : p i = true)
    (l : ∀ k, k < i → p k = false) : (List.finRange n).find? p = some i := by
  rw [List.find?_eq_some_iff_getElem]
  refine ⟨h, i.val, by simp, by simp, fun j hj => ?_⟩
  simpa using l ⟨j, by omega⟩ hj

section
variable {s : State} {g : Seg} {a : Nat} {i : Index} {e : Entry}

theorem findEntry_of (T : TableLaw s) (h : s.entry i = some e) (hs : e.seg = g) (ha : e.addr = a) :
    findEntry s g a = some i := by
  refine find_finRange (by simp [h, hs, ha]) fun k l => ?_
  cases q : s.entry k with
  | none => rfl
  | some x =>
    by_contra c
    simp only [Bool.not_eq_false, Bool.and_eq_true, beq_iff_eq] at c
    exact absurd (T.2 k i x e q h (c.1.trans hs.symm) (c.2.trans ha.symm)) (ne_of_lt l)

theorem findEntry_some_iff : (∃ i, findEntry s g a = some i)
    ↔ ∃ i e, s.entry i = some e ∧ e.seg = g ∧ e.addr = a := by
  constructor
  · rintro ⟨i, h⟩
    have := List.find?_some h
    cases q : s.entry i with
    | none => simp [q] at this
    | some e => simp [q] at this; exact ⟨i, e, q, this⟩
  · rintro ⟨i, e, q, h1, h2⟩
    cases k : findEntry s g a with
    | some m => exact ⟨m, rfl⟩
    | none =>
      have := List.find?_eq_none.1 k i (List.mem_finRange i)
      simp [q, h1, h2] at this

theorem findEntry_none_of (h : ∀ i e, s.entry i = some e → ¬(e.seg = g ∧ e.addr = a)) :
    findEntry s g a = none := by
  cases k : findEntry s g a with
  | none => rfl
  | some i =>
    obtain ⟨i, e, q, r⟩ := findEntry_some_iff.1 ⟨i, k⟩
    exact absurd r (h i e q)

theorem findEntry_isSome_iff : (findEntry s g a).isSome = true
    ↔ ∃ i e, s.entry i = some e ∧ e.seg = g ∧ e.addr = a := by
  rw [Option.isSome_iff_exists]; exact findEntry_some_iff

theorem entryAt_of (T : TableLaw s) (h : s.entry i = some e) (hs : e.seg = g) (ha : e.addr = a) :
    entryAt s g a = some (i, e) := by
  unfold entryAt; rw [findEntry_of T h hs ha]; simp [h]

theorem entryAt_none_of (h : ∀ i e, s.entry i = some e → ¬(e.seg = g ∧ e.addr = a)) :
    entryAt s g a = none := by
  unfold entryAt; rw [findEntry_none_of h]; rfl

theorem workingEntryAt_of (T : TableLaw s) (h : s.entry i = some e) (hs : e.seg = g) (ha : e.addr = a)
    (r : e.state ≠ .retiring) : workingEntryAt s g a = some (i, e) := by
  unfold workingEntryAt; rw [entryAt_of T h hs ha]; simp [Option.filter, r]

theorem workingEntryAt_none_of
    (h : ∀ i e, s.entry i = some e → e.seg = g → e.addr = a → e.state = .retiring) :
    workingEntryAt s g a = none := by
  unfold workingEntryAt
  cases q : entryAt s g a with
  | none => rfl
  | some p =>
    obtain ⟨i, e⟩ := p
    have k := entryAt_some q
    have f := List.find?_some k.2
    simp only [k.1, Bool.and_eq_true, beq_iff_eq] at f
    simp [Option.filter, h i e k.1 f.1 f.2]

theorem lowestFreeIndex_of (h : s.entry i = none) (l : ∀ k, k < i → (s.entry k).isSome = true) :
    lowestFreeIndex s = some i :=
  find_finRange (by simp [h]) fun k lt => by simpa [Option.isSome_iff_ne_none] using l k lt

theorem lowestFreeIndex_full (h : ∀ i, (s.entry i).isSome = true) : lowestFreeIndex s = none := by
  unfold lowestFreeIndex
  rw [List.find?_eq_none]
  intro i _; simpa [Option.isSome_iff_ne_none] using h i

theorem lowestFreeJob_of {h : Handle} (e : s.job h = none) (l : ∀ k, k < h → (s.job k).isSome = true) :
    lowestFreeJob s = some h :=
  find_finRange (by simp [e]) fun k lt => by simpa [Option.isSome_iff_ne_none] using l k lt

theorem lowestFreeJob_full (h : ∀ i, (s.job i).isSome = true) : lowestFreeJob s = none := by
  unfold lowestFreeJob
  rw [List.find?_eq_none]
  intro i _; simpa [Option.isSome_iff_ne_none] using h i

theorem findTag_of (T : TagLaw s) {h : Handle} {j : Job} (e : s.job h = some j) :
    findTag s j.tag = some h := by
  refine find_finRange (by simp [e]) fun k l => ?_
  cases q : s.job k with
  | none => rfl
  | some x =>
    by_contra c
    simp only [Bool.not_eq_false, beq_iff_eq] at c
    exact absurd (T.2 k h x j q e c) (ne_of_lt l)

theorem findTag_none_of {t : BitVec 16} (h : ∀ i j, s.job i = some j → j.tag ≠ t) : findTag s t = none := by
  unfold findTag
  rw [List.find?_eq_none]
  intro k _
  cases q : s.job k with
  | none => simp
  | some x => simpa using h k x q

end

/-- The table and the jobs' tags after the acknowledgement. -/
theorem afterTake_table (f : HostFrame) (s : State) : (afterTake f s).table = s.table := by
  unfold afterTake takeFrame applyAck
  split
  · simp [countTaken, State.raiseCsn]
  · split
    · rw [(serveWaitRoom_frame _).1]; simp [countTaken, State.raiseCsn]
    · simp [countTaken, State.raiseCsn]

theorem TableLaw.afterTake {s : State} (T : TableLaw s) (f : HostFrame) : TableLaw (afterTake f s) := by
  unfold TableLaw State.entry at *
  rw [afterTake_table]; exact T

end Sys2Proof.Machine
end

