-- ==== Sys2Proof/Laws/StartBits.lean ====
section
/-! SUPPORT. Which formats a start bit can have, by the changes of the configuration since its fall. -/

namespace Sys2Proof.Machine

/-- No format but those before and after the changes. -/
theorem mem_halvesAt {since x : Time} : ∀ {half : Time} {changes : List FormatChange},
    x ∈ halvesAt since half changes → x = half ∨ ∃ f ∈ changes, x = f.half
  | half, [], h => by simpa [halvesAt] using h
  | half, f :: rest, h => by
    simp only [halvesAt, List.mem_append] at h
    rcases h with h | h
    · split at h <;> simp_all
    · split at h
      · rcases mem_halvesAt h with rfl | ⟨k, m, rfl⟩
        · exact .inr ⟨f, by simp, rfl⟩
        · exact .inr ⟨k, by simp [m], rfl⟩
      · simp at h

/-- After every change, the format is that in force now. -/
theorem half_mem_halvesAt {since half : Time} {changes : List FormatChange} (h : ∀ f ∈ changes, since ≤ f.age) :
    half ∈ halvesAt since half changes := by
  cases changes with
  | nil => simp [halvesAt]
  | cons f rest => simp [halvesAt, h f (by simp)]

/-- Between two changes, the format is that which the later of them replaced. -/
theorem former_mem_halvesAt {since : Time} {f : FormatChange} {older : List FormatChange} (e : f.age ≤ since)
    (o : ∀ k ∈ older, since ≤ k.age) : ∀ {half : Time} {later : List FormatChange}, (∀ k ∈ later, k.age ≤ since) →
    f.half ∈ halvesAt since half (later ++ f :: older)
  | half, [], _ => by simp [halvesAt, e, half_mem_halvesAt o]
  | half, k :: later, l => by
    have := former_mem_halvesAt e o (half := k.half) (later := later) fun m h => l m (by simp [h])
    simp [halvesAt, l k (by simp), this]

end Sys2Proof.Machine
end

