-- ==== Sys2Proof/Tests/Slice0.lean ====
section
/-! SUPPORT. Our own tests: the well-formedness smoke, words and frames written out from the manual's tables,
one or two tests for each command, and for each statement with hypotheses a state and operands that meet
them. Expected values come from the manual's rules and examples. -/

namespace Sys2Proof.Tests

open Sys2Proof.Machine

set_option Elab.async false

/-! ## Helpers -/

/-- The state after a command. -/
def after (c : Instr) (s : State) : State :=
  match exec c s with
  | .next t => t
  | _ => s

/-- A host frame with tag 0x0102 and no acknowledgement, 10 µs after the happening before it. -/
def frame (body : List Nat) : HostFrame := ⟨micros 10, 0x0102#16, 0x00#8, body.map byte⟩

/-- The outcome in the answer slot. -/
def outcome (s : State) : Option AnsOutcome := s.link.slot.map (·.outcome)

/-- The answer data in the slot. -/
def answer (s : State) : List Byte := slotData s

/-- The reset state with a change to one segment. -/
def at_ (g : Seg) (f : Column → Column) : State := State.reset.updSeg g f

/-- A SYNCED entry with 3 ports. -/
def station (g : Seg) (a : Nat) (st : StationState) : Entry :=
  ⟨g, a, 3, .cyclic, st, 0, 0, false, .synced, false, none, none, .added, 0⟩

/-- A job with tag 0x0777 to address 5 of segment 1. -/
def job (k : JobKind) (st : JobState) : Job :=
  ⟨0x0777#16, 1, 5, 0, k, .normal, none, [], st, 0, 0, false, false, none, none, none⟩

/-- An exchange of segment 1 with the entry at index 0. -/
def exchange (o : XOrigin) (k : MasterKind) (p : Phase) : Exchange :=
  ⟨o, some 0, 5, 0, .main, k, true, false, 1, 3, p, true, millis 50, true, [], none⟩

/-- Segment 1 RUNNING, with a station at address 5 in entry 0 and nothing to do. -/
def plant (st : StationState) : State :=
  (at_ 1 fun c => { c with state := .running }).setEntry 0 (some (station 1 5 st))

/-- The plant with a STATUS exchange of the sweep with its station, in a phase. -/
def polling (p : Phase) : State :=
  (plant .online).updSeg 1 fun c => { c with exchange := some (exchange .sweep .status p) }

/-- The plant with a READ job in record 0 and its exchange, in a phase. -/
def reading (p : Phase) : State :=
  ((plant .online).setJob 0 (some { job .read .active with started := true })).updSeg 1 fun c =>
    { c with exchange := some (exchange (.job 0) .read p) }

/-- The plant with its transmitter in a state. -/
def sending (t : Tx) (s : State) : State := s.updLine 1 fun l => { l with tx := t }

/-- The plant with a run of its discovery unit. -/
def unit (st : DiscState) (r : Option Admission) (m : Option ProbeMark) : State :=
  ((plant .online).updSeg 1 fun c => { c with disc := ⟨st, 5, 9, 6, ⟨2, 1, 0, 0, 0, 0⟩, r, m⟩ }).updQueue
    fun q => { q with reservations := if st = .probing then 1 else 0 }

/-! ## Ill-formed commands are refused -/

/-- R171: a frame that passes every check is no ignored frame; one too short is. -/
theorem test_wellformed_ignored :
    (Instr.hostFrameIgnored 0 (spiBits (hostFrameBytes 0x00#8 0#16 0#8 []))).wellFormed = false
      ∧ (Instr.hostFrameIgnored 0 []).wellFormed = true := by decide +kernel

/-- R173: START's code is no unknown code; 0x7F is, but not with tag 0 or a body of 81 bytes. -/
theorem test_wellformed_unknown :
    (Instr.unknownRequest 0x11#8 (frame [])).wellFormed = false
      ∧ (Instr.unknownRequest 0x7F#8 (frame [])).wellFormed = true
      ∧ (Instr.unknownRequest 0x7F#8 { frame [] with tag := 0#16 }).wellFormed = false
      ∧ (Instr.unknownRequest 0x7F#8 (frame (List.replicate 81 0))).wellFormed = false := by decide

/-- R171, R176: NOP takes tag 0 and 80 bytes, but not 81. -/
theorem test_wellformed_nop :
    (Instr.nop { frame (List.replicate 80 0) with tag := 0#16 }).wellFormed = true
      ∧ (Instr.nop (frame (List.replicate 81 0))).wellFormed = false := by decide

/-- The requests other than NOP. -/
def requests : List (HostFrame → Instr) :=
  [.sync, .restart, .queryDevice, .configureSegment, .start, .stop, .resume, .resetSegment, .querySegment,
    .queryCounters, .addStation, .removeStation, .reviveStation, .setClass, .queryStation, .listStations]
  ++ [.submit, .cancel, .queryJob, .discover, .stopDiscovery, .admitFind, .refuseFind]

/-- R171: no other request has tag 0 or 81 bytes of body; each may have 80. -/
theorem test_wellformed_requests :
    requests.all (fun r => !(r { frame [] with tag := 0#16 }).wellFormed
      && !(r (frame (List.replicate 81 0))).wellFormed
      && (r (frame (List.replicate 80 0))).wellFormed) = true := by decide

/-- R144: a break leaves the line at space. -/
theorem test_wellformed_break :
    (Instr.receivedItem 0 0 .brk false).wellFormed = false
      ∧ (Instr.receivedItem 0 0 .brk true).wellFormed = true := by decide

/-! ## Frames and characters -/

/-- R182's own check value. -/
theorem test_crc :
    crc16 [0x31#8, 0x32#8, 0x33#8, 0x34#8, 0x35#8, 0x36#8, 0x37#8, 0x38#8, 0x39#8] = 0x29B1#16 := by
  decide +kernel

/-- R167: the marker 0xA7 on the wire, most significant bit first; three bits more make up no byte. -/
theorem test_spi_bits :
    spiBits [0xA7#8] = [true, false, true, false, false, true, true, true]
      ∧ bytesOfBits [true, false, true, false, false, true, true, true, true, false, true] = [0xA7#8] := by decide

/-- Section 11.1: START of segment 2 with tag 0x0102 and acknowledgement 7, its CRC reckoned by hand. -/
theorem test_start_bytes :
    commandOfWindow 0 (spiBits [0xA7#8, 0x11#8, 0x01#8, 0x02#8, 0x07#8, 0x01#8, 0x02#8, 0xA3#8, 0x7B#8])
      = .start ⟨0, 0x0102#16, 0x07#8, [0x02#8]⟩ := by decide +kernel

/-- The part frame after a reset: a report present, HELLO of two bytes with number 1, an empty slot, 48 free
records, 63 free places, 1 report, its body. -/
theorem test_part_frame :
    buildPartFrame State.reset
      = [0x5C#8, 0x01#8, 0x01#8, 0x01#8, 0x02#8, 0x00#8, 0x00#8, 0x00#8, 0x00#8, 0x00#8, 0x00#8, 0x30#8,
        0x3F#8, 0x01#8, 0x01#8, 0x11#8, 0x30#8, 0x93#8] := by decide +kernel

/-- A STATUS frame to address 5 with toggle 1 and the resync flag (R127, R128). -/
theorem test_status_frame :
    masterFrame { exchange .sweep .status .send with resync := true } []
      = [0xD5#8, 0x05#8, 0x33#8, 0x00#8, 0x00#8, 0xA4#8, 0x70#8] := by decide +kernel

/-- R140: 0xA7 at 8E1 is a start bit, 1 1 1 0 0 1 0 1, even parity 1 and a stop bit. -/
theorem test_character :
    charLevels { SegConfig.default with parity := .even } 0xA7#8
      = [false, true, true, true, false, false, true, false, true, true, true] := by decide

/-- A reply to the READ of section 7.6: address 20, toggle 1. -/
def reply (addr : Nat) (k : ReplyKind) (toggle : Bool) (n : Nat) : List Byte :=
  frameAfterSof addr (ctrlByte k.code toggle false) 1 (List.replicate n 0x2A#8)

/-- The rows of section 7.6's table. -/
theorem test_classify_examples :
    classify 20 .read true (reply 20 .data true 4) = .valid ⟨.data, List.replicate 4 0x2A#8, false⟩
      ∧ classify 20 .read true (reply 20 .data false 4) = .stale
      ∧ classify 20 .read true ((reply 20 .data false 4).set 9 0x00#8) = .fault .crcError
      ∧ classify 20 .read true (reply 21 .data true 4) = .fault .wrongStation
      ∧ classify 20 .read true (reply 20 .done true 0) = .fault .badKind
      ∧ classify 20 .read true (reply 20 .refuse true 2) = .fault .badLength
      ∧ classify 20 .read true (frameAfterSof 20 0x49#8 1 (List.replicate 4 0x2A#8)) = .stale
      ∧ classify 20 .read true (frameAfterSof 20 0x59#8 1 (List.replicate 4 0x2A#8)) = .fault .badKind := by
  decide +kernel

/-- R135: a LEN of 80 fails at its character, and the PORT character with a bad stop bit at once. -/
theorem test_assemble_examples :
    assemble [0x14#8, 0x19#8, 0x01#8] (.good 80#8) = .fault .badLength
      ∧ assemble [0x14#8, 0x19#8] (.erroneous 0x01#8) = .fault .charError := by decide

/-! ## The host link's commands -/

/-- R168: the window of a fall 4 µs after the release is served, an earlier one is ignored. -/
theorem test_csn_fall :
    sdoByte (after (.csnFall (micros 4)) State.reset) 0 = some 0x5C#8
      ∧ (after (.csnFall (micros 4 - 1)) State.reset).link.window = .ignored := by decide +kernel

/-- R171, R172: five bytes and seven bits are too few for a frame. R168: less than 4 µs after the release the
window is not counted at all. -/
theorem test_ignored_frame :
    let bits := spiBits [0xA7#8, 0x11#8, 0x00#8, 0x01#8, 0x00#8] ++ List.replicate 7 true
    (after (.hostFrameIgnored (micros 4) bits) State.reset).link.truncated = 1
      ∧ (after (.hostFrameIgnored (micros 4 - 1) bits) State.reset).link.truncated = 0 := by decide +kernel

theorem test_unknown_request :
    outcome (after (.unknownRequest 0x7F#8 (frame [])) State.reset) = some .unknownRequest := by decide

/-- R161: an acknowledgement of HELLO empties the queue, and one of another number does not. -/
theorem test_nop :
    (after (.nop { frame [] with ack := 0x01#8 }) State.reset).queue.reports = []
      ∧ (after (.nop { frame [] with ack := 0x02#8 }) State.reset).queue.reports.length = 1 := by decide

/-- R177: the answer tells the empty slot. -/
theorem test_sync : answer (after (.sync (frame [])) State.reset) = [0x00#8, 0x00#8, 0x00#8] := by decide

/-- R178, R20, R21: a warm restart keeps the entry, ENLISTED, and a cold one does not. -/
theorem test_restart :
    ((after (.restart (frame [2])) (plant .silent)).entry 0).map (·.state) = some .enlisted
      ∧ (after (.restart (frame [1])) (plant .silent)).entry 0 = none := by decide

/-- R179: after a reset only HELLO is queued, and this frame is the first that is taken. -/
theorem test_query_device :
    answer (after (.queryDevice (frame [0])) State.reset)
      = [0x11#8, 0x00#8, 0x01#8, 0x00#8, 0x00#8, 0x00#8, 0x00#8, 0x00#8, 0x01#8, 0x00#8, 0x00#8, 0x00#8,
        0x00#8, 0x00#8, 0x00#8, 0x00#8, 0x00#8] := by decide

/-! ## The requests on a segment -/

/-- A record of segment 3 with retry limit 1, as it stands in a body (section 11.3). -/
def configBody (retries deferLimit : Nat) : HostFrame :=
  frame [3, 2, 0, 1, 0, 2, 0, 50, 3, 4, retries, 4, 0, 20, 3, 20, 0, 0, 4, deferLimit / 256, deferLimit, 15]

/-- R80, R81. -/
theorem test_configure :
    ((after (.configureSegment (configBody 1 500)) State.reset).seg 3).config.retryLimit = 1
      ∧ answer (after (.configureSegment (configBody 8 500)) State.reset) = [9#8] := by decide +kernel

/-- R74. -/
theorem test_start : answer (after (.start (frame [2])) State.reset) = [1#8, 2#8] := by decide

/-- R75: a segment with an exchange drains. -/
theorem test_stop : ((after (.stop (frame [1])) (polling .await)).seg 1).state = .draining := by decide

/-- R76. -/
theorem test_resume :
    ((after (.resume (frame [1])) (at_ 1 fun c => { c with state := .faulted, streak := 4 })).seg 1).streak = 0
      ∧ answer (after (.resume (frame [1])) State.reset) = [1#8] := by decide

/-- R78, R45: the job in flight ends ABORTED. -/
theorem test_reset_segment :
    answer (after (.resetSegment (frame [1])) (reading .await)) = [2#8, 1#8]
      ∧ (after (.resetSegment (frame [1])) (reading .await)).job 0 = none := by decide

/-- R92: a RUNNING segment with a JOB exchange, and the sixth of its configuration items. -/
theorem test_query_segment :
    (answer (after (.querySegment (frame [1])) (reading .await))).take 2 = [2#8, 1#8] := by decide

/-- R93. -/
theorem test_query_counters :
    outcome (after (.queryCounters (frame [1, 2])) State.reset) = some .badValue := by decide

/-! ## The requests on a station -/

/-- R14, R2. -/
theorem test_add_station :
    ((after (.addStation (frame [1, 126, 8, 1])) State.reset).entry 0).map (·.state) = some .enlisted
      ∧ outcome (after (.addStation (frame [1, 127, 8, 1])) State.reset) = some .badValue := by decide +kernel

/-- R15: an entry that an exchange names becomes RETIRING. -/
theorem test_remove_station :
    ((after (.removeStation (frame [1, 5])) (polling .await)).entry 0).map (·.state) = some .retiring
      ∧ (after (.removeStation (frame [1, 5])) (plant .online)).entry 0 = none := by decide +kernel

/-- R16. -/
theorem test_revive_station :
    ((after (.reviveStation (frame [1, 5])) (plant .offline)).entry 0).map (·.state) = some .enlisted := by
  decide +kernel

/-- R17: the answer carries the old class. -/
theorem test_set_class : answer (after (.setClass (frame [1, 5, 0])) (plant .online)) = [1#8] := by
  decide +kernel

/-- R18: fifteen bytes of an entry without status and identity. -/
theorem test_query_station :
    answer (after (.queryStation (frame [1, 5])) (plant .online))
      = [0#8, 1#8, 5#8, 3#8, 1#8, 2#8, 0#8, 0#8, 0#8, 0#8, 0#8, 0#8, 0#8, 0#8, 0#8] := by decide +kernel

/-- R19: index, address, and ONLINE with CYCLIC. -/
theorem test_list_stations :
    answer (after (.listStations (frame [1, 1])) (plant .online)) = [0#8, 5#8, 0x0A#8] := by decide +kernel

/-! ## The requests on jobs -/

/-- R28, R29: the first job takes handle 0 at position 1; a port that the station lacks is refused. -/
theorem test_submit :
    answer (after (.submit (frame [1, 5, 2, 1, 1, 0, 0, 0])) ((plant .online).updSeg 1 fun c =>
        { c with state := .halted })) = [0#8, 1#8]
      ∧ outcome (after (.submit (frame [1, 5, 3, 1, 1, 0, 0, 0])) (plant .online)) = some .badPort := by
  decide +kernel

/-- R41: an ACTIVE job is not taken back. -/
theorem test_cancel :
    outcome (after (.cancel (frame [7, 0x77])) (reading .await)) = some .cancelLate
      ∧ outcome (after (.cancel (frame [7, 0x78])) (reading .await)) = some .notFound := by decide +kernel

/-- R42: handle 0, segment 1, READ, NORMAL, ACTIVE, no attempt, no BUSY, no position, started. -/
theorem test_query_job :
    answer (after (.queryJob (frame [7, 0x77])) (reading .await))
      = [0#8, 1#8, 1#8, 1#8, 3#8, 0#8, 0#8, 0#8, 1#8, 0#8] := by decide +kernel

/-! ## The requests on a discovery unit -/

/-- R112, R113: address 5 has an entry, so 6 is probed. -/
theorem test_discover :
    (((after (.discover (frame [1, 5, 9])) (plant .online)).seg 1).exchange.map (·.addr)) = some 6 := by
  decide +kernel

/-- R124: the old state and the six counts. -/
theorem test_stop_discovery :
    answer (after (.stopDiscovery (frame [1])) (unit .held (some ⟨6, none, 0⟩) none))
      = [3#8, 2#8, 1#8, 0#8, 0#8, 0#8, 0#8] := by decide +kernel

/-- R122: a find without identity is admitted ENLISTED. -/
theorem test_admit :
    answer (after (.admitFind (frame [1, 6, 1, 0])) (unit .held (some ⟨6, none, 0⟩) none)) = [1#8, 1#8]
      ∧ outcome (after (.admitFind (frame [1, 7, 1, 0])) (unit .held (some ⟨6, none, 0⟩) none))
        = some .noAdmission := by decide +kernel

/-- R123, R120: the unit probes on from its cursor. -/
theorem test_refuse :
    ((after (.refuseFind (frame [1, 6])) (unit .held (some ⟨6, none, 0⟩) none)).seg 1).disc.counts.refused = 1
      ∧ ((after (.refuseFind (frame [1, 6])) (unit .held (some ⟨6, none, 0⟩) none)).seg 1).disc.state
        = .probing := by decide +kernel

/-! ## The reset pin -/

/-- R184: a low level just short of 1 µs is ignored. -/
theorem test_rstn_fall :
    (after (.rstnFall 0 (micros 1 - 1)) State.reset).rstnLow = false
      ∧ (after (.rstnFall 0 (micros 1)) State.reset).rstnLow = true := by decide

/-- R184: the cold start. -/
theorem test_rstn_release :
    (after (.rstnRelease 0) (after (.rstnFall 0 (micros 1)) (plant .online))).entry 0 = none := by decide

/-! ## Timers -/

/-- R31: the job ends EXPIRED. -/
theorem test_deadline :
    (after (.deadlineExpiry 0) ((plant .online).setJob 0 (some { job .read .queued with
      deadlineTimer := some 9 }))).queue.reports.map (·.body.kindCode) = [1, 2] := by decide +kernel

/-- R27: the job stands at the head of its lane with attempts 0. -/
theorem test_backoff :
    ((after (.backoffExpiry 0) ((at_ 1 fun c => { c with waitSet := [0], normal := [3] }).setJob 0
      (some { job .read .waiting with backoff := some 9, attempts := 2 }))).seg 1).normal = [0, 3] := by
  decide +kernel

/-- R50, R51: the attempt is counted and its frame begins. -/
theorem test_settle_gap :
    (((after (.settleGapReached 1) ((polling .defer).updX 1 fun x => { x with counted := false })).seg 1).exchange.map
      fun x => (x.phase, x.attempt)) = some (.send, 2) := by decide +kernel

/-- R54, R149: NO_REPLY is counted, and the line has long been idle when the next attempt begins. -/
theorem test_reply_timer :
    ((after (.replyTimerExpiry 1) (polling .await)).seg 1).counters.noReplies = 1
      ∧ (((after (.replyTimerExpiry 1) (polling .await)).seg 1).exchange.map (·.phase)) = some .send := by
  decide +kernel

/-- R55: BROKEN is a reply fault. -/
theorem test_character_gap :
    ((after (.characterGapExpiry 1) ((polling .recv).updX 1 fun x => { x with gapTimer := some 5 })).seg
      1).counters.replyFaults = 1 := by decide +kernel

/-- R57, R88: the segment is FAULTED with cause JABBER. -/
theorem test_defer_timer :
    ((after (.deferTimerExpiry 1) ((polling .defer).updLine 1 fun l => { l with
      deferTimer := some 5 })).seg 1).state = .faulted := by decide +kernel

/-- R104: a pass begins, and its first member is polled. -/
theorem test_sweep_timer :
    ((after (.sweepTimerExpiry 1) ((plant .online).updSweep 1 fun w => { w with timer := some 5 })).seg
      1).sweep.cursor = 5 := by decide +kernel

/-- R119: the find has lapsed. -/
theorem test_admission_timer :
    ((after (.admissionTimerExpiry 1) (unit .held (some ⟨6, none, 7⟩) none)).seg 1).disc.counts.lapsed = 1 := by
  decide +kernel

/-- R163: ATTN is asserted again. -/
theorem test_re_edge :
    attnAsserted (State.reset.updQueue fun q => { q with reEdge := some 5 }) = false
      ∧ attnAsserted (after .reEdgeIntervalEnd (State.reset.updQueue fun q => { q with reEdge := some 5 }))
        = true := by decide

/-! ## Happenings at a line unit -/

/-- R146: an echo that differs begins an abort break and is counted. -/
theorem test_received_item :
    ((after (.receivedItem 0 1 (.good 0x06#8) false) (sending (.frame [0x05#8, 0x07#8] 0 9) (polling .send))).seg
      1).counters.contentions = 1
      ∧ ((after (.receivedItem 0 1 .brk true) (plant .online)).seg 1).counters.breaksSeen = 1 := by decide +kernel

/-- R51: the frame is counted and the guard is held, 2 bit times of 60000 units. -/
theorem test_frame_sent :
    ((after (.frameSentWhole 1) (sending (.frame [0x05#8] 1 9) (polling .send))).seg 1).line.tx
      = .guard 120000 := by decide +kernel

/-- R53: the reply timer runs. -/
theorem test_guard_end :
    (((after (.guardEnd 1) (sending (.guard 9) (polling .turn))).seg 1).exchange.map
      fun x => (x.phase, x.replyLeft)) = some (.await, millis 50) := by decide +kernel

/-- R147, R150: the waiting attempt's defer timer starts with 500 ms. -/
theorem test_break_end :
    ((after (.abortBreakEnd 1) (sending (.brk 9 .highSends) (polling .defer))).seg 1).line.deferTimer
      = some (millis 500) := by decide +kernel

/-- R146. -/
theorem test_no_echo :
    ((after (.characterSentWithoutEcho 1) (sending (.frame [0x05#8] 0 9) (polling .send))).seg 1).streak = 1 := by
  decide +kernel

/-- R144, R55: half a bit time of 60000 units; the character gap timer stops. -/
theorem test_start_bit :
    ((after (.startBitConfirmed ⟨0, 30000⟩ 1) (polling .recv)).seg 1).line.rx = .inChar 30000 := by decide +kernel

/-- Segment 1 with the rate changed from 19200 to 921600 bit/s, 100 units of time ago. -/
def faster : State := at_ 1 fun c =>
  { c with config := { c.config with rate := .r921600 }, line := { c.line with changes := [⟨30000, 100⟩] } }

/-- R140, R144: a start bit that fell before the change is one of 19200 bit/s; one of 921600 bit/s cannot have
fallen yet. -/
theorem test_start_bit_before_a_change :
    ((after (.startBitConfirmed ⟨0, 30000⟩ 1) faster).seg 1).line.rx = .inChar 30000
      ∧ ((after (.startBitConfirmed ⟨0, 625⟩ 1) faster).seg 1).line.rx = .waiting
      ∧ ((after (.startBitConfirmed ⟨525, 625⟩ 1) faster).seg 1).line.rx = .inChar 625 := by decide +kernel

/-- R148. -/
theorem test_line_return :
    ((after (.lineReturnToMark 0 1) ((plant .online).updLine 1 fun l => { l with rx := .atSpace })).seg 1).line.rx
      = .waiting := by decide +kernel

/-! ## The queue of commands -/

theorem test_step :
    step { State.reset with pending := [.start (frame [2]), .reEdgeIntervalEnd] }
      = exec (.start (frame [2])) { State.reset with pending := [.reEdgeIntervalEnd] } := rfl

/-- No word of the table spells a command. -/
theorem test_no_word : decodeTableWord 8 0 = none ∧ State.reset.withFetchWord 8 0 = State.reset := ⟨rfl, rfl⟩

/-! ## States and operands that meet the hypotheses of the statements

Each theorem is named after its statement. Where a statement has several clauses, the conjuncts stand in the
order of its clauses, at a boundary value of each range. -/

theorem witness_StepRunsTheFrontCommand :
    ({ State.reset with pending := [.reEdgeIntervalEnd] } : State).pending = [.reEdgeIntervalEnd]
      ∧ State.reset.pending = [] := ⟨rfl, rfl⟩

theorem witness_EveryCommandCompletes :
    (∀ w h, Instr.guardEnd 1 ≠ .rstnFall w h) ∧ (∀ w, Instr.guardEnd 1 ≠ .rstnRelease w)
      ∧ ofSegmentOrTimer (.guardEnd 1) = true := by simp [ofSegmentOrTimer, csnRiseOf, Instr.request]

/-- RSTN held low. -/
def low : State := after (.rstnFall 0 (micros 1)) State.reset

theorem witness_CsnFallOpensAWindow :
    State.reset.link.window = .closed ∧ low.link.window = .closed ∧ low.rstnLow = true
      ∧ State.reset.rstnLow = false ∧ State.reset.link.gap + 4607 < 4608
      ∧ 4608 ≤ State.reset.link.gap + 4608 := by decide

/-- CSN low in a window of a kind. -/
def inWindow (w : Window) : State := State.reset.updLink fun l => { l with window := w }

theorem witness_UnkeptWindowTakesNothing :
    csnRiseOf (.nop (frame [])) = some (micros 10) ∧ csnRiseOf (.hostFrameIgnored 0 []) = some 0
      ∧ ¬KeptWindow (micros 10) (inWindow .ignored) ∧ ¬KeptWindow (micros 10) (inWindow .noWindow)
      ∧ ¬KeptWindow (micros 10) low ∧ ¬KeptWindow (micros 4 - 1) State.reset := by
  unfold KeptWindow; decide

theorem witness_IgnoredHostFrameIsCounted :
    let long : List Byte := [0xA7#8, 0x11#8, 0#8, 1#8, 0#8, 80#8] ++ List.replicate 81 0#8
    let zero := hostFrameBytes 0x11#8 0#16 0#8 [2#8]
    KeptWindow (micros 4) State.reset ∧ KeptWindow 0 (inWindow (.serving [])) ∧ (List.replicate 7 true).length < 8
      ∧ (List.replicate 5 0#8).length < 6
      ∧ (6 ≤ (List.replicate 6 0#8).length ∧ (List.replicate 6 0#8).getD 0 0#8 ≠ 0xA7#8)
      ∧ (6 ≤ long.length ∧ long.getD 0 0#8 = 0xA7#8 ∧ 80 < byteAt (long.set 5 81#8) 5)
      ∧ (byteAt long 5 ≤ 80 ∧ long.length < 8 + byteAt long 5)
      ∧ (let b := zero.set 7 0#8
        8 + byteAt b 5 ≤ b.length
          ∧ (b.drop (6 + byteAt b 5)).take 2 ≠ crcBytes (b.take (6 + byteAt b 5)))
      ∧ (zero.getD 0 0#8 = 0xA7#8 ∧ byteAt zero 5 ≤ 80 ∧ 8 + byteAt zero 5 ≤ zero.length
        ∧ (zero.drop (6 + byteAt zero 5)).take 2 = crcBytes (zero.take (6 + byteAt zero 5))
        ∧ byteAt zero 2 * 256 + byteAt zero 3 = 0 ∧ zero.getD 1 0#8 ≠ 0x00#8) := by
  unfold KeptWindow; decide +kernel

theorem witness_HostFrameRoundTrip :
    let f := frame (List.replicate 80 7)
    (Instr.submit f).wellFormed = true ∧ (Instr.submit f).request = some (0x30#8, f)
      ∧ (Instr.unknownRequest 0xFF#8 f).wellFormed = true := ⟨by decide, rfl, by decide⟩

/-- The unit of segment 1 waits for room. -/
def waitingRoom : State := unit .waitRoom none none

theorem witness_NopAppliesItsAcknowledgement :
    let f : HostFrame := { frame (List.replicate 80 0) with ack := 1#8 }
    let probing := (({ waitingRoom with
      queue := { waitingRoom.queue with reports := [], reservations := 1 } } : State).updSeg 1 fun c =>
        { c with disc := { c.disc with state := .probing } })
    KeptWindow f.wait State.reset ∧ f.body.length ≤ 80 ∧ (∀ g, (State.reset.seg g).disc.state ≠ .waitRoom)
      ∧ State.reset.queue.reports = [⟨1, .hello .pin 0x11#8⟩] ∧ 1 = f.ack.toNat
      ∧ (KeptWindow f.wait waitingRoom ∧ waitingRoom.queue.reports = [⟨1, .hello .pin 0x11#8⟩]
        ∧ (waitingRoom.seg 1).disc.state = .waitRoom
        ∧ (∀ k, (waitingRoom.seg k).disc.state = .waitRoom → k = 1)
        ∧ waitingRoom.queue.reports.length + waitingRoom.queue.reservations ≤ 64
        ∧ nextProbe probing 1 ≠ none)
      ∧ ∀ r ∈ State.reset.queue.reports.head?, r.number ≠ (frame []).ack.toNat := by
  unfold KeptWindow; decide +kernel

theorem witness_AcknowledgementComesFirst :
    let f := frame (List.replicate 80 0)
    KeptWindow f.wait State.reset ∧ f.body.length ≤ 80 ∧ takenAsRequest (.submit f) = some f
      ∧ (Instr.submit f).wellFormed = true := by unfold KeptWindow; decide

/-- The answer slot holds the tag of our frames. -/
def answered : State := setSlot 0x0102#16 .ok [] State.reset

theorem witness_RepeatIsNotExecuted :
    takenAsRequest (.start (frame [1])) = some (frame [1]) ∧ (Instr.start (frame [1])).wellFormed = true
      ∧ KeptWindow (frame [1]).wait answered ∧ slotTag answered = some (frame [1]).tag := by unfold KeptWindow; decide

theorem witness_LengthAndSegmentAreChecked :
    let seven := frame (List.replicate 7 0)
    let eight := frame (4 :: List.replicate 7 0)
    Taken (frame []) State.reset ∧ Taken seven State.reset ∧ Taken (frame [4]) State.reset
      ∧ Taken eight State.reset
      ∧ (exactLength (.start (frame [])) = some (frame [], 1) ∧ (frame []).body.length ≠ 1)
      ∧ seven.body.length < 8
      ∧ (exactLength (.start (frame [4])) = some (frame [4], 1) ∧ namesSegment (.start (frame [4])) = true
        ∧ (frame [4]).body.length = 1 ∧ 3 < byteAt (frame [4]).body 0)
      ∧ (8 ≤ eight.body.length ∧ 3 < byteAt eight.body 0) := by
  unfold Taken KeptWindow; decide

theorem witness_UnknownCodeIsAnswered : Taken (frame []) State.reset ∧ 0x04#8 ∉ requestCodes := by
  unfold Taken KeptWindow; decide

/-- The answer slot holds another tag. -/
def other : State := setSlot 0x0999#16 .busy [] State.reset

theorem witness_SyncAnswersTheLastAnswer :
    Taken (frame []) State.reset ∧ (frame []).body = [] ∧ State.reset.link.slot = none
      ∧ Taken (frame []) other ∧ other.link.slot = some ⟨0x0999#16, .busy, []⟩ := by
  unfold Taken KeptWindow; decide

theorem witness_RestartStartsThePartAgain :
    (∀ n < 4, Taken (frame [n]) (plant .silent) ∧ (frame [n]).body.length = 1)
      ∧ byteAt (frame [1]).body 0 = 1 ∧ byteAt (frame [2]).body 0 = 2
      ∧ byteAt (frame [3]).body 0 ≠ 1 ∧ byteAt (frame [3]).body 0 ≠ 2 := by
  unfold Taken KeptWindow; decide

theorem witness_ResetPinStartsCold :
    1151 < 1152 ∧ 1152 ≤ 1152 ∧ low.rstnLow = true ∧ (plant .online).rstnLow = false
      ∧ ofSegmentOrTimer (.settleGapReached 1) = true := by decide

theorem witness_QueryDeviceAnswersTheCounts :
    (∀ n < 3, Taken (frame [n]) State.reset ∧ (frame [n]).body.length = 1)
      ∧ byteAt (frame [0]).body 0 = 0 ∧ byteAt (frame [1]).body 0 = 1
      ∧ byteAt (frame [2]).body 0 ≠ 0 ∧ byteAt (frame [2]).body 0 ≠ 1 := by
  unfold Taken KeptWindow; decide

theorem witness_SegmentQueriesAnswer :
    OnSegment (frame [1]) 1 1 (plant .online) ∧ (∀ n < 3, OnSegment (frame [1, n]) 1 2 (plant .online))
      ∧ byteAt (frame [1, 0]).body 1 = 0 ∧ byteAt (frame [1, 1]).body 1 = 1
      ∧ 2 ≤ byteAt (frame [1, 2]).body 1 := by
  unfold OnSegment Taken KeptWindow; decide

/-- A record for segment 3 with 9600 bit/s and some of its fields. -/
def record (settle retries deferLimit : Nat) : HostFrame :=
  frame [3, 1, 0, 1, 0, 2, 0, 50, 3, settle, retries, 4, 0, 20, 3, 20, 0, 0, 4, 0, deferLimit, 15]

/-- A settle gap of 48 characters of 10 bits lasts just 50 ms. -/
theorem witness_ConfigureReplacesTheRecord :
    let fits (f : HostFrame) (n : Fin 17) : Bool :=
      (fieldRanges.getD n fun _ => true) ((offeredFields f.body).getD n 0)
    let c (f : HostFrame) := configOfBody f.body
    let running := at_ 3 fun c => { c with state := .running }
    (OnSegment (record 4 7 50) 3 22 running
        ∧ ((afterTake (record 4 7 50) running).seg 3).state ≠ .halted)
      ∧ (OnSegment (record 4 8 50) 3 22 State.reset
        ∧ ((afterTake (record 4 8 50) State.reset).seg 3).state = .halted
        ∧ fits (record 4 8 50) 8 = false ∧ ∀ m, m < 8 → fits (record 4 8 50) m = true)
      ∧ (OnSegment (record 48 7 50) 3 22 State.reset ∧ (∀ n, fits (record 48 7 50) n = true)
        ∧ millis (c (record 48 7 50)).deferLimit ≤ settleTime (c (record 48 7 50)))
      ∧ (OnSegment (record 48 7 51) 3 22 State.reset ∧ (∀ n, fits (record 48 7 51) n = true)
        ∧ settleTime (c (record 48 7 51)) < millis (c (record 48 7 51)).deferLimit) := by
  unfold OnSegment Taken KeptWindow; decide +kernel

/-- Segment 1 in a state of its controller. -/
def control (st : SegState) : State := at_ 1 fun c => { c with state := st }

theorem witness_StartPutsASegmentToWork :
    ∀ st ∈ [SegState.halted, .running, .draining, .faulted],
      OnSegment (frame [1]) 1 1 (control st) ∧ ((afterTake (frame [1]) (control st)).seg 1).state = st := by
  unfold OnSegment Taken KeptWindow; decide

theorem witness_StopAndResumeASegment :
    (∀ st ∈ [SegState.halted, .running, .draining, .faulted],
      OnSegment (frame [1]) 1 1 (control st) ∧ ((afterTake (frame [1]) (control st)).seg 1).state = st
        ∧ ((afterTake (frame [1]) (control st)).seg 1).exchange = none)
      ∧ OnSegment (frame [1]) 1 1 (polling .await)
      ∧ ((afterTake (frame [1]) (polling .await)).seg 1).state = .running
      ∧ ((afterTake (frame [1]) (polling .await)).seg 1).exchange.isSome = true := by
  unfold OnSegment Taken KeptWindow; decide +kernel

/-- One QUEUED job in record 0, and nothing else. -/
def queued : State := acceptJob 0 (job .read .queued) (pinStart State.reset)

theorem queued_inv : Inv queued :=
  (Inv.pinStart State.reset).acceptJob (reset_job 0) (by decide) (by decide +kernel) (by decide)

theorem queued_holders : HolderLaw queued ∧ TimerLaw queued :=
  (spots_good _).1 ((Spots.Good.pinStart State.reset).acceptJob (reset_job 0) rfl rfl rfl)

theorem witness_ResetSegmentEmptiesTheSegment :
    OnSegment (frame [1]) 1 1 queued ∧ HolderLaw queued ∧ TimerLaw queued
      ∧ ∀ k, k ≠ 1 → ((afterTake (frame [1]) queued).seg k).disc.state ≠ .waitRoom := by
  refine ⟨?_, queued_holders.1, queued_holders.2, ?_⟩
  · unfold OnSegment Taken KeptWindow; decide
  · decide +kernel

/-! ### Stations -/

theorem plant_entries {s : State} {st : StationState} (h : s.table = (plant st).table) {i : Index} {e : Entry}
    (q : s.entry i = some e) : i = 0 ∧ e = station 1 5 st := by
  have : s.entry i = (plant st).entry i := by unfold State.entry; rw [h]
  rw [this, plant, entry_setEntry] at q
  split at q
  · exact ⟨‹_›, by injection q with q; exact q.symm⟩
  · exact absurd ((reset_entry i).symm.trans q) (by simp)

/-- The laws of the table hold with the plant's one entry. -/
theorem plant_table {s : State} {st : StationState} (h : s.table = (plant st).table) : TableLaw s := by
  refine ⟨fun i e q => ?_, fun i j e e' q q' _ _ => ?_⟩
  · rw [(plant_entries h q).2]; exact ⟨rfl, rfl⟩
  · rw [(plant_entries h q).1, (plant_entries h q').1]

/-- Every index in use by a station of segment 2. -/
def full (s : State) : State := { s with table := Vector.replicate 64 (some (station 2 9 .online)) }

/-- A find held at address 6 of segment 1. -/
def held : State := unit .held (some ⟨6, some (List.replicate 8 7#8), 7⟩) none

theorem witness_AddStationMakesAnEntry :
    (∀ b ∈ [[1, 0, 1, 0], [1, 127, 1, 0], [1, 1, 0, 0], [1, 1, 9, 0], [1, 1, 1, 2]],
      OnSegment (frame b) 1 4 (plant .online)
        ∧ ¬(1 ≤ byteAt (frame b).body 1 ∧ byteAt (frame b).body 1 ≤ 126 ∧ 1 ≤ byteAt (frame b).body 2
          ∧ byteAt (frame b).body 2 ≤ 8 ∧ byteAt (frame b).body 3 ≤ 1))
      ∧ (OnSegment (frame [1, 5, 1, 0]) 1 4 (plant .retiring)
        ∧ ∃ i, ∃ e ∈ (afterTake (frame [1, 5, 1, 0]) (plant .retiring)).entry i, e.seg = 1 ∧ e.addr = 5)
      ∧ (OnSegment (frame [1, 6, 8, 1]) 1 4 held
        ∧ ∃ r ∈ ((afterTake (frame [1, 6, 8, 1]) held).seg 1).disc.record, r.addr = 6)
      ∧ (OnSegment (frame [1, 126, 8, 1]) 1 4 (full (plant .online))
        ∧ (∀ i, ((afterTake (frame [1, 126, 8, 1]) (full (plant .online))).entry i).isSome = true)
        ∧ ∀ i, ∀ e ∈ (afterTake (frame [1, 126, 8, 1]) (full (plant .online))).entry i,
          ¬(e.seg = 1 ∧ e.addr = 126))
      ∧ (OnSegment (frame [1, 1, 1, 0]) 1 4 (plant .online)
        ∧ (∀ i, ∀ e ∈ (afterTake (frame [1, 1, 1, 0]) (plant .online)).entry i, ¬(e.seg = 1 ∧ e.addr = 1))
        ∧ (∀ r ∈ ((afterTake (frame [1, 1, 1, 0]) (plant .online)).seg 1).disc.record, r.addr ≠ 1)
        ∧ (afterTake (frame [1, 1, 1, 0]) (plant .online)).entry 1 = none
        ∧ ∀ k, k < 1 → ((afterTake (frame [1, 1, 1, 0]) (plant .online)).entry k).isSome = true) := by
  unfold OnSegment Taken KeptWindow
  repeat' apply And.intro
  all_goals decide +kernel

theorem witness_RemoveStationFreesOrRetires :
    (TableLaw (plant .online) ∧ TableLaw (plant .retiring) ∧ TableLaw (polling .await)
        ∧ TableLaw (reading .await))
      ∧ (∀ a ∈ [0, 127], OnSegment (frame [1, a]) 1 2 (plant .online)
        ∧ ¬(1 ≤ byteAt (frame [1, a]).body 1 ∧ byteAt (frame [1, a]).body 1 ≤ 126))
      ∧ (OnSegment (frame [1, 5]) 1 2 (plant .retiring)
        ∧ ∀ i, ∀ e ∈ (afterTake (frame [1, 5]) (plant .retiring)).entry i, e.state = .retiring)
      ∧ (OnSegment (frame [1, 5]) 1 2 (plant .online)
        ∧ (∃ e ∈ (afterTake (frame [1, 5]) (plant .online)).entry 0, e.seg = 1 ∧ e.addr = 5
          ∧ e.state ≠ .retiring)
        ∧ ((afterTake (frame [1, 5]) (plant .online)).seg 1).exchange = none)
      ∧ (OnSegment (frame [1, 5]) 1 2 (reading .await)
        ∧ ∃ x ∈ ((afterTake (frame [1, 5]) (reading .await)).seg 1).exchange, x.entry = some 0
          ∧ x.origin = .job 0)
      ∧ (OnSegment (frame [1, 5]) 1 2 (polling .await)
        ∧ ∃ x ∈ ((afterTake (frame [1, 5]) (polling .await)).seg 1).exchange, x.entry = some 0
          ∧ x.origin = .sweep) := by
  refine ⟨⟨plant_table (st := .online) rfl, plant_table (st := .retiring) rfl, plant_table (st := .online) rfl,
    plant_table (st := .online) rfl⟩, ?_⟩
  unfold OnSegment Taken KeptWindow
  repeat' apply And.intro
  all_goals decide +kernel

/-- A queue with reports and reservations in all of its places but some. -/
def crowded (free : Nat) : State :=
  State.reset.updQueue fun q => { q with reservations := 63 - free }

theorem witness_ReportsAndCompletions :
    (crowded 1).queue.reports.length + (crowded 1).queue.reservations < 64
      ∧ 64 ≤ (crowded 0).queue.reports.length + (crowded 0).queue.reservations
      ∧ queued.job 0 = some (job .read .queued) ∧ (plant .online).entry 0 = some (station 1 5 .online) := by
  decide +kernel

theorem witness_ReviveAndSetClass :
    (TableLaw (plant .online) ∧ TableLaw (plant .offline) ∧ TableLaw (plant .retiring))
      ∧ (∀ a ∈ [0, 127], OnSegment (frame [1, a]) 1 2 (plant .online)
        ∧ ¬(1 ≤ byteAt (frame [1, a]).body 1 ∧ byteAt (frame [1, a]).body 1 ≤ 126))
      ∧ (OnSegment (frame [1, 5]) 1 2 (plant .retiring)
        ∧ ∀ i, ∀ e ∈ (afterTake (frame [1, 5]) (plant .retiring)).entry i, e.state = .retiring)
      ∧ (OnSegment (frame [1, 5]) 1 2 (plant .silent)
        ∧ (afterTake (frame [1, 5]) (plant .silent)).entry 0 = some (station 1 5 .silent))
      ∧ (OnSegment (frame [1, 5]) 1 2 (plant .offline)
        ∧ (afterTake (frame [1, 5]) (plant .offline)).entry 0 = some (station 1 5 .offline))
      ∧ (OnSegment (frame [1, 5, 2]) 1 3 (plant .online) ∧ ¬byteAt (frame [1, 5, 2]).body 2 ≤ 1)
      ∧ (OnSegment (frame [1, 126, 1]) 1 3 (plant .online) ∧ byteAt (frame [1, 126, 1]).body 2 ≤ 1
        ∧ ∀ i, ∀ e ∈ (afterTake (frame [1, 126, 1]) (plant .online)).entry i, ¬(e.addr = 126))
      ∧ (OnSegment (frame [1, 5, 0]) 1 3 (plant .offline)
        ∧ (afterTake (frame [1, 5, 0]) (plant .offline)).entry 0 = some (station 1 5 .offline)) := by
  refine ⟨⟨plant_table (st := .online) rfl, plant_table (st := .offline) rfl,
    plant_table (st := .retiring) rfl⟩, ?_⟩
  unfold OnSegment Taken KeptWindow
  repeat' apply And.intro
  all_goals decide +kernel

theorem witness_StationQueriesAnswer :
    TableLaw (plant .retiring)
      ∧ (∀ a ∈ [0, 127], OnSegment (frame [1, a]) 1 2 (plant .retiring)
        ∧ ¬(1 ≤ byteAt (frame [1, a]).body 1 ∧ byteAt (frame [1, a]).body 1 ≤ 126))
      ∧ (OnSegment (frame [1, 126]) 1 2 (plant .retiring)
        ∧ ∀ i, ∀ e ∈ (afterTake (frame [1, 126]) (plant .retiring)).entry i, ¬(e.seg = 1 ∧ e.addr = 126))
      ∧ (OnSegment (frame [1, 5]) 1 2 (plant .retiring)
        ∧ (afterTake (frame [1, 5]) (plant .retiring)).entry 0 = some (station 1 5 .retiring))
      ∧ (OnSegment (frame [1, 1]) 1 2 (plant .retiring) ∧ 1 ≤ byteAt (frame [1, 1]).body 1) := by
  refine ⟨plant_table (st := .retiring) rfl, ?_⟩
  unfold OnSegment Taken KeptWindow
  repeat' apply And.intro
  all_goals decide +kernel

/-! ### Jobs -/

/-- A body of SUBMIT for segment 1, with its request bytes. -/
def submitBody (a port k lane dl ms count : Nat) : HostFrame :=
  frame ([1, a, port, k, lane, dl, 0, ms] ++ List.replicate count 9)

/-- Every record live. -/
def busy : State := { plant .online with jobs := Vector.replicate 48 (some (job .read .queued)) }

/-- The plant with a job of our frames' tag. -/
def tagged : State := (plant .online).setJob 0 (some { job .read .queued with tag := 0x0102#16 })

/-- The plant with its queue full. -/
def noRoom : State := (plant .online).updQueue fun q => { q with reservations := 63 }

theorem witness_SubmitIsChecked :
    let good := submitBody 5 2 1 1 1 1 16
    (∀ f ∈ [submitBody 5 0 1 0 0 0 17, submitBody 5 0 2 0 0 0 0, submitBody 5 0 2 0 0 0 65,
        submitBody 5 0 3 0 0 0 1, submitBody 5 0 5 0 0 0 0, submitBody 5 0 1 2 0 0 0, submitBody 5 0 1 0 1 0 0,
        submitBody 5 0 1 0 2 1 0, submitBody 1 0 4 0 0 0 1, submitBody 0 0 1 0 0 0 0,
        submitBody 127 0 1 0 0 0 0],
      Taken f (plant .online) ∧ 8 ≤ f.body.length ∧ byteAt f.body 0 = 1)
      ∧ (TableLaw (plant .retiring) ∧ TableLaw (plant .offline) ∧ TableLaw (plant .online) ∧ TableLaw tagged
        ∧ TableLaw busy ∧ TableLaw noRoom)
      ∧ (∀ s ∈ [plant .retiring, plant .offline, plant .online, tagged, busy, noRoom],
        Taken good s ∧ 8 ≤ good.body.length ∧ byteAt good.body 0 = 1)
      ∧ (byteAt good.body 3 = 1 ∧ good.body.length - 8 ≤ 16 ∧ byteAt good.body 4 ≤ 1
        ∧ byteAt good.body 5 = 1 ∧ byteAt good.body 6 * 256 + byteAt good.body 7 ≠ 0
        ∧ 1 ≤ byteAt good.body 1 ∧ byteAt good.body 1 ≤ 126 ∧ byteAt good.body 2 < 3)
      ∧ (∀ i, ∀ e ∈ (afterTake good (plant .retiring)).entry i, e.state = .retiring)
      ∧ (afterTake good (plant .offline)).entry 0 = some (station 1 5 .offline)
      ∧ (afterTake good (plant .online)).entry 0 = some (station 1 5 .online)
      ∧ (byteAt (submitBody 5 3 1 1 1 1 16).body 2 = 3 ∧ Taken (submitBody 5 3 1 1 1 1 16) (plant .online))
      ∧ (∃ j ∈ (afterTake good tagged).job 0, j.tag = good.tag)
      ∧ ((∀ h, ((afterTake good busy).job h).isSome = true)
        ∧ ∀ h, ∀ j ∈ (afterTake good busy).job h, j.tag ≠ good.tag)
      ∧ ((afterTake good noRoom).job 0 = none
        ∧ 64 ≤ (afterTake good noRoom).queue.reports.length + (afterTake good noRoom).queue.reservations) := by
  refine ⟨?_, ⟨plant_table (st := .retiring) rfl, plant_table (st := .offline) rfl,
    plant_table (st := .online) rfl, plant_table (st := .online) rfl, plant_table (st := .online) rfl,
    plant_table (st := .online) rfl⟩, ?_⟩
  all_goals unfold Taken KeptWindow; decide +kernel

theorem witness_SubmitTakesAJob :
    let f := submitBody 5 2 1 1 1 1 16
    let s := (plant .online).updQueue fun q => { q with reservations := 62 }
    Taken f s ∧ 8 ≤ f.body.length ∧ byteAt f.body 0 = 1
      ∧ readSubmit f = some (.read, .normal, some 1)
      ∧ stationCheck (afterTake f s) 1 .read (byteAt f.body 1) (byteAt f.body 2) = none
      ∧ (∀ i, ∀ j ∈ (afterTake f s).job i, j.tag ≠ f.tag)
      ∧ (afterTake f s).job 0 = none
      ∧ (afterTake f s).queue.reports.length + (afterTake f s).queue.reservations < 64 := by
  unfold Taken KeptWindow; decide +kernel

theorem witness_CancelAndQueryAJob :
    Inv queued ∧ Inv (queued.updJob 0 fun j => { j with state := .active })
      ∧ (∀ b ∈ [[0, 0], [7, 0x78], [7, 0x77]], Taken (frame b) queued ∧ (frame b).body.length = 2)
      ∧ byteAt (frame [0, 0]).body 0 * 256 + byteAt (frame [0, 0]).body 1 = 0
      ∧ (∀ h, ∀ j ∈ (afterTake (frame [7, 0x78]) queued).job h, j.tag.toNat ≠ 7 * 256 + 0x78)
      ∧ (afterTake (frame [7, 0x77]) queued).job 0 = some (job .read .queued)
      ∧ (job .read .queued).tag.toNat = 7 * 256 + 0x77
      ∧ 0 ∈ ((afterTake (frame [7, 0x77]) queued).seg 1).normal := by
  refine ⟨queued_inv, queued_inv.jobFields 0 fun _ => rfl, ?_⟩
  unfold Taken KeptWindow; decide +kernel

/-- The plant with a job in record 0 whose timers are given. -/
def timed (st : JobState) (d b : Option Time) : State :=
  (plant .online).setJob 0 (some { job .read st with deadlineTimer := d, backoff := b })

theorem witness_JobTimersExpire :
    (timed .queued (some 0) none).rstnLow = false
      ∧ (∃ j ∈ (timed .queued (some 0) none).job 0, j.deadlineTimer = some 0)
      ∧ (∀ j ∈ (timed .waiting none (some 0)).job 0, j.deadlineTimer = none)
      ∧ (∃ j ∈ (timed .waiting none (some 0)).job 0, j.backoff = some 0)
      ∧ ∀ j ∈ (timed .queued (some 0) none).job 0, j.backoff = none := by decide +kernel

/-! ### Discovery units -/

theorem witness_DiscoverBeginsARun :
    (∀ b ∈ [[1, 0, 5], [1, 6, 5], [1, 5, 127]], OnSegment (frame b) 1 3 (plant .online)
        ∧ ¬(1 ≤ byteAt (frame b).body 1 ∧ byteAt (frame b).body 1 ≤ byteAt (frame b).body 2
          ∧ byteAt (frame b).body 2 ≤ 126))
      ∧ (OnSegment (frame [1, 1, 126]) 1 3 held
        ∧ ((afterTake (frame [1, 1, 126]) held).seg 1).disc.state ≠ .idle)
      ∧ (OnSegment (frame [1, 1, 126]) 1 3 noRoom
        ∧ ((afterTake (frame [1, 1, 126]) noRoom).seg 1).disc.state = .idle
        ∧ 64 ≤ (afterTake (frame [1, 1, 126]) noRoom).queue.reports.length
          + (afterTake (frame [1, 1, 126]) noRoom).queue.reservations)
      ∧ (OnSegment (frame [1, 5, 6]) 1 3 (plant .online)
        ∧ ((afterTake (frame [1, 5, 6]) (plant .online)).seg 1).disc.state = .idle
        ∧ (afterTake (frame [1, 5, 6]) (plant .online)).queue.reports.length
          + (afterTake (frame [1, 5, 6]) (plant .online)).queue.reservations < 64
        ∧ ∀ i, ∀ e ∈ (afterTake (frame [1, 5, 6]) (plant .online)).entry i, ¬(e.seg = 1 ∧ e.addr = 6))
      ∧ (OnSegment (frame [1, 5, 5]) 1 3 (plant .online)
        ∧ (afterTake (frame [1, 5, 5]) (plant .online)).entry 0 = some (station 1 5 .online)) := by
  unfold OnSegment Taken KeptWindow
  repeat' apply And.intro
  all_goals decide +kernel

theorem witness_StopDiscoveryEndsARun :
    ∀ st ∈ [DiscState.idle, .held, .waitRoom, .probing],
      OnSegment (frame [1]) 1 1 (unit st none none)
        ∧ ((afterTake (frame [1]) (unit st none none)).seg 1).disc.state
          = st := by
  unfold OnSegment Taken KeptWindow
  all_goals decide +kernel

theorem witness_HeldFindEnds :
    (∀ b ∈ [[1, 0, 1, 0], [1, 127, 1, 0], [1, 6, 0, 0], [1, 6, 9, 0], [1, 6, 1, 2]],
      OnSegment (frame b) 1 4 held
        ∧ ¬(1 ≤ byteAt (frame b).body 1 ∧ byteAt (frame b).body 1 ≤ 126 ∧ 1 ≤ byteAt (frame b).body 2
          ∧ byteAt (frame b).body 2 ≤ 8 ∧ byteAt (frame b).body 3 ≤ 1))
      ∧ (OnSegment (frame [1, 5, 8, 1]) 1 4 held
        ∧ ∃ i, ∃ e ∈ (afterTake (frame [1, 5, 8, 1]) held).entry i, e.seg = 1 ∧ e.addr = 5)
      ∧ (OnSegment (frame [1, 126, 8, 1]) 1 4 held
        ∧ ∀ r ∈ ((afterTake (frame [1, 126, 8, 1]) held).seg 1).disc.record, r.addr ≠ 126)
      ∧ (OnSegment (frame [1, 6, 8, 1]) 1 4 (full held)
        ∧ (∃ r ∈ ((afterTake (frame [1, 6, 8, 1]) (full held)).seg 1).disc.record, r.addr = 6)
        ∧ ∀ i, ((afterTake (frame [1, 6, 8, 1]) (full held)).entry i).isSome = true)
      ∧ (OnSegment (frame [1, 6, 8, 1]) 1 4 held
        ∧ (∃ r ∈ ((afterTake (frame [1, 6, 8, 1]) held).seg 1).disc.record, r.addr = 6)
        ∧ (afterTake (frame [1, 6, 8, 1]) held).entry 1 = none
        ∧ (∀ k, k < 1 → ((afterTake (frame [1, 6, 8, 1]) held).entry k).isSome = true)
        ∧ ∀ i, ∀ e ∈ (afterTake (frame [1, 6, 8, 1]) held).entry i, ¬(e.seg = 1 ∧ e.addr = 6))
      ∧ (∀ b ∈ [[1, 0], [1, 127], [1, 126], [1, 6]], OnSegment (frame b) 1 2 held)
      ∧ held.rstnLow = false ∧ (∃ r ∈ (held.seg 1).disc.record, r.timer = 7)
      ∧ ((plant .online).seg 1).disc.record = none := by
  unfold OnSegment Taken KeptWindow
  repeat' apply And.intro
  all_goals decide +kernel

/-- A unit that waits, with a number of free places. -/
def waiting (free : Nat) : State := (unit .waitRoom none none).updQueue fun q => { q with reservations := 63 - free }

theorem witness_RoomGoesToWaitingUnits :
    (waiting 1).queue.reports.length + (waiting 1).queue.reservations < 64
      ∧ ¬(waiting 0).queue.reports.length + (waiting 0).queue.reservations < 64
      ∧ (∀ k, ((plant .online).seg k).disc.state ≠ .waitRoom)
      ∧ ((waiting 1).seg 1).disc.state = .waitRoom
      ∧ ∀ k, k < 1 → ((waiting 1).seg k).disc.state ≠ .waitRoom := by decide +kernel

/-! ### Picks -/

/-- The plant with a change to its segment. -/
def changed (f : Column → Column) : State := (plant .online).updSeg 1 f

theorem witness_PickOrder :
    (((plant .online).seg 1).state = .running ∧ ((plant .online).seg 1).exchange = none
        ∧ ((plant .online).seg 1).line.tx = .quiet)
      ∧ (State.reset.seg 1).state ≠ .running ∧ ((polling .await).seg 1).exchange ≠ none
      ∧ ((sending (.brk 9 .highSends) (plant .online)).seg 1).line.tx ≠ .quiet
      ∧ ((changed fun c => { c with attention := [0] }).seg 1).attention = [0]
      ∧ ((changed fun c => { c with urgent := [0] }).seg 1).urgent = [0]
      ∧ (let s := changed fun c => { c with sweep := { c.sweep with active := true, cursor := 4 } }
        (lookSweep 1 s).2 = some 5 ∧ findEntry s 1 5 = some 0 ∧ (s.seg 1).turn = .sweep)
      ∧ (let s := changed fun c => { c with
            normal := [0], turn := .lane, sweep := { c.sweep with active := true, cursor := 4 } }
        (lookSweep 1 s).2 = some 5 ∧ (s.seg 1).turn = .lane ∧ (s.seg 1).normal = [0])
      ∧ (lookSweep 1 (plant .online)).2 = none
      ∧ (lookDisc 1 (unit .probing none none)).2 = some 6
      ∧ (lookDisc 1 (plant .online)).2 = none := by decide +kernel

/-- The plant in a pass of its sweep. -/
def passing (cursor : Nat) (due : Bool) (st : StationState) : State :=
  (plant st).updSeg 1 fun c => { c with sweep := ⟨true, cursor, due, none⟩ }

theorem witness_LooksFindTheLowest :
    (TableLaw (passing 4 false .online) ∧ TableLaw (passing 5 true .silent) ∧ TableLaw (passing 0 true .offline)
        ∧ TableLaw (unit .probing none none))
      ∧ ((plant .online).seg 1).sweep.active = false
      ∧ (((passing 4 false .online).seg 1).sweep.active = true
        ∧ ∃ e ∈ (passing 4 false .online).entry 0, e.seg = 1 ∧ 4 < e.addr ∧ e.state = .online
          ∧ e.pollClass = .cyclic)
      ∧ (((passing 5 false .silent).seg 1).sweep.repeatDue = false
        ∧ ∀ i, ∀ e ∈ (passing 5 false .silent).entry i, ¬5 < e.addr)
      ∧ (((passing 5 true .silent).seg 1).sweep.repeatDue = true
        ∧ ∃ e ∈ (passing 5 true .silent).entry 0, e.seg = 1 ∧ 0 < e.addr ∧ e.state = .silent)
      ∧ (∀ i, ∀ e ∈ (passing 0 true .offline).entry i, e.state = .offline)
      ∧ ((plant .online).seg 1).disc.state ≠ .probing
      ∧ ((unit .probing none none).seg 1).disc.state = .probing
      ∧ (((unit .probing none none).seg 1).disc.cursor ≤ 6 ∧ 6 ≤ ((unit .probing none none).seg 1).disc.high)
      ∧ ∀ i, ∀ e ∈ (unit .probing none none).entry i, e.addr ≠ 6 := by
  refine ⟨⟨plant_table (st := .online) rfl, plant_table (st := .silent) rfl, plant_table (st := .offline) rfl,
    plant_table (st := .online) rfl⟩, ?_⟩
  repeat' apply And.intro
  all_goals decide +kernel

/-! ### Exchanges -/

theorem witness_ExchangeStarts :
    (TableLaw (plant .online) ∧ TableLaw (plant .silent))
      ∧ ((plant .online).setJob 0 (some { job .broadcast .queued with addr := 0 })).job 0
        = some { job .broadcast .queued with addr := 0 }
      ∧ (∀ k ∈ [JobKind.status, .read, .write], ((plant .online).setJob 0 (some (job k .queued))).job 0
        = some (job k .queued))
      ∧ (plant .online).entry 0 = some (station 1 5 .online) ∧ (station 1 5 .online).sync = .synced
      ∧ ((plant .online).setEntry 0 (some { station 1 5 .silent with sync := .unsynced })).entry 0
        = some { station 1 5 .silent with sync := .unsynced } := by
  refine ⟨⟨plant_table (st := .online) rfl, plant_table (st := .silent) rfl⟩, ?_⟩
  decide +kernel

theorem witness_AttemptSendsItsFrame :
    ((reading .defer).seg 1).exchange = some (exchange (.job 0) .read .defer)
      ∧ ((polling .defer).updX 1 fun x => { x with counted := false }).rstnLow = false
      ∧ (exchange .sweep .status .defer).counted = true
      ∧ ((polling .defer).seg 1).line.tx = .quiet ∧ ((polling .defer).seg 1).line.rx = .waiting
      ∧ ((polling .defer).seg 1).line.idle < ((polling .defer).seg 1).config.settleGap
        * charTime ((polling .defer).seg 1).config
      ∧ ((sending (.brk 9 .highSends) (polling .defer)).seg 1).line.tx ≠ .quiet
      ∧ (let s := (polling .defer).updLine 1 fun l => { l with idle := 2400000 }
        (s.seg 1).config.settleGap * charTime (s.seg 1).config = (s.seg 1).line.idle)
      ∧ (((polling .defer).updLine 1 fun l => { l with rx := .ending 30000 }).seg 1).line.rx
        = .ending 30000 := by decide +kernel

theorem witness_SendEndsWithTheGuard :
    let s := sending (.frame [0xD5#8] 1 9) (polling .send)
    let g := sending (.guard 9) (polling .turn)
    s.rstnLow = false ∧ (s.seg 1).line.tx = .frame [0xD5#8] [0xD5#8].length 9
      ∧ (s.seg 1).config.guardBits ≠ 0
      ∧ ((s.updSeg 1 fun c => { c with config := { c.config with guardBits := 0 } }).seg 1).config.guardBits = 0
      ∧ (g.seg 1).line.tx = .guard 9 ∧ ((g.elapse 9).seg 1).exchange.isSome = true
      ∧ (exchange .sweep .status .turn).phase = .turn ∧ (exchange .sweep .status .turn).addr ≠ 0
      ∧ ({ exchange (.job 0) .write .turn with addr := 0 } : Exchange).addr = 0
      ∧ ((sending (.guard 9) (plant .online)).seg 1).exchange = none := by decide +kernel

theorem witness_AttemptsFail :
    (polling .await).rstnLow = false
      ∧ ((polling .await).seg 1).exchange = some (exchange .sweep .status .await)
      ∧ (((polling .recv).updX 1 fun x => { x with gapTimer := some 0 }).seg 1).exchange
        = some { exchange .sweep .status .recv with gapTimer := some 0 }
      ∧ ((sending (.frame [0xD5#8, 0x05#8] 1 9) (polling .send)).seg 1).line.tx
        = .frame [0xD5#8, 0x05#8] 1 9
      ∧ 1 < [0xD5#8, 0x05#8].length
      ∧ ((sending (.frame [0xD5#8] 0 9) (plant .online)).seg 1).exchange = none := by decide +kernel

/-- The plant with an exchange of an origin at an attempt of three. -/
def attempting (st : StationState) (o : XOrigin) (attempt : Nat) : State :=
  (plant st).updSeg 1 fun c => { c with exchange := some { exchange o .status .await with attempt := attempt } }

theorem witness_FailedAttemptGoesOn :
    ((attempting .online .sweep 2).seg 1).exchange = some { exchange .sweep .status .await with attempt := 2 }
      ∧ (attempting .retiring .sweep 3).entry 0 = some (station 1 5 .retiring)
      ∧ (((reading .await).updJob 0 fun j => { j with cancel := true }).job 0).map (·.cancel) = some true
      ∧ FailKind.noReply.isReplyFault = false ∧ FailKind.broken.isReplyFault = true ∧ 2 < 3 ∧ ¬3 < 3
      ∧ (∀ i, ∀ e ∈ (attempting .online .sweep 2).entry i, e.state ≠ .retiring)
      ∧ (let s := (attempting .online .sweep 2).updSeg 1 fun c => { c with streak := 4 }
        (s.seg 1).streak = (s.seg 1).config.contentionLimit)
      ∧ ((attempting .online .sweep 2).seg 1).streak ≠ ((attempting .online .sweep 2).seg 1).config.contentionLimit
      ∧ (((attempting .online .sweep 2).updSeg 1 fun c => { c with state := .draining }).seg 1).state
        = .draining := by decide +kernel

theorem witness_ReceivedItemsGoToOnePlace :
    (polling .recv).rstnLow = false
      ∧ ((((plant .online).updLine 1 fun l => { l with rx := .atSpace }).elapse 0).seg 1).line.rx = .atSpace
      ∧ (((polling .recv).elapse 0).seg 1).line.rx ≠ .atSpace
      ∧ (((sending (.guard 9) (polling .turn)).elapse 0).seg 1).line.tx = .guard 9
      ∧ (((sending (.brk 9 .highSends) (polling .defer)).elapse 0).seg 1).line.tx = .brk 9 .highSends
      ∧ (((plant .online).elapse 0).seg 1).exchange = none
      ∧ (∀ p ∈ [Phase.defer, .await, .recv],
        (((polling p).elapse 0).seg 1).exchange = some (exchange .sweep .status p))
      ∧ Item.good 0xD4#8 ≠ .good 0xD5#8
      ∧ (([0x05#8, 0x1B#8, 0x00#8] ++ [65#8]).length = 4 ∧ 64 < (65#8 : Byte).toNat)
      ∧ (let now : List Byte := [0x05#8, 0x1B#8, 0x00#8, 0x01#8, 0x00#8, 0x00#8] ++ [0x00#8]
        4 ≤ now.length ∧ now.length = byteAt now 3 + 6)
      ∧ (((sending (.frame [0xD5#8] 0 9) (polling .send)).elapse 0).seg 1).line.tx = .frame [0xD5#8] 0 9
      ∧ [0xD5#8][0]? = some 0xD5#8 := by decide +kernel

theorem witness_CompleteRepliesAreHandled :
    let x := exchange (.job 0) .read .recv
    ((reading .recv).seg 1).exchange = some x
      ∧ classify x.addr x.kind x.toggle (reply 5 .done true 0) = .fault .badKind
      ∧ classify x.addr x.kind x.toggle (reply 5 .data false 0) = .stale ∧ x.replyLeft ≠ 0
      ∧ classify x.addr x.kind x.toggle (reply 5 .data true 0) = .valid ⟨.data, [], false⟩
      ∧ classify x.addr .status x.toggle (reply 5 .statusReply true 1) = .valid ⟨.statusReply, [0x2A#8], false⟩
      ∧ (reading .recv).job 0 = some { job .read .active with started := true } ∧ x.entry = some 0
      ∧ (reading .recv).entry 0 = some (station 1 5 .online)
      ∧ (plant .retiring).entry 0 = some (station 1 5 .retiring)
      ∧ ({ x with stage := .prelude, kind := .status, replyLeft := 0 } : Exchange).stage = .prelude := by
  decide +kernel

/-! ### Ends -/

theorem witness_ExchangeEndsInOrder :
    let x := exchange .sweep .status .await
    let handed (s : State) := handOrigin 1 x (.failed .jabber) (handStatus x (.failed .jabber)
      (handOutcome x (.failed .jabber) (setToggle x (.failed .jabber) s)))
    ((handed (polling .await)).seg 1).state = .running
      ∧ ((handed ((polling .await).updSeg 1 fun c => { c with state := .draining })).seg 1).state = .draining
      ∧ x.entry = some 0 ∧ ((handed (polling .await)).entry 0).isSome = true := by decide +kernel

theorem witness_ToggleAndSyncFollowTheEnd :
    (exchange .sweep .status .await).entry = some 0
      ∧ (∀ st ∈ [StationState.online, .retiring], (plant st).entry 0 = some (station 1 5 st))
      ∧ ReplyKind.data ≠ .busy := by decide +kernel

theorem witness_HealthFollowsTheOutcome :
    (exchange .sweep .status .await).entry = some 0
      ∧ (∀ st ∈ [StationState.enlisted, .online, .silent], (plant st).entry 0 = some (station 1 5 st)
        ∧ (station 1 5 st).state ≠ .retiring)
      ∧ (plant .retiring).entry 0 = some (station 1 5 .retiring) ∧ (station 1 5 .retiring).state = .retiring
      ∧ FailKind.noReply ≠ .contention
      ∧ ({ station 1 5 .online with misses := 2 } : Entry).misses + 1 = ((plant .online).seg 1).config.missLimit
      ∧ (station 1 5 .online).misses + 1 ≠ ((plant .online).seg 1).config.missLimit
      ∧ ({ station 1 5 .silent with silentFails := 19 } : Entry).silentFails + 1
        = ((plant .silent).seg 1).config.offlineLimit
      ∧ (station 1 5 .silent).silentFails + 1 ≠ ((plant .silent).seg 1).config.offlineLimit := by decide +kernel

theorem witness_StatusAndAttention :
    let r : Reply := ⟨.statusReply, [0x03#8, 0x04#8], true⟩
    (exchange .attention .status .await).entry = some 0
      ∧ (plant .online).entry 0 = some (station 1 5 .online) ∧ (station 1 5 .online).state ≠ .retiring
      ∧ (plant .retiring).entry 0 = some (station 1 5 .retiring) ∧ (station 1 5 .retiring).state = .retiring
      ∧ (r.attention = true ∧ (station 1 5 .online).attention = false ∧ (station 1 5 .online).state = .online)
      ∧ (station 1 5 .silent).state ≠ .enlisted ∧ (station 1 5 .silent).state ≠ .online
      ∧ ReplyKind.data ≠ .statusReply
      ∧ ({ station 1 5 .online with attention := true } : Entry).attention = true
      ∧ ({ station 1 5 .online with lastStatus := some 0x03#8 } : Entry).lastStatus = some (r.payload.getD 0 0#8)
      ∧ (station 1 5 .online).lastStatus ≠ some (r.payload.getD 0 0#8) := by decide +kernel

theorem witness_JobsEndOrReturn :
    (reading .await).job 0 = some { job .read .active with started := true }
      ∧ (exchange (.job 0) .read .await).origin = .job 0
      ∧ ({ job .read .active with busy := 3 } : Job).busy < ((reading .await).seg 1).config.busyLimit
      ∧ ((reading .await).seg 1).config.busyLimit ≤ ({ job .read .active with busy := 4 } : Job).busy
      ∧ (job .read .active).cancel = false ∧ ({ job .read .active with cancel := true } : Job).cancel = true
      ∧ FailKind.crcError.isReplyFault = true := by decide +kernel

theorem witness_ProbesEnd :
    (exchange .probe .probe .await).origin = .probe
      ∧ (∀ v ∈ [VoidCause.none, .added, .stopped],
        ((unit .probing none (some ⟨6, v⟩)).seg 1).disc.mark = some ⟨6, v⟩)
      ∧ ((unit .probing none (some ⟨6, .none⟩)).seg 1).disc.state = .probing
      ∧ ((unit .idle none (some ⟨6, .stopped⟩)).seg 1).disc.state ≠ .probing
      ∧ (⟨.present, List.replicate 8 7#8, false⟩ : Reply).kind = .present
      ∧ FailKind.lineBreak.isReplyFault = true := by decide +kernel

theorem witness_SweepsAndFollowUps :
    (let s (active due : Bool) := (plant .online).updSeg 1 fun c => { c with sweep := ⟨active, 5, due, some 0⟩ }
      ∀ a d, (s a d).rstnLow = false ∧ ((s a d).seg 1).sweep.timer = some 0 ∧ ((s a d).seg 1).sweep.active = a
        ∧ ((s a d).seg 1).sweep.repeatDue = d)
      ∧ (exchange .sweep .status .await).origin = .sweep
      ∧ ((exchange .attention .status .await).origin = .attention
        ∧ (exchange .attention .status .await).entry = some 0)
      ∧ (plant .online).entry 0 = some (station 1 5 .online)
      ∧ (0 ∈ ((at_ 1 fun c => { c with attention := [0, 7] }).seg 1).attention ∧ 0 ∉ ((plant .online).seg 1).attention)
      ∧ (∀ r, EndForm.sent ≠ .reply r)
      ∧ EndForm.sent ≠ .cut .drain ∧ EndForm.sent ≠ .cut .fault := by
  refine ⟨by decide +kernel, by decide, by decide, by decide +kernel, by decide +kernel, fun r h => ?_, by decide,
    by decide⟩
  cases h

theorem witness_JabberFaultsTheSegment :
    let timed (s : State) : State := s.updLine 1 fun l => { l with deferTimer := some 0 }
    (timed (polling .defer)).rstnLow = false
      ∧ ((timed (polling .defer)).seg 1).exchange = some (exchange .sweep .status .defer)
      ∧ ((timed (polling .defer)).seg 1).line.deferTimer = some 0
      ∧ (timed (attempting .retiring .sweep 1)).entry 0 = some (station 1 5 .retiring)
      ∧ (exchange (.job 0) .read .defer).origin = .job 0
      ∧ ((timed ((reading .defer).updJob 0 fun j => { j with cancel := true })).job 0).map (·.cancel) = some true
      ∧ (∀ i, ∀ e ∈ (timed (polling .defer)).entry i, e.state ≠ .retiring) := by decide +kernel

theorem witness_LineAndPinHappenings :
    let at_ (r : Rx) : State := (plant .online).updLine 1 fun l => { l with rx := r }
    (plant .online).rstnLow = false
      ∧ ((sending (.brk 0 .lowSends) (polling .defer)).seg 1).line.tx = .brk 0 .lowSends
      ∧ low.rstnLow = true
      ∧ (∀ r ∈ [Rx.waiting, .ending 1, .inChar 1, .atSpace], (((at_ r).elapse 0).seg 1).line.rx = r)
      ∧ (30000 = bitTime (((plant .online).elapse 0).seg 1).config / 2
        ∧ (((plant .online).elapse 0).seg 1).line.changes = [])
      ∧ ((faster.elapse 0).seg 1).line.rx = .waiting
      ∧ (((faster.elapse 0).seg 1).line.changes = [] ++ ⟨30000, 100⟩ :: [] ∧ (100 : Time) ≤ 30000)
      ∧ (60000 ≠ bitTime ((faster.elapse 0).seg 1).config / 2
        ∧ ∀ f ∈ ((faster.elapse 0).seg 1).line.changes, 60000 ≠ f.half)
      ∧ (State.reset.updQueue fun q => { q with reEdge := some 0 }).queue.reEdge = some 0
      ∧ (State.reset.updQueue fun q => { q with reEdge := some 0 }).queue.reports ≠ [] := by decide +kernel

/-! ### Characters, frames and laws -/

theorem witness_CharacterRoundTrip :
    ({ SegConfig.default with parity := .odd } : SegConfig).parity ≠ .none ∧ 7 < 8 ∧ 0 < [true].length
      ∧ 0x80#8 ≠ 0x00#8 := by decide

theorem witness_SegmentFrameRoundTrip :
    255 < 256 ∧ replyAllowed .read .data = some (0, 64) ∧ (List.replicate 64 0xD5#8).length ≤ 64
      ∧ replyAllowed .status .statusReply = some (1, 17) ∧ 126 ≠ 255
      ∧ [0#8, 0#8].length = 2 ∧ [0#8, 0#8] ≠ crcBytes [0x05#8]
      ∧ ((0x59#8).getLsbD 4 = true ∧ 64 ≤ (0x59#8).toNat)
      ∧ ((0x1A#8).getLsbD 4 = true ∧ (0x1A#8).toNat < 64
        ∧ ∀ k ∈ [ReplyKind.data, .done, .statusReply, .present, .refuse, .busy],
          (replyAllowed .read k).isSome = true → k.code ≠ (0x1A#8).toNat % 16)
      ∧ ((0x1D#8).toNat < 64 ∧ ReplyKind.refuse.code = (0x1D#8).toNat % 16 ∧ replyAllowed .read .refuse = some (1, 1)
        ∧ [0#8, 0#8].length > 1)
      ∧ [5#8, 0x19#8, 0#8].length = 3 ∧ 64 < (65#8).toNat := by decide +kernel

/-- Each law's premises: a state with a job at work, and a step from it. -/
theorem witness_LawsKeptByEveryStep :
    Inv { queued with pending := [.start (frame [1])] }
      ∧ ∃ t, step { queued with pending := [.start (frame [1])] } = .next t :=
  ⟨queued_inv.of_skel rfl, _, rfl⟩

theorem queued_places : PlaceLaws queued where
  attention := by
    have n (i : Index) : queued.entry i = none := reset_entry i
    refine ⟨fun g => ⟨?_, fun i => ?_⟩, fun i e q => absurd (q.symm.trans (n i)) (by simp)⟩
    · revert g; decide +kernel
    · rw [n i]
      have : ∀ g, (queued.seg g).attention = [] := by decide +kernel
      simp [this]
  waiting := by unfold WaitOrderLaw; decide +kernel
  live := fun _ => ⟨queued_holders.1, queued_holders.2, by unfold DrainLaw; decide +kernel⟩

theorem witness_PlacesKeptByEveryStep :
    let s : State := { queued with pending := [.start (frame [1])] }
    PlaceLaws s ∧ ∃ t, step s = .next t ∧ t.rstnLow = false :=
  ⟨⟨queued_places.attention, queued_places.waiting, queued_places.live⟩, after (.start (frame [1])) queued, rfl,
    by decide +kernel⟩

/-- Each transmitter state, each window and RSTN low; the second bit of the second character, as it is sent. -/
theorem witness_PinsFollowTheState :
    let c := SegConfig.default
    let sends := sending (.frame [0xD5#8, 0x05#8] 0 (8 * bitTime c + 1)) (polling .send)
    (plant .online).rstnLow = false ∧ ((plant .online).seg 1).line.tx = .quiet
      ∧ ((sends.seg 1).line.tx = .frame [0xD5#8, 0x05#8] 0 (8 * bitTime c + 1) ∧ [0xD5#8, 0x05#8][1]? = some 0x05#8
        ∧ 1 < (charLevels c 0x05#8).length
        ∧ 8 * bitTime c + 1 + 1 * charTime c + 1 * bitTime c ≤ 2 * charTime c
        ∧ 2 * charTime c < 8 * bitTime c + 1 + 1 * charTime c + (1 + 1) * bitTime c)
      ∧ ((sending (.guard 0) (polling .turn)).seg 1).line.tx = .guard 0
      ∧ ((sending (.brk 0 .lowSends) (polling .defer)).seg 1).line.tx = .brk 0 .lowSends
      ∧ (∀ w ∈ [Window.serving [0x5C#8], .ignored, .closed, .noWindow], (inWindow w).link.window = w)
      ∧ [0x5C#8][0]? = some 0x5C#8 ∧ low.rstnLow = true := by decide +kernel

/-- One CANCEL that acknowledges HELLO and ends the only job: the head leaves and the RESULT enters. -/
theorem witness_NoReportOrJobIsLost :
    let cancel : Instr := .cancel { frame [7, 0x77] with ack := 1#8 }
    (∃ t, exec cancel queued = .next t) ∧ (∀ f, cancel ≠ .restart f) ∧ (∀ w, cancel ≠ .rstnRelease w)
      ∧ queued.job 0 = some (job .read .queued) ∧ queued.queue.reports.map (·.number) = [1]
      ∧ (after cancel queued).job 0 = none
      ∧ (after cancel queued).queue.reports = [⟨2, .result 0x0777#16 .cancelled 0 0 none false []⟩] := by
  refine ⟨⟨_, rfl⟩, ?_, ?_, ?_⟩
  · intro f h; cases h
  · intro w h; cases h
  · decide +kernel

end Sys2Proof.Tests
end

section
/-! Every command keeps the laws of `Inv`, and so does every step (O57). -/

namespace Sys2Proof.Machine

section
variable {s t : State}

/-! ## The host link and the reset pin -/

@[simp] theorem skel_countIgnored (bytes : List Byte) (s : State) : skel (countIgnored bytes s) = skel s := by
  unfold countIgnored
  split <;> rfl

theorem Inv.csnFall (i : Inv s) (wait : Time) (e : execCsnFall wait s = .next t) : Inv t := by
  simp only [execCsnFall] at e
  injection e with e
  subst e
  split
  · exact (i.elapse wait).of_skel (skel_updLink ..)
  · exact i.elapse wait

theorem Inv.hostFrameIgnored (i : Inv s) (wait : Time) (bits : List Bool)
    (e : execHostFrameIgnored wait bits s = .next t) : Inv t := by
  injection e with e
  subst e
  exact i.atCsnRise wait fun u iu => iu.of_skel (skel_countIgnored ..)

theorem Inv.unknownRequest (i : Inv s) (code : Byte) (f : HostFrame)
    (e : execUnknownRequest code f s = .next t) : Inv t := by
  unfold execUnknownRequest at e
  split at e
  · injection e with e
    subst e
    exact i.atCsnRise f.wait fun u iu => iu
  · injection e with e
    subst e
    refine i.takeRequest f fun _ u iu => ?_
    split
    · exact iu.of_skel (skel_countRepeat u)
    · exact iu.of_skel (skel_setSlot ..)

theorem Inv.nop (i : Inv s) (f : HostFrame) (e : execNop f s = .next t) : Inv t := by
  injection e with e
  subst e
  refine i.atCsnRise f.wait fun u iu => ?_
  split
  · exact iu.of_skel (skel_countMalformed u)
  · exact iu.takeFrame f

theorem rulingSync_state (s : State) : (rulingSync s).state = s := by
  unfold rulingSync
  split <;> rfl

theorem Inv.dealRestart (i : Inv s) (f : HostFrame) : Inv (dealRestart f s) := by
  unfold Machine.dealRestart
  split
  · exact i.of_skel (skel_countRepeat s)
  · split
    · exact i.of_skel (skel_setSlot ..)
    · split
      · exact i.restartPart false
      · split
        · exact i.restartPart true
        · exact i.of_skel (skel_setSlot ..)

theorem Inv.restart (i : Inv s) (f : HostFrame) (e : execRestart f s = .next t) : Inv t := by
  injection e with e
  subst e
  exact i.takeRequest f fun _ u iu => iu.dealRestart f

theorem Inv.rulingQueryDevice (i : Inv s) (f : HostFrame) : Inv (rulingQueryDevice f s).state := by
  unfold Machine.rulingQueryDevice
  split
  · exact i
  · exact i.of_skel rfl
  · exact i

theorem Inv.rstnFall (i : Inv s) (wait held : Time) (e : execRstnFall wait held s = .next t) : Inv t := by
  unfold execRstnFall at e
  split at e
  · injection e with e
    subst e
    exact (i.elapse wait).elapse held
  · injection e with e
    subst e
    exact (i.elapse wait).holdInReset

theorem Inv.rstnRelease (i : Inv s) (wait : Time) (e : execRstnRelease wait s = .next t) : Inv t := by
  injection e with e
  subst e
  split
  · exact .pinStart s
  · exact i.elapse wait

/-! ## Requests that name a segment -/

/-- A request of one exact length on a segment keeps the laws if its ruling on every segment does, for a
frame with a tag that is not 0. -/
theorem Inv.segmentRequest (i : Inv s) {n : Nat} {f : HostFrame} {ruling : Seg → State → Ruling}
    (h : f.tag ≠ 0#16 → ∀ g u, Inv u → Inv (ruling g u).state)
    (e : Machine.exactRequest n f (Machine.withSegment (bodyByte f 0) ruling) s = .next t) : Inv t :=
  i.exactRequest n f (fun z u iu => iu.withSegment _ fun g => h z g u iu) e

theorem Inv.submit (i : Inv s) (f : HostFrame) (e : execSubmit f s = .next t) : Inv t := by
  injection e with e
  subst e
  exact i.takeRequest f fun z u iu => iu.answerRequest f _ (iu.withSegment _ fun g => iu.rulingSubmit z g)

theorem Inv.rulingQueryCounters (i : Inv s) (option : Nat) (g : Seg) :
    Inv (rulingQueryCounters option g s).state := by
  unfold Machine.rulingQueryCounters
  split
  · exact i
  · exact i.of_skel (skel_count ..)
  · exact i

/-! ## The expiries of timers -/

theorem Inv.deadlineExpiry (i : Inv s) (h : Handle) (e : execDeadlineExpiry h s = .next t) : Inv t := by
  refine whileLive_keeps i ?_ e
  split
  · exact i
  · exact (i.elapse _).completeJob ..

theorem Inv.backoffExpiry (i : Inv s) (h : Handle) (e : execBackoffExpiry h s = .next t) : Inv t := by
  refine whileLive_keeps i ?_ e
  split
  · exact i
  · split
    · exact i
    · exact (i.elapse _).endBackoff ..

theorem Inv.settleGapReached (i : Inv s) (g : Seg) (e : execSettleGapReached g s = .next t) : Inv t := by
  refine whileLive_keeps i ?_ e
  split
  · exact (i.elapse _).of_skel (skel_enterSend ..)
  · exact i

theorem Inv.replyTimerExpiry (i : Inv s) (g : Seg) (e : execReplyTimerExpiry g s = .next t) : Inv t := by
  refine whileLive_keeps i ?_ e
  unfold expireReply
  split
  · split
    · exact (i.elapse _).failNoReply ..
    · exact i.elapse _
  · exact i

theorem Inv.characterGapExpiry (i : Inv s) (g : Seg) (e : execCharacterGapExpiry g s = .next t) : Inv t := by
  refine whileLive_keeps i ?_ e
  unfold expireGap
  split
  · split
    · exact (i.elapse _).failReply ..
    · exact i.elapse _
  · exact i

theorem Inv.deferTimerExpiry (i : Inv s) (g : Seg) (e : execDeferTimerExpiry g s = .next t) : Inv t := by
  refine whileLive_keeps i ?_ e
  unfold expireDefer
  split
  · split
    · exact Inv.endExchange ((i.elapse _).of_skel (skel_updLine ..)) ..
    · exact i.elapse _
  · exact i

theorem Inv.sweepTimerExpiry (i : Inv s) (g : Seg) (e : execSweepTimerExpiry g s = .next t) : Inv t := by
  refine whileLive_keeps i ?_ e
  split
  · exact Inv.sweepDue ((i.elapse _).of_skel (skel_restartSweepTimer ..)) g
  · exact i

theorem Inv.admissionTimerExpiry (i : Inv s) (g : Seg) (e : execAdmissionTimerExpiry g s = .next t) :
    Inv t := by
  refine whileLive_keeps i ?_ e
  split
  · rename_i r hr
    refine (i.elapse r.timer).lapseFind ?_
    obtain ⟨-, -, same_disc_state, -⟩ := elapse_column r.timer s g
    rw [same_disc_state]
    exact held_of_record i hr
  · exact i

theorem Inv.reEdgeIntervalEnd (i : Inv s) (e : execReEdgeIntervalEnd s = .next t) : Inv t := by
  refine whileLive_keeps i ?_ e
  split
  · exact (i.elapse _).of_skel rfl
  · exact i

/-! ## The happenings at a line unit -/

theorem Inv.receivedItem (i : Inv s) (wait : Time) (g : Seg) (item : Item) (spaceAtEnd : Bool)
    (e : execReceivedItem wait g item spaceAtEnd s = .next t) : Inv t := by
  refine whileLive_keeps i ?_ e
  have after : Inv (s.elapse wait) := i.elapse wait
  simp only []
  split
  · exact after
  · exact Inv.handItem (after.of_skel (skel_updSeg_silent rfl rfl)) ..

theorem Inv.frameSentWhole (i : Inv s) (g : Seg) (e : execFrameSentWhole g s = .next t) : Inv t := by
  refine whileLive_keeps i ?_ e
  split
  · rename_i chars echoed left _
    have sent : Inv (sentWhole g (s.elapse left)) := (i.elapse left).of_skel (skel_sentWhole ..)
    split
    · simp only []
      split
      · exact sent.releaseDir g
      · exact sent
    · exact i
  · exact i

theorem Inv.guardEnd (i : Inv s) (g : Seg) (e : execGuardEnd g s = .next t) : Inv t := by
  refine whileLive_keeps i ?_ e
  split
  · exact (i.elapse _).releaseDir g
  · exact i

theorem Inv.abortBreakEnd (i : Inv s) (g : Seg) (e : execAbortBreakEnd g s = .next t) : Inv t := by
  refine whileLive_keeps i ?_ e
  split
  · exact (i.elapse _).breakOver g
  · exact i

theorem Inv.missEcho (i : Inv s) (g : Seg) : Inv (missEcho g s) := by
  unfold Machine.missEcho
  split
  · exact i.contend ..
  · exact i

theorem Inv.characterSentWithoutEcho (i : Inv s) (g : Seg)
    (e : execCharacterSentWithoutEcho g s = .next t) : Inv t := by
  refine whileLive_keeps i ?_ e
  split
  · split
    · exact (i.elapse _).missEcho g
    · exact i
  · exact i

theorem Inv.startBitConfirmed (i : Inv s) (start : StartBit) (g : Seg)
    (e : execStartBitConfirmed start g s = .next t) : Inv t := by
  refine whileLive_keeps i ?_ e
  have after : Inv (s.elapse start.wait) := i.elapse start.wait
  simp only []
  split
  · exact after.of_skel (skel_confirmStart ..)
  · exact after

theorem Inv.lineReturnToMark (i : Inv s) (wait : Time) (g : Seg)
    (e : execLineReturnToMark wait g s = .next t) : Inv t := by
  refine whileLive_keeps i ?_ e
  have after : Inv (s.elapse wait) := i.elapse wait
  simp only []
  split
  · exact after.of_skel (skel_updLine ..)
  · exact after

/-! ## Every command and every step -/

/-- Every command keeps the laws. -/
theorem Inv.exec (i : Inv s) (c : Instr) (e : Machine.exec c s = .next t) : Inv t := by
  cases c with
  | csnFall wait => exact i.csnFall wait e
  | hostFrameIgnored wait bits => exact i.hostFrameIgnored wait bits e
  | unknownRequest code f => exact i.unknownRequest code f e
  | nop f => exact i.nop f e
  | sync f => exact i.exactRequest 0 f (fun _ u iu => by rwa [rulingSync_state]) e
  | restart f => exact i.restart f e
  | queryDevice f => exact i.exactRequest 1 f (fun _ u iu => iu.rulingQueryDevice f) e
  | configureSegment f => exact i.segmentRequest (fun _ g u iu => iu.rulingConfigure f g) e
  | start f => exact i.segmentRequest (fun _ g u iu => iu.rulingStart g) e
  | stop f => exact i.segmentRequest (fun _ g u iu => iu.rulingStop g) e
  | resume f => exact i.segmentRequest (fun _ g u iu => iu.rulingResume g) e
  | resetSegment f => exact i.segmentRequest (fun _ g u iu => iu.resetSegment g) e
  | querySegment f => exact i.segmentRequest (fun _ g u iu => iu) e
  | queryCounters f => exact i.segmentRequest (fun _ g u iu => iu.rulingQueryCounters _ g) e
  | addStation f => exact i.segmentRequest (fun _ g u iu => iu.rulingAddStation _ _ _ g) e
  | removeStation f => exact i.segmentRequest (fun _ g u iu => iu.rulingRemoveStation _ g) e
  | reviveStation f => exact i.segmentRequest (fun _ g u iu => iu.rulingReviveStation _ g) e
  | setClass f => exact i.segmentRequest (fun _ g u iu => iu.rulingSetClass _ _ g) e
  | queryStation f => exact i.segmentRequest (fun _ g u iu => by rwa [rulingQueryStation_state]) e
  | listStations f => exact i.segmentRequest (fun _ g u iu => by rwa [rulingListStations_state]) e
  | submit f => exact i.submit f e
  | cancel f => exact i.exactRequest 2 f (fun _ u iu => iu.rulingCancel f) e
  | queryJob f => exact i.exactRequest 2 f (fun _ u iu => by rwa [rulingQueryJob_state]) e
  | discover f => exact i.segmentRequest (fun _ g u iu => iu.rulingDiscover _ _ g) e
  | stopDiscovery f => exact i.segmentRequest (fun _ g u iu => iu.rulingStopDiscovery g) e
  | admitFind f => exact i.segmentRequest (fun _ g u iu => iu.rulingAdmit _ _ _ g) e
  | refuseFind f => exact i.segmentRequest (fun _ g u iu => iu.rulingRefuse _ g) e
  | rstnFall wait held => exact i.rstnFall wait held e
  | rstnRelease wait => exact i.rstnRelease wait e
  | deadlineExpiry h => exact i.deadlineExpiry h e
  | backoffExpiry h => exact i.backoffExpiry h e
  | settleGapReached g => exact i.settleGapReached g e
  | receivedItem wait g item spaceAtEnd => exact i.receivedItem wait g item spaceAtEnd e
  | frameSentWhole g => exact i.frameSentWhole g e
  | guardEnd g => exact i.guardEnd g e
  | abortBreakEnd g => exact i.abortBreakEnd g e
  | replyTimerExpiry g => exact i.replyTimerExpiry g e
  | characterGapExpiry g => exact i.characterGapExpiry g e
  | deferTimerExpiry g => exact i.deferTimerExpiry g e
  | sweepTimerExpiry g => exact i.sweepTimerExpiry g e
  | admissionTimerExpiry g => exact i.admissionTimerExpiry g e
  | reEdgeIntervalEnd => exact i.reEdgeIntervalEnd e
  | characterSentWithoutEcho g => exact i.characterSentWithoutEcho g e
  | startBitConfirmed start g => exact i.startBitConfirmed start g e
  | lineReturnToMark wait g => exact i.lineReturnToMark wait g e

/-- Every step keeps the laws: an idle one changes nothing, any other runs one command with the queue's rest. -/
theorem Inv.step (i : Inv s) (e : Machine.step s = .next t) : Inv t := by
  unfold Machine.step at e
  split at e
  · injection e with e
    exact e ▸ i
  · rename_i c rest _
    have dequeued : Inv { s with pending := rest } := i.of_skel rfl
    exact dequeued.exec c e

end

/-- Settles O57: the laws are read from the skeleton of a state, and each command is shown to keep them by
the operations that it is made of. -/
theorem lawsKeptByEveryStep : Obligations.LawsKeptByEveryStep := fun _ _ i e => i.step e

end Sys2Proof.Machine
end

section
/-! The laws of `Inv` and of the places right after the release of RSTN (O56). -/

namespace Sys2Proof.Machine

/-- The reset state is what a release of RSTN leaves of itself. -/
theorem pinStart_reset : pinStart State.reset = State.reset := rfl

theorem reset_attentionLaw : AttentionLaw State.reset := by
  refine ⟨fun g => ?_, fun i e held => ?_⟩
  · simp [reset_seg, Column.reset, reset_entry]
  · simp [reset_entry] at held

theorem reset_waitOrderLaw : WaitOrderLaw State.reset := by
  intro g
  simp [reset_seg, Column.reset]

theorem reset_drainLaw : DrainLaw State.reset := by
  intro g draining
  simp [reset_seg, Column.reset] at draining

theorem reset_placeLaws : PlaceLaws State.reset where
  attention := reset_attentionLaw
  waiting := reset_waitOrderLaw
  live _ := by
    obtain ⟨holders, timers⟩ := (spots_good _).1 (pinStart_reset ▸ Spots.Good.pinStart State.reset)
    exact ⟨holders, timers, reset_drainLaw⟩

/-- Settles O56: no entry, no job and no exchange is left for a law to speak of, and HELLO alone is queued. -/
theorem lawsHoldAtReset : Obligations.LawsHoldAtReset :=
  ⟨pinStart_reset ▸ Inv.pinStart State.reset, reset_placeLaws⟩

end Sys2Proof.Machine
end

section
/-! The requests on stations: what each ruling is, case by case, and what the taken request does with it
(O23, O24, O26, O27). -/

namespace Sys2Proof.Machine

section
variable {s : State} {f : HostFrame} {g : Seg} {n : Nat}

/-! ## A taken request on a segment and its ruling -/

/-- The state and answer that a ruling gives a taken request on a segment. -/
theorem segmentRequest_ruled (h : OnSegment f g n s) {ruling : Seg → State → Ruling} {r : Ruling}
    (e : ruling g (afterTake f s) = r) :
    exactRequest n f (withSegment (bodyByte f 0) ruling) s
      = .next (setSlot f.tag r.outcome r.data r.state) := by
  obtain ⟨taken, length, segment⟩ := h
  rw [segmentRequest_taken taken length segment, e]

theorem segmentRequest_refused (h : OnSegment f g n s) {ruling : Seg → State → Ruling} {o : AnsOutcome}
    (e : ruling g (afterTake f s) = refuse o (afterTake f s)) :
    exactRequest n f (withSegment (bodyByte f 0) ruling) s = .next (answeredOnly f o [] s) :=
  segmentRequest_ruled h e

/-! ## Operands -/

theorem validAddr_iff {a : Nat} : validAddr a = true ↔ 1 ≤ a ∧ a ≤ 126 := by
  simp [validAddr, within]

theorem validPorts_iff {p : Nat} : validPorts p = true ↔ 1 ≤ p ∧ p ≤ 8 := by
  simp [validPorts, within]

/-- The poll class that a code 0 or 1 names. -/
theorem PollClass.ofCode_of_le {n : Nat} (h : n ≤ 1) :
    PollClass.ofCode n = some (if n = 0 then .none else .cyclic) := by
  match n, h with
  | 0, _ => rfl
  | 1, _ => rfl

theorem PollClass.ofCode_of_gt {n : Nat} (h : 1 < n) : PollClass.ofCode n = Option.none := by
  match n, h with
  | _ + 2, _ => rfl

theorem PollClass.code_eq (c : PollClass) : c.code = if c = .none then 0 else 1 := by
  cases c <;> rfl

theorem TableLaw.addr_range (T : TableLaw s) {i : Index} {e : Entry} (h : s.entry i = some e) :
    validAddr e.addr = true :=
  (T.1 i e h).1

theorem heldAt_iff {a : Nat} :
    heldAt s g a = true ↔ ∃ r, (s.seg g).disc.record = some r ∧ r.addr = a := by
  unfold heldAt
  cases (s.seg g).disc.record <;> simp

/-! ## ADD_STATION (R14) -/

/-- What ADD_STATION rules once its checks on the operands and the address have passed, by the lowest free index:
the entry of R2 there, and a probe of the address void (R115). -/
def stationMade (a ports cls : Nat) (g : Seg) (s : State) : Option Index → Ruling
  | none => refuse .tableFull s
  | some i =>
    ⟨(s.setEntry i (some (addedEntry g a ports (if cls = 0 then .none else .cyclic)))).updDisc g (voidProbe a),
      .ok, []⟩

section
variable {a ports cls : Nat}

theorem rulingAddStation_badValue
    (h : ¬(1 ≤ a ∧ a ≤ 126 ∧ 1 ≤ ports ∧ ports ≤ 8 ∧ cls ≤ 1)) :
    rulingAddStation a ports cls g s = refuse .badValue s := by
  unfold rulingAddStation
  by_cases c : cls ≤ 1
  · have bad : validAddr a = false ∨ validPorts ports = false := by
      rw [← Bool.not_eq_true, ← Bool.not_eq_true, validAddr_iff, validPorts_iff]
      omega
    rcases bad with bad | bad <;> simp [PollClass.ofCode_of_le c, bad]
  · simp [PollClass.ofCode_of_gt (Nat.lt_of_not_le c)]

variable (good : 1 ≤ a ∧ a ≤ 126 ∧ 1 ≤ ports ∧ ports ≤ 8 ∧ cls ≤ 1)
include good

/-- With good operands the checks on the address and the free indices are left. -/
theorem rulingAddStation_good :
    rulingAddStation a ports cls g s =
      if (findEntry s g a).isSome then refuse .addressInUse s
      else if heldAt s g a then refuse .addressHeld s
      else stationMade a ports cls g s (lowestFreeIndex s) := by
  obtain ⟨low, high, one, eight, code⟩ := good
  have address : validAddr a = true := validAddr_iff.2 ⟨low, high⟩
  have port : validPorts ports = true := validPorts_iff.2 ⟨one, eight⟩
  simp only [rulingAddStation, PollClass.ofCode_of_le code, address, port, Bool.not_true, Bool.or_self,
    Bool.false_eq_true, if_false]
  cases lowestFreeIndex s <;> rfl

theorem rulingAddStation_inUse (used : ∃ i e, s.entry i = some e ∧ e.seg = g ∧ e.addr = a) :
    rulingAddStation a ports cls g s = refuse .addressInUse s := by
  rw [rulingAddStation_good good, if_pos (findEntry_isSome_iff.2 used)]

variable (unused : ¬∃ i e, s.entry i = some e ∧ e.seg = g ∧ e.addr = a)
include unused

theorem rulingAddStation_held (held : ∃ r, (s.seg g).disc.record = some r ∧ r.addr = a) :
    rulingAddStation a ports cls g s = refuse .addressHeld s := by
  rw [rulingAddStation_good good, if_neg (mt findEntry_isSome_iff.1 unused), if_pos (heldAt_iff.2 held)]

variable (unheld : ¬∃ r, (s.seg g).disc.record = some r ∧ r.addr = a)
include unheld

theorem rulingAddStation_full (full : ∀ i, (s.entry i).isSome = true) :
    rulingAddStation a ports cls g s = refuse .tableFull s := by
  rw [rulingAddStation_good good, if_neg (mt findEntry_isSome_iff.1 unused), if_neg (mt heldAt_iff.1 unheld),
    lowestFreeIndex_full full]
  rfl

theorem rulingAddStation_made {i : Index} (free : s.entry i = none)
    (lowest : ∀ k, k < i → (s.entry k).isSome = true) :
    rulingAddStation a ports cls g s = stationMade a ports cls g s (some i) := by
  rw [rulingAddStation_good good, if_neg (mt findEntry_isSome_iff.1 unused), if_neg (mt heldAt_iff.1 unheld),
    lowestFreeIndex_of free lowest]

end

/-- Settles O23: the ruling of ADD_STATION, by the first check that fails. -/
theorem addStationMakesAnEntry : Obligations.AddStationMakesAnEntry := by
  unfold Obligations.AddStationMakesAnEntry
  intro f g s on
  refine ⟨fun bad => ?_, fun good used => ?_, fun good unused held => ?_, fun good unused unheld full => ?_,
    fun good unused unheld i free lowest => ?_⟩
  · exact segmentRequest_refused on (rulingAddStation_badValue bad)
  · exact segmentRequest_refused on (rulingAddStation_inUse good used)
  · exact segmentRequest_refused on (rulingAddStation_held good unused held)
  · exact segmentRequest_refused on (rulingAddStation_full good unused unheld full)
  · exact segmentRequest_ruled on (rulingAddStation_made good unused unheld free lowest)

/-! ## REMOVE_STATION (R15) -/

theorem ofStation_eq (s : State) (g : Seg) (a : Nat) (h : Handle) :
    ofStation s g a h = (s.job h).any fun j => j.kind != .broadcast && j.seg == g && j.addr == a := by
  unfold ofStation
  cases s.job h <;> rfl

/-- The station's waiting jobs, picked out by what their records say. -/
theorem stationJobs_eq (s : State) (g : Seg) (a : Nat) :
    stationJobs s g a = ((s.seg g).urgent ++ (s.seg g).normal ++ (s.seg g).waitSet).filter fun h =>
      (s.job h).any fun j => j.kind != .broadcast && j.seg == g && j.addr == a :=
  congrArg (List.filter · _) (funext (ofStation_eq s g a))

theorem namedByExchange_iff {i : Index} :
    namedByExchange s g i = true ↔ ∃ x, (s.seg g).exchange = some x ∧ x.entry = some i := by
  unfold namedByExchange
  cases (s.seg g).exchange <;> simp

theorem leaveAttention_exchange (i : Index) (s : State) (g : Seg) :
    ((leaveAttention i s).seg g).exchange = (s.seg g).exchange := by
  unfold leaveAttention
  split
  · rfl
  · rename_i e _
    by_cases same : g = e.seg
    · subst same
      simp
    · rw [seg_updSeg_other same, updEntry_seg]

theorem cancelCarried_job {x : Exchange} {h : Handle} (hx : (s.seg g).exchange = some x)
    (ho : x.origin = .job h) : cancelCarried g s = s.updJob h fun j => { j with cancel := true } := by
  simp only [cancelCarried, hx, ho]

theorem cancelCarried_other {x : Exchange} (hx : (s.seg g).exchange = some x)
    (ho : ∀ h, x.origin ≠ .job h) : cancelCarried g s = s := by
  unfold cancelCarried
  cases origin : x.origin with
  | job h => exact absurd origin (ho h)
  | _ => simp only [hx, origin]

/-- The two steps of R15 before the entry is freed or retires: the station's jobs end, and the entry leaves the
attention list. -/
def stationCleared (g : Seg) (a : Nat) (i : Index) (s : State) : State :=
  leaveAttention i (completeJobs (stationJobs s g a) .cancelled s)

theorem removeEntry_eq (g : Seg) (a : Nat) (i : Index) (s : State) :
    removeEntry g a i s = freeOrRetire g i (stationCleared g a i s) := rfl

theorem stationCleared_exchange (a : Nat) (i : Index) (s : State) (g : Seg) :
    ((stationCleared g a i s).seg g).exchange = (s.seg g).exchange := by
  obtain ⟨-, same_exchange, -⟩ := completeJobs_seg (stationJobs s g a) .cancelled s g
  rw [stationCleared, leaveAttention_exchange, same_exchange]

section
variable {a : Nat} {i : Index}

theorem removeEntry_free (h : ¬∃ x, (s.seg g).exchange = some x ∧ x.entry = some i) :
    removeEntry g a i s = (stationCleared g a i s).setEntry i none := by
  rw [removeEntry_eq, freeOrRetire, if_neg]
  rwa [namedByExchange_iff, stationCleared_exchange]

variable {x : Exchange} (hx : (s.seg g).exchange = some x) (hi : x.entry = some i)
include hx hi

theorem removeEntry_named : removeEntry g a i s
    = cancelCarried g ((stationCleared g a i s).updEntry i fun e => { e with state := .retiring }) := by
  rw [removeEntry_eq, freeOrRetire, if_pos]
  rw [namedByExchange_iff, stationCleared_exchange]
  exact ⟨x, hx, hi⟩

theorem removeEntry_cancel {h : Handle} (ho : x.origin = .job h) : removeEntry g a i s
    = ((stationCleared g a i s).updEntry i fun e => { e with state := .retiring }).updJob h fun j =>
      { j with cancel := true } := by
  rw [removeEntry_named hx hi, cancelCarried_job _ ho]
  rw [updEntry_seg, stationCleared_exchange, hx]

theorem removeEntry_retire (ho : ∀ h, x.origin ≠ .job h) : removeEntry g a i s
    = (stationCleared g a i s).updEntry i fun e => { e with state := .retiring } := by
  rw [removeEntry_named hx hi, cancelCarried_other _ ho]
  rw [updEntry_seg, stationCleared_exchange, hx]

end

section
variable {a : Nat}

theorem rulingRemoveStation_badValue (h : ¬(1 ≤ a ∧ a ≤ 126)) :
    rulingRemoveStation a g s = refuse .badValue s := by
  simp [rulingRemoveStation, mt validAddr_iff.1 h]

theorem rulingRemoveStation_noStation (range : 1 ≤ a ∧ a ≤ 126)
    (absent : ∀ i e, s.entry i = some e → e.seg = g → e.addr = a → e.state = .retiring) :
    rulingRemoveStation a g s = refuse .noStation s := by
  simp [rulingRemoveStation, validAddr_iff.2 range, workingEntryAt_none_of absent]

theorem rulingRemoveStation_found (T : TableLaw s) {i : Index} {e : Entry} (he : s.entry i = some e)
    (hs : e.seg = g) (ha : e.addr = a) (working : e.state ≠ .retiring) :
    rulingRemoveStation a g s = ⟨removeEntry g a i s, .ok,
      [byte (dispositionCode (namedByExchange s g i)), byte (stationJobs s g a).length]⟩ := by
  simp [rulingRemoveStation, ha ▸ T.addr_range he, workingEntryAt_of T he hs ha working]

end

/-- Settles O24: the ruling of REMOVE_STATION on the one entry that TableLaw lets have the address, by what the
segment's exchange names and carries. -/
theorem removeStationFreesOrRetires : Obligations.RemoveStationFreesOrRetires := by
  unfold Obligations.RemoveStationFreesOrRetires
  intro f g s on T
  refine ⟨fun bad => ?_, fun range absent => ?_, fun i e he hs ha working => ?_⟩
  · exact segmentRequest_refused on (rulingRemoveStation_badValue bad)
  · exact segmentRequest_refused on (rulingRemoveStation_noStation range absent)
  · have ruled := segmentRequest_ruled on (rulingRemoveStation_found (T.afterTake f) he hs ha working)
    rw [← stationJobs_eq]
    refine ⟨fun unnamed => ?_, fun x hx hi => ⟨fun h ho => ?_, fun ho => ?_⟩⟩
    · rw [Bool.eq_false_of_not_eq_true (mt namedByExchange_iff.1 unnamed), removeEntry_free unnamed] at ruled
      exact ruled
    · rw [namedByExchange_iff.2 ⟨x, hx, hi⟩, removeEntry_cancel hx hi ho] at ruled
      exact ruled
    · rw [namedByExchange_iff.2 ⟨x, hx, hi⟩, removeEntry_retire hx hi ho] at ruled
      exact ruled

/-! ## REVIVE_STATION and SET_CLASS (R16, R17) -/

section
variable {a cls : Nat}

theorem rulingReviveStation_badValue (h : ¬(1 ≤ a ∧ a ≤ 126)) :
    rulingReviveStation a g s = refuse .badValue s := by
  simp [rulingReviveStation, mt validAddr_iff.1 h]

theorem rulingSetClass_badValue (h : ¬((1 ≤ a ∧ a ≤ 126) ∧ cls ≤ 1)) :
    rulingSetClass a cls g s = refuse .badValue s := by
  by_cases code : cls ≤ 1
  · simp [rulingSetClass, PollClass.ofCode_of_le code, mt validAddr_iff.1 fun range => h ⟨range, code⟩]
  · simp [rulingSetClass, PollClass.ofCode_of_gt (Nat.lt_of_not_le code)]

section
variable (range : 1 ≤ a ∧ a ≤ 126)
  (absent : ∀ i e, s.entry i = some e → e.seg = g → e.addr = a → e.state = .retiring)
include range absent

theorem rulingReviveStation_noStation : rulingReviveStation a g s = refuse .noStation s := by
  simp [rulingReviveStation, validAddr_iff.2 range, workingEntryAt_none_of absent]

theorem rulingSetClass_noStation (code : cls ≤ 1) : rulingSetClass a cls g s = refuse .noStation s := by
  simp [rulingSetClass, PollClass.ofCode_of_le code, validAddr_iff.2 range, workingEntryAt_none_of absent]

end

section
variable (T : TableLaw s) {i : Index} {e : Entry} (he : s.entry i = some e) (hs : e.seg = g)
  (ha : e.addr = a)
include T he hs ha

theorem rulingReviveStation_wrongState (working : e.state ≠ .retiring) (alive : e.state ≠ .offline) :
    rulingReviveStation a g s = refuse .wrongState s := by
  simp [rulingReviveStation, ha ▸ T.addr_range he, workingEntryAt_of T he hs ha working, alive]

theorem rulingReviveStation_revived (working : e.state ≠ .retiring) (offline : e.state = .offline) :
    rulingReviveStation a g s = ⟨s.setEntry i (some (revived e)), .ok, []⟩ := by
  simp [rulingReviveStation, ha ▸ T.addr_range he, workingEntryAt_of T he hs ha working, offline,
    updEntry_of he]

theorem rulingSetClass_set (working : e.state ≠ .retiring) (code : cls ≤ 1) :
    rulingSetClass a cls g s =
      ⟨s.setEntry i (some { e with pollClass := if cls = 0 then .none else .cyclic }), .ok,
        [byte (if e.pollClass = .none then 0 else 1)]⟩ := by
  simp only [rulingSetClass, PollClass.ofCode_of_le code, ha ▸ T.addr_range he, Bool.not_true,
    Bool.false_eq_true, if_false, workingEntryAt_of T he hs ha working, updEntry_of he, PollClass.code_eq]

end

end

/-- Settles O26: the rulings of REVIVE_STATION and SET_CLASS, by their checks in order. -/
theorem reviveAndSetClass : Obligations.ReviveAndSetClass := by
  unfold Obligations.ReviveAndSetClass
  intro f g s T
  have T' := T.afterTake f
  refine ⟨fun on => ⟨fun bad => ?_, fun range absent => ?_, fun i e he hs ha working =>
      ⟨fun alive => ?_, fun offline => ?_⟩⟩,
    fun on => ⟨fun bad => ?_, fun range code absent => ?_, fun code i e he hs ha working => ?_⟩⟩
  · exact segmentRequest_refused on (rulingReviveStation_badValue bad)
  · exact segmentRequest_refused on (rulingReviveStation_noStation range absent)
  · exact segmentRequest_refused on (rulingReviveStation_wrongState T' he hs ha working alive)
  · exact segmentRequest_ruled on (rulingReviveStation_revived T' he hs ha working offline)
  · exact segmentRequest_refused on (rulingSetClass_badValue bad)
  · exact segmentRequest_refused on (rulingSetClass_noStation range absent code)
  · exact segmentRequest_ruled on (rulingSetClass_set T' he hs ha working code)

/-! ## QUERY_STATION and LIST_STATIONS (R18, R19) -/

section
variable {a : Nat}

theorem rulingQueryStation_badValue (h : ¬(1 ≤ a ∧ a ≤ 126)) :
    rulingQueryStation a g s = refuse .badValue s := by
  simp [rulingQueryStation, mt validAddr_iff.1 h]

theorem rulingQueryStation_noStation (range : 1 ≤ a ∧ a ≤ 126)
    (absent : ∀ i e, s.entry i = some e → ¬(e.seg = g ∧ e.addr = a)) :
    rulingQueryStation a g s = refuse .noStation s := by
  simp [rulingQueryStation, validAddr_iff.2 range, entryAt_none_of absent]

theorem rulingQueryStation_found (T : TableLaw s) {i : Index} {e : Entry} (he : s.entry i = some e)
    (hs : e.seg = g) (ha : e.addr = a) : rulingQueryStation a g s = ⟨s, .ok, stationAnswer i e⟩ := by
  simp [rulingQueryStation, ha ▸ T.addr_range he, entryAt_of T he hs ha]

theorem rulingListStations_badValue (h : ¬(1 ≤ a ∧ a ≤ 126)) :
    rulingListStations a g s = refuse .badValue s := by
  simp [rulingListStations, mt validAddr_iff.1 h]

theorem rulingListStations_listed (range : 1 ≤ a ∧ a ≤ 126) :
    rulingListStations a g s = ⟨s, .ok, (listedEntries s g a).flatMap fun p =>
      [byte p.1.val, byte p.2.addr, listByte p.2]⟩ := by
  simp [rulingListStations, validAddr_iff.2 range]

end

/-- A flag in place `k` of a flag byte. -/
theorem flagAt_eq (k : Nat) (b : Bool) : flagAt k b = 2 ^ k * bit b := by
  cases b <;> simp [flagAt, bit]

theorem listByte_eq (e : Entry) :
    listByte e = byte (e.state.code + 8 * bit (e.pollClass == .cyclic) + 16 * bit e.attention
      + 32 * bit (e.sync == .unsynced) + 64 * bit e.identity.isSome + 128 * bit (e.origin == .admitted)) := by
  simp only [listByte, flagAt_eq, Nat.reducePow]

theorem presenceByte_eq (e : Entry) :
    presenceByte e = byte (bit e.lastStatus.isSome + 2 * bit e.identity.isSome) := by
  simp only [presenceByte, flagAt_eq, pow_zero, pow_one, one_mul]

/-! ### The listed entries -/

/-- All entries of a segment at or above an address, in ascending order of address. -/
def entriesFrom (s : State) (g : Seg) (start : Nat) : List (Index × Entry) :=
  ((List.range 127).filter fun a => decide (start ≤ a)).filterMap fun a => entryAt s g a

theorem listedEntries_eq (s : State) (g : Seg) (start : Nat) :
    listedEntries s g start = (entriesFrom s g start).take 16 := rfl

theorem entryAt_eq_some {a : Nat} {p : Index × Entry} (h : entryAt s g a = some p) :
    s.entry p.1 = some p.2 ∧ p.2.seg = g ∧ p.2.addr = a := by
  obtain ⟨here, found⟩ := entryAt_some h
  have matched := List.find?_some found
  simp only [here, Bool.and_eq_true, beq_iff_eq] at matched
  exact ⟨here, matched⟩

theorem mem_entriesFrom {start : Nat} {p : Index × Entry} (h : p ∈ entriesFrom s g start) :
    s.entry p.1 = some p.2 ∧ p.2.seg = g ∧ start ≤ p.2.addr := by
  simp only [entriesFrom, List.mem_filterMap, List.mem_filter, decide_eq_true_eq] at h
  obtain ⟨a, ⟨-, above⟩, found⟩ := h
  obtain ⟨here, segment, address⟩ := entryAt_eq_some found
  exact ⟨here, segment, address ▸ above⟩

theorem mem_entriesFrom_of (T : TableLaw s) {start : Nat} {i : Index} {e : Entry} (he : s.entry i = some e)
    (hs : e.seg = g) (above : start ≤ e.addr) : (i, e) ∈ entriesFrom s g start := by
  have high := (validAddr_iff.1 (T.addr_range he)).2
  simp only [entriesFrom, List.mem_filterMap, List.mem_filter, List.mem_range, decide_eq_true_eq]
  exact ⟨e.addr, ⟨by omega, above⟩, entryAt_of T he hs rfl⟩

theorem entriesFrom_ascending (s : State) (g : Seg) (start : Nat) :
    (entriesFrom s g start).Pairwise fun p q => p.2.addr < q.2.addr := by
  refine List.pairwise_filterMap.2 ((List.pairwise_lt_range.filter _).imp fun {a b} lt p hp q hq => ?_)
  obtain ⟨-, -, first⟩ := entryAt_eq_some hp
  obtain ⟨-, -, second⟩ := entryAt_eq_some hq
  omega

/-- An entry past the first `n` of a pairwise ordered list follows all of these, and they are `n`. -/
theorem mem_take_or_after {α : Type} {r : α → α → Prop} {l : List α} (ordered : l.Pairwise r) {x : α}
    (h : x ∈ l) (n : Nat) : x ∈ l.take n ∨ ((l.take n).length = n ∧ ∀ y ∈ l.take n, r y x) := by
  rw [← List.take_append_drop n l] at h ordered
  rcases List.mem_append.1 h with first | later
  · exact .inl first
  · have long : n < l.length := by
      have := List.length_pos_of_mem later
      rw [List.length_drop] at this
      omega
    refine .inr ⟨by rw [List.length_take]; omega, fun y hy => ?_⟩
    exact (List.pairwise_append.1 ordered).2.2 y hy x later

/-- Settles O27: the rulings of the two queries, and the listed entries as the first sixteen of those from the
address on. -/
theorem stationQueriesAnswer : Obligations.StationQueriesAnswer := by
  unfold Obligations.StationQueriesAnswer
  intro f g s on T
  have T' := T.afterTake f
  refine ⟨fun bad => ⟨?_, ?_⟩, fun range absent => ?_, fun i e he hs ha => ?_, fun range =>
    ⟨(entriesFrom (afterTake f s) g (byteAt f.body 1)).take 16, ?_, ?_, ?_, fun p listed => ?_,
      fun i e he hs above => ?_⟩⟩
  · exact segmentRequest_refused on (rulingQueryStation_badValue bad)
  · exact segmentRequest_refused on (rulingListStations_badValue bad)
  · exact segmentRequest_refused on (rulingQueryStation_noStation range absent)
  · have ruled := segmentRequest_ruled on (rulingQueryStation_found T' he hs ha)
    rw [stationAnswer, presenceByte_eq, ha, hs] at ruled
    exact ruled
  · have ruled := segmentRequest_ruled on (rulingListStations_listed (s := afterTake f s) (g := g) range)
    simp only [listedEntries_eq, listByte_eq] at ruled
    exact ruled
  · exact List.length_take_le ..
  · exact (entriesFrom_ascending ..).take
  · exact mem_entriesFrom (List.mem_of_mem_take listed)
  · exact mem_take_or_after (entriesFrom_ascending ..) (mem_entriesFrom_of T' he hs above) 16

end

end Sys2Proof.Machine
end

section
/-! The end of an exchange: the segment's own action after the hand-offs, and the health of the
entry (O45, O47). -/

namespace Sys2Proof.Machine

section
variable {s : State} {g : Seg} {x : Exchange} {i : Index} {e : Entry}

/-! ## The exchange's entry -/

theorem retiringEntry_of_entry (h : x.entry = some i) (s : State) :
    retiringEntry s x = (s.entry i).any (·.state == .retiring) := by
  simp only [retiringEntry, entryOf, h, Option.bind_some]
  cases s.entry i <;> rfl

theorem freeRetiring_of_none (h : x.entry = none) (s : State) : freeRetiring x s = s := by
  simp only [freeRetiring, h]

theorem freeRetiring_of_some (h : x.entry = some i) (s : State) :
    freeRetiring x s = if (s.entry i).any (·.state == .retiring) then s.setEntry i none else s := by
  simp only [freeRetiring, h, retiringEntry_of_entry h]

/-! ## The segment's action (step 6 of R65) -/

/-- A segment that stops gives up its exchange, and its sweep timer stops (R103). -/
def Column.stopped (state : SegState) (c : Column) : Column :=
  { c with state := state, exchange := none, sweep := { c.sweep with timer := none } }

theorem segmentFreed_fault (f : SegFault) (g : Seg) (s : State) :
    segmentFreed g (some f) s = eventReport (.segmentState g (s.seg g).state .faulted f.cause)
      (s.updSeg g (Column.stopped .faulted)) := by
  simp only [segmentFreed, enterFaulted, seg_updSeg_same, updSeg_updSeg]
  rfl

theorem segmentFreed_draining (h : (s.seg g).state = .draining) :
    segmentFreed g none s = eventReport (.segmentState g .draining .halted .stopped)
      ((s.updSeg g (Column.stopped .halted)).updSeg g fun c => { c with streak := 0 }) := by
  simp only [segmentFreed, endDrain, seg_updSeg_same, h, updSeg_updSeg]
  rfl

theorem segmentFreed_running (h : (s.seg g).state = .running) :
    segmentFreed g none s = pick g (s.updSeg g fun c => { c with exchange := none }) := by
  simp only [segmentFreed, seg_updSeg_same, h]

/-- Settles O45: the order is that of the definition, and each way the segment goes on is its own lemma. -/
theorem exchangeEndsInOrder : Obligations.ExchangeEndsInOrder := by
  unfold Obligations.ExchangeEndsInOrder
  intro g x form fault s handed v stops old t
  have freed : freeRetiring x handed = v := by
    cases h : x.entry with
    | none =>
      simp only [v, h]
      exact freeRetiring_of_none h handed
    | some i =>
      simp only [v, h]
      exact freeRetiring_of_some h handed
  have ends : t = segmentFreed g fault v := congrArg (segmentFreed g fault) freed
  refine ⟨fun contention => ?_, fun jabber => ?_, fun unfaulted draining => ?_, fun unfaulted running => ?_⟩
  · rw [ends, contention]
    exact segmentFreed_fault .contention g v
  · rw [ends, jabber]
    exact segmentFreed_fault .jabber g v
  · rw [ends, unfaulted]
    exact segmentFreed_draining draining
  · rw [ends, unfaulted]
    exact segmentFreed_running running

/-! ## The health of an entry (R7 to R11) -/

theorem handClass_retiring (he : s.entry i = some e) (h : e.state = .retiring) (cls : OutcomeClass) :
    handClass i cls s = s := by
  simp only [handClass, he, h, if_true]

theorem handClass_neutral (i : Index) (s : State) : handClass i .neutral s = s := by
  unfold handClass
  split
  · rfl
  · split <;> rfl

theorem handOutcome_of_class (hx : x.entry = some i) {form : EndForm} {cls : OutcomeClass}
    (h : outcomeClass form = some cls) (s : State) : handOutcome x form s = handClass i cls s := by
  simp only [handOutcome, hx, h]

theorem handOutcome_of_no_class {form : EndForm} (h : outcomeClass form = none) (x : Exchange) (s : State) :
    handOutcome x form s = s := by
  unfold handOutcome
  split
  · rename_i some_class
    rw [h] at some_class
    contradiction
  · rfl

theorem outcomeClass_fault {k : FailKind} (h : k ≠ .contention) :
    outcomeClass (.failed (.fault k)) = some .failed := by
  simp only [outcomeClass, h, if_false]

theorem handOutcome_retiring (hx : x.entry = some i) (he : s.entry i = some e) (h : e.state = .retiring)
    (form : EndForm) : handOutcome x form s = s := by
  cases cls : outcomeClass form with
  | none => exact handOutcome_of_no_class cls x s
  | some c => rw [handOutcome_of_class hx cls, handClass_retiring he h]

section
variable (he : s.entry i = some e)
include he

theorem handClass_contact (h : e.state = .enlisted ∨ e.state = .silent) :
    handClass i .good s = eventReport (.stationState e.seg e.addr e.state .online .contact)
      (s.setEntry i (some { e with
        misses := 0, silentFails := 0, goodReplies := satInc e.goodReplies, state := .online })) := by
  have working : e.state ≠ .retiring := by rcases h with h | h <;> simp [h]
  simp only [handClass, he, working, if_false, goodOutcome, if_pos h, updEntry_of he,
    updEntry_of (entry_setEntry_same ..), setEntry_setEntry]

theorem handClass_good_online (h : e.state = .online) :
    handClass i .good s = s.setEntry i (some { e with
      misses := 0, silentFails := 0, goodReplies := satInc e.goodReplies }) := by
  simp [handClass, he, h, goodOutcome, updEntry_of he]

theorem handClass_failed_present (h : e.state = .enlisted ∨ e.state = .online) :
    handClass i .failed s = missOutcome i e s := by
  rcases h with h | h <;> simp [handClass, he, h, failedOutcome]

theorem missOutcome_below (h : e.misses + 1 ≠ (s.seg e.seg).config.missLimit) :
    missOutcome i e s = s.setEntry i (some { e with misses := e.misses + 1 }) := by
  simp only [missOutcome, h, if_false, updEntry_of he]

theorem missOutcome_limit (h : e.misses + 1 = (s.seg e.seg).config.missLimit) :
    missOutcome i e s = eventReport (.stationState e.seg e.addr e.state .silent .misses)
      (s.setEntry i (some { e with state := .silent, misses := 0, silentFails := 0 })) := by
  simp only [missOutcome, if_pos h, updEntry_of he]

theorem handClass_failed_silent (h : e.state = .silent) :
    handClass i .failed s = silentOutcome i e s := by
  simp [handClass, he, h, failedOutcome]

theorem silentOutcome_below (h : e.silentFails + 1 ≠ (s.seg e.seg).config.offlineLimit) :
    silentOutcome i e s = s.setEntry i (some { e with silentFails := e.silentFails + 1 }) := by
  simp only [silentOutcome, h, if_false, updEntry_of he]

/-- The move to OFFLINE: reported, the station's waiting jobs ended, the entry off the attention list. -/
theorem silentOutcome_limit (h : e.silentFails + 1 = (s.seg e.seg).config.offlineLimit) :
    silentOutcome i e s =
      let v := eventReport (.stationState e.seg e.addr .silent .offline .silence)
        (s.setEntry i (some { e with state := .offline, silentFails := e.silentFails + 1 }))
      leaveAttention i (completeJobs (stationJobs v e.seg e.addr) .stationOffline v) := by
  simp only [silentOutcome, if_pos h, goOffline, updEntry_of he]

end

/-- Settles O47: the form of the end gives the class of outcome, and the class acts by the entry's state and
counts. -/
theorem healthFollowsTheOutcome : Obligations.HealthFollowsTheOutcome := by
  unfold Obligations.HealthFollowsTheOutcome
  intro x i e s hx he
  have good (r : Reply) : handOutcome x (.reply r) s = handClass i .good s := handOutcome_of_class hx rfl s
  have failed {k : FailKind} (h : k ≠ .contention) :
      handOutcome x (.failed (.fault k)) s = handClass i .failed s :=
    handOutcome_of_class hx (outcomeClass_fault h) s
  have neutral {form : EndForm} (h : outcomeClass form = some .neutral) : handOutcome x form s = s := by
    rw [handOutcome_of_class hx h, handClass_neutral]
  refine ⟨fun retiring => handOutcome_retiring hx he retiring, fun _ =>
    ⟨fun r => ⟨fun contact => ?_, fun online => ?_⟩,
      fun k h => ⟨fun present => ⟨fun below => ?_, fun limit => ?_⟩,
        fun silent => ⟨fun below => ?_, fun limit => ?_⟩⟩,
      neutral rfl, neutral rfl, fun _ => neutral rfl, handOutcome_of_no_class rfl x s⟩⟩
  · rw [good, handClass_contact he contact]
  · rw [good, handClass_good_online he online]
  · rw [failed h, handClass_failed_present he present, missOutcome_below he below]
  · rw [failed h, handClass_failed_present he present, missOutcome_limit he limit]
  · rw [failed h, handClass_failed_silent he silent, silentOutcome_below he below]
  · intro v theirs jobs
    rw [failed h, handClass_failed_silent he silent, silentOutcome_limit he limit]
    exact congrArg (fun hs => leaveAttention i (completeJobs hs .stationOffline v))
      (stationJobs_eq v e.seg e.addr)

end

end Sys2Proof.Machine
end

section
/-! What the operations leave of the reports, the jobs, the attention lists, the waiting sets and the drains:
the ground of O58 and O59. -/

namespace Sys2Proof.Machine

/-! ## The ledger of a state -/

/-- What a job is taken with, and keeps as long as it is live (R24). -/
structure JobTerms where
  tag      : BitVec 16
  seg      : Seg
  addr     : Nat
  port     : Nat
  kind     : JobKind
  lane     : Lane
  deadline : Option Nat
  request  : List Byte

def Job.terms (j : Job) : JobTerms := ⟨j.tag, j.seg, j.addr, j.port, j.kind, j.lane, j.deadline, j.request⟩

/-- What AttentionLaw reads of an entry. -/
structure EntryMark where
  seg    : Seg
  marked : Bool
  state  : StationState

def Entry.mark (e : Entry) : EntryMark := ⟨e.seg, e.attention, e.state⟩

section
variable (e : Entry)

@[simp] theorem mark_seg : e.mark.seg = e.seg := rfl
@[simp] theorem mark_marked : e.mark.marked = e.attention := rfl
@[simp] theorem mark_state : e.mark.state = e.state := rfl

end

/-- What the laws of attention, of the waiting order and of drains read of a column. -/
structure Holding where
  attention : List Index
  waitSet   : List Handle
  state     : SegState
  busy      : Bool

def Column.holding (c : Column) : Holding := ⟨c.attention, c.waitSet, c.state, c.exchange.isSome⟩

section
variable (c : Column)

@[simp] theorem holding_attention : c.holding.attention = c.attention := rfl
@[simp] theorem holding_waitSet : c.holding.waitSet = c.waitSet := rfl
@[simp] theorem holding_state : c.holding.state = c.state := rfl
@[simp] theorem holding_busy : c.holding.busy = c.exchange.isSome := rfl

end

/-- DrainLaw at one segment. -/
def Holding.Drained (c : Holding) : Prop := c.state = .draining → c.busy = true

/-- What O59 and the laws of attention, of the waiting order and of drains read of a state. -/
structure Ledger where
  reports : List Report
  terms   : Handle → Option JobTerms
  marks   : Index → Option EntryMark
  columns : Seg → Holding

def ledger (s : State) : Ledger where
  reports   := s.queue.reports
  terms h   := (s.job h).map Job.terms
  marks i   := (s.entry i).map Entry.mark
  columns g := (s.seg g).holding

/-- What the ledger reads of one job, one entry and one segment. -/
@[simp] theorem ledger_terms (s : State) (h : Handle) : (ledger s).terms h = (s.job h).map Job.terms := rfl
@[simp] theorem ledger_marks (s : State) (i : Index) : (ledger s).marks i = (s.entry i).map Entry.mark := rfl
@[simp] theorem ledger_columns (s : State) (g : Seg) : (ledger s).columns g = (s.seg g).holding := rfl
@[simp] theorem ledger_reports (s : State) : (ledger s).reports = s.queue.reports := rfl

/-- AttentionLaw: who stands on the lists, and who may have a mark. -/
structure AttendedBy (lists : Seg → List Index) (marks : Index → Option EntryMark) : Prop where
  listed : ∀ g, (lists g).Nodup ∧ ∀ i, i ∈ lists g ↔ ∃ e, marks i = some e ∧ e.seg = g ∧ e.marked = true
  fit    : ∀ i e, marks i = some e → e.marked = true → e.state ≠ .offline ∧ e.state ≠ .retiring

def Ledger.Attended (k : Ledger) : Prop := AttendedBy (fun g => (k.columns g).attention) k.marks

/-- WaitOrderLaw. -/
def Ledger.Ordered (k : Ledger) : Prop := ∀ g, (k.columns g).waitSet.Pairwise (· < ·)

theorem attentionLaw_iff (s : State) : AttentionLaw s ↔ (ledger s).Attended := by
  constructor
  · rintro ⟨listed, fit⟩
    refine ⟨fun g => ⟨(listed g).1, fun i => ((listed g).2 i).trans ?_⟩, fun i m hm => ?_⟩
    · simp
    · obtain ⟨e, he, rfl⟩ := Option.map_eq_some_iff.1 hm
      exact fit i e he
  · rintro ⟨listed, fit⟩
    refine ⟨fun g => ⟨(listed g).1, fun i => ((listed g).2 i).trans ?_⟩, fun i e he => ?_⟩
    · simp
    · exact fit i e.mark (by simp [he])

/-- The report is the RESULT of a job with the tag. -/
def Report.Results (r : Report) (tag : BitVec 16) : Prop :=
  ∃ o a b l m d, r.body = .result tag o a b l m d

/-- What has become of the ledger `k`: the reports are those kept and some added at the tail; every job is still
live on its terms or has its RESULT among the added; and each law is kept. -/
structure Ledger.Flow (kept : List Report) (k l : Ledger) : Prop where
  follows : ∃ added, l.reports = kept ++ added
    ∧ ∀ h j, k.terms h = some j → l.terms h = some j ∨ ∃ r ∈ added, r.Results j.tag
  attends : k.Attended → l.Attended
  ordered : k.Ordered → l.Ordered
  drained : ∀ g, (k.columns g).Drained → (l.columns g).Drained

/-- What has become of state `s` by `t`, the reports kept of `s` being `kept`. -/
def Flow (kept : List Report) (s t : State) : Prop := (ledger s).Flow kept (ledger t)

theorem Flow.refl (s : State) : Flow s.queue.reports s s where
  follows := ⟨[], (List.append_nil _).symm, fun _ _ e => .inl e⟩
  attends := id
  ordered := id
  drained _ := id

theorem Flow.trans {kept : List Report} {s t u : State} (F : Flow kept s t) (G : Flow t.queue.reports t u) :
    Flow kept s u where
  follows := by
    obtain ⟨first, e, jobs⟩ := F.follows
    obtain ⟨second, e', jobs'⟩ := G.follows
    refine ⟨first ++ second, ?_, fun h j live => ?_⟩
    · rw [e', ← List.append_assoc]
      exact congrArg (· ++ second) e
    · rcases jobs h j live with live | ⟨r, m, tag⟩
      · exact (jobs' h j live).imp_right fun ⟨r, m, tag⟩ => ⟨r, List.mem_append_right _ m, tag⟩
      · exact .inr ⟨r, List.mem_append_left _ m, tag⟩
  attends := G.attends ∘ F.attends
  ordered := G.ordered ∘ F.ordered
  drained g := G.drained g ∘ F.drained g

/-! ## The ledger after each update -/

theorem ledger_updSeg (g : Seg) (f : Column → Column) (s : State) : ledger (s.updSeg g f)
    = { ledger s with columns := Function.update (ledger s).columns g (f (s.seg g)).holding } := by
  have columns : (fun k => ((s.updSeg g f).seg k).holding)
      = Function.update (fun k => (s.seg k).holding) g (f (s.seg g)).holding := by
    funext k
    rw [seg_updSeg]
    by_cases same : k = g
    · subst same; simp
    · simp [same]
  simp only [ledger, updSeg_queue, updSeg_job, updSeg_entry, columns]

theorem ledger_setEntry (i : Index) (e : Option Entry) (s : State) : ledger (s.setEntry i e)
    = { ledger s with marks := Function.update (ledger s).marks i (e.map Entry.mark) } := by
  have marks : (fun k => ((s.setEntry i e).entry k).map Entry.mark)
      = Function.update (fun k => (s.entry k).map Entry.mark) i (e.map Entry.mark) := by
    funext k
    rw [entry_setEntry]
    by_cases same : k = i
    · subst same; simp
    · simp [same]
  simp only [ledger, setEntry_queue, setEntry_job, setEntry_seg, marks]

theorem ledger_setJob (h : Handle) (j : Option Job) (s : State) : ledger (s.setJob h j)
    = { ledger s with terms := Function.update (ledger s).terms h (j.map Job.terms) } := by
  have terms : (fun k => ((s.setJob h j).job k).map Job.terms)
      = Function.update (fun k => (s.job k).map Job.terms) h (j.map Job.terms) := by
    funext k
    rw [job_setJob]
    by_cases same : k = h
    · subst same; simp
    · simp [same]
  simp only [ledger, setJob_queue, setJob_entry, setJob_seg, terms]

theorem ledger_updSeg_silent {g : Seg} {f : Column → Column} {s : State}
    (h : (f (s.seg g)).holding = (s.seg g).holding) : ledger (s.updSeg g f) = ledger s := by
  rw [ledger_updSeg, h]
  simp [ledger]

theorem ledger_updEntry {i : Index} {f : Entry → Entry} {s : State} (h : ∀ e, (f e).mark = e.mark) :
    ledger (s.updEntry i f) = ledger s := by
  have same : ((s.entry i).map f).map Entry.mark = (s.entry i).map Entry.mark := by
    cases s.entry i <;> simp [h]
  rw [State.updEntry, ledger_setEntry, same]
  simp [ledger]

theorem ledger_updJob {h : Handle} {f : Job → Job} {s : State} (e : ∀ j, (f j).terms = j.terms) :
    ledger (s.updJob h f) = ledger s := by
  have same : ((s.job h).map f).map Job.terms = (s.job h).map Job.terms := by
    cases s.job h <;> simp [e]
  rw [State.updJob, ledger_setJob, same]
  simp [ledger]

theorem ledger_updQueue {f : Queue → Queue} {s : State} (h : (f s.queue).reports = s.queue.reports) :
    ledger (s.updQueue f) = ledger s := by
  simp only [ledger, updQueue_queue, updQueue_job, updQueue_entry, updQueue_seg, h]

theorem holding_updLane (l : Lane) (f : List Handle → List Handle) (c : Column) :
    (updLane l f c).holding = c.holding := by
  cases l <;> rfl

section
variable (s : State)

@[simp] theorem ledger_updX (g : Seg) (f : Exchange → Exchange) : ledger (s.updX g f) = ledger s :=
  ledger_updSeg_silent (by simp [Column.holding])
@[simp] theorem ledger_updLine (g : Seg) (f : Line → Line) : ledger (s.updLine g f) = ledger s :=
  ledger_updSeg_silent rfl
@[simp] theorem ledger_updSweep (g : Seg) (f : Sweep → Sweep) : ledger (s.updSweep g f) = ledger s :=
  ledger_updSeg_silent rfl
@[simp] theorem ledger_updDisc (g : Seg) (f : Discovery → Discovery) : ledger (s.updDisc g f) = ledger s :=
  ledger_updSeg_silent rfl
@[simp] theorem ledger_count (g : Seg) (f : Counters → Counters) : ledger (s.count g f) = ledger s :=
  ledger_updSeg_silent rfl
@[simp] theorem ledger_updLink (f : Link → Link) : ledger (s.updLink f) = ledger s := rfl
@[simp] theorem ledger_takeReservation : ledger (takeReservation s) = ledger s := rfl
@[simp] theorem ledger_releaseReservation : ledger (releaseReservation s) = ledger s := rfl

@[simp] theorem ledger_elapse (d : Time) : ledger (s.elapse d) = ledger s := by
  have terms (h : Handle) : ((s.elapse d).job h).map Job.terms = (s.job h).map Job.terms := by
    cases low : s.rstnLow
    · rw [elapse_job d s h low]
      cases s.job h <;> rfl
    · simp [State.elapse, low]
  have columns (g : Seg) : ((s.elapse d).seg g).holding = (s.seg g).holding := by
    obtain ⟨state, -, -, -, busy, -, -, waitSet, attention⟩ := elapse_column d s g
    simp only [Column.holding, state, busy, waitSet, attention]
  simp only [ledger, elapse_reports, elapse_entry, terms, columns]

@[simp] theorem ledger_countAttempt (g : Seg) (x : Exchange) : ledger (countAttempt g x s) = ledger s := by
  simp only [countAttempt]
  split
  · rfl
  · split
    · refine (ledger_updJob (f := fun j => { j with attempts := j.attempts + 1 }) fun _ => ?_).trans
        (ledger_updX ..)
      rfl
    · exact ledger_updX ..

@[simp] theorem ledger_enterSend (g : Seg) : ledger (enterSend g s) = ledger s := by
  unfold enterSend
  split
  · rfl
  · rw [ledger_updLine, ledger_updX, ledger_countAttempt]

@[simp] theorem ledger_enterDefer (g : Seg) : ledger (enterDefer g s) = ledger s := by
  simp only [enterDefer]
  split
  · split
    · rw [ledger_enterSend, ledger_updX]
    · rw [ledger_updLine, ledger_updX]
  · rw [ledger_updLine, ledger_updX]

@[simp] theorem ledger_lookSweep (g : Seg) : ledger (lookSweep g s).1 = ledger s := by
  simp only [lookSweep]
  split
  · split
    · rfl
    · split
      · split
        · exact ledger_updSweep ..
        · exact ledger_updSweep ..
      · exact ledger_updSweep ..
  · rfl

theorem toggleAfter_mark (form : EndForm) (unanswered : Bool) (e : Entry) :
    (toggleAfter form unanswered e).mark = e.mark := by
  unfold toggleAfter
  split
  · split <;> rfl
  · split <;> rfl
  · split <;> rfl
  · rfl
  · rfl

@[simp] theorem ledger_setToggle (x : Exchange) (form : EndForm) : ledger (setToggle x form s) = ledger s := by
  unfold setToggle
  split
  · rfl
  · split
    · rfl
    · exact ledger_updEntry (toggleAfter_mark form x.unanswered)

@[simp] theorem ledger_endSweepStep (g : Seg) (x : Exchange) (form : EndForm) :
    ledger (endSweepStep g x form s) = ledger s := by
  unfold endSweepStep
  split
  · exact ledger_updSweep ..
  · exact ledger_lookSweep ..

@[simp] theorem ledger_noteFailure (x : Exchange) (k : FailKind) : ledger (noteFailure x k s) = ledger s := by
  unfold noteFailure
  split
  · exact ledger_updJob fun _ => rfl
  · rfl

@[simp] theorem ledger_cancelCarried (g : Seg) : ledger (cancelCarried g s) = ledger s := by
  unfold cancelCarried
  split
  · split
    · exact ledger_updJob fun _ => rfl
    · rfl
  · rfl

@[simp] theorem ledger_strayItem (g : Seg) (item : Item) : ledger (strayItem g item s) = ledger s := by
  unfold strayItem
  split <;> exact ledger_count ..

@[simp] theorem ledger_confirmStart (g : Seg) (half : Time) : ledger (confirmStart g half s) = ledger s := by
  unfold confirmStart
  rw [ledger_updX]
  exact ledger_updSeg_silent rfl

@[simp] theorem ledger_sentWhole (g : Seg) : ledger (sentWhole g s) = ledger s :=
  ledger_updSeg_silent (by simp [Column.holding])

@[simp] theorem ledger_restartSweepTimer (g : Seg) : ledger (restartSweepTimer g s) = ledger s :=
  ledger_updSeg_silent rfl

end

/-! ## The waiting sets -/

theorem insertAsc_mem {h k : Handle} {l : List Handle} : k ∈ insertAsc h l → k = h ∨ k ∈ l := by
  induction l with
  | nil => simp [insertAsc]
  | cons a l ih =>
    unfold insertAsc
    split
    · simp
    · split
      · exact .inr
      · simp only [List.mem_cons]
        rintro (rfl | m)
        · exact .inr (.inl rfl)
        · exact (ih m).imp_right .inr

/-- A waiting set stays in ascending order when a handle is put in. -/
theorem insertAsc_ascending (h : Handle) {l : List Handle} (order : l.Pairwise (· < ·)) :
    (insertAsc h l).Pairwise (· < ·) := by
  induction l with
  | nil => simp [insertAsc]
  | cons a l ih =>
    obtain ⟨first, rest⟩ := List.pairwise_cons.1 order
    unfold insertAsc
    split
    · rename_i below
      exact List.pairwise_cons.2 ⟨by simpa [below] using fun k m => below.trans (first k m), order⟩
    · rename_i above
      split
      · exact order
      · rename_i other
        refine List.pairwise_cons.2 ⟨fun k m => ?_, ih rest⟩
        rcases insertAsc_mem m with rfl | m
        · exact lt_of_le_of_ne (not_lt.1 above) (Ne.symm other)
        · exact first k m

/-- After an entry has left the attention list it has no mark. -/
theorem markSet_leaveAttention (i : Index) (s : State) : markSet (Machine.leaveAttention i s) i = false := by
  unfold Machine.leaveAttention
  cases he : s.entry i with
  | none => simp [markSet, he]
  | some e => simp [markSet, he]

/-! ## A change of an entry before and after a report, a completion and the leaving of the list -/

theorem eventReport_updEntry (b : ReportBody) (i : Index) (f : Entry → Entry) (s : State) :
    eventReport b (s.updEntry i f) = (eventReport b s).updEntry i f := by
  have room : freeRoom (s.updEntry i f) = freeRoom s := rfl
  unfold eventReport
  rw [room]
  split <;> rfl

theorem completeJob_updEntry (h : Handle) (o : JobOutcome) (d : List Byte) (i : Index) (f : Entry → Entry)
    (s : State) : completeJob h o d (s.updEntry i f) = (completeJob h o d s).updEntry i f := by
  simp only [completeJob, updEntry_job]
  split <;> rfl

theorem completeJobs_updEntry (hs : List Handle) (o : JobOutcome) (i : Index) (f : Entry → Entry) (s : State) :
    completeJobs hs o (s.updEntry i f) = (completeJobs hs o s).updEntry i f := by
  unfold completeJobs
  induction hs generalizing s with
  | nil => rfl
  | cons h hs ih => simp only [List.foldl_cons, completeJob_updEntry, ih]

theorem leaveAttention_updEntry {i : Index} {f : Entry → Entry} (seg : ∀ e, (f e).seg = e.seg)
    (mark : ∀ e, f { e with attention := false } = { f e with attention := false }) (s : State) :
    leaveAttention i (s.updEntry i f) = (leaveAttention i s).updEntry i f := by
  cases he : s.entry i with
  | none => simp only [leaveAttention, entry_updEntry_same, he, Option.map_none]
  | some e =>
    have changed : (s.updEntry i f).entry i = some (f e) := by simp [he]
    simp only [leaveAttention, changed, he, seg]
    rw [updEntry_of changed, updEntry_of he, updEntry_of he, setEntry_setEntry,
      updEntry_of (e := { e with attention := false }) (by simp), mark]
    exact congrArg (State.updSeg _ _) (setEntry_setEntry ..).symm

/-! ## Changes that the flow goes on through -/

section
variable {kept : List Report} {s t : State} (F : Flow kept s t)
include F

theorem Flow.of_ledger {u : State} (e : ledger u = ledger t) : Flow kept s u := by
  unfold Flow
  rw [e]
  exact F

/-- A column changes with the same entries on its attention list, its waiting set still in order and its drain with
an exchange. -/
theorem Flow.updSeg (g : Seg) {f : Column → Column}
    (attention : (t.seg g).attention.Nodup → (f (t.seg g)).attention.Perm (t.seg g).attention)
    (order : (t.seg g).waitSet.Pairwise (· < ·) → (f (t.seg g)).waitSet.Pairwise (· < ·))
    (drain : (t.seg g).holding.Drained → (f (t.seg g)).holding.Drained) : Flow kept s (t.updSeg g f) := by
  unfold Flow
  rw [ledger_updSeg]
  refine ⟨F.follows, fun K => ⟨fun k => ?_, (F.attends K).fit⟩, fun K k => ?_, fun k K => ?_⟩
  · have L := (F.attends K).listed k
    rcases eq_or_ne k g with rfl | other
    · have same := attention L.1
      simpa [same.nodup_iff, same.mem_iff] using L
    · simpa [Function.update_of_ne other] using L
  · have L := F.ordered K k
    rcases eq_or_ne k g with rfl | other
    · simpa [Column.holding] using order L
    · simpa [Function.update_of_ne other] using L
  · have L := F.drained k K
    rcases eq_or_ne k g with rfl | other
    · simpa using drain L
    · simpa [Function.update_of_ne other] using L

/-- An entry changes without its segment and its mark, and not to OFFLINE or RETIRING. -/
theorem Flow.updEntry (i : Index) {f : Entry → Entry} (seg : ∀ e, (f e).seg = e.seg)
    (mark : ∀ e, (f e).attention = e.attention)
    (state : ∀ e, (f e).state = e.state ∨ (f e).state ≠ .offline ∧ (f e).state ≠ .retiring) :
    Flow kept s (t.updEntry i f) := by
  cases he : t.entry i with
  | none =>
    refine F.of_ledger ?_
    have same : ((t.entry i).map f).map Entry.mark = (t.entry i).map Entry.mark := by rw [he]; rfl
    rw [State.updEntry, ledger_setEntry, same]
    simp [ledger]
  | some e =>
    unfold Flow
    rw [State.updEntry, ledger_setEntry, he]
    refine ⟨F.follows, fun K => ⟨fun g => ⟨((F.attends K).listed g).1, fun k => ?_⟩, fun k m hm marked => ?_⟩,
      F.ordered, F.drained⟩
    · rw [((F.attends K).listed g).2 k]
      rcases eq_or_ne k i with rfl | other
      · simp [he, Entry.mark, seg, mark]
      · simp [Function.update_of_ne other]
    · rcases eq_or_ne k i with rfl | other
      · simp only [Function.update_self, Option.map_some, Option.some.injEq] at hm
        subst hm
        have old := (F.attends K).fit k e.mark (by simp [he]) (by simpa [Entry.mark, mark] using marked)
        rcases state e with same | fit
        · simpa [Entry.mark, same] using old
        · exact fit
      · exact (F.attends K).fit k m (by simpa [Function.update_of_ne other] using hm) marked

/-- An entry is made at a free index, or freed, without a mark before and after. -/
theorem Flow.setEntry (i : Index) {e : Option Entry} (before : (ledger t).Attended → markSet t i = false)
    (after : ∀ x, e = some x → x.attention = false) : Flow kept s (t.setEntry i e) := by
  unfold Flow
  rw [ledger_setEntry]
  have unmarked (x : EntryMark) : e.map Entry.mark = some x → x.marked = false := by
    rintro h
    obtain ⟨y, hy, rfl⟩ := Option.map_eq_some_iff.1 h
    exact after y hy
  refine ⟨F.follows, fun K => ⟨fun g => ⟨((F.attends K).listed g).1, fun k => ?_⟩, fun k m hm marked => ?_⟩,
    F.ordered, F.drained⟩
  · rw [((F.attends K).listed g).2 k]
    rcases eq_or_ne k i with rfl | other
    · simp only [Function.update_self]
      constructor
      · rintro ⟨x, hx, -, marked⟩
        obtain ⟨y, hy, rfl⟩ := Option.map_eq_some_iff.1 hx
        have unset := before (F.attends K)
        simp only [markSet, hy] at unset
        simp [unset] at marked
      · rintro ⟨x, hx, -, marked⟩
        simp [unmarked x hx] at marked
    · simp [Function.update_of_ne other]
  · rcases eq_or_ne k i with rfl | other
    · simp only [Function.update_self] at hm
      simp [unmarked m hm] at marked
    · exact (F.attends K).fit k m (by simpa [Function.update_of_ne other] using hm) marked

/-- An entry that has no mark may change to any state. -/
theorem Flow.updUnmarked (i : Index) {f : Entry → Entry} (unmarked : markSet t i = false)
    (mark : ∀ e, (f e).attention = e.attention) : Flow kept s (t.updEntry i f) := by
  refine F.setEntry i (fun _ => unmarked) fun x hx => ?_
  obtain ⟨e, he, rfl⟩ := Option.map_eq_some_iff.1 hx
  rw [mark]
  simpa [markSet, he] using unmarked

/-- A report joins the tail. -/
theorem Flow.report {f : Queue → Queue} {r : Report}
    (h : (f t.queue).reports = t.queue.reports ++ [r]) : Flow kept s (t.updQueue f) where
  follows := by
    obtain ⟨added, e, jobs⟩ := F.follows
    refine ⟨added ++ [r], ?_, fun k j live => (jobs k j live).imp_right
      fun ⟨r, m, tag⟩ => ⟨r, List.mem_append_left _ m, tag⟩⟩
    rw [ledger_reports, updQueue_queue, h, ← List.append_assoc]
    exact congrArg (· ++ [r]) e
  attends := F.attends
  ordered := F.ordered
  drained := F.drained

theorem Flow.eventReport (b : ReportBody) : Flow kept s (eventReport b t) := by
  unfold Machine.eventReport
  split
  · exact F.report rfl
  · exact F.of_ledger (ledger_updQueue rfl)

theorem Flow.enterReserved (b : ReportBody) : Flow kept s (enterReserved b t) := F.report rfl

/-! ## Jobs -/

/-- A live job completes: its RESULT is among the added reports. -/
theorem Flow.completeJob (h : Handle) (o : JobOutcome) (d : List Byte) :
    Flow kept s (completeJob h o d t) := by
  cases live : t.job h with
  | none => simpa only [Machine.completeJob, live] using F
  | some j =>
    have reported : Flow kept s ((Machine.enterReserved
        (.result j.tag o j.attempts j.busy j.lastFault j.cancel d) t).updSeg j.seg (leaveHolders h)) :=
      (F.enterReserved _).updSeg _ (fun _ => .refl _) (fun order => order.filter _) id
    rw [completeJob_live live]
    unfold Flow
    rw [ledger_setJob]
    refine ⟨?_, reported.attends, reported.ordered, reported.drained⟩
    obtain ⟨added, e, jobs⟩ := F.follows
    refine ⟨added ++ [⟨nextNumber t.queue.lastNumber, resultOf j o d⟩], ?_, fun k i taken => ?_⟩
    · rw [← List.append_assoc]
      exact congrArg (· ++ [_]) e
    · rcases jobs k i taken with still | ⟨r, m, tag⟩
      · rcases eq_or_ne k h with rfl | other
        · simp only [ledger_terms, live, Option.map_some, Option.some.injEq] at still
          subst still
          exact .inr ⟨_, List.mem_append_right _ (List.mem_singleton_self _), _, _, _, _, _, _, rfl⟩
        · exact .inl ((Function.update_of_ne other ..).trans still)
      · exact .inr ⟨r, List.mem_append_left _ m, tag⟩

theorem Flow.completeJobs (hs : List Handle) (o : JobOutcome) : Flow kept s (completeJobs hs o t) := by
  unfold Machine.completeJobs
  induction hs generalizing t with
  | nil => exact F
  | cons h hs ih => exact ih (F.completeJob h o [])

/-- A FREE record takes a job. -/
theorem Flow.takeRecord {h : Handle} (free : t.job h = none) (j : Job) :
    Flow kept s (t.setJob h (some j)) := by
  unfold Flow
  rw [ledger_setJob]
  refine ⟨?_, F.attends, F.ordered, F.drained⟩
  obtain ⟨added, e, jobs⟩ := F.follows
  refine ⟨added, e, fun k i taken => (jobs k i taken).imp_left fun still => ?_⟩
  rcases eq_or_ne k h with rfl | other
  · simp [free] at still
  · exact (Function.update_of_ne other ..).trans still

/-! ## The attention lists -/

/-- An entry's mark changes, and its segment's list with it. -/
theorem Flow.remark {i : Index} {e : Entry} (he : t.entry i = some e) {b : Bool} {l : List Index → List Index}
    (once : (t.seg e.seg).attention.Nodup → (i ∈ (t.seg e.seg).attention ↔ e.attention = true) →
      (l (t.seg e.seg).attention).Nodup)
    (mem : ∀ k, k ∈ l (t.seg e.seg).attention ↔ if k = i then b = true else k ∈ (t.seg e.seg).attention)
    (fit : b = true → e.state ≠ .offline ∧ e.state ≠ .retiring) :
    Flow kept s ((t.updEntry i fun e => { e with attention := b }).updSeg e.seg fun c =>
      { c with attention := l c.attention }) := by
  unfold Flow
  rw [ledger_updSeg, updEntry_of he, ledger_setEntry]
  refine ⟨F.follows, fun K => ⟨fun g => ?_, fun k m hm marked => ?_⟩, fun K g => ?_, fun g K => ?_⟩
  · obtain ⟨nodup, listed⟩ := (F.attends K).listed g
    simp only [ledger_columns, ledger_marks, holding_attention] at nodup listed
    rcases eq_or_ne g e.seg with rfl | otherSeg
    · simp only [Function.update_self, holding_attention, setEntry_seg]
      refine ⟨once nodup (by rw [listed i]; simp [he]), fun k => (mem k).trans ?_⟩
      rcases eq_or_ne k i with rfl | other
      · simp
      · simpa [Function.update_of_ne other, other] using listed k
    · simp only [Function.update_of_ne otherSeg]
      refine ⟨nodup, fun k => (listed k).trans ?_⟩
      rcases eq_or_ne k i with rfl | other
      · simp [he, Ne.symm otherSeg]
      · simp [Function.update_of_ne other]
  · rcases eq_or_ne k i with rfl | other
    · simp only [Function.update_self, Option.map_some, Option.some.injEq] at hm
      subst hm
      exact fit marked
    · exact (F.attends K).fit k m (by simpa [Function.update_of_ne other] using hm) marked
  · rcases eq_or_ne g e.seg with rfl | other
    · simpa using F.ordered K e.seg
    · simpa [Function.update_of_ne other] using F.ordered K g
  · rcases eq_or_ne g e.seg with rfl | other
    · simpa [Holding.Drained] using F.drained e.seg K
    · simpa [Function.update_of_ne other] using F.drained g K

theorem Flow.leaveAttention (i : Index) : Flow kept s (leaveAttention i t) := by
  unfold Machine.leaveAttention
  split
  · exact F
  · rename_i e he
    refine F.remark he (l := fun l => l.filter (· != i)) (fun nodup _ => nodup.filter _) (fun k => ?_) (by simp)
    by_cases same : k = i <;> simp [same]

theorem Flow.joinAttention (i : Index) : Flow kept s (joinAttention i t) := by
  unfold Machine.joinAttention
  split
  · exact F
  · rename_i e he
    split
    · rename_i joins
      obtain ⟨unmarked, present⟩ := joins
      refine F.remark he (l := fun l => l ++ [i]) (fun nodup listed => ?_) (fun k => ?_) (fun _ => ?_)
      · have absent : i ∉ (t.seg e.seg).attention := by simp [listed, unmarked]
        exact nodup.append (List.nodup_singleton i) (by simpa using absent)
      · by_cases same : k = i <;> simp [same]
      · rcases present with state | state <;> simp [state]
    · exact F

theorem Flow.attentionToTail (i : Index) : Flow kept s (attentionToTail i t) := by
  unfold Machine.attentionToTail
  split
  · exact F
  · rename_i e he
    refine F.updSeg _ (fun nodup => ?_) id id
    dsimp only
    split
    · rename_i listed
      rw [← nodup.erase_eq_filter]
      exact (List.perm_append_singleton ..).trans (List.perm_cons_erase listed).symm
    · exact .refl _


/-! ## Fields that the ledger does not read -/

theorem Flow.updX (g : Seg) (f : Exchange → Exchange) : Flow kept s (t.updX g f) :=
  F.of_ledger (ledger_updX ..)

theorem Flow.updLine (g : Seg) (f : Line → Line) : Flow kept s (t.updLine g f) :=
  F.of_ledger (ledger_updLine ..)

theorem Flow.updSweep (g : Seg) (f : Sweep → Sweep) : Flow kept s (t.updSweep g f) :=
  F.of_ledger (ledger_updSweep ..)

theorem Flow.updDisc (g : Seg) (f : Discovery → Discovery) : Flow kept s (t.updDisc g f) :=
  F.of_ledger (ledger_updDisc ..)

theorem Flow.count (g : Seg) (f : Counters → Counters) : Flow kept s (t.count g f) :=
  F.of_ledger (ledger_count ..)

theorem Flow.column (g : Seg) {f : Column → Column} (h : (f (t.seg g)).holding = (t.seg g).holding) :
    Flow kept s (t.updSeg g f) :=
  F.of_ledger (ledger_updSeg_silent h)

theorem Flow.updJob (h : Handle) {f : Job → Job} (e : ∀ j, (f j).terms = j.terms) :
    Flow kept s (t.updJob h f) :=
  F.of_ledger (ledger_updJob e)

theorem Flow.entryFields (i : Index) {f : Entry → Entry} (h : ∀ e, (f e).mark = e.mark) :
    Flow kept s (t.updEntry i f) :=
  F.of_ledger (ledger_updEntry h)

theorem Flow.elapse (d : Time) : Flow kept s (t.elapse d) := F.of_ledger (ledger_elapse ..)

/-! ## Starting an exchange, looks and picks -/

theorem Flow.beginExchange (g : Seg) (x : Exchange) : Flow kept s (beginExchange g x t) :=
  (F.updSeg g (f := fun c => { c with exchange := some x }) (fun _ => .refl _) id fun _ _ => rfl).of_ledger
    (ledger_enterDefer ..)

theorem Flow.startJob (g : Seg) (h : Handle) : Flow kept s (startJob g h t) := by
  have left : Flow kept s (t.updSeg g (leaveHolders h)) :=
    F.updSeg g (fun _ => .refl _) (fun order => order.filter _) id
  unfold Machine.startJob
  split
  · exact left
  · refine Flow.beginExchange (left.updJob h fun _ => ?_) ..
    rfl

theorem Flow.startPoll (g : Seg) (o : XOrigin) (i : Index) : Flow kept s (startPoll g o i t) := by
  unfold Machine.startPoll
  split
  · exact F
  · exact F.beginExchange ..

theorem Flow.startProbe (g : Seg) (a : Nat) : Flow kept s (startProbe g a t) := by
  unfold Machine.startProbe
  exact (F.updDisc ..).beginExchange ..

theorem Flow.lookDisc (g : Seg) : Flow kept s (lookDisc g t).1 := by
  unfold Machine.lookDisc endRun
  split
  · split
    · exact F
    · exact (F.enterReserved _).updDisc ..
  · exact F

theorem Flow.pickDiscovery (g : Seg) : Flow kept s (pickDiscovery g t) := by
  unfold Machine.pickDiscovery
  split
  · exact (F.lookDisc g).startProbe ..
  · exact F.lookDisc g

theorem Flow.pickNormal (g : Seg) : Flow kept s (pickNormal g t) := by
  unfold Machine.pickNormal
  split
  · exact Flow.startJob (F.column g rfl) ..
  · exact F.pickDiscovery g

theorem Flow.startSweepStep (g : Seg) (a : Nat) : Flow kept s (startSweepStep g a t) := by
  unfold Machine.startSweepStep
  split
  · exact F
  · exact Flow.startPoll (F.column g rfl) ..

theorem Flow.pickSweep (g : Seg) : Flow kept s (pickSweep g t) := by
  have looked : Flow kept s (lookSweep g t).1 := F.of_ledger (ledger_lookSweep ..)
  unfold Machine.pickSweep
  split
  · split
    · exact looked.startSweepStep ..
    · exact looked.pickNormal g
  · exact looked.pickNormal g

theorem Flow.pick (g : Seg) : Flow kept s (pick g t) := by
  unfold Machine.pick
  split
  · split
    · exact F.startPoll ..
    · split
      · exact F.startJob ..
      · exact F.pickSweep g
  · exact F

/-! ## Room for discovery units -/

theorem Flow.lookAndPick (g : Seg) : Flow kept s (lookAndPick g t) := by
  unfold Machine.lookAndPick
  split
  · exact (F.lookDisc g).pick g
  · exact F.lookDisc g

theorem Flow.beginProbing (g : Seg) : Flow kept s (beginProbing g t) :=
  F.of_ledger ((ledger_updDisc ..).trans (ledger_takeReservation t))

theorem Flow.takeRoom (g : Seg) : Flow kept s (takeRoom g t) := by
  unfold Machine.takeRoom
  split
  · exact (F.beginProbing g).lookAndPick g
  · exact F

theorem Flow.serveWaitRoom : Flow kept s (serveWaitRoom t) :=
  (((F.takeRoom 0).takeRoom 1).takeRoom 2).takeRoom 3

theorem Flow.resumeDisc (g : Seg) : Flow kept s (resumeDisc g t) := by
  unfold Machine.resumeDisc
  exact (F.updDisc ..).takeRoom g

/-! ## Health, status and attention -/

theorem Flow.goodOutcome (i : Index) (e : Entry) : Flow kept s (goodOutcome i e t) := by
  have counted : Flow kept s (t.updEntry i fun e =>
      { e with misses := 0, silentFails := 0, goodReplies := satInc e.goodReplies }) :=
    F.entryFields i fun _ => rfl
  simp only [Machine.goodOutcome]
  split
  · exact (counted.updEntry i (f := fun e => { e with state := .online }) (fun _ => rfl) (fun _ => rfl)
      fun _ => .inr (by simp)).eventReport _
  · exact counted

theorem Flow.missOutcome (i : Index) (e : Entry) : Flow kept s (missOutcome i e t) := by
  unfold Machine.missOutcome
  split
  · exact (F.updEntry i (f := fun e => { e with state := .silent, misses := 0, silentFails := 0 })
      (fun _ => rfl) (fun _ => rfl) fun _ => .inr (by simp)).eventReport _
  · exact F.entryFields i fun _ => rfl

theorem Flow.goOffline (i : Index) (e : Entry) : Flow kept s (goOffline i e t) := by
  unfold Machine.goOffline
  dsimp only
  rw [eventReport_updEntry, completeJobs_updEntry, leaveAttention_updEntry
    (f := fun e => { e with state := .offline, silentFails := e.silentFails + 1 }) (fun _ => rfl) fun _ => rfl]
  exact (((F.eventReport _).completeJobs _ _).leaveAttention i).updUnmarked i (markSet_leaveAttention ..)
    fun _ => rfl

theorem Flow.handClass (i : Index) (cls : OutcomeClass) : Flow kept s (handClass i cls t) := by
  unfold Machine.handClass failedOutcome silentOutcome
  split
  · exact F
  · split
    · exact F
    · split
      · exact F.goodOutcome ..
      · split
        · exact F.missOutcome ..
        · exact F.missOutcome ..
        · split
          · exact F.goOffline ..
          · exact F.entryFields i fun _ => rfl
        · exact F
        · exact F
      · exact F

theorem Flow.handOutcome (x : Exchange) (form : EndForm) : Flow kept s (handOutcome x form t) := by
  unfold Machine.handOutcome
  split
  · exact F.handClass ..
  · exact F

theorem Flow.statusReport (i : Index) (o : XOrigin) (e : Entry) (r : Reply) :
    Flow kept s (statusReport i o e r t) := by
  simp only [Machine.statusReport]
  split
  · exact (F.eventReport _).leaveAttention i
  · split
    · exact (F.eventReport _).leaveAttention i
    · split
      · exact F
      · exact F.eventReport _
  · exact F.leaveAttention i
  · exact F

theorem Flow.statusRule (i : Index) (o : XOrigin) (r : Reply) : Flow kept s (statusRule i o r t) := by
  simp only [Machine.statusRule]
  split
  · exact F
  · refine Flow.statusReport (Flow.entryFields ?_ i fun _ => ?_) ..
    · split
      · exact F.joinAttention i
      · exact F
    · rfl

theorem Flow.handStatus (x : Exchange) (form : EndForm) : Flow kept s (handStatus x form t) := by
  unfold Machine.handStatus handReply
  split
  · exact F
  · split
    · exact F
    · split
      · split
        · exact F.statusRule ..
        · split
          · exact F.joinAttention ..
          · exact F
      · split
        · exact F.leaveAttention ..
        · exact F
      · exact F

/-! ## The origin's owner -/

theorem Flow.busyJob (g : Seg) (h : Handle) (j : Job) : Flow kept s (busyJob g h j t) := by
  unfold Machine.busyJob
  split
  · refine Flow.updSeg (F.updJob h fun _ => ?_) g (fun _ => .refl _)
      (fun order => insertAsc_ascending h order) id
    rfl
  · exact F.completeJob ..

theorem Flow.endByReply (h : Handle) (x : Exchange) (r : Reply) : Flow kept s (endByReply h x r t) := by
  unfold Machine.endByReply
  split <;> exact F.completeJob ..

theorem Flow.endJob (g : Seg) (h : Handle) (x : Exchange) (form : EndForm) :
    Flow kept s (endJob g h x form t) := by
  unfold Machine.endJob returnToLane
  split
  · exact F
  · split
    · split
      · exact F.busyJob ..
      · exact F.endByReply ..
    · exact F.completeJob ..
    · exact F.completeJob ..
    · refine Flow.column (F.updJob h fun _ => ?_) g (holding_updLane ..)
      rfl
    · exact F.endByReply ..
    · exact F.completeJob ..

theorem Flow.endFollowUp (x : Exchange) (form : EndForm) : Flow kept s (endFollowUp x form t) := by
  unfold Machine.endFollowUp
  split
  · split
    · exact F.attentionToTail ..
    · split
      · exact F.attentionToTail ..
      · exact F.leaveAttention ..
    · exact F
  · exact F

theorem Flow.probeOutcome (g : Seg) (a : Nat) (form : EndForm) : Flow kept s (probeOutcome g a form t) := by
  unfold Machine.probeOutcome
  split
  · exact (F.enterReserved _).updDisc ..
  · exact (F.updDisc ..).lookDisc g
  · exact F.lookDisc g
  · exact ((F.enterReserved _).updDisc ..).resumeDisc g
  all_goals exact F

theorem Flow.endProbe (g : Seg) (form : EndForm) : Flow kept s (endProbe g form t) := by
  unfold Machine.endProbe
  split
  · exact F
  · have cleared : Flow kept s (t.updDisc g fun u => { u with mark := none }) :=
      F.updDisc ..
    simp only []
    split
    · exact cleared
    · split
      · exact cleared.probeOutcome ..
      · exact (cleared.updDisc ..).lookDisc g
      · exact cleared

theorem Flow.handOrigin (g : Seg) (x : Exchange) (form : EndForm) : Flow kept s (handOrigin g x form t) := by
  unfold Machine.handOrigin
  split
  · exact F.endJob ..
  · exact F.of_ledger (ledger_endSweepStep ..)
  · exact F.endFollowUp ..
  · exact F.endProbe ..

/-! ## The end of an exchange -/

/-- A RETIRING entry has no mark when it is freed. -/
theorem Flow.freeRetiring (x : Exchange) : Flow kept s (freeRetiring x t) := by
  unfold Machine.freeRetiring
  split
  · rename_i i hx
    split
    · rename_i retiring
      refine F.setEntry i (fun A => ?_) (by simp)
      rw [retiringEntry_of_entry hx] at retiring
      cases he : t.entry i with
      | none => simp [markSet, he]
      | some e =>
        have fit := A.fit i e.mark (by simp [he])
        simpa [markSet, he] using fun marked => (fit marked).2 (by simpa [he] using retiring)
    · exact F
  · exact F

/-- The segment gives up its exchange, and a DRAINING one ends its drain. -/
theorem Flow.segmentFreed (g : Seg) (f : Option SegFault) : Flow kept s (segmentFreed g f t) := by
  have stops {state : SegState} (n : state ≠ .draining) : Flow kept s (t.updSeg g (Column.stopped state)) :=
    F.updSeg g (fun _ => .refl _) id fun _ d => absurd d n
  have gives (n : (t.seg g).state ≠ .draining) : Flow kept s (t.updSeg g fun c => { c with exchange := none }) :=
    F.updSeg g (fun _ => .refl _) id fun _ d => absurd d n
  cases f with
  | some f =>
    rw [segmentFreed_fault]
    exact (stops (by simp)).eventReport _
  | none =>
    cases state : (t.seg g).state with
    | draining =>
      rw [segmentFreed_draining state]
      exact ((stops (by simp)).column g rfl).eventReport _
    | running =>
      rw [segmentFreed_running state]
      exact (gives (by simp [state])).pick g
    | halted =>
      simp only [Machine.segmentFreed, seg_updSeg_same, state]
      exact gives (by simp [state])
    | faulted =>
      simp only [Machine.segmentFreed, seg_updSeg_same, state]
      exact gives (by simp [state])

theorem Flow.endExchange (g : Seg) (x : Exchange) (form : EndForm) (f : Option SegFault) :
    Flow kept s (endExchange g x form f t) :=
  (((((F.of_ledger (ledger_setToggle ..)).handOutcome x form).handStatus x form).handOrigin g x form).freeRetiring
    x).segmentFreed g f

/-! ## The end of an attempt -/

theorem Flow.enterDefer (g : Seg) : Flow kept s (enterDefer g t) := F.of_ledger (ledger_enterDefer ..)

theorem Flow.failAttempt (g : Seg) (x : Exchange) (k : FailKind) : Flow kept s (failAttempt g x k t) := by
  have noted : Flow kept s (noteFailure x k t) := F.of_ledger (ledger_noteFailure ..)
  simp only [Machine.failAttempt]
  split
  · exact noted.endExchange ..
  · split
    · exact noted.endExchange ..
    · split
      · unfold attemptAgain
        split
        · exact noted.endExchange ..
        · split
          · exact noted.endExchange ..
          · exact (noted.updX ..).enterDefer g
      · unfold attemptsSpent
        split <;> exact noted.endExchange ..

theorem Flow.failNoReply (g : Seg) (x : Exchange) : Flow kept s (failNoReply g x t) :=
  (F.count ..).failAttempt ..

theorem Flow.failReply (g : Seg) (x : Exchange) (k : FailKind) : Flow kept s (failReply g x k t) :=
  (F.count ..).failAttempt ..

theorem Flow.contend (g : Seg) (x : Exchange) : Flow kept s (contend g x t) := by
  unfold Machine.contend
  exact Flow.failAttempt (F.column g rfl) ..

theorem Flow.preludeSuccess (g : Seg) (x : Exchange) (h : Handle) (r : Reply) :
    Flow kept s (preludeSuccess g x h r t) := by
  simp only [Machine.preludeSuccess]
  split
  · refine Flow.enterDefer (Flow.updX (Flow.entryFields (F.statusRule ..) _ fun _ => ?_) ..) g
    rfl
  · exact F

theorem Flow.validReply (g : Seg) (x : Exchange) (r : Reply) : Flow kept s (validReply g x r t) := by
  have counted : Flow kept s ((t.count g Counters.incValid).updX g fun x => { x with unanswered := false }) :=
    (F.count ..).updX ..
  simp only [Machine.validReply]
  split
  · split
    · exact counted.preludeSuccess ..
    · exact counted.endExchange ..
  · exact counted.endExchange ..

theorem Flow.evaluate (g : Seg) (x : Exchange) (chars : List Byte) : Flow kept s (evaluate g x chars t) := by
  unfold Machine.evaluate staleReply
  split
  · exact F.validReply ..
  · have counted : Flow kept s ((t.count g Counters.incStale).updX g fun x =>
        { x with phase := .await, received := [], gapTimer := none }) :=
      (F.count ..).updX ..
    simp only []
    split
    · exact counted.failNoReply ..
    · exact counted
  · exact F.failReply ..

theorem Flow.handItem (g : Seg) (item : Item) : Flow kept s (handItem g item t) := by
  have stray : Flow kept s (strayItem g item t) := F.of_ledger (ledger_strayItem ..)
  unfold Machine.handItem echoCheck itemWhenQuiet receiveInReply replySof
  split
  · split
    · exact F
    · split
      · exact F.updLine ..
      · split
        · exact F.contend ..
        · exact F
  · exact F
  · exact stray
  · split
    · exact stray
    · split
      · split
        · exact F.updX ..
        · exact stray
      · split
        · exact F.updX ..
        · exact F.evaluate ..
        · exact F.failReply ..
      all_goals exact stray

theorem Flow.releaseDir (g : Seg) : Flow kept s (releaseDir g t) := by
  have quiet : Flow kept s (t.updLine g fun l => { l with tx := .quiet, idle := 0 }) :=
    F.updLine ..
  simp only [Machine.releaseDir]
  split
  · exact quiet
  · split
    · split
      · exact quiet.endExchange ..
      · exact quiet.updX ..
    · exact quiet

end

end Sys2Proof.Machine
end

section
/-! Every step keeps the laws of the places, and no command but a restart or reset loses a report or a job
(O58, O59). -/

namespace Sys2Proof.Machine

/-! ## What a command does to the ledger and to the places of the jobs -/

/-- State `t` goes on from `s` with the reports `kept` of it, and keeps the places of the jobs. -/
structure Moves (kept : List Report) (s t : State) : Prop where
  flow   : Flow kept s t
  places : (spots s).Good → (spots t).Good

/-- State `t` goes on from `s` with all its reports. -/
def Keeps (s t : State) : Prop := Moves s.queue.reports s t

theorem Keeps.refl (s : State) : Keeps s s := ⟨.refl s, id⟩

theorem Moves.trans {kept : List Report} {s t u : State} (M : Moves kept s t) (N : Keeps t u) :
    Moves kept s u :=
  ⟨M.flow.trans N.flow, N.places ∘ M.places⟩

/-- What neither the ledger nor the places read may change. -/
theorem Keeps.silent {s t : State} (l : ledger t = ledger s) (p : spots t = spots s) : Keeps s t :=
  ⟨(Flow.refl s).of_ledger l, fun G => p ▸ G⟩

/-- A flow through operations that keep the places. -/
theorem Flow.keeps {s t : State} (F : Flow s.queue.reports s t) (places : (spots s).Good → (spots t).Good) :
    Keeps s t :=
  ⟨F, places⟩

theorem Keeps.elapse (d : Time) (s : State) : Keeps s (s.elapse d) := .silent (ledger_elapse ..) (spots_elapse ..)

/-- The reports that are kept when the head named by the number `n`, or none, is acknowledged (R161). -/
def Acknowledged (n : Nat) (reports kept : List Report) : Prop :=
  kept = reports ∨ ∃ r, reports = r :: kept ∧ r.number = n

section
variable {s t : State}

theorem Keeps.whileLive {k : State → State} (h : s.rstnLow = false → Keeps s (k s))
    (e : whileLive k s = .next t) : Keeps s t := by
  injection e with e
  subst e
  cases low : s.rstnLow
  · exact h low
  · exact .refl s

/-! ## Taken requests -/

theorem applyAck_moves (n : Nat) (s : State) :
    ∃ kept, Acknowledged n s.queue.reports kept ∧ Moves kept s (applyAck n s) := by
  unfold applyAck
  split
  · exact ⟨_, .inl rfl, Keeps.refl s⟩
  · rename_i r rest reports
    split
    · rename_i named
      refine ⟨rest, .inr ⟨r, reports, named.symm⟩, ?_, fun G => ?_⟩
      · refine Flow.serveWaitRoom (t := s.updQueue (Queue.removeHead rest)) ⟨?_, id, id, fun _ => id⟩
        exact ⟨[], (List.append_nil rest).symm, fun _ _ live => .inl live⟩
      · exact Spots.Good.serveWaitRoom (by rw [spots_updQueue]; exact G)
    · exact ⟨_, .inl rfl, Keeps.refl s⟩

theorem Keeps.raiseCsn (s : State) : Keeps s s.raiseCsn := .silent rfl rfl

theorem atCsnRise_moves {w : Time} {n : Nat} {k : State → State}
    (h : ∀ u, ∃ kept, Acknowledged n u.queue.reports kept ∧ Moves kept u (k u)) (s : State) :
    ∃ kept, Acknowledged n s.queue.reports kept ∧ Moves kept s (atCsnRise w k s) := by
  have raised : Keeps s (s.elapse w).raiseCsn := (Keeps.elapse w s).trans (.raiseCsn _)
  by_cases window : KeptWindow w s
  · rw [atCsnRise_kept window]
    obtain ⟨kept, named, moves⟩ := h (s.elapse w).raiseCsn
    have reports : (s.elapse w).raiseCsn.queue.reports = s.queue.reports := elapse_reports ..
    refine ⟨kept, reports ▸ named, ?_, moves.places ∘ raised.places⟩
    have same : ledger (s.elapse w).raiseCsn = ledger s := ledger_elapse ..
    have flow := moves.flow
    unfold Flow at flow ⊢
    rwa [same] at flow
  · rw [atCsnRise_lost window]
    exact ⟨_, .inl rfl, raised⟩

theorem takeRequest_moves {f : HostFrame} {deal : State → State} (h : ∀ u, Keeps u (deal u)) (s : State) :
    ∃ kept, Acknowledged f.ack.toNat s.queue.reports kept ∧ Moves kept s (takeRequest f deal s) := by
  refine atCsnRise_moves (fun u => ?_) s
  have miscounted : Keeps u (countMalformed u) := .silent rfl rfl
  split
  · exact ⟨_, .inl rfl, miscounted⟩
  · split
    · exact ⟨_, .inl rfl, miscounted⟩
    · obtain ⟨kept, named, moves⟩ := applyAck_moves f.ack.toNat (countTaken u)
      exact ⟨kept, named, Moves.trans (⟨moves.flow, moves.places⟩ : Moves kept u _) (h _)⟩

theorem Keeps.answerRequest {f : HostFrame} {suits : Bool} {owner : State → Ruling}
    (h : ∀ u, Keeps u (owner u).state) (u : State) : Keeps u (answerRequest f suits owner u) := by
  unfold Machine.answerRequest
  split
  · exact .silent rfl rfl
  · split
    · exact (h u).trans (.silent rfl rfl)
    · exact .silent rfl rfl

theorem exactRequest_moves {n : Nat} {f : HostFrame} {owner : State → Ruling}
    (h : ∀ u, Keeps u (owner u).state) (e : exactRequest n f owner s = .next t) :
    ∃ kept, Acknowledged f.ack.toNat s.queue.reports kept ∧ Moves kept s t := by
  injection e with e
  subst e
  exact takeRequest_moves (Keeps.answerRequest h) s

theorem Keeps.withSegment {n : Nat} {ruling : Seg → State → Ruling} (h : ∀ g u, Keeps u (ruling g u).state)
    (u : State) : Keeps u (withSegment n ruling u).state := by
  unfold Machine.withSegment
  split
  · exact h _ u
  · exact .refl u

theorem segmentRequest_moves {n m : Nat} {f : HostFrame} {ruling : Seg → State → Ruling}
    (h : ∀ g u, Keeps u (ruling g u).state) (e : exactRequest n f (withSegment m ruling) s = .next t) :
    ∃ kept, Acknowledged f.ack.toNat s.queue.reports kept ∧ Moves kept s t :=
  exactRequest_moves (Keeps.withSegment h) e

/-! ## The host link -/

theorem Keeps.csnFall (wait : Time) (e : execCsnFall wait s = .next t) : Keeps s t := by
  injection e with e
  subst e
  split
  · exact (Keeps.elapse wait s).trans (.silent rfl rfl)
  · exact .elapse wait s

theorem Keeps.hostFrameIgnored (wait : Time) (bits : List Bool)
    (e : execHostFrameIgnored wait bits s = .next t) : Keeps s t := by
  injection e with e
  subst e
  have raised : Keeps s (s.elapse wait).raiseCsn := (Keeps.elapse wait s).trans (.raiseCsn _)
  by_cases window : KeptWindow wait s
  · rw [atCsnRise_kept window]
    refine raised.trans (.silent ?_ ?_) <;> unfold countIgnored <;> split <;> rfl
  · rw [atCsnRise_lost window]
    exact raised

theorem unknownRequest_moves (code : Byte) (f : HostFrame) (e : execUnknownRequest code f s = .next t) :
    ∃ kept, Acknowledged f.ack.toNat s.queue.reports kept ∧ Moves kept s t := by
  unfold execUnknownRequest at e
  split at e
  · injection e with e
    subst e
    exact atCsnRise_moves (fun u => ⟨_, .inl rfl, Keeps.refl u⟩) s
  · injection e with e
    subst e
    refine takeRequest_moves (fun u => ?_) s
    split <;> exact .silent rfl rfl

theorem nop_moves (f : HostFrame) (e : execNop f s = .next t) :
    ∃ kept, Acknowledged f.ack.toNat s.queue.reports kept ∧ Moves kept s t := by
  injection e with e
  subst e
  refine atCsnRise_moves (fun u => ?_) s
  split
  · exact ⟨_, .inl rfl, Keeps.silent rfl rfl⟩
  · obtain ⟨kept, named, moves⟩ := applyAck_moves f.ack.toNat (countTaken u)
    exact ⟨kept, named, moves.flow, moves.places⟩

/-! ## Requests on a segment -/

theorem clearHealth_mark (g : Seg) (e : Entry) : (clearHealth g e).mark = e.mark := by
  unfold clearHealth
  split <;> rfl

theorem ledger_configure (g : Seg) (c : SegConfig) (s : State) : ledger (configure g c s) = ledger s := by
  have marks (i : Index) : ((configure g c s).entry i).map Entry.mark = (s.entry i).map Entry.mark := by
    have cleared : (configure g c s).entry i = (s.entry i).map (clearHealth g) := mapStore_get ..
    rw [cleared]
    cases s.entry i <;> simp [clearHealth_mark]
  have configured : ledger (configure g c s) = ledger (s.updSeg g (Column.configured c)) := by
    simp only [ledger, marks]
    rfl
  exact configured.trans (ledger_updSeg_silent rfl)

theorem spots_configure (g : Seg) (c : SegConfig) (s : State) : spots (configure g c s) = spots s := by
  unfold configure
  rw [spots_withTable]
  exact spots_updSeg_work rfl

theorem Keeps.rulingConfigure (f : HostFrame) (g : Seg) (s : State) : Keeps s (rulingConfigure f g s).state := by
  unfold Machine.rulingConfigure
  split
  · exact .refl s
  · split
    · exact .refl s
    · split
      · exact .silent (ledger_configure ..) (spots_configure ..)
      · exact .refl s

/-- A segment that is given a state other than DRAINING, or has an exchange, and its holders left alone. -/
theorem Keeps.control {g : Seg} {f : Column → Column} {s : State}
    (attention : (f (s.seg g)).attention = (s.seg g).attention) (work : (f (s.seg g)).work = (s.seg g).work)
    (drain : (f (s.seg g)).holding.Drained) : Keeps s (s.updSeg g f) := by
  have waitSet : (f (s.seg g)).waitSet = (s.seg g).waitSet := Column.standing_of_work work .waiting
  exact ((Flow.refl s).updSeg g (fun _ => attention ▸ .refl _) (fun order => waitSet ▸ order)
    fun _ => drain).keeps fun G => G.column g work

theorem Keeps.pick (g : Seg) (s : State) : Keeps s (pick g s) := ((Flow.refl s).pick g).keeps fun G => G.pick g

@[simp] theorem stateChange_state (old new : SegState) (s : State) : (stateChange old new s).state = s := rfl

theorem Keeps.rulingStart (g : Seg) (s : State) : Keeps s (rulingStart g s).state := by
  unfold Machine.rulingStart
  split <;> simp only [stateChange_state]
  · have running : Keeps s (s.updSeg g makeRunning) :=
      .control rfl rfl fun draining => by simp [makeRunning] at draining
    exact running.trans (.pick g _)
  · exact .refl s
  · refine .control rfl rfl fun draining => ?_
    simp at draining
  · exact .refl s

theorem Keeps.rulingStop (g : Seg) (s : State) : Keeps s (rulingStop g s).state := by
  have halted : Keeps s (s.updSeg g makeHalted) := .control rfl rfl fun draining => by simp [makeHalted] at draining
  unfold Machine.rulingStop
  split
  · exact .refl s
  · split <;> simp only [stateChange_state]
    · rename_i busy
      refine .control rfl rfl fun _ => ?_
      exact busy
    · exact halted
  · exact .refl s
  · exact halted

theorem Keeps.rulingResume (g : Seg) (s : State) : Keeps s (rulingResume g s).state := by
  unfold Machine.rulingResume
  split
  · have running : Keeps s (s.updSeg g fun c => { makeRunning c with streak := 0 }) :=
      .control rfl rfl fun draining => by simp [makeRunning] at draining
    exact running.trans (.pick g _)
  · exact .refl s

theorem Keeps.rulingQueryCounters (option : Nat) (g : Seg) (s : State) :
    Keeps s (rulingQueryCounters option g s).state := by
  unfold Machine.rulingQueryCounters
  split
  · exact .refl s
  · exact .silent (ledger_count ..) (spots_count ..)
  · exact .refl s

/-! ## RESET_SEGMENT -/

/-- The entries of a segment under RESET_SEGMENT: those that are left have no mark. -/
theorem resetEntry_own {g : Seg} {e x : Entry} (own : e.seg = g) (h : resetEntry g e = some x) :
    x.attention = false := by
  simp only [resetEntry, own, if_true, warmEntry] at h
  split at h
  · simp at h
  · injection h with h
    subst h
    rfl

theorem resetEntry_other {g : Seg} {e : Entry} (other : e.seg ≠ g) : resetEntry g e = some e := by
  simp [resetEntry, other]

/-- The state with the attention list and the sweep of a segment reset, and its entries (steps 3 and 4 of R78). -/
def resetStations (g : Seg) (s : State) : State :=
  { s.updSeg g fun c => { c with attention := [], sweep := Sweep.reset } with
    table := mapStore (fun e => e.bind (resetEntry g)) s.table }

theorem resetStations_entry (g : Seg) (s : State) (i : Index) :
    (resetStations g s).entry i = (s.entry i).bind (resetEntry g) := mapStore_get ..

theorem resetStations_holding (g k : Seg) (s : State) : ((resetStations g s).seg k).holding
    = if k = g then { (s.seg k).holding with attention := [] } else (s.seg k).holding := by
  have same : (resetStations g s).seg k
      = (s.updSeg g fun c => { c with attention := [], sweep := Sweep.reset }).seg k := rfl
  rw [same, seg_updSeg]
  split
  · rename_i e
    subst e
    rfl
  · rfl

theorem Flow.resetStations {kept : List Report} (F : Flow kept s t) (g : Seg) :
    Flow kept s (resetStations g t) := by
  have mark {i : Index} {m : EntryMark} (h : ((Machine.resetStations g t).entry i).map Entry.mark = some m)
      (marked : m.marked = true) : ∃ e, t.entry i = some e ∧ e.seg ≠ g ∧ m = e.mark := by
    obtain ⟨x, hx, rfl⟩ := Option.map_eq_some_iff.1 h
    rw [resetStations_entry] at hx
    obtain ⟨e, he, left⟩ := Option.bind_eq_some_iff.1 hx
    by_cases own : e.seg = g
    · have := resetEntry_own own left
      simp [this] at marked
    · rw [resetEntry_other own] at left
      injection left with left
      exact ⟨e, he, own, by rw [left]⟩
  refine ⟨F.follows, fun K => ⟨fun k => ?_, fun i m hm marked => ?_⟩, fun K k => ?_, fun k K => ?_⟩
  · obtain ⟨once, listed⟩ := (F.attends K).listed k
    simp only [ledger_columns, ledger_marks, resetStations_holding] at once listed ⊢
    split
    · rename_i own
      refine ⟨List.nodup_nil, fun i => ⟨fun m => absurd m List.not_mem_nil, ?_⟩⟩
      rintro ⟨m, hm, seg, marked⟩
      obtain ⟨e, -, other, rfl⟩ := mark hm marked
      exact absurd (seg.trans own) other
    · rename_i other
      refine ⟨once, fun i => (listed i).trans ⟨?_, ?_⟩⟩
      · rintro ⟨m, hm, seg, marked⟩
        obtain ⟨e, he, rfl⟩ := Option.map_eq_some_iff.1 hm
        refine ⟨e.mark, ?_, seg, marked⟩
        rw [resetStations_entry, he, Option.bind_some, resetEntry_other fun own => other (seg.symm.trans own)]
        rfl
      · rintro ⟨m, hm, seg, marked⟩
        obtain ⟨e, he, -, rfl⟩ := mark hm marked
        exact ⟨e.mark, by rw [he]; rfl, seg, marked⟩
  · obtain ⟨e, he, -, rfl⟩ := mark hm marked
    exact (F.attends K).fit i e.mark (by simp [he]) marked
  · have order := F.ordered K k
    simp only [ledger_columns, resetStations_holding] at order ⊢
    split <;> exact order
  · have drain := F.drained k K
    simp only [ledger_columns, resetStations_holding] at drain ⊢
    split <;> exact drain

theorem Flow.resetDisc {kept : List Report} (F : Flow kept s t) (g : Seg) : Flow kept s (resetDisc g t) := by
  unfold Machine.resetDisc
  split
  · exact Flow.serveWaitRoom ((F.of_ledger (ledger_releaseReservation t)).updDisc ..)
  · exact F.updDisc ..

/-- The state with the exchange of a segment discarded, its line unit having acted (steps 1 and 2 of R78). -/
def discarded (g : Seg) (s : State) : State :=
  s.updSeg g fun c => { c with exchange := none, line := c.line.discard c.config }

theorem resetSegment_eq (g : Seg) (s : State) : resetSegment g s
    = (resetDisc g (resetStations g (completeJobs (abortOrder s g) .aborted (discarded g s)))).updSeg g
        resetControl := rfl

theorem discarded_lists (g k : Seg) (s : State) : ((discarded g s).seg k).attention = (s.seg k).attention
    ∧ ((discarded g s).seg k).waitSet = (s.seg k).waitSet := by
  rw [discarded, seg_updSeg]
  split
  · rename_i e
    subst e
    exact ⟨rfl, rfl⟩
  · exact ⟨rfl, rfl⟩

/-- A DRAINING segment may lose its exchange if it is HALTED in the end. -/
theorem Flow.of_discarded {g : Seg} (F : Flow s.queue.reports (discarded g s) t)
    (halted : (t.seg g).state = .halted) : Flow s.queue.reports s t := by
  refine ⟨F.follows, fun K => F.attends ?_, fun K => F.ordered fun k => ?_, fun k K => ?_⟩
  · have marks : (ledger (discarded g s)).marks = (ledger s).marks := rfl
    simpa only [Ledger.Attended, ledger_columns, holding_attention, (discarded_lists ..).1, marks] using K
  · simpa only [ledger_columns, holding_waitSet, (discarded_lists ..).2] using K k
  · rcases eq_or_ne k g with rfl | other
    · intro draining
      simp [halted] at draining
    · refine F.drained k ?_
      rw [ledger_columns, discarded, seg_updSeg_other other]
      exact K

theorem resetSegment_halted (g : Seg) (s : State) : ((resetSegment g s).seg g).state = .halted := by
  rw [resetSegment_eq, seg_updSeg_same, resetControl]

theorem Flow.resetControl {kept : List Report} (F : Flow kept s t) (g : Seg) :
    Flow kept s (t.updSeg g resetControl) := by
  refine F.updSeg g (fun _ => .refl _) id fun _ draining => ?_
  simp [Machine.resetControl] at draining

theorem Flow.discarded (g : Seg) (s : State) :
    Flow s.queue.reports (discarded g s) (resetSegment g s) := by
  have start : Flow s.queue.reports (Machine.discarded g s) (Machine.discarded g s) :=
    Flow.refl (Machine.discarded g s)
  have emptied := ((start.completeJobs (abortOrder s g) .aborted).resetStations g).resetDisc g
  exact emptied.resetControl g

theorem Keeps.resetSegment (g : Seg) (s : State) : Keeps s (resetSegment g s) :=
  Flow.keeps (.of_discarded (.discarded g s) (resetSegment_halted g s)) fun G => G.resetSegment g

theorem Keeps.rulingResetSegment (g : Seg) (s : State) : Keeps s (rulingResetSegment g s).state :=
  Keeps.resetSegment g s

/-! ## Requests on stations -/

theorem Keeps.rulingAddStation (a p c : Nat) (g : Seg) (s : State) : Keeps s (rulingAddStation a p c g s).state := by
  unfold Machine.rulingAddStation
  split
  · exact .refl s
  · split
    · exact .refl s
    · split
      · exact .refl s
      · split
        · exact .refl s
        · split
          · exact .refl s
          · rename_i i free
            have unmarked : markSet s i = false := by simp [markSet, lowestFreeIndex_none free]
            refine Flow.keeps (Flow.updDisc ((Flow.refl s).setEntry i (fun _ => unmarked) ?_) ..) fun G => ?_
            · rintro _ ⟨⟩
              rfl
            · rwa [spots_updDisc, spots_setEntry]

/-- The entry has left the attention list before it is freed or RETIRING. -/
theorem Keeps.removeEntry (g : Seg) (a : Nat) (i : Index) (s : State) : Keeps s (removeEntry g a i s) := by
  refine Flow.keeps ?_ fun G => G.removeEntry g a i
  have cleared : Flow s.queue.reports s (stationCleared g a i s) :=
    ((Flow.refl s).completeJobs ..).leaveAttention i
  have unmarked : markSet (stationCleared g a i s) i = false := markSet_leaveAttention ..
  rw [removeEntry_eq]
  unfold freeOrRetire
  split
  · exact (cleared.updUnmarked i (f := fun e => { e with state := .retiring }) unmarked fun _ => rfl).of_ledger
      (ledger_cancelCarried ..)
  · exact cleared.setEntry i (fun _ => unmarked) (by simp)

theorem Keeps.rulingRemoveStation (a : Nat) (g : Seg) (s : State) :
    Keeps s (rulingRemoveStation a g s).state := by
  unfold Machine.rulingRemoveStation
  split
  · exact .refl s
  · split
    · exact .refl s
    · exact Keeps.removeEntry g a _ s

theorem Keeps.rulingReviveStation (a : Nat) (g : Seg) (s : State) :
    Keeps s (rulingReviveStation a g s).state := by
  unfold Machine.rulingReviveStation
  split
  · exact .refl s
  · split
    · exact .refl s
    · split
      · exact ((Flow.refl s).updEntry _ (f := revived) (fun _ => rfl) (fun _ => rfl)
          fun _ => .inr (by simp [revived])).keeps id
      · exact .refl s

theorem Keeps.rulingSetClass (a c : Nat) (g : Seg) (s : State) : Keeps s (rulingSetClass a c g s).state := by
  unfold Machine.rulingSetClass
  split
  · exact .refl s
  · split
    · exact .refl s
    · split
      · exact .refl s
      · exact .silent (ledger_updEntry fun _ => rfl) (spots_updEntry ..)

/-! ## Requests on jobs -/

theorem Flow.acceptJob {kept : List Report} (F : Flow kept s t) {h : Handle} (free : t.job h = none) (j : Job) :
    Flow kept s (acceptJob h j t) := by
  have reserved : Flow kept s (takeReservation t) := F.of_ledger (ledger_takeReservation t)
  have recorded := reserved.takeRecord free j
  unfold Machine.acceptJob
  exact recorded.column j.seg (holding_updLane ..)

theorem Keeps.rulingSubmit (f : HostFrame) (g : Seg) (s : State) : Keeps s (rulingSubmit f g s).state := by
  refine Flow.keeps ?_ fun G => G.rulingSubmit f g
  unfold Machine.rulingSubmit
  split
  · exact .refl s
  · split
    · exact .refl s
    · split
      · exact .refl s
      · split
        · exact .refl s
        · rename_i h free
          split
          · exact .refl s
          · exact ((Flow.refl s).acceptJob (lowestFreeJob_none free) _).pick g

theorem submit_moves (f : HostFrame) (e : execSubmit f s = .next t) :
    ∃ kept, Acknowledged f.ack.toNat s.queue.reports kept ∧ Moves kept s t := by
  injection e with e
  subst e
  exact takeRequest_moves (Keeps.answerRequest (Keeps.withSegment (.rulingSubmit f))) s

theorem Keeps.rulingCancel (f : HostFrame) (s : State) : Keeps s (rulingCancel f s).state := by
  refine Flow.keeps ?_ fun G => G.rulingCancel f
  unfold Machine.rulingCancel cancelJob
  split
  · exact .refl s
  · split
    · exact .refl s
    · split
      · exact (Flow.refl s).updJob _ fun _ => rfl
      · exact (Flow.refl s).completeJob ..
      · exact (Flow.refl s).completeJob ..

/-! ## Requests on discovery units -/

theorem Keeps.rulingDiscover (low high : Nat) (g : Seg) (s : State) :
    Keeps s (rulingDiscover low high g s).state := by
  unfold Machine.rulingDiscover
  split
  · exact .refl s
  · split
    · exact .refl s
    · split
      · exact .refl s
      · refine Flow.keeps (Flow.lookAndPick (Flow.beginProbing ((Flow.refl s).updDisc ..) g) g) fun G => ?_
        refine Spots.Good.lookAndPick ?_ g
        rwa [beginProbing, spots_updDisc, spots_takeReservation, spots_updDisc]

theorem Keeps.stopUnit (g : Seg) (s : State) : Keeps s (stopUnit g s) := by
  refine Flow.keeps ?_ fun G => G.stopUnit g
  have released : Flow s.queue.reports s (releaseReservation s) :=
    (Flow.refl s).of_ledger (ledger_releaseReservation s)
  unfold Machine.stopUnit
  split
  · exact Flow.serveWaitRoom (released.updDisc ..)
  · exact (Flow.refl s).updDisc ..

theorem Keeps.rulingStopDiscovery (g : Seg) (s : State) : Keeps s (rulingStopDiscovery g s).state := by
  unfold Machine.rulingStopDiscovery
  split
  · exact .refl s
  · exact .stopUnit g s

theorem Keeps.resumeDisc (g : Seg) (s : State) : Keeps s (resumeDisc g s) :=
  ((Flow.refl s).resumeDisc g).keeps fun G => G.resumeDisc g

theorem Keeps.updDisc (g : Seg) (f : Discovery → Discovery) (s : State) : Keeps s (s.updDisc g f) :=
  .silent (ledger_updDisc ..) (spots_updDisc ..)

theorem Keeps.rulingAdmit (a p c : Nat) (g : Seg) (s : State) : Keeps s (rulingAdmit a p c g s).state := by
  unfold Machine.rulingAdmit
  split
  · exact .refl s
  · split
    · exact .refl s
    · split
      · exact .refl s
      · split
        · exact .refl s
        · split
          · exact .refl s
          · rename_i i free
            have unmarked : markSet s i = false := by simp [markSet, lowestFreeIndex_none free]
            refine Moves.trans (Moves.trans (Flow.keeps ?_ ?_) (.updDisc ..)) (.resumeDisc g _)
            · refine (Flow.refl s).setEntry i (fun _ => unmarked) ?_
              rintro _ ⟨⟩
              rfl
            · exact id

theorem Keeps.rulingRefuse (a : Nat) (g : Seg) (s : State) : Keeps s (rulingRefuse a g s).state := by
  unfold Machine.rulingRefuse
  split
  · exact .refl s
  · split
    · exact .refl s
    · exact Moves.trans (Keeps.updDisc ..) (.resumeDisc g _)

/-! ## The expiries of timers -/

/-- A job with a running deadline timer is not ACTIVE. -/
theorem Spots.Good.deadline (G : (spots s).Good) {h : Handle} {j : Job} (e : s.job h = some j)
    (runs : j.deadlineTimer.isSome = true) : j.state = .queued := by
  obtain ⟨-, timers⟩ := (spots_good s).1 G
  exact ((timers h j e).1 runs).1

theorem Spots.Good.backoff (G : (spots s).Good) {h : Handle} {j : Job} (e : s.job h = some j)
    (runs : j.backoff.isSome = true) : j.state = .waiting := by
  obtain ⟨-, timers⟩ := (spots_good s).1 G
  exact (timers h j e).2.1 runs

theorem Keeps.deadlineExpiry (h : Handle) (e : execDeadlineExpiry h s = .next t) : Keeps s t := by
  refine .whileLive (fun low => ?_) e
  split
  · exact .refl s
  · rename_i left runs
    obtain ⟨j, live, timer⟩ := Option.bind_eq_some_iff.1 runs
    refine Flow.keeps (((Flow.refl s).elapse left).completeJob ..) fun G => ?_
    have queued := G.deadline live (Option.isSome_iff_exists.2 ⟨left, timer⟩)
    refine Spots.Good.completeWaiting (j := j.elapse left) (by rwa [spots_elapse]) ?_ ?_ _ _
    · rw [elapse_job left s h low, live]
      rfl
    · simp [Job.elapse, queued]

theorem Keeps.backoffExpiry (h : Handle) (e : execBackoffExpiry h s = .next t) : Keeps s t := by
  refine .whileLive (fun low => ?_) e
  split
  · exact .refl s
  · rename_i j live
    split
    · exact .refl s
    · rename_i left timer
      refine Flow.keeps ?_ fun G => ?_
      · refine Flow.pick (Flow.updSeg (((Flow.refl s).elapse left).updJob h fun _ => ?_) _ (fun _ => ?_)
          (fun order => ?_) ?_) _
        · rfl
        · cases j.lane <;> exact .refl _
        · cases j.lane <;> exact order.filter _
        · cases j.lane <;> exact id
      · have waiting := G.backoff live (Option.isSome_iff_exists.2 ⟨left, timer⟩)
        refine Spots.Good.endBackoff (i := j.elapse left) (by rwa [spots_elapse]) ?_ waiting rfl rfl
        rw [elapse_job left s h low, live]
        rfl

theorem Keeps.settleGapReached (g : Seg) (e : execSettleGapReached g s = .next t) : Keeps s t := by
  refine .whileLive (fun _ => ?_) e
  split
  · exact (Keeps.elapse ..).trans (.silent (ledger_enterSend ..) (spots_enterSend ..))
  · exact .refl s

theorem Keeps.expireReply (g : Seg) (s : State) : Keeps s (expireReply g s) := by
  unfold Machine.expireReply
  split
  · rename_i hx
    exact ((Flow.refl s).failNoReply ..).keeps fun G => G.failNoReply (.self hx)
  · exact .refl s

theorem Keeps.replyTimerExpiry (g : Seg) (e : execReplyTimerExpiry g s = .next t) : Keeps s t := by
  refine .whileLive (fun _ => ?_) e
  split
  · exact (Keeps.elapse ..).trans (.expireReply g _)
  · exact .refl s

theorem Keeps.expireGap (g : Seg) (s : State) : Keeps s (expireGap g s) := by
  unfold Machine.expireGap
  split
  · rename_i hx
    exact ((Flow.refl s).failReply ..).keeps fun G => G.failReply (.self hx) _
  · exact .refl s

theorem Keeps.characterGapExpiry (g : Seg) (e : execCharacterGapExpiry g s = .next t) : Keeps s t := by
  refine .whileLive (fun _ => ?_) e
  split
  · exact (Keeps.elapse ..).trans (.expireGap g _)
  · exact .refl s

theorem Keeps.updLine (g : Seg) (f : Line → Line) (s : State) : Keeps s (s.updLine g f) :=
  .silent (ledger_updLine ..) (spots_updLine ..)

theorem Keeps.expireDefer (g : Seg) (s : State) : Keeps s (expireDefer g s) := by
  unfold Machine.expireDefer
  split
  · rename_i x hx
    have stopped : Keeps s (s.updLine g fun l => { l with deferTimer := none }) := .updLine ..
    refine stopped.trans (((Flow.refl _).endExchange ..).keeps fun G => G.endExchange (.self ?_) _ _)
    simpa using hx
  · exact .refl s

theorem Keeps.deferTimerExpiry (g : Seg) (e : execDeferTimerExpiry g s = .next t) : Keeps s t := by
  refine .whileLive (fun _ => ?_) e
  split
  · exact (Keeps.elapse ..).trans (.expireDefer g _)
  · exact .refl s

theorem Keeps.sweepDue (g : Seg) (s : State) : Keeps s (sweepDue g s) := by
  refine Flow.keeps ?_ fun G => G.sweepDue g
  have begun : Flow s.queue.reports s
      (s.updSweep g fun w => { w with active := true, cursor := 0, repeatDue := false }) :=
    (Flow.refl s).updSweep ..
  simp only [Machine.sweepDue]
  split
  · split
    · exact (Flow.refl s).count ..
    · exact (Flow.refl s).updSweep ..
  · split
    · exact (begun.of_ledger (ledger_lookSweep ..)).pick g
    · exact begun.of_ledger (ledger_lookSweep ..)

theorem Keeps.restartSweepTimer (g : Seg) (s : State) : Keeps s (restartSweepTimer g s) :=
  .silent (ledger_restartSweepTimer ..) (spots_restartSweepTimer ..)

theorem Keeps.sweepTimerExpiry (g : Seg) (e : execSweepTimerExpiry g s = .next t) : Keeps s t := by
  refine .whileLive (fun _ => ?_) e
  split
  · exact (Keeps.elapse ..).trans (Moves.trans (Keeps.restartSweepTimer g _) (.sweepDue g _))
  · exact .refl s

theorem Keeps.admissionTimerExpiry (g : Seg) (e : execAdmissionTimerExpiry g s = .next t) : Keeps s t := by
  refine .whileLive (fun _ => ?_) e
  split
  · exact (Keeps.elapse ..).trans (Moves.trans (Keeps.updDisc ..) (.resumeDisc g _))
  · exact .refl s

theorem Keeps.reEdgeIntervalEnd (e : execReEdgeIntervalEnd s = .next t) : Keeps s t := by
  refine .whileLive (fun _ => ?_) e
  split
  · exact (Keeps.elapse ..).trans (.silent (ledger_updQueue rfl) (spots_updQueue ..))
  · exact .refl s

/-! ## The happenings at a line unit -/

theorem Keeps.handItem (g : Seg) (item : Item) (s : State) : Keeps s (handItem g item s) :=
  ((Flow.refl s).handItem g item).keeps fun G => G.handItem g item

theorem Keeps.receivedItem (wait : Time) (g : Seg) (item : Item) (spaceAtEnd : Bool)
    (e : execReceivedItem wait g item spaceAtEnd s = .next t) : Keeps s t := by
  refine .whileLive (fun _ => ?_) e
  refine (Keeps.elapse wait s).trans ?_
  dsimp only
  split
  · exact .refl _
  · refine Moves.trans (Keeps.silent (ledger_updSeg_silent ?_) (spots_updSeg_work ?_)) (.handItem g item _) <;> rfl

theorem Keeps.releaseDir (g : Seg) (s : State) : Keeps s (releaseDir g s) :=
  ((Flow.refl s).releaseDir g).keeps fun G => G.releaseDir g

theorem Keeps.frameSentWhole (g : Seg) (e : execFrameSentWhole g s = .next t) : Keeps s t := by
  refine .whileLive (fun _ => ?_) e
  split
  · rename_i chars echoed left _
    have sent : Keeps s (sentWhole g (s.elapse left)) :=
      (Keeps.elapse left s).trans (.silent (ledger_sentWhole ..) (spots_sentWhole ..))
    split
    · dsimp only
      split
      · exact sent.trans (.releaseDir g _)
      · exact sent
    · exact .refl s
  · exact .refl s

theorem Keeps.guardEnd (g : Seg) (e : execGuardEnd g s = .next t) : Keeps s t := by
  refine .whileLive (fun _ => ?_) e
  split
  · exact (Keeps.elapse ..).trans (.releaseDir g _)
  · exact .refl s

theorem Keeps.breakOver (g : Seg) (s : State) : Keeps s (breakOver g s) := by
  refine Flow.keeps ?_ fun G => G.breakOver g
  unfold Machine.breakOver
  exact Flow.pick ((Flow.refl s).column g rfl) g

theorem Keeps.abortBreakEnd (g : Seg) (e : execAbortBreakEnd g s = .next t) : Keeps s t := by
  refine .whileLive (fun _ => ?_) e
  split
  · exact (Keeps.elapse ..).trans (.breakOver g _)
  · exact .refl s

theorem Keeps.missEcho (g : Seg) (s : State) : Keeps s (missEcho g s) := by
  unfold Machine.missEcho
  split
  · rename_i hx
    exact ((Flow.refl s).contend ..).keeps fun G => G.contend (.self hx)
  · exact .refl s

theorem Keeps.characterSentWithoutEcho (g : Seg) (e : execCharacterSentWithoutEcho g s = .next t) :
    Keeps s t := by
  refine .whileLive (fun _ => ?_) e
  split
  · split
    · exact (Keeps.elapse ..).trans (.missEcho g _)
    · exact .refl s
  · exact .refl s

theorem Keeps.startBitConfirmed (start : StartBit) (g : Seg) (e : execStartBitConfirmed start g s = .next t) :
    Keeps s t := by
  refine .whileLive (fun _ => ?_) e
  refine (Keeps.elapse start.wait s).trans ?_
  dsimp only
  split
  · exact .silent (ledger_confirmStart ..) (spots_confirmStart ..)
  · exact .refl _

theorem Keeps.lineReturnToMark (wait : Time) (g : Seg) (e : execLineReturnToMark wait g s = .next t) :
    Keeps s t := by
  refine .whileLive (fun _ => ?_) e
  refine (Keeps.elapse wait s).trans ?_
  dsimp only
  split
  · exact .updLine ..
  · exact .refl _

/-! ## Every command -/

theorem rulingQueryDevice_keeps (f : HostFrame) (s : State) : Keeps s (rulingQueryDevice f s).state := by
  unfold rulingQueryDevice
  split
  · exact .refl s
  · exact .silent rfl rfl
  · exact .refl s

/-- What a command's frame, if it has one, acknowledges of the reports. -/
def CommandAcks (c : Instr) (reports kept : List Report) : Prop :=
  kept = reports ∨ ∃ code f r, c.request = some (code, f) ∧ reports = r :: kept ∧ r.number = f.ack.toNat

theorem commandAcks_of_request {c : Instr} {code : Byte} {f : HostFrame}
    (request : c.request = some (code, f)) {reports kept : List Report}
    (named : Acknowledged f.ack.toNat reports kept) : CommandAcks c reports kept :=
  named.imp_right fun ⟨r, head, number⟩ => ⟨code, f, r, request, head, number⟩

/-- The commands that put the part, or all of it but what RSTN holds, into a reset state. -/
def resets : Instr → Bool
  | .restart _ => true
  | .rstnFall .. => true
  | .rstnRelease _ => true
  | _ => false

theorem exec_moves {c : Instr} (e : exec c s = .next t) (r : resets c = false) :
    ∃ kept, CommandAcks c s.queue.reports kept ∧ Moves kept s t := by
  have all (K : Keeps s t) : ∃ kept, CommandAcks c s.queue.reports kept ∧ Moves kept s t :=
    ⟨_, .inl rfl, K⟩
  have asked {code : Byte} {f : HostFrame} (request : c.request = some (code, f))
      (M : ∃ kept, Acknowledged f.ack.toNat s.queue.reports kept ∧ Moves kept s t) :
      ∃ kept, CommandAcks c s.queue.reports kept ∧ Moves kept s t := by
    obtain ⟨kept, named, moves⟩ := M
    exact ⟨kept, commandAcks_of_request request named, moves⟩
  cases c with
  | csnFall wait => exact all (.csnFall wait e)
  | hostFrameIgnored wait bits => exact all (.hostFrameIgnored wait bits e)
  | unknownRequest code f => exact asked rfl (unknownRequest_moves code f e)
  | nop f => exact asked rfl (nop_moves f e)
  | sync f => exact asked rfl (exactRequest_moves (fun u => (rulingSync_state u).symm ▸ .refl u) e)
  | restart f => simp [resets] at r
  | queryDevice f => exact asked rfl (exactRequest_moves (rulingQueryDevice_keeps f) e)
  | configureSegment f => exact asked rfl (segmentRequest_moves (.rulingConfigure f) e)
  | start f => exact asked rfl (segmentRequest_moves .rulingStart e)
  | stop f => exact asked rfl (segmentRequest_moves .rulingStop e)
  | resume f => exact asked rfl (segmentRequest_moves .rulingResume e)
  | resetSegment f => exact asked rfl (segmentRequest_moves .rulingResetSegment e)
  | querySegment f => exact asked rfl (segmentRequest_moves (fun _ u => .refl u) e)
  | queryCounters f => exact asked rfl (segmentRequest_moves (.rulingQueryCounters _) e)
  | addStation f => exact asked rfl (segmentRequest_moves (.rulingAddStation _ _ _) e)
  | removeStation f => exact asked rfl (segmentRequest_moves (.rulingRemoveStation _) e)
  | reviveStation f => exact asked rfl (segmentRequest_moves (.rulingReviveStation _) e)
  | setClass f => exact asked rfl (segmentRequest_moves (.rulingSetClass _ _) e)
  | queryStation f =>
    exact asked rfl (segmentRequest_moves (fun g u => (rulingQueryStation_state _ g u).symm ▸ .refl u) e)
  | listStations f =>
    exact asked rfl (segmentRequest_moves (fun g u => (rulingListStations_state _ g u).symm ▸ .refl u) e)
  | submit f => exact asked rfl (submit_moves f e)
  | cancel f => exact asked rfl (exactRequest_moves (.rulingCancel f) e)
  | queryJob f => exact asked rfl (exactRequest_moves (fun u => (rulingQueryJob_state f u).symm ▸ .refl u) e)
  | discover f => exact asked rfl (segmentRequest_moves (.rulingDiscover _ _) e)
  | stopDiscovery f => exact asked rfl (segmentRequest_moves .rulingStopDiscovery e)
  | admitFind f => exact asked rfl (segmentRequest_moves (.rulingAdmit _ _ _) e)
  | refuseFind f => exact asked rfl (segmentRequest_moves (.rulingRefuse _) e)
  | rstnFall wait held => simp [resets] at r
  | rstnRelease wait => simp [resets] at r
  | deadlineExpiry h => exact all (.deadlineExpiry h e)
  | backoffExpiry h => exact all (.backoffExpiry h e)
  | settleGapReached g => exact all (.settleGapReached g e)
  | receivedItem wait g item spaceAtEnd => exact all (.receivedItem wait g item spaceAtEnd e)
  | frameSentWhole g => exact all (.frameSentWhole g e)
  | guardEnd g => exact all (.guardEnd g e)
  | abortBreakEnd g => exact all (.abortBreakEnd g e)
  | replyTimerExpiry g => exact all (.replyTimerExpiry g e)
  | characterGapExpiry g => exact all (.characterGapExpiry g e)
  | deferTimerExpiry g => exact all (.deferTimerExpiry g e)
  | sweepTimerExpiry g => exact all (.sweepTimerExpiry g e)
  | admissionTimerExpiry g => exact all (.admissionTimerExpiry g e)
  | reEdgeIntervalEnd => exact all (.reEdgeIntervalEnd e)
  | characterSentWithoutEcho g => exact all (.characterSentWithoutEcho g e)
  | startBitConfirmed start g => exact all (.startBitConfirmed start g e)
  | lineReturnToMark wait g => exact all (.lineReturnToMark wait g e)

/-! ## While RSTN is low -/

theorem whileLive_low {u : State} (low : s.rstnLow = true)
    (e : (.next (if s.rstnLow then s else u) : Result) = .next t) : t.rstnLow = true := by
  injection e with e
  subst e
  simp [low]

theorem atCsnRise_low (low : s.rstnLow = true) (w : Time) (k : State → State) :
    (atCsnRise w k s).rstnLow = true := by
  have lost : ¬KeptWindow w s := fun ⟨live, _⟩ => by simp [low] at live
  rw [atCsnRise_lost lost]
  exact (elapse_rstnLow w s).trans low

theorem exactRequest_low {n : Nat} {f : HostFrame} {owner : State → Ruling} (low : s.rstnLow = true)
    (e : exactRequest n f owner s = .next t) : t.rstnLow = true := by
  injection e with e
  subst e
  exact atCsnRise_low low ..

theorem unknownRequest_low {code : Byte} {f : HostFrame} (low : s.rstnLow = true)
    (e : execUnknownRequest code f s = .next t) : t.rstnLow = true := by
  unfold execUnknownRequest at e
  split at e <;> injection e with e <;> subst e <;> exact atCsnRise_low low ..

theorem csnFall_low {wait : Time} (low : s.rstnLow = true) (e : execCsnFall wait s = .next t) :
    t.rstnLow = true := by
  injection e with e
  subst e
  split <;> exact (elapse_rstnLow wait s).trans low

/-- No command but the release ends the reset. -/
theorem exec_low {c : Instr} (low : s.rstnLow = true) (e : exec c s = .next t) (r : resets c = false) :
    t.rstnLow = true := by
  cases c with
  | csnFall wait => exact csnFall_low low e
  | unknownRequest code f => exact unknownRequest_low low e
  | restart f => simp [resets] at r
  | rstnFall wait held => simp [resets] at r
  | rstnRelease wait => simp [resets] at r
  | hostFrameIgnored wait bits =>
    injection e with e
    exact e ▸ atCsnRise_low low ..
  | nop f =>
    injection e with e
    exact e ▸ atCsnRise_low low ..
  | submit f =>
    injection e with e
    exact e ▸ atCsnRise_low low ..
  | deadlineExpiry | backoffExpiry | settleGapReached | receivedItem | frameSentWhole | guardEnd | abortBreakEnd
  | replyTimerExpiry | characterGapExpiry | deferTimerExpiry | sweepTimerExpiry | admissionTimerExpiry
  | reEdgeIntervalEnd | characterSentWithoutEcho | startBitConfirmed | lineReturnToMark =>
    exact whileLive_low low e
  | _ => exact exactRequest_low low e

/-! ## The laws of the places -/

theorem PlaceLaws.moves {kept : List Report} (P : PlaceLaws s) (M : Moves kept s t)
    (low : t.rstnLow = false → s.rstnLow = false) : PlaceLaws t where
  attention := (attentionLaw_iff t).2 (M.flow.attends ((attentionLaw_iff s).1 P.attention))
  waiting := M.flow.ordered P.waiting
  live runs := by
    obtain ⟨holders, timers, drains⟩ := P.live (low runs)
    obtain ⟨holders', timers'⟩ := (spots_good t).1 (M.places ((spots_good s).2 ⟨holders, timers⟩))
    exact ⟨holders', timers', fun g => M.flow.drained g (drains g)⟩

/-- A restart leaves nothing that could stand anywhere. -/
theorem restartPart_placeLaws (warm : Bool) (s : State) : PlaceLaws (restartPart warm s) where
  attention := by
    have unmarked {i : Index} {e : Entry} (he : (restartPart warm s).entry i = some e) : e.attention = false := by
      rw [restartPart_entry] at he
      cases warm with
      | false => simp at he
      | true =>
        obtain ⟨x, -, left⟩ := Option.bind_eq_some_iff.1 he
        refine resetEntry_own (g := x.seg) rfl (e := x) ?_
        rwa [resetEntry, if_pos rfl]
    refine ⟨fun g => ?_, fun i e he marked => absurd marked (by simp [unmarked he])⟩
    rw [restartPart_seg]
    refine ⟨List.nodup_nil, fun i => ⟨fun m => absurd m List.not_mem_nil, ?_⟩⟩
    rintro ⟨e, he, -, marked⟩
    simp [unmarked he] at marked
  waiting g := by
    rw [restartPart_seg]
    exact List.Pairwise.nil
  live _ := by
    obtain ⟨holders, timers⟩ := (spots_good _).1 (Spots.Good.restartPart warm s)
    refine ⟨holders, timers, fun g draining => ?_⟩
    rw [restartPart_seg] at draining
    simp [Column.restart, Column.reset] at draining

theorem PlaceLaws.dealRestart (P : PlaceLaws s) (f : HostFrame) : PlaceLaws (dealRestart f s) := by
  have silent {f : Link → Link} : PlaceLaws (s.updLink f) := P.moves (Keeps.silent rfl rfl) id
  unfold Machine.dealRestart
  split
  · exact silent
  · split
    · exact silent
    · split
      · exact restartPart_placeLaws ..
      · split
        · exact restartPart_placeLaws ..
        · exact silent

theorem PlaceLaws.elapse (P : PlaceLaws s) (d : Time) : PlaceLaws (s.elapse d) :=
  P.moves (Keeps.elapse d s) fun live => (elapse_rstnLow d s).symm.trans live

theorem PlaceLaws.restart (P : PlaceLaws s) (f : HostFrame) (e : execRestart f s = .next t) : PlaceLaws t := by
  injection e with e
  subst e
  have raised : PlaceLaws (s.elapse f.wait).raiseCsn := (P.elapse f.wait).moves (Keeps.raiseCsn _) id
  unfold takeRequest
  by_cases window : KeptWindow f.wait s
  · rw [atCsnRise_kept window]
    have counted {g : Link → Link} : PlaceLaws ((s.elapse f.wait).raiseCsn.updLink g) :=
      raised.moves (Keeps.silent rfl rfl) id
    split
    · exact counted
    · split
      · exact counted
      · obtain ⟨kept, -, moves⟩ := applyAck_moves f.ack.toNat (countTaken (s.elapse f.wait).raiseCsn)
        refine PlaceLaws.dealRestart (PlaceLaws.moves counted moves fun live => ?_) f
        rwa [(applyAck_outside ..).2.1] at live
  · rw [atCsnRise_lost window]
    exact raised

theorem PlaceLaws.rstnFall (P : PlaceLaws s) (wait held : Time) (e : execRstnFall wait held s = .next t) :
    PlaceLaws t := by
  unfold execRstnFall at e
  split at e <;> injection e with e <;> subst e
  · exact (P.elapse wait).elapse held
  · obtain ⟨⟨listed, fit⟩, order, -⟩ := P.elapse wait
    refine ⟨⟨fun g => ?_, fit⟩, fun g => ?_, fun live => absurd live (by simp [holdInReset])⟩
    · rw [holdInReset_seg]
      exact listed g
    · rw [holdInReset_seg]
      exact order g

theorem pinStart_placeLaws (s : State) : PlaceLaws (pinStart s) where
  attention := reset_attentionLaw
  waiting := reset_waitOrderLaw
  live _ := reset_placeLaws.live rfl

theorem PlaceLaws.exec (P : PlaceLaws s) {c : Instr} (e : exec c s = .next t) : PlaceLaws t := by
  cases r : resets c with
  | false =>
    obtain ⟨kept, -, moves⟩ := exec_moves e r
    refine P.moves moves fun live => ?_
    by_contra low
    simp [exec_low (Bool.eq_true_of_not_eq_false low) e r] at live
  | true =>
    cases c with
    | restart f => exact P.restart f e
    | rstnFall wait held => exact P.rstnFall wait held e
    | rstnRelease wait =>
      injection e with e
      subst e
      split
      · exact pinStart_placeLaws s
      · exact P.elapse wait
    | _ => simp [resets] at r

/-- Settles O58: the laws of attention, of the waiting order and of drains are read from the ledger, which every
command's flow keeps lawful, and the places of the jobs from their spots; what resets is taken apart. -/
theorem placesKeptByEveryStep : Obligations.PlacesKeptByEveryStep := by
  intro s t P e
  unfold step at e
  split at e
  · injection e with e
    exact e ▸ P
  · rename_i c rest _
    have dequeued : PlaceLaws { s with pending := rest } := P.moves (Keeps.silent rfl rfl) id
    exact dequeued.exec e

/-! ## No report or job is lost -/

/-- The fall of RSTN keeps the reports and jobs; they go at the release. -/
theorem rstnFall_follows {wait held : Time} (e : execRstnFall wait held s = .next t) :
    t.queue.reports = s.queue.reports ∧ (ledger t).terms = (ledger s).terms := by
  have passed : (ledger (s.elapse wait)).terms = (ledger s).terms := by rw [ledger_elapse]
  unfold execRstnFall at e
  split at e <;> injection e with e <;> subst e
  · exact ⟨by simp, by rw [ledger_elapse, passed]⟩
  · exact ⟨elapse_reports wait s, passed⟩

theorem Job.terms_eq {j k : Job} (h : k.terms = j.terms) : k.tag = j.tag ∧ k.seg = j.seg ∧ k.addr = j.addr
    ∧ k.port = j.port ∧ k.kind = j.kind ∧ k.lane = j.lane ∧ k.deadline = j.deadline ∧ k.request = j.request := by
  simpa [Job.terms] using h

/-- Settles O59: every command but a restart or a release goes on with the reports that its acknowledgement keeps,
and with each job or its RESULT. -/
theorem noReportOrJobIsLost : Obligations.NoReportOrJobIsLost := by
  intro c s t e noRestart noRelease
  have follows : ∃ kept added, t.queue.reports = kept ++ added ∧ CommandAcks c s.queue.reports kept
      ∧ ∀ h j, (ledger s).terms h = some j → (ledger t).terms h = some j ∨ ∃ r ∈ added, r.Results j.tag := by
    cases r : resets c with
    | false =>
      obtain ⟨kept, named, moves⟩ := exec_moves e r
      obtain ⟨added, reports, jobs⟩ := moves.flow.follows
      exact ⟨kept, added, reports, named, jobs⟩
    | true =>
      cases c with
      | restart f => exact absurd rfl (noRestart f)
      | rstnRelease wait => exact absurd rfl (noRelease wait)
      | rstnFall wait held =>
        obtain ⟨reports, terms⟩ := rstnFall_follows e
        exact ⟨_, [], by rw [reports, List.append_nil], .inl rfl, fun h j live => .inl (terms ▸ live)⟩
      | _ => simp [resets] at r
  obtain ⟨kept, added, reports, named, jobs⟩ := follows
  refine ⟨kept, added, reports, named, fun h j live => ?_⟩
  refine (jobs h j.terms (by simp [live])).imp (fun still => ?_) id
  obtain ⟨k, hk, terms⟩ := Option.map_eq_some_iff.1 still
  exact ⟨k, hk, Job.terms_eq terms⟩

end

end Sys2Proof.Machine
end

section
/-! Reports, completions and the requests and timers of jobs (O25, O28 to O31). -/

namespace Sys2Proof.Machine

section
variable {s : State} {f : HostFrame} {g : Seg}

/-! ## Reports and completions (R38, R95, R157) -/

theorem filter_bne_eq {α : Type} [DecidableEq α] (a : α) (l : List α) :
    l.filter (· != a) = l.filter (· ≠ a) :=
  List.filter_congr fun x _ => by by_cases h : x = a <;> simp [h]

theorem eventReport_room (b : ReportBody) (h : s.queue.reports.length + s.queue.reservations < queuePlaces) :
    eventReport b s = s.updQueue (Queue.enter b) := by
  rw [eventReport, if_pos]
  unfold freeRoom
  omega

theorem eventReport_full (b : ReportBody) (h : queuePlaces ≤ s.queue.reports.length + s.queue.reservations) :
    eventReport b s = s.updQueue fun q => { q with lostEvents := satInc q.lostEvents } := by
  rw [eventReport, if_neg]
  unfold freeRoom
  omega

theorem leaveAttention_of {i : Index} {e : Entry} (he : s.entry i = some e) : leaveAttention i s
    = (s.setEntry i (some { e with attention := false })).updSeg e.seg fun c =>
        { c with attention := c.attention.filter (· != i) } := by
  simp only [leaveAttention, he, updEntry_of he]

/-- Settles O25: each operation by its own lemma. -/
theorem reportsAndCompletions : Obligations.ReportsAndCompletions := by
  intro s
  refine ⟨fun b => ⟨eventReport_room b, eventReport_full b⟩, fun h j o d live => ⟨completeJob_completes live o d,
    rest_eq (rest_completeJob ..)⟩, fun h hs o => ⟨rfl, rfl⟩, fun i e he => ?_⟩
  simp only [leaveAttention_of he, filter_bne_eq]

/-! ## The operands of SUBMIT (R28, R183) -/

/-- The second check of R28, on the body of a SUBMIT. -/
def SubmitValid (f : HostFrame) : Prop :=
  let b := byteAt f.body
  let count := f.body.length - 8
  ((b 3 = 1 ∧ count ≤ 16) ∨ ((b 3 = 2 ∨ b 3 = 4) ∧ 1 ≤ count ∧ count ≤ 64) ∨ (b 3 = 3 ∧ count = 0))
    ∧ b 4 ≤ 1 ∧ (b 5 = 0 ∨ (b 5 = 1 ∧ b 6 * 256 + b 7 ≠ 0))
    ∧ (if b 3 = 4 then b 1 = 0 else 1 ≤ b 1 ∧ b 1 ≤ 126)

theorem JobKind.ofCode_eq_some {n : Nat} {k : JobKind} : JobKind.ofCode n = some k ↔ k.code = n := by
  unfold JobKind.ofCode
  split <;> cases k <;> simp_all [JobKind.code] <;> omega

theorem Lane.ofCode_eq_some {n : Nat} {l : Lane} : Lane.ofCode n = some l ↔ l.code = n := by
  unfold Lane.ofCode
  split <;> cases l <;> simp_all [Lane.code] <;> omega

theorem readDeadline_eq_some {presence ms : Nat} {d : Option Nat} : readDeadline presence ms = some d
    ↔ (presence = 0 ∨ (presence = 1 ∧ ms ≠ 0)) ∧ d = if presence = 0 then none else some ms := by
  unfold readDeadline
  by_cases absent : presence = 0
  · simp [absent, eq_comm]
  · by_cases present : presence = 1 ∧ ms ≠ 0
    · simp [present, eq_comm]
    · simp [absent, present]

theorem requestLengthOk_iff {k : JobKind} {n : Nat} : requestLengthOk k n = true
    ↔ (k.code = 1 ∧ n ≤ 16) ∨ ((k.code = 2 ∨ k.code = 4) ∧ 1 ≤ n ∧ n ≤ 64) ∨ (k.code = 3 ∧ n = 0) := by
  cases k <;> simp [requestLengthOk, JobKind.code, within]

theorem jobAddrOk_iff {k : JobKind} {a : Nat} :
    jobAddrOk k a = true ↔ if k.code = 4 then a = 0 else 1 ≤ a ∧ a ≤ 126 := by
  cases k <;> simp [jobAddrOk, JobKind.code, validAddr_iff]

/-- What is read of a body that passes the check. -/
theorem readSubmit_eq_some {k : JobKind} {l : Lane} {d : Option Nat} : readSubmit f = some (k, l, d)
    ↔ JobKind.ofCode (byteAt f.body 3) = some k ∧ Lane.ofCode (byteAt f.body 4) = some l
      ∧ readDeadline (byteAt f.body 5) (wordAt f.body 6) = some d
      ∧ requestLengthOk k (f.body.length - 8) = true ∧ jobAddrOk k (byteAt f.body 1) = true := by
  simp only [readSubmit, bodyByte, bodyWord, requestBytes, List.length_drop]
  split
  · rename_i k' l' d' hk hl hd
    simp only [hk, hl, hd, Option.some.injEq, Option.ite_none_right_eq_some, Bool.and_eq_true,
      Prod.mk.injEq]
    constructor
    · rintro ⟨⟨length, addr⟩, rfl, rfl, rfl⟩
      exact ⟨rfl, rfl, rfl, length, addr⟩
    · rintro ⟨rfl, rfl, rfl, length, addr⟩
      exact ⟨⟨length, addr⟩, rfl, rfl, rfl⟩
  · rename_i unread
    refine iff_of_false (by simp) ?_
    rintro ⟨hk, hl, hd, -⟩
    exact unread k l d hk hl hd

theorem submitValid_of_read {k : JobKind} {l : Lane} {d : Option Nat} (h : readSubmit f = some (k, l, d)) :
    SubmitValid f := by
  obtain ⟨kind, lane, deadline, length, addr⟩ := readSubmit_eq_some.1 h
  rw [JobKind.ofCode_eq_some] at kind
  rw [Lane.ofCode_eq_some] at lane
  rw [requestLengthOk_iff, kind] at length
  rw [jobAddrOk_iff, kind] at addr
  refine ⟨length, ?_, (readDeadline_eq_some.1 deadline).1, addr⟩
  cases l <;> simp [← lane, Lane.code]

theorem read_of_submitValid (h : SubmitValid f) :
    ∃ k l d, readSubmit f = some (k, l, d) ∧ k.code = byteAt f.body 3 := by
  obtain ⟨suits, lane, deadline, addr⟩ := h
  obtain ⟨k, kind⟩ : ∃ k : JobKind, k.code = byteAt f.body 3 := by
    rcases suits with ⟨h, -⟩ | ⟨h | h, -⟩ | ⟨h, -⟩
    · exact ⟨.read, h.symm⟩
    · exact ⟨.write, h.symm⟩
    · exact ⟨.broadcast, h.symm⟩
    · exact ⟨.status, h.symm⟩
  obtain ⟨l, hl⟩ : ∃ l : Lane, l.code = byteAt f.body 4 := by
    rcases Nat.le_one_iff_eq_zero_or_eq_one.1 lane with h | h
    · exact ⟨.urgent, h.symm⟩
    · exact ⟨.normal, h.symm⟩
  refine ⟨k, l, _, readSubmit_eq_some.2 ⟨JobKind.ofCode_eq_some.2 kind, Lane.ofCode_eq_some.2 hl,
    readDeadline_eq_some.2 ⟨deadline, rfl⟩, ?_, ?_⟩, kind⟩
  · rwa [requestLengthOk_iff, kind]
  · rwa [jobAddrOk_iff, kind]

theorem JobKind.code_eq_four {k : JobKind} : k.code = 4 ↔ k = .broadcast := by
  cases k <;> simp [JobKind.code]

/-! ## The station of a SUBMIT (checks 3 to 5 of R28) -/

section
variable {k : JobKind} {a port : Nat} {i : Index} {e : Entry}

theorem stationCheck_broadcast : stationCheck s g .broadcast a port = if port ≠ 0 then some .badPort else none :=
  rfl

theorem stationCheck_noStation (h : k ≠ .broadcast)
    (absent : ∀ i e, s.entry i = some e → e.seg = g → e.addr = a → e.state = .retiring) :
    stationCheck s g k a port = some .noStation := by
  simp [stationCheck, h, workingEntryAt_none_of absent]

theorem stationCheck_found (h : k ≠ .broadcast) (T : TableLaw s) (he : s.entry i = some e) (hs : e.seg = g)
    (ha : e.addr = a) (working : e.state ≠ .retiring) : stationCheck s g k a port
      = if e.state = .offline then some .stationOffline else if e.ports ≤ port then some .badPort else none := by
  simp [stationCheck, h, workingEntryAt_of T he hs ha working]

end

/-! ## The rulings of SUBMIT -/

theorem findTag_isSome_iff {t : BitVec 16} :
    (findTag s t).isSome = true ↔ ∃ h j, s.job h = some j ∧ j.tag = t := by
  simp only [findTag, List.find?_isSome, List.mem_finRange, true_and]
  refine exists_congr fun h => ?_
  cases s.job h <;> simp

/-- A taken SUBMIT is its segment's ruling. -/
theorem submit_ruled (taken : Taken f s) (length : 8 ≤ f.body.length) (segment : byteAt f.body 0 = g.val) {r : Ruling}
    (e : rulingSubmit f g (afterTake f s) = r) :
    exec (.submit f) s = .next (setSlot f.tag r.outcome r.data r.state) := by
  have dealt : exec (.submit f) s = .next (takeRequest f (answerRequest f (decide (8 ≤ f.body.length))
    (withSegment (bodyByte f 0) (rulingSubmit f))) s) := rfl
  have segment' : bodyByte f 0 = g.val := segment
  rw [dealt, takeRequest_taken taken, answerRequest_fresh taken, withSegment_of segment', e]
  simp [length]

theorem rulingSubmit_badValue (h : ¬SubmitValid f) : rulingSubmit f g s = refuse .badValue s := by
  have unread : readSubmit f = none := by
    cases read : readSubmit f with
    | none => rfl
    | some r => exact absurd (submitValid_of_read read) h
  simp only [rulingSubmit, unread]

section
variable {k : JobKind} {l : Lane} {d : Option Nat} (read : readSubmit f = some (k, l, d))
include read

theorem rulingSubmit_station {o : AnsOutcome}
    (check : stationCheck s g k (byteAt f.body 1) (byteAt f.body 2) = some o) :
    rulingSubmit f g s = refuse o s := by
  simp only [rulingSubmit, read, bodyByte, check]

variable (check : stationCheck s g k (byteAt f.body 1) (byteAt f.body 2) = none)
include check

theorem rulingSubmit_tagInUse (used : ∃ h j, s.job h = some j ∧ j.tag = f.tag) :
    rulingSubmit f g s = refuse .tagInUse s := by
  simp only [rulingSubmit, read, bodyByte, check, findTag_isSome_iff.2 used, if_true]

variable (unused : ¬∃ h j, s.job h = some j ∧ j.tag = f.tag)
include unused

theorem rulingSubmit_noJobSlot (full : ∀ h, (s.job h).isSome = true) :
    rulingSubmit f g s = refuse .noJobSlot s := by
  simp only [rulingSubmit, read, bodyByte, check, mt findTag_isSome_iff.1 unused, Bool.false_eq_true,
    if_false, lowestFreeJob_full full]

theorem rulingSubmit_free {h : Handle} (free : lowestFreeJob s = some h) : rulingSubmit f g s
    = if queuePlaces ≤ s.queue.reports.length + s.queue.reservations then refuse .noReportRoom s
      else submitJob f g k l d h s := by
  simp only [rulingSubmit, read, bodyByte, check, mt findTag_isSome_iff.1 unused, Bool.false_eq_true, if_false, free]

end

theorem lowestFreeJob_isSome (h : ∃ h, s.job h = none) : ∃ h, lowestFreeJob s = some h := by
  obtain ⟨h, free⟩ := h
  rw [← Option.isSome_iff_exists]
  simp only [lowestFreeJob, List.find?_isSome]
  exact ⟨h, List.mem_finRange h, by simp [free]⟩

/-- Settles O28: the body is read if its check passes, the station is judged by the one working entry that
TableLaw lets have the address, and the rest are the look-ups of the pool and the room. -/
theorem submitIsChecked : Obligations.SubmitIsChecked := by
  intro f g s taken length segment T u b count refused suits valid station stationGood portGood tagUsed
  have T' : TableLaw u := T.afterTake f
  have ruled {o : AnsOutcome} (e : rulingSubmit f g u = refuse o u) : refused o :=
    submit_ruled taken length segment e
  have kind {k : JobKind} (code : k.code = b 3) : k = .broadcast ↔ b 3 = 4 := by
    rw [← code, JobKind.code_eq_four]
  have checked {k : JobKind} (code : k.code = b 3) (good : stationGood) :
      (portGood → stationCheck u g k (b 1) (b 2) = none)
      ∧ (¬portGood → stationCheck u g k (b 1) (b 2) = some .badPort) := by
    by_cases broadcast : b 3 = 4
    · obtain rfl := (kind code).2 broadcast
      simp only [portGood, broadcast, if_true, stationCheck_broadcast]
      exact ⟨fun h => if_neg (not_not.2 h), fun h => if_pos h⟩
    · obtain ⟨e, ⟨hs, ha, i, he⟩, working, alive⟩ := good broadcast
      have own : ∀ x, station x → x = e := by
        rintro x ⟨xs, xa, n, xn⟩
        obtain rfl := T'.2 n i x e xn he (xs.trans hs.symm) (xa.trans ha.symm)
        exact Option.some.inj (xn.symm.trans he)
      rw [stationCheck_found (mt (kind code).1 broadcast) T' he hs ha working, if_neg alive]
      simp only [portGood, broadcast, if_false]
      constructor
      · exact fun h => if_neg (Nat.not_le.2 (h e ⟨hs, ha, i, he⟩))
      · refine fun h => if_pos (Nat.not_lt.1 fun below => h fun x hx => ?_)
        rwa [own x hx]
  refine ⟨fun h => ruled (rulingSubmit_badValue h), fun v single absent => ?_, fun v single e he offline => ?_,
    fun v good port => ?_, fun v good port used => ?_, fun v good port unused full => ?_,
    fun v good port unused free room => ?_⟩
  all_goals obtain ⟨k, l, d, read, code⟩ := read_of_submitValid v
  · exact ruled (rulingSubmit_station read (stationCheck_noStation (mt (kind code).1 single)
      fun i e he hs ha => absent e ⟨hs, ha, i, he⟩))
  · obtain ⟨hs, ha, i, he⟩ := he
    refine ruled (rulingSubmit_station read ?_)
    rw [stationCheck_found (mt (kind code).1 single) T' he hs ha (by simp [offline]), if_pos offline]
  · exact ruled (rulingSubmit_station read ((checked code good).2 port))
  · exact ruled (rulingSubmit_tagInUse read ((checked code good).1 port) used)
  · exact ruled (rulingSubmit_noJobSlot read ((checked code good).1 port) unused full)
  · obtain ⟨h, lowest⟩ := lowestFreeJob_isSome free
    refine ruled ?_
    rw [rulingSubmit_free read ((checked code good).1 port) unused lowest]
    exact if_pos room

/-! ## An accepted SUBMIT (R29) -/

/-- Settles O29: with every check passed the ruling is that of R29, on the operands that were read. -/
theorem submitTakesAJob : Obligations.SubmitTakesAJob := by
  intro f g s k lane deadline h taken length segment u read check fresh free lowest room joined position
  obtain ⟨kind, code, present, -⟩ := readSubmit_eq_some.1 read
  refine ⟨kind, Lane.ofCode_eq_some.1 code, (readDeadline_eq_some.1 present).2, ?_⟩
  have unused : ¬∃ i j, u.job i = some j ∧ j.tag = f.tag := fun ⟨i, j, live, tag⟩ => fresh i j live tag
  have accepted : rulingSubmit f g u = submitJob f g k lane deadline h u := by
    rw [rulingSubmit_free read check unused (lowestFreeJob_of free lowest)]
    exact if_neg (Nat.not_le.2 room)
  rw [submit_ruled taken length segment accepted]
  cases lane <;> rfl

end

end Sys2Proof.Machine
end

section
/-! The requests on one job and the timers of a job (O30, O31). -/

namespace Sys2Proof.Machine

section
variable {s : State} {f : HostFrame} {h : Handle} {j : Job}

/-! ## CANCEL and QUERY_JOB (R41, R42) -/

theorem Inv.afterTake (i : Inv s) (f : HostFrame) : Inv (afterTake f s) :=
  Inv.takeFrame ((i.elapse _).of_skel (skel_raiseCsn _)) f

theorem byteAt_lt (bs : List Byte) (k : Nat) : byteAt bs k < 256 := BitVec.isLt _

/-- The job tag is the word that is read, with no bit lost. -/
theorem bodyTag_toNat : (bodyTag f).toNat = bodyWord f 0 := by
  have high := byteAt_lt f.body 0
  have low := byteAt_lt f.body (0 + 1)
  rw [bodyTag, BitVec.toNat_ofNat]
  refine Nat.mod_eq_of_lt ?_
  unfold bodyWord wordAt
  omega

theorem eq_bodyTag_iff {t : BitVec 16} : t = bodyTag f ↔ t.toNat = bodyWord f 0 := by
  rw [← bodyTag_toNat, BitVec.toNat_inj]

section
variable (zero : bodyWord f 0 = 0)
include zero

theorem rulingCancel_badValue : rulingCancel f s = refuse .badValue s := if_pos zero

theorem rulingQueryJob_badValue : rulingQueryJob f s = refuse .badValue s := if_pos zero

end

section
variable (nonzero : bodyWord f 0 ≠ 0)
include nonzero

section
variable (absent : findTag s (bodyTag f) = none)
include absent

theorem rulingCancel_notFound : rulingCancel f s = refuse .notFound s := by
  rw [rulingCancel, if_neg nonzero, absent]; rfl

theorem rulingQueryJob_notFound : rulingQueryJob f s = refuse .notFound s := by
  rw [rulingQueryJob, if_neg nonzero, absent]; rfl

end

variable (found : findTag s (bodyTag f) = some h) (live : s.job h = some j)
include found live

theorem rulingCancel_found : rulingCancel f s = cancelJob h j s := by
  simp only [rulingCancel, if_neg nonzero, found, Option.bind_some, live, Option.map_some]

theorem rulingQueryJob_found : rulingQueryJob f s = ⟨s, .ok, jobAnswer s h j⟩ := by
  simp only [rulingQueryJob, if_neg nonzero, found, Option.bind_some, live, Option.map_some]

end

theorem cancelJob_active (live : s.job h = some j) (active : j.state = .active) :
    cancelJob h j s = ⟨s.setJob h (some { j with cancel := true }), .cancelLate, []⟩ := by
  simp only [cancelJob, active, updJob_of live]

theorem cancelJob_idle (idle : j.state ≠ .active) :
    cancelJob h j s = ⟨completeJob h .cancelled [] s, .cancelTaken, []⟩ := by
  unfold cancelJob
  split
  · contradiction
  · rfl
  · rfl

/-- The answer slot is no part of a completion. -/
theorem CompletesJob.setSlot {t : State} {o : JobOutcome} {a : AnsOutcome} {d d' : List Byte} {tag : BitVec 16}
    (c : CompletesJob h j o d s t) : CompletesJob h j o d s (setSlot tag a d' t) :=
  ⟨c.freed, c.others, c.queue, c.holders, c.segs, c.table⟩

theorem SameOutside.setSlot {t : State} {a : AnsOutcome} {d : List Byte} {tag : BitVec 16}
    (same : SameOutside s t) : SameLink s (setSlot tag a d t) := by
  obtain ⟨link, low, pending⟩ := same
  refine ⟨?_, low, pending⟩
  rw [← link]
  rfl

theorem findIdx?_of_mem {α : Type} [BEq α] [LawfulBEq α] {a : α} {l : List α} (mem : a ∈ l) :
    l.findIdx? (· == a) = some (l.idxOf a) :=
  List.findIdx?_eq_some_iff_findIdx_eq.2 ⟨List.idxOf_lt_length_iff.2 mem, rfl⟩

theorem lanePosition_eq (held : j.state = .queued → h ∈ laneOf (s.seg j.seg) j.lane) : lanePosition s h j
    = if j.state = .queued then (laneOf (s.seg j.seg) j.lane).idxOf h + 1 else 0 := by
  unfold lanePosition
  split
  · rename_i queued
    rw [findIdx?_of_mem (held queued)]
    rfl
  · rfl

theorem marksByte_eq (j : Job) :
    marksByte j = byte (bit j.started + 2 * bit j.cancel + 4 * bit j.lastFault.isSome) := by
  unfold marksByte flagAt bit
  congr 1
  split <;> split <;> split <;> rfl

/-- Settles O30: TagLaw lets one job at most hold the tag, and the ruling is that job's. -/
theorem cancelAndQueryAJob : Obligations.CancelAndQueryAJob := by
  intro f s taken length inv u tag
  have i : Inv u := inv.afterTake f
  have cancel {r : Ruling} (e : rulingCancel f u = r) :
      exec (.cancel f) s = .next (setSlot f.tag r.outcome r.data r.state) :=
    e ▸ exactRequest_taken taken length (rulingCancel f)
  have query {r : Ruling} (e : rulingQueryJob f u = r) :
      exec (.queryJob f) s = .next (setSlot f.tag r.outcome r.data r.state) :=
    e ▸ exactRequest_taken taken length (rulingQueryJob f)
  refine ⟨fun zero => ⟨cancel (rulingCancel_badValue zero), query (rulingQueryJob_badValue zero)⟩,
    fun nonzero none => ?_, fun h j live holds => ?_⟩
  · have absent : findTag u (bodyTag f) = .none :=
      findTag_none_of fun h j live e => none h j live (eq_bodyTag_iff.1 e)
    exact ⟨cancel (rulingCancel_notFound nonzero absent), query (rulingQueryJob_notFound nonzero absent)⟩
  · have named : j.tag = bodyTag f := eq_bodyTag_iff.2 holds
    have found : findTag u (bodyTag f) = some h := named ▸ findTag_of i.tags live
    have nonzero : bodyWord f 0 ≠ 0 := by
      refine fun zero => i.tags.1 h j live (BitVec.eq_of_toNat_eq ?_)
      exact holds.trans zero
    have cancelled := rulingCancel_found nonzero found live
    refine ⟨fun active => cancel (cancelled.trans (cancelJob_active live active)), fun idle => ?_, ?_⟩
    · refine ⟨_, cancel (cancelled.trans (cancelJob_idle idle)), rfl, ?_, ?_⟩
      · exact SameOutside.setSlot (rest_eq (rest_completeJob ..))
      · exact (completeJob_completes live ..).setSlot
    · intro lane position held
      have lane_eq : lane = laneOf (u.seg j.seg) j.lane := rfl
      rw [lane_eq] at held
      have answer : jobAnswer u h j = [byte h, byte j.seg, byte j.kind.code, byte j.lane.code,
          byte j.state.code, byte j.attempts, byte j.busy, byte position,
          byte (bit j.started + 2 * bit j.cancel + 4 * bit j.lastFault.isSome),
          byte ((j.lastFault.map (·.code)).getD 0)] := by
        rw [jobAnswer, lanePosition_eq held, marksByte_eq, ← lane_eq]
        rfl
      rw [query (rulingQueryJob_found nonzero found live), answer]
      rfl

/-! ## The timers of a job (R27, R31) -/

theorem whileLive_live (k : State → State) (live : s.rstnLow = false) : whileLive k s = .next (k s) := by
  simp [whileLive, live]

theorem exec_deadlineExpiry_running {left : Time} (live : s.rstnLow = false) (job : s.job h = some j)
    (running : j.deadlineTimer = some left) :
    exec (.deadlineExpiry h) s = .next (completeJob h .expired [] (s.elapse left)) := by
  have dealt : exec (.deadlineExpiry h) s = execDeadlineExpiry h s := rfl
  rw [dealt, execDeadlineExpiry, whileLive_live _ live]
  simp only [job, Option.bind_some, running]

theorem exec_deadlineExpiry_idle (live : s.rstnLow = false) (idle : ∀ j, s.job h = some j → j.deadlineTimer = none) :
    exec (.deadlineExpiry h) s = .next s := by
  have dealt : exec (.deadlineExpiry h) s = execDeadlineExpiry h s := rfl
  rw [dealt, execDeadlineExpiry, whileLive_live _ live]
  cases job : s.job h with
  | none => rfl
  | some j => simp only [Option.bind_some, idle j job]

theorem exec_backoffExpiry_running {left : Time} (live : s.rstnLow = false) (job : s.job h = some j)
    (running : j.backoff = some left) :
    exec (.backoffExpiry h) s = .next (endBackoff h j (s.elapse left)) := by
  have dealt : exec (.backoffExpiry h) s = execBackoffExpiry h s := rfl
  rw [dealt, execBackoffExpiry, whileLive_live _ live]
  simp only [job, running]

theorem exec_backoffExpiry_idle (live : s.rstnLow = false) (idle : ∀ j, s.job h = some j → j.backoff = none) :
    exec (.backoffExpiry h) s = .next s := by
  have dealt : exec (.backoffExpiry h) s = execBackoffExpiry h s := rfl
  rw [dealt, execBackoffExpiry, whileLive_live _ live]
  cases job : s.job h with
  | none => rfl
  | some j => simp only [idle j job]

/-- An update of the one lane that is named, as an update of both. -/
theorem updLane_eq (l : Lane) (k : List Handle → List Handle) (c : Column) : updLane l k c
    = { c with
        urgent := if l = .urgent then k c.urgent else c.urgent
        normal := if l = .normal then k c.normal else c.normal } := by
  cases l <;> rfl

/-- Settles O31: the timer's job at its expiry, by the two operations that end it. -/
theorem jobTimersExpire : Obligations.JobTimersExpire := by
  intro h s live
  have at_expiry {j left} (job : s.job h = some j) : (s.elapse left).job h = some (j.elapse left) := by
    rw [elapse_job left s h live, job, Option.map_some]
  refine ⟨fun j left job running => ⟨_, exec_deadlineExpiry_running live job running,
      rest_eq (rest_completeJob ..), completeJob_completes (at_expiry job) ..⟩,
    exec_deadlineExpiry_idle live, fun j left job running => ?_, exec_backoffExpiry_idle live⟩
  rw [exec_backoffExpiry_running live job running, endBackoff, updJob_of (at_expiry job)]
  simp only [updLane_eq, filter_bne_eq]

end

end Sys2Proof.Machine
end

section
/-! The start of an exchange and of an attempt (O38, O39). -/

namespace Sys2Proof.Machine

section
variable {s : State} {g : Seg} {h : Handle} {j : Job} {i : Index} {e : Entry} {x : Exchange}

/-! ## The exchange that is begun (R48, R49) -/

theorem attemptLimit_job_some (c : SegConfig) :
    attemptLimit c (.job h) (some e) = if e.state = .silent then 1 else c.retryLimit + 1 := by
  simp only [attemptLimit, Option.map_some, Option.some.injEq]

theorem attemptLimit_job_none (c : SegConfig) : attemptLimit c (.job h) none = c.retryLimit + 1 := by
  simp [attemptLimit]

theorem attemptLimit_attention (c : SegConfig) :
    attemptLimit c .attention (some e) = if e.state = .silent then 1 else c.retryLimit + 1 := by
  simp only [attemptLimit, Option.map_some, Option.some.injEq]

theorem jobExchange_broadcast (broadcast : j.kind = .broadcast) : jobExchange s g h j
    = newExchange (.job h) none j.addr j.port .main .write false false j.attempts
        ((s.seg g).config.retryLimit + 1) := by
  simp only [jobExchange, broadcast, if_true, attemptLimit_job_none]

theorem jobExchange_station (T : TableLaw s) (he : s.entry i = some e) (hs : e.seg = g) (ha : e.addr = j.addr)
    (station : j.kind ≠ .broadcast) :
    jobExchange s g h j = stationJobExchange (s.seg g).config h j i e := by
  simp only [jobExchange, station, if_false, findEntry_of T he hs ha, he]

section
variable (c : SegConfig)

theorem stationJobExchange_status (kind : j.kind = .status) : stationJobExchange c h j i e
    = newExchange (.job h) (some i) j.addr j.port .main .status e.toggle (e.sync == .unsynced) j.attempts
        (attemptLimit c (.job h) (some e)) := by
  simp only [stationJobExchange, kind]

theorem stationJobExchange_prelude (kind : j.kind = .read ∨ j.kind = .write) (unsynced : e.sync = .unsynced) :
    stationJobExchange c h j i e = newExchange (.job h) (some i) j.addr 0 .prelude .status e.toggle true
      j.attempts (attemptLimit c (.job h) (some e)) := by
  rcases kind with kind | kind <;> simp [stationJobExchange, kind, unsynced]

theorem stationJobExchange_main (kind : j.kind = .read ∨ j.kind = .write) (synced : e.sync = .synced) :
    stationJobExchange c h j i e = newExchange (.job h) (some i) j.addr j.port .main
      (if j.kind = .read then .read else .write) e.toggle false j.attempts
      (attemptLimit c (.job h) (some e)) := by
  rcases kind with kind | kind <;> simp [stationJobExchange, kind, synced]

end

theorem leaveHolders_eq (h : Handle) : leaveHolders h = fun c => { c with
    urgent := c.urgent.filter (· ≠ h)
    normal := c.normal.filter (· ≠ h)
    waitSet := c.waitSet.filter (· ≠ h) } := by
  funext c
  simp only [leaveHolders, filter_bne_eq]

/-- The start of a live job (R32). -/
theorem startJob_of (live : s.job h = some j) : startJob g h s
    = beginExchange g (jobExchange s g h j) ((s.updSeg g fun c => { c with
        urgent := c.urgent.filter (· ≠ h)
        normal := c.normal.filter (· ≠ h)
        waitSet := c.waitSet.filter (· ≠ h) }).setJob h
          (some { j with state := .active, started := true, deadlineTimer := none })) := by
  have live' : (s.updSeg g (leaveHolders h)).job h = some j := live
  simp only [startJob, live]
  rw [updJob_of live', leaveHolders_eq]

theorem startPoll_of (he : s.entry i = some e) (o : XOrigin) : startPoll g o i s
    = beginExchange g (newExchange o (some i) e.addr 0 .main .status e.toggle (e.sync == .unsynced) 0
        (attemptLimit (s.seg g).config o (some e))) s := by
  simp only [startPoll, he]

/-- Settles O38: each origin's exchange, the entry of a station job being the one at its address. -/
theorem exchangeStarts : Obligations.ExchangeStarts := by
  intro g s T c full limit fresh begins started
  refine ⟨fun h j live broadcast => ?_, fun h j i e live he hs ha => ?_, fun i e he => ⟨?_, ?_⟩, fun a => rfl⟩
  · rw [startJob_of live, jobExchange_broadcast broadcast]
    rfl
  · have starts {y : Exchange} (station : j.kind ≠ .broadcast)
        (ey : stationJobExchange (s.seg g).config h j i e = y) : startJob g h s = begins y (started h j) := by
      rw [startJob_of live, jobExchange_station T he hs ha station, ey]
      rfl
    have station (kind : j.kind = .read ∨ j.kind = .write) : j.kind ≠ .broadcast := by
      rcases kind with kind | kind <;> simp [kind]
    refine ⟨fun status => starts (by simp [status]) ?_, fun kind unsynced => starts (station kind) ?_,
      fun kind synced => starts (station kind) ?_⟩
    · rw [stationJobExchange_status _ status, attemptLimit_job_some]
      rfl
    · rw [stationJobExchange_prelude _ kind unsynced, attemptLimit_job_some]
      rfl
    · rw [stationJobExchange_main _ kind synced, attemptLimit_job_some]
      rfl
  · rw [startPoll_of he]
    rfl
  · rw [startPoll_of he, attemptLimit_attention]
    rfl

/-! ## The attempt (R33, R50, R51) -/

/-- The exchange whose attempt has been counted, once. -/
def Exchange.counting (x : Exchange) : Exchange :=
  { x with attempt := if x.counted then x.attempt else x.attempt + 1, counted := true }

theorem Exchange.counting_of_counted (counted : x.counted = true) : x.counting = x := by
  cases x
  simp_all [Exchange.counting]

theorem Exchange.counting_of_uncounted (uncounted : x.counted = false) :
    x.counting = { x with attempt := x.attempt + 1, counted := true } := by
  simp [Exchange.counting, uncounted]

section
variable (current : (s.seg g).exchange = some x)
include current

theorem countAttempt_job (job : x.origin = .job h) (uncounted : x.counted = false) : countAttempt g x s
    = (s.updJob h fun j => { j with attempts := j.attempts + 1 }).updSeg g fun c =>
        { c with exchange := some x.counting } := by
  simp only [countAttempt, uncounted, Bool.false_eq_true, if_false, job, updX_of current,
    Exchange.counting_of_uncounted uncounted]
  rfl

theorem countAttempt_noJob (same : (∀ h, x.origin ≠ .job h) ∨ x.counted = true) :
    countAttempt g x s = s.updSeg g fun c => { c with exchange := some x.counting } := by
  by_cases counted : x.counted = true
  · rw [countAttempt, if_pos counted, Exchange.counting_of_counted counted, updSeg_eq_self]
    rw [← current]
  · have uncounted : x.counted = false := Bool.eq_false_iff.2 counted
    have noJob := same.resolve_right counted
    rw [countAttempt, if_neg counted, updX_of current, Exchange.counting_of_uncounted uncounted]
    cases origin : x.origin with
    | job h => exact absurd origin (noJob h)
    | sweep => rfl
    | attention => rfl
    | probe => rfl

/-- What SEND begins with, once the attempt is counted. -/
theorem enterSend_of_counted {v : State} (counted : countAttempt g x s
      = v.updSeg g fun c => { c with exchange := some x.counting }) :
    enterSend g s = v.updSeg g fun c => { c with
      exchange := some { x.counting with phase := .send }
      line := { c.line with
        tx := .frame (masterFrame x (stagePayload s x)) 0
          ((masterFrame x (stagePayload s x)).length * charTime (s.seg g).config)
        idle := 0
        deferTimer := none } } := by
  simp only [enterSend, current, counted, State.updX, State.updLine, updSeg_updSeg, Option.map_some]

/-- The state in which an attempt has entered DEFER and its line is looked at. -/
theorem enterDefer_of : enterDefer g s =
    let t := s.updSeg g fun c => { c with exchange := some { x with phase := .defer, received := [], gapTimer := none } }
    if (s.seg g).line.tx = .quiet then
      if settleTime (s.seg g).config ≤ (s.seg g).line.idle then enterSend g t
      else t.updLine g fun l => { l with deferTimer := some (millis (s.seg g).config.deferLimit) }
    else t.updLine g fun l => { l with deferTimer := none } := by
  simp only [enterDefer, updX_of current, seg_updSeg_same]

/-- The line of an attempt in DEFER reaches its settle gap (R149). -/
theorem exec_settleGapReached {left : Time} (live : s.rstnLow = false) (phase : x.phase = .defer)
    (due : (s.seg g).line.untilSettled (s.seg g).config = some left) :
    exec (.settleGapReached g) s = .next (enterSend g (s.elapse left)) := by
  have dealt : exec (.settleGapReached g) s = execSettleGapReached g s := rfl
  have waits : exchangeIn s g .defer = some x := by simp [exchangeIn, current, phase]
  simp only [dealt, execSettleGapReached, whileLive_live _ live, waits, due]

end

/-- Settles O39: the attempt is counted in the exchange and, if it is a job's, in the job; DEFER looks at the
line as R149 and R150 say. -/
theorem attemptSendsItsFrame : Obligations.AttemptSendsItsFrame := by
  intro g s x current c payload kind covered frame sends defers
  have frame_eq : frame = masterFrame x (stagePayload s x) := rfl
  have sends_eq (v : State) (same : v.segs = s.segs) : sends v = v.updSeg g fun c => { c with
      exchange := some { x.counting with phase := .send }
      line := { c.line with
        tx := .frame (masterFrame x (stagePayload s x)) 0
          ((masterFrame x (stagePayload s x)).length * charTime (s.seg g).config)
        idle := 0
        deferTimer := none } } := by
    have config : (v.seg g).config = (s.seg g).config := by rw [State.seg, same]; rfl
    refine updSeg_congr ?_
    rw [config]
    rfl
  refine ⟨fun h job uncounted => ?_, fun same => ?_, fun quiet early => ?_, fun busy => ?_,
    fun quiet settled => ?_, fun live phase => ⟨fun quiet waiting => ?_, fun left quiet ending => ?_⟩⟩
  · refine (enterSend_of_counted current (countAttempt_job current job uncounted)).trans (Eq.symm ?_)
    exact sends_eq _ rfl
  · refine (enterSend_of_counted current (countAttempt_noJob current same)).trans (Eq.symm ?_)
    exact sends_eq _ rfl
  · have early' : ¬settleTime (s.seg g).config ≤ (s.seg g).line.idle := Nat.not_le.2 early
    rw [enterDefer_of current, if_pos quiet, if_neg early', State.updLine, updSeg_updSeg]
    rfl
  · rw [enterDefer_of current, if_neg busy, State.updLine, updSeg_updSeg]
  · have settled' : settleTime (s.seg g).config ≤ (s.seg g).line.idle := settled
    rw [enterDefer_of current, if_pos quiet, if_pos settled']
  · refine exec_settleGapReached current live phase ?_
    simp only [c] at quiet waiting
    simp only [Line.untilSettled, quiet, waiting]
    rfl
  · refine exec_settleGapReached current live phase ?_
    simp only [c] at quiet ending
    simp only [Line.untilSettled, quiet, ending]
    rfl

end

end Sys2Proof.Machine
end

section
/-! The end of an attempt and what becomes of a job (O42, O49). -/

namespace Sys2Proof.Machine

section
variable {s : State} {g : Seg} {h : Handle} {j : Job} {x : Exchange} {k : FailKind}

/-! ## A failed attempt (R60) -/

theorem retiringEntry_iff : retiringEntry s x = true
    ↔ ∃ i e, x.entry = some i ∧ s.entry i = some e ∧ e.state = .retiring := by
  cases entry : x.entry with
  | none => simp [retiringEntry, entryOf, entry]
  | some i =>
    rw [retiringEntry_of_entry entry]
    cases held : s.entry i <;> simp [held]

theorem cancelRequested_iff : cancelRequested s x = true
    ↔ ∃ h j, x.origin = .job h ∧ s.job h = some j ∧ j.cancel = true := by
  unfold cancelRequested
  split
  · rename_i h origin
    cases job : s.job h <;> simp [origin, job]
  · rename_i noJob
    exact iff_of_false (by simp) fun ⟨h, _, origin, _⟩ => noJob h origin

theorem attemptDue_iff : attemptDue x k = true
    ↔ x.attempt < x.limit ∧ (x.origin = .probe → k.isReplyFault = true) := by
  simp only [attemptDue, Bool.and_eq_true, decide_eq_true_eq, Bool.or_eq_true, bne_iff_ne, ne_eq, imp_iff_not_or]

section
variable (x k s)

@[simp] theorem noteFailure_seg (g : Seg) : (noteFailure x k s).seg g = s.seg g := by
  unfold noteFailure
  split <;> rfl

@[simp] theorem noteFailure_entry (i : Index) : (noteFailure x k s).entry i = s.entry i := by
  unfold noteFailure
  split <;> rfl

theorem retiringEntry_noteFailure : retiringEntry (noteFailure x k s) x = retiringEntry s x := by
  rw [Bool.eq_iff_iff]
  simp only [retiringEntry_iff, noteFailure_entry]

/-- The failure that is noted is no part of the cancel request. -/
theorem cancelRequested_noteFailure : cancelRequested (noteFailure x k s) x = cancelRequested s x := by
  unfold cancelRequested noteFailure
  split
  · rename_i h origin
    simp only [State.updJob, job_setJob, if_true]
    cases s.job h <;> rfl
  · rfl

/-- The items of R60, asked of the state before the failure is noted. -/
theorem failAttempt_eq (g : Seg) : failAttempt g x k s =
    let fault := faultOf (s.seg g) k
    let noted := noteFailure x k s
    if retiringEntry s x then endExchange g x (.retired none) fault noted
    else if cancelRequested s x then endExchange g x (.failed (.fault k)) fault noted
    else if attemptDue x k then attemptAgain g x fault noted
    else attemptsSpent g x k fault noted := by
  simp only [failAttempt, noteFailure_seg, retiringEntry_noteFailure, cancelRequested_noteFailure]

end

theorem attemptAgain_draining (draining : (s.seg g).state = .draining) :
    attemptAgain g x none s = endExchange g x (.cut .drain) none s := by
  simp only [attemptAgain, draining, if_true]

theorem attemptAgain_next (current : (s.seg g).exchange = some x) (going : (s.seg g).state ≠ .draining) :
    attemptAgain g x none s
      = enterDefer g (s.updSeg g fun c => { c with exchange := some { x with counted := false } }) := by
  simp only [attemptAgain, going, if_false, updX_of current]

theorem attemptsSpent_fault (f : SegFault) (noJob : ∀ h, x.origin ≠ .job h) :
    attemptsSpent g x k (some f) s = endExchange g x (.cut .fault) (some f) s := by
  unfold attemptsSpent
  cases origin : x.origin with
  | job h => exact absurd origin (noJob h)
  | sweep => rfl
  | attention => rfl
  | probe => rfl

theorem attemptsSpent_none : attemptsSpent g x k none s = endExchange g x (.failed (.fault k)) none s := by
  unfold attemptsSpent
  cases x.origin <;> rfl

theorem attemptsSpent_job (job : x.origin = .job h) (fault : Option SegFault) :
    attemptsSpent g x k fault s = endExchange g x (.failed (.fault k)) fault s := by
  unfold attemptsSpent
  cases fault <;> simp only [job]

/-- Settles O42: R60 asks the entry, the cancel and the attempts of the state before the failure is noted. -/
theorem failedAttemptGoesOn : Obligations.FailedAttemptGoesOn := by
  intro g x k s current v faults fault retiring cancelled due
  have noted : noteFailure x k s = v := by
    unfold noteFailure
    cases origin : x.origin <;> simp only [v, origin]
  have v_seg : v.seg g = s.seg g := noted ▸ noteFailure_seg ..
  have goes : failAttempt g x k s = if retiringEntry s x then endExchange g x (.retired none) fault v
      else if cancelRequested s x then endExchange g x (.failed (.fault k)) fault v
      else if attemptDue x k then attemptAgain g x fault v
      else attemptsSpent g x k fault v := by
    rw [failAttempt_eq, noted]
    rfl
  have faulted (f : faults) : fault = some .contention := if_pos f
  have sound (f : ¬faults) : fault = none := if_neg f
  have retired : retiringEntry s x = true ↔ retiring := retiringEntry_iff
  have requested : cancelRequested s x = true ↔ cancelled := cancelRequested_iff
  have another : attemptDue x k = true ↔ due := attemptDue_iff
  refine ⟨fun r => ?_, fun r c => ?_, fun r c d => ?_, fun r c d => ?_⟩
  · rw [goes, if_pos (retired.2 r)]
  · rw [goes, if_neg (mt retired.1 r), if_pos (requested.2 c)]
  · rw [goes, if_neg (mt retired.1 r), if_neg (mt requested.1 c), if_pos (another.2 d)]
    refine ⟨fun f => ?_, fun f draining => ?_, fun f going => ?_⟩
    · rw [faulted f]
      rfl
    · rw [sound f, attemptAgain_draining (v_seg ▸ draining)]
    · rw [sound f, attemptAgain_next (v_seg ▸ current) (v_seg ▸ going)]
  · rw [goes, if_neg (mt retired.1 r), if_neg (mt requested.1 c), if_neg (mt another.1 d)]
    refine ⟨fun f noJob => ?_, fun other => ?_⟩
    · rw [faulted f, attemptsSpent_fault _ noJob]
    · rcases other with f | ⟨h, job⟩
      · rw [sound f, attemptsSpent_none]
      · rw [attemptsSpent_job job]

/-! ## The exchange's own job (R34 to R39) -/

theorem handOrigin_job (job : x.origin = .job h) (form : EndForm) :
    handOrigin g x form s = endJob g h x form s := by
  simp only [handOrigin, job]

/-- A valid reply but a BUSY ends the job alike in both forms. -/
theorem endJob_answered {r : Reply} (live : s.job h = some j) (answers : r.kind ≠ .busy) :
    endJob g h x (.reply r) s = endByReply h x r s ∧ endJob g h x (.retired (some r)) s = endByReply h x r s := by
  simp only [endJob, live, answers, false_and, if_false, and_self]

theorem busyJob_waits (live : s.job h = some j) (below : j.busy < (s.seg g).config.busyLimit) : busyJob g h j s
    = (s.setJob h (some { j with
        busy := j.busy + 1
        state := .waiting
        backoff := some (millis (s.seg g).config.busyBackoff) })).updSeg g fun c =>
          { c with waitSet := insertAsc h c.waitSet } := by
  rw [busyJob, if_pos below, updJob_of live]

theorem busyJob_ends (reached : (s.seg g).config.busyLimit ≤ j.busy) :
    busyJob g h j s = completeJob h .stationBusy [] s := if_neg (Nat.not_lt.2 reached)

theorem returnToLane_of (live : s.job h = some j) : returnToLane g h j s
    = (s.setJob h (some { j with state := .queued })).updSeg g fun c => { c with
        urgent := if j.lane = .urgent then h :: c.urgent else c.urgent
        normal := if j.lane = .normal then h :: c.normal else c.normal } := by
  rw [returnToLane, updJob_of live]
  exact updSeg_congr (updLane_eq ..)

theorem failOutcome_replyFault (fault : k.isReplyFault = true) : failOutcome (.fault k) = .replyFault := by
  cases k <;> simp_all [failOutcome, FailKind.isReplyFault]

/-- Settles O49: the form of the end, and of a reply its kind, say which of the job's ends it is. -/
theorem jobsEndOrReturn : Obligations.JobsEndOrReturn := by
  intro g h j x s live job ends c
  have hands (form : EndForm) : handOrigin g x form s = endJob g h x form s := handOrigin_job job form
  have answered {r : Reply} {o : JobOutcome} {d : List Byte} (answers : r.kind ≠ .busy)
      (e : endByReply h x r s = completeJob h o d s) : ends (.reply r) o d ∧ ends (.retired (some r)) o d := by
    simp only [ends, hands, endJob_answered live answers, e, and_self]
  refine ⟨fun r data => answered (by simp [data]) ?_, fun r done => answered (by simp [done]) ?_,
    fun r refuse => answered (by simp [refuse]) ?_,
    fun r status => ⟨fun main => answered (by simp [status]) ?_, fun prelude => answered (by simp [status]) ?_⟩,
    fun r busy => ⟨?_, fun cancel => ?_, fun going reached => ?_, fun going below => ?_⟩, ?_,
    fun cancel f => ?_, fun going => ⟨?_, ?_, fun k fault => ?_⟩, ?_, fun f => ?_⟩
  · simp [endByReply, data, replyOutcome, replyData]
  · simp [endByReply, done, replyOutcome, replyData]
  · simp [endByReply, refuse, replyOutcome, replyData]
  · simp [endByReply, status, main, replyOutcome, replyData]
  · simp [endByReply, status, prelude]
  · simp [ends, hands, endJob, live, endByReply, busy, replyOutcome, replyData]
  · simp [ends, hands, endJob, live, endByReply, busy, cancel, replyOutcome, replyData]
  · simp [ends, hands, endJob, live, busy, going, busyJob_ends reached]
  · simp [hands, endJob, live, busy, going, busyJob_waits live below, millis, c]
  · simp [ends, hands, endJob, live]
  · simp [ends, hands, endJob, live, cancel]
  · simp [ends, hands, endJob, live, going, failOutcome]
  · simp [ends, hands, endJob, live, going, failOutcome]
  · simp [ends, hands, endJob, live, going, failOutcome_replyFault fault]
  · simp [ends, hands, endJob, live]
  · simp only [hands, endJob, live, returnToLane_of live]

end

end Sys2Proof.Machine
end

section
/-! The passing of time, the start bits and the ends of a break and of the re-edge interval (O53). -/

namespace Sys2Proof.Machine

section
variable {s : State} {g : Seg} {w since : Time}

/-! ## What time does -/

theorem elapse_low (low : s.rstnLow = true) (d : Time) : s.elapse d = s := if_pos low

section
variable (live : s.rstnLow = false)
include live

theorem elapse_queue_live (d : Time) :
    (s.elapse d).queue = { s.queue with reEdge := s.queue.reEdge.map (· - d) } := by
  simp only [State.elapse, live, Bool.false_eq_true, if_false]

theorem elapse_link_live (d : Time) : (s.elapse d).link = { s.link with gap := s.link.gap + d } := by
  simp only [State.elapse, live, Bool.false_eq_true, if_false]

theorem elapse_seg_live (d : Time) (g : Seg) : (s.elapse d).seg g = (s.seg g).elapse d := by
  simp only [elapse_seg, live, Bool.false_eq_true, if_false]

/-! ## The happenings at a live line -/

theorem exec_abortBreakEnd {left : Time} {p : Polarity} (breaking : (s.seg g).line.tx = .brk left p) :
    exec (.abortBreakEnd g) s = .next (breakOver g (s.elapse left)) := by
  have dealt : exec (.abortBreakEnd g) s = execAbortBreakEnd g s := rfl
  simp only [dealt, execAbortBreakEnd, whileLive_live _ live, breaking]

theorem exec_startBitConfirmed (g : Seg) (w since : Time) :
    exec (.startBitConfirmed ⟨w, since⟩ g) s = .next
      (if ((s.elapse w).seg g).line.looksForStart
          ∧ ((s.elapse w).seg g).line.sampledNow ((s.elapse w).seg g).config since then
        confirmStart g since (s.elapse w)
      else s.elapse w) := by
  have dealt : exec (.startBitConfirmed ⟨w, since⟩ g) s = execStartBitConfirmed ⟨w, since⟩ g s := rfl
  rw [dealt, execStartBitConfirmed, whileLive_live _ live]

theorem exec_lineReturnToMark (w : Time) (g : Seg) : exec (.lineReturnToMark w g) s = .next
    (if ((s.elapse w).seg g).line.rx = .atSpace then
      (s.elapse w).updLine g fun l => { l with rx := .waiting, idle := 0 }
    else s.elapse w) := by
  have dealt : exec (.lineReturnToMark w g) s = execLineReturnToMark w g s := rfl
  rw [dealt, execLineReturnToMark, whileLive_live _ live]

theorem exec_reEdgeIntervalEnd {left : Time} (running : s.queue.reEdge = some left) :
    exec .reEdgeIntervalEnd s = .next ((s.elapse left).updQueue fun q => { q with reEdge := none }) := by
  have dealt : exec .reEdgeIntervalEnd s = execReEdgeIntervalEnd s := rfl
  simp only [dealt, execReEdgeIntervalEnd, whileLive_live _ live, running]

end

/-! ## Start bits (R144) -/

theorem looksForStart_iff {l : Line} :
    l.looksForStart = true ↔ l.rx = .waiting ∨ ∃ left, l.rx = .ending left := by
  unfold Line.looksForStart
  cases l.rx <;> simp

theorem sampledNow_iff {c : SegConfig} {l : Line} :
    l.sampledNow c since = true ↔ since ∈ halvesAt since (halfBit c) l.changes := by
  simp only [Line.sampledNow, List.contains_iff_mem]

theorem confirmStart_eq (g : Seg) (half : Time) (s : State) : confirmStart g half s = s.updSeg g fun c => { c with
    line := { c.line with rx := .inChar half, idle := 0 }
    exchange := c.exchange.map fun x => { x with gapTimer := none } } := by
  rw [confirmStart, State.updX, updSeg_updSeg]

/-! ## ATTN (R162) -/

theorem attnAsserted_iff : attnAsserted s = true
    ↔ s.rstnLow = false ∧ s.queue.reports ≠ [] ∧ s.queue.reEdge = none := by
  simp [attnAsserted, and_assoc]

/-- Settles O53: time field by field, and each happening at the state that its time has brought; the half bit
times that confirm a start bit are those that `halvesAt` lists. -/
theorem lineAndPinHappenings : Obligations.LineAndPinHappenings := by
  intro g w since s
  refine ⟨fun low => elapse_low low w, fun live => ?_⟩
  intro u c less confirmed looks now changes
  have looking : (u.seg g).line.looksForStart = true ↔ looks := looksForStart_iff
  have confirms (l : looks) (h : since ∈ halvesAt since now changes) :
      exec (.startBitConfirmed ⟨w, since⟩ g) s = .next confirmed := by
    rw [exec_startBitConfirmed live, if_pos ⟨looking.2 l, sampledNow_iff.2 h⟩, confirmStart_eq]
  refine ⟨⟨elapse_table .., (elapse_rstnLow ..).trans live, elapse_pending .., elapse_queue_live live w,
      elapse_link_live live w, fun h => elapse_job w s h live, ?_⟩,
    fun left p breaking => exec_abortBreakEnd live breaking, fun l due later => confirms l ?_,
    fun later f older l split due fell newer earlier => confirms l ?_, fun other => ?_, fun space => ?_, fun mark => ?_,
    fun left running => ⟨_, exec_reEdgeIntervalEnd live running, rfl, ?_⟩⟩
  · rw [elapse_seg_live live]
    rfl
  · exact due ▸ half_mem_halvesAt later
  · rw [split]
    have former : f.half ∈ halvesAt since now (later ++ f :: older) := former_mem_halvesAt fell earlier newer
    rwa [← due] at former
  · rw [exec_startBitConfirmed live, if_neg]
    rintro ⟨l, sampled⟩
    rcases other with still | ⟨notNow, notThen⟩
    · exact still (looking.1 l)
    · rcases mem_halvesAt (sampledNow_iff.1 sampled) with now' | ⟨f, mem, then'⟩
      · exact notNow now'
      · exact notThen f mem then'
  · rw [exec_lineReturnToMark live, if_pos space]
    rfl
  · rw [exec_lineReturnToMark live, if_neg mark]
  · rw [attnAsserted_iff]
    simp [State.updQueue, live]

end

end Sys2Proof.Machine
end

section
/-! The progress of an exchange: the end of a send and of its guard, the failures of an attempt, and the one
destination of a received item (O40, O41, O43). -/

namespace Sys2Proof.Machine

section
variable {s : State} {g : Seg} {x : Exchange} {left : Time}

/-! ## An exchange and its configuration as time passes -/

theorem elapse_config (d : Time) (s : State) (g : Seg) : ((s.elapse d).seg g).config = (s.seg g).config := by
  obtain ⟨-, same_config, -⟩ := elapse_column d s g
  exact same_config

theorem elapse_exchange (live : s.rstnLow = false) (current : (s.seg g).exchange = some x) (d : Time) :
    ((s.elapse d).seg g).exchange = some (x.elapse d) := by
  simp only [elapse_seg_live live, Column.elapse, current, Option.map_some]

theorem elapse_no_exchange (live : s.rstnLow = false) (free : (s.seg g).exchange = none) (d : Time) :
    ((s.elapse d).seg g).exchange = none := by
  simp only [elapse_seg_live live, Column.elapse, free, Option.map_none]

theorem exchangeIn_of {p : Phase} (current : (s.seg g).exchange = some x) (phase : x.phase = p) :
    exchangeIn s g p = some x := by
  simp [exchangeIn, current, phase]

/-! ## The end of a send and of its guard (R51, R53, R143) -/

theorem exec_frameSentWhole {chars : List Byte} (live : s.rstnLow = false)
    (whole : (s.seg g).line.tx = .frame chars chars.length left) : exec (.frameSentWhole g) s = .next
      (if (s.seg g).config.guardBits = 0 then releaseDir g (sentWhole g (s.elapse left))
      else sentWhole g (s.elapse left)) := by
  have dealt : exec (.frameSentWhole g) s = execFrameSentWhole g s := rfl
  simp only [dealt, execFrameSentWhole, whileLive_live _ live, whole, if_true]

theorem exec_guardEnd (live : s.rstnLow = false) (guarding : (s.seg g).line.tx = .guard left) :
    exec (.guardEnd g) s = .next (releaseDir g (s.elapse left)) := by
  have dealt : exec (.guardEnd g) s = execGuardEnd g s := rfl
  simp only [dealt, execGuardEnd, whileLive_live _ live, guarding]

/-- A line whose DIR is released: the transmitter QUIET, the idle time at its beginning. -/
def Line.released (l : Line) : Line := { l with tx := .quiet, idle := 0 }

theorem releaseDir_free (free : (s.seg g).exchange = none) : releaseDir g s = s.updLine g Line.released := by
  simp only [releaseDir, seg_updLine_same, free]
  rfl

section
variable (current : (s.seg g).exchange = some x) (turn : x.phase = .turn)
include current turn

theorem releaseDir_broadcast (broadcast : x.addr = 0) :
    releaseDir g s = endExchange g x .sent none (s.updLine g Line.released) := by
  simp only [releaseDir, seg_updLine_same, current, turn, broadcast, if_true]
  rfl

theorem releaseDir_addressed (addressed : x.addr ≠ 0) :
    releaseDir g s = (s.updLine g Line.released).updSeg g fun c => { c with
      exchange := c.exchange.map fun x =>
        { x with phase := .await, replyLeft := c.config.replyTimeout * 1152000 } } := by
  simp only [releaseDir, seg_updLine_same, current, turn, addressed, if_true, if_false]
  exact updSeg_congr (by simp only [seg_updLine_same, millis])

end

/-- Settles O40: a guard of 0 releases the line at once, so the release is said once, for any state. -/
theorem sendEndsWithTheGuard : Obligations.SendEndsWithTheGuard := by
  intro g s live whole quiet awaits released
  have releases (v : State) : released v (releaseDir g v) :=
    ⟨releaseDir_free, fun _ current turn =>
      ⟨releaseDir_broadcast current turn, releaseDir_addressed current turn⟩⟩
  refine ⟨fun chars left sent => ⟨fun guard => ?_, fun noGuard => ⟨_, ?_, releases _⟩⟩,
    fun left guarding => ⟨_, exec_guardEnd live guarding, releases _⟩⟩
  · rw [exec_frameSentWhole live sent, if_neg guard]
    rfl
  · rw [exec_frameSentWhole live sent, if_pos noGuard]
    rfl

/-! ## The failures of an attempt (R52, R54, R55) -/

section
variable (live : s.rstnLow = false)
include live

theorem exec_replyTimerExpiry (current : (s.seg g).exchange = some x) (awaits : x.phase = .await) :
    exec (.replyTimerExpiry g) s
      = .next (failNoReply g (x.elapse x.replyLeft) (s.elapse x.replyLeft)) := by
  have dealt : exec (.replyTimerExpiry g) s = execReplyTimerExpiry g s := rfl
  simp only [dealt, execReplyTimerExpiry, whileLive_live _ live, exchangeIn_of current awaits, expireReply,
    elapse_exchange live current]

theorem exec_characterGapExpiry (current : (s.seg g).exchange = some x) (receives : x.phase = .recv)
    (running : x.gapTimer = some left) :
    exec (.characterGapExpiry g) s = .next (failReply g (x.elapse left) .broken (s.elapse left)) := by
  have dealt : exec (.characterGapExpiry g) s = execCharacterGapExpiry g s := rfl
  simp only [dealt, execCharacterGapExpiry, whileLive_live _ live, exchangeIn_of current receives,
    Option.bind_some, running, expireGap, elapse_exchange live current]

theorem exec_characterSentWithoutEcho {chars : List Byte} {echoed : Nat}
    (sending : (s.seg g).line.tx = .frame chars echoed left) (unheard : echoed < chars.length) :
    exec (.characterSentWithoutEcho g) s
      = .next (missEcho g (s.elapse (untilCharEnd (s.seg g).config chars.length echoed left))) := by
  have dealt : exec (.characterSentWithoutEcho g) s = execCharacterSentWithoutEcho g s := rfl
  simp only [dealt, execCharacterSentWithoutEcho, whileLive_live _ live, sending, unheard, if_true]

end

theorem missEcho_current (current : (s.seg g).exchange = some x) : missEcho g s = contend g x s := by
  simp only [missEcho, current]

theorem missEcho_free (free : (s.seg g).exchange = none) : missEcho g s = s := by
  simp only [missEcho, free]

/-- Settles O41: each expiry fails the attempt as it stands after the time that was left. -/
theorem attemptsFail : Obligations.AttemptsFail := by
  intro g s live
  refine ⟨fun x current awaits => exec_replyTimerExpiry live current awaits,
    fun x left current receives running => exec_characterGapExpiry live current receives running,
    fun chars echoed left sending unheard => ?_⟩
  intro d
  have ends : exec (.characterSentWithoutEcho g) s = .next (missEcho g (s.elapse d)) :=
    exec_characterSentWithoutEcho live sending unheard
  refine ⟨fun x current => ?_, fun free => ?_⟩
  · rw [ends, missEcho_current (elapse_exchange live current d)]
    rfl
  · rw [ends, missEcho_free (elapse_no_exchange live free d)]

/-! ## The destination of a received item (R144, R145, R146) -/

/-- The state that has heard an item to its completion, before the item goes to its destination. -/
def heard (w : Time) (g : Seg) (item : Item) (atSpace : Bool) (s : State) : State :=
  (s.elapse w).updSeg g fun c => { c with line := c.line.completed c.config item atSpace }

theorem exec_receivedItem (live : s.rstnLow = false) (w : Time) (g : Seg) (item : Item) (atSpace : Bool) :
    exec (.receivedItem w g item atSpace) s = .next
      (if ((s.elapse w).seg g).line.rx = .atSpace then s.elapse w
      else handItem g item (heard w g item atSpace s)) := by
  have dealt : exec (.receivedItem w g item atSpace) s = execReceivedItem w g item atSpace s := rfl
  rw [dealt, execReceivedItem, whileLive_live _ live]
  rfl

theorem strayItem_eq (g : Seg) (item : Item) (s : State) : strayItem g item s = s.updSeg g fun c => { c with
    counters := if item = .brk then { c.counters with breaksSeen := satInc c.counters.breaksSeen }
      else { c.counters with strayChars := satInc c.counters.strayChars } } := by
  cases item <;> rfl

section
variable {item : Item}

theorem handItem_guard (guarding : (s.seg g).line.tx = .guard left) : handItem g item s = strayItem g item s := by
  simp only [handItem, guarding]

theorem handItem_break {p : Polarity} (breaking : (s.seg g).line.tx = .brk left p) : handItem g item s = s := by
  simp only [handItem, breaking]

theorem handItem_echo {chars : List Byte} {n : Nat} {sent : Byte} (sending : (s.seg g).line.tx = .frame chars n left)
    (awaited : chars[n]? = some sent) (echo : item = .good sent) :
    handItem g item s = s.updLine g fun l => { l with tx := .frame chars (n + 1) left } := by
  simp only [handItem, sending, echoCheck, awaited, if_pos echo]

theorem handItem_mismatch {chars : List Byte} {n : Nat} {sent : Byte}
    (sending : (s.seg g).line.tx = .frame chars n left) (awaited : chars[n]? = some sent)
    (mismatch : item ≠ .good sent) (current : (s.seg g).exchange = some x) :
    handItem g item s = contend g x s := by
  simp only [handItem, sending, echoCheck, awaited, if_neg mismatch, current]

section
variable (quiet : (s.seg g).line.tx = .quiet)
include quiet

theorem handItem_free (free : (s.seg g).exchange = none) : handItem g item s = strayItem g item s := by
  simp only [handItem, quiet, itemWhenQuiet, free]

variable (current : (s.seg g).exchange = some x)
include current

theorem handItem_defer (defers : x.phase = .defer) : handItem g item s = strayItem g item s := by
  simp only [handItem, quiet, itemWhenQuiet, current, defers]

theorem handItem_await_other (awaits : x.phase = .await) (other : item ≠ .good 0xD5#8) :
    handItem g item s = strayItem g item s := by
  simp only [handItem, quiet, itemWhenQuiet, current, awaits]
  exact if_neg other

theorem handItem_await_sof (awaits : x.phase = .await) (sof : item = .good 0xD5#8) :
    handItem g item s = s.updSeg g fun c => { c with
      exchange := some { x with
        phase := .recv
        received := []
        gapTimer := some (gapFromCompletion (s.seg g).config) } } := by
  simp only [handItem, quiet, itemWhenQuiet, current, awaits]
  exact (if_pos sof).trans (updX_of current _)

theorem handItem_recv (receives : x.phase = .recv) : handItem g item s = receiveInReply g x item s := by
  simp only [handItem, quiet, itemWhenQuiet, current, receives]

end

/-! ## An item in RECV (R55, R135) -/

theorem receiveInReply_fault {k : FailKind} (broken : assemble x.received item = .fault k) :
    receiveInReply g x item s = failReply g x k s := by
  simp only [receiveInReply, broken]

theorem receiveInReply_complete {now : List Byte} (complete : assemble x.received item = .complete now) :
    receiveInReply g x item s = evaluate g x now s := by
  simp only [receiveInReply, complete]

theorem receiveInReply_more {now : List Byte} (current : (s.seg g).exchange = some x)
    (more : assemble x.received item = .more now) : receiveInReply g x item s = s.updSeg g fun c => { c with
      exchange := some { x with received := now, gapTimer := some (gapFromCompletion (s.seg g).config) } } := by
  simp only [receiveInReply, more]
  exact updX_of current _

section
variable {received : List Byte} {b : Byte}

theorem assemble_long (long : (received ++ [b]).length = 4 ∧ 64 < b.toNat) :
    assemble received (.good b) = .fault .badLength := if_pos long

variable (short : ¬((received ++ [b]).length = 4 ∧ 64 < b.toNat))
include short

theorem assemble_complete (last : 4 ≤ (received ++ [b]).length
      ∧ (received ++ [b]).length = byteAt (received ++ [b]) 3 + 6) :
    assemble received (.good b) = .complete (received ++ [b]) := (if_neg short).trans (if_pos last)

theorem assemble_more (between : ¬(4 ≤ (received ++ [b]).length
      ∧ (received ++ [b]).length = byteAt (received ++ [b]) 3 + 6)) :
    assemble received (.good b) = .more (received ++ [b]) := (if_neg short).trans (if_neg between)

end

end

/-- Settles O43: the transmitter, the phase and, in RECV, the assembly give the item its one destination. -/
theorem receivedItemsGoToOnePlace : Obligations.ReceivedItemsGoToOnePlace := by
  intro w g item atSpace s live l c half v runs stray
  have heard_eq : heard w g item atSpace s = v := updSeg_congr rfl
  have line : (v.seg g).line.tx = l.tx := by simp only [v, seg_updSeg_same, l]
  have config : (v.seg g).config = c := by simp only [v, seg_updSeg_same, c]
  refine ⟨fun space => ?_, fun mark => ?_⟩
  · exact (exec_receivedItem live w g item atSpace).trans (congrArg _ (if_pos space))
  have handed {t : State} (h : handItem g item v = t) : runs t := by
    rw [← h, ← heard_eq]
    exact (exec_receivedItem live w g item atSpace).trans (congrArg _ (if_neg mark))
  have strays (h : handItem g item v = strayItem g item v) : stray := handed (h.trans (strayItem_eq ..))
  have gap : gapFromCompletion (v.seg g).config = c.gapLimit * charTime c + bitTime c / 2 := by
    rw [config]
    rfl
  refine ⟨fun left guarding => strays (handItem_guard (line.trans guarding)),
    fun left p breaking => handed (handItem_break (line.trans breaking)), fun quiet => ?_,
    fun chars n left sent sending awaited =>
      ⟨fun echo => handed (handItem_echo (line.trans sending) awaited echo),
        fun x mismatch current => handed (handItem_mismatch (line.trans sending) awaited mismatch current)⟩⟩
  have silent := line.trans quiet
  refine ⟨fun free => strays (handItem_free silent free), fun x current =>
    ⟨fun defers => strays (handItem_defer silent current defers),
      fun awaits other => strays (handItem_await_other silent current awaits other), fun awaits sof => handed ?_,
      fun receives => ?_⟩⟩
  · rw [handItem_await_sof silent current awaits sof, gap]
  have received {t : State} (h : receiveInReply g x item v = t) : runs t :=
    handed ((handItem_recv silent current receives).trans h)
  refine ⟨fun b erroneous => received (receiveInReply_fault (erroneous ▸ rfl)),
    fun broke => received (receiveInReply_fault (broke ▸ rfl)), fun b good => ?_⟩
  subst good
  refine ⟨fun long => received (receiveInReply_fault (assemble_long long)), fun short =>
    ⟨fun last => received (receiveInReply_complete (assemble_complete short last)), fun between => received ?_⟩⟩
  rw [receiveInReply_more current (assemble_more short between), gap]

end

end Sys2Proof.Machine
end

section
/-! A complete reply, and what the end of an exchange hands to its entry: toggle and sync, status and attention
(O44, O46, O48). -/

namespace Sys2Proof.Machine

section
variable {s : State} {g : Seg} {h : Handle} {j : Job} {i : Index} {e : Entry} {x : Exchange} {r : Reply}

/-! ## Toggle and sync (R62) -/

theorem setEntry_eq_self (held : s.entry i = some e) : s.setEntry i (some e) = s := by
  have same : some e = s.table[i] := held.symm
  simp only [State.setEntry, same]
  simp

theorem setToggle_retiring (named : x.entry = some i) (held : s.entry i = some e) (retiring : e.state = .retiring)
    (form : EndForm) : setToggle x form s = s := by
  have retires : retiringEntry s x = true := retiringEntry_iff.2 ⟨i, e, named, held, retiring⟩
  simp only [setToggle, named, retires, if_true]

/-- An entry that the exchange names and that is not RETIRING is not the exchange's retiring entry. -/
theorem retiringEntry_working (named : x.entry = some i) (held : s.entry i = some e) (working : e.state ≠ .retiring) :
    retiringEntry s x = false := by
  simp [retiringEntry_of_entry named, held, working]

theorem setToggle_working (named : x.entry = some i) (held : s.entry i = some e) (working : e.state ≠ .retiring)
    (form : EndForm) : setToggle x form s = s.setEntry i (some (toggleAfter form x.unanswered e)) := by
  simp only [setToggle, named, retiringEntry_working named held working, Bool.false_eq_true, if_false,
    updEntry_of held]

theorem setEntry_unsynced_if (held : s.entry i = some e) (unanswered : Bool) :
    s.setEntry i (some (if unanswered then { e with sync := .unsynced } else e))
      = if unanswered then s.setEntry i (some { e with sync := .unsynced }) else s := by
  cases unanswered
  · exact setEntry_eq_self held
  · rfl

/-- Settles O46: the entry takes what `toggleAfter` gives it for the form of the end. -/
theorem toggleAndSyncFollowTheEnd : Obligations.ToggleAndSyncFollowTheEnd := by
  intro x i e s named held unsynced
  refine ⟨fun retiring => setToggle_retiring named held retiring, fun working => ?_⟩
  have ends (form : EndForm) : setToggle x form s = s.setEntry i (some (toggleAfter form x.unanswered e)) :=
    setToggle_working named held working form
  refine ⟨fun r answers => ?_, fun r busy => ?_, fun c => ?_, fun c => ?_⟩
  · simp only [ends, toggleAfter, answers, if_false]
  · simp only [ends, toggleAfter, busy, if_true, setEntry_eq_self held]
  · rw [ends]
    exact setEntry_unsynced_if held x.unanswered
  · rw [ends]
    exact setEntry_unsynced_if held x.unanswered

/-! ## Status and attention (R96, R98, R99) -/

/-- The joining rule puts an entry on the list: it is in contact and not on the list yet (R96). -/
def Entry.mayJoin (e : Entry) : Prop := e.attention = false ∧ (e.state = .enlisted ∨ e.state = .online)

theorem joinAttention_joins (held : s.entry i = some e) (joins : e.mayJoin) : joinAttention i s
    = (s.setEntry i (some { e with attention := true })).updSeg e.seg fun c =>
        { c with attention := c.attention ++ [i] } := by
  simp only [joinAttention, held, updEntry_of held]
  exact if_pos joins

theorem joinAttention_stays (held : s.entry i = some e) (stays : ¬e.mayJoin) : joinAttention i s = s := by
  simp only [joinAttention, held]
  exact if_neg stays

/-- The state that the joining rule leaves after a reply, flagged or not. -/
def joinedBy (r : Reply) (i : Index) (s : State) : State := if r.attention then joinAttention i s else s

theorem joinedBy_joins (held : s.entry i = some e) (flagged : r.attention = true) (joins : e.mayJoin) :
    joinedBy r i s = (s.setEntry i (some { e with attention := true })).updSeg e.seg fun c =>
      { c with attention := c.attention ++ [i] } := by
  rw [joinedBy, if_pos flagged, joinAttention_joins held joins]

theorem joinedBy_stays (held : s.entry i = some e) (stays : ¬(r.attention = true ∧ e.mayJoin)) :
    joinedBy r i s = s := by
  unfold joinedBy
  split
  · rename_i flagged
    exact joinAttention_stays held fun joins => stays ⟨flagged, joins⟩
  · rfl

theorem statusRule_of (held : s.entry i = some e) (o : XOrigin) (r : Reply) : statusRule i o r s
    = statusReport i o e r
        ((joinedBy r i s).updEntry i fun e => { e with lastStatus := some (r.payload.getD 0 0#8) }) := by
  simp only [statusRule, held]
  rfl

theorem handStatus_retiring (named : x.entry = some i) (held : s.entry i = some e) (retiring : e.state = .retiring)
    (form : EndForm) : handStatus x form s = s := by
  have retires : retiringEntry s x = true := retiringEntry_iff.2 ⟨i, e, named, held, retiring⟩
  simp only [handStatus, named, retires, if_true]

section
variable (named : x.entry = some i) (held : s.entry i = some e) (working : e.state ≠ .retiring)
include named held working

theorem handStatus_reply (r : Reply) : handStatus x (.reply r) s = handReply i x.origin r s := by
  simp only [handStatus, named, retiringEntry_working named held working, Bool.false_eq_true, if_false]

theorem handStatus_failed (f : FailClass) :
    handStatus x (.failed f) s = if x.origin = .attention then leaveAttention i s else s := by
  simp only [handStatus, named, retiringEntry_working named held working, Bool.false_eq_true, if_false]

/-- An end that is neither a reply nor a failure hands no status on (R64). -/
theorem handStatus_other {form : EndForm} (noReply : ∀ r, form ≠ .reply r) (noFailure : ∀ f, form ≠ .failed f) :
    handStatus x form s = s := by
  have works := retiringEntry_working named held working
  cases form with
  | reply r => exact absurd rfl (noReply r)
  | failed f => exact absurd rfl (noFailure f)
  | sent | cut f | retired r => simp only [handStatus, named, works, Bool.false_eq_true, if_false]

end

theorem markSet_of (held : s.entry i = some e) : markSet s i = e.attention := by
  simp only [markSet, held]

section
variable (i : Index) (e : Entry) (r : Reply) (s : State)

/-- A sweep's reply of an entry on the attention list is told as ATTENTION (R99). -/
theorem statusReport_sweep_marked (marked : markSet s i = true) : statusReport i .sweep e r s
    = leaveAttention i
        (eventReport (.attention e.seg e.addr (r.payload.getD 0 0#8) (r.payload.drop 1)) s) := by
  simp only [statusReport, marked, if_true]

theorem statusReport_sweep_known (unmarked : markSet s i = false)
    (known : e.lastStatus = some (r.payload.getD 0 0#8)) : statusReport i .sweep e r s = s := by
  simp only [statusReport, unmarked, Bool.false_eq_true, if_false, if_pos known]

theorem statusReport_sweep_changed (unmarked : markSet s i = false)
    (changed : e.lastStatus ≠ some (r.payload.getD 0 0#8)) : statusReport i .sweep e r s
      = eventReport (.statusChanged e.seg e.addr e.lastStatus (r.payload.getD 0 0#8)) s := by
  simp only [statusReport, unmarked, Bool.false_eq_true, if_false, if_neg changed]

end

/-- Settles O48: the joining rule comes first, and the report of a STATUS_REPLY follows from origin and mark. -/
theorem statusAndAttention : Obligations.StatusAndAttention := by
  intro x i e r s named held
  refine ⟨fun retiring => handStatus_retiring named held retiring, fun working => ?_⟩
  intro status joins joined tells known
  have replied : handStatus x (.reply r) s = handReply i x.origin r s := handStatus_reply named held working r
  have on : joins → joinedBy r i s = joined := fun ⟨flagged, may⟩ => joinedBy_joins held flagged may
  have off (j : ¬joins) : joinedBy r i s = s := joinedBy_stays held j
  refine ⟨fun other => ?_, fun statusReply => ⟨fun j => ?_, fun j => ?_, fun v m there =>
      ⟨rfl, fun _ => rfl, fun marked => ?_, fun unmarked same => ?_, fun unmarked changed => ?_⟩⟩,
    fun f => ?_, fun f => ?_, ?_, fun r => ?_⟩
  · have joining : handStatus x (.reply r) s = joinedBy r i s := by
      rw [replied, handReply, if_neg other]
      rfl
    exact ⟨fun j => joining.trans (on j), fun j => joining.trans (off j)⟩
  · rw [replied, handReply, if_pos statusReply, statusRule_of held, on j]
  · rw [replied, handReply, if_pos statusReply, statusRule_of held, off j]
  · exact statusReport_sweep_marked i e r v ((markSet_of there).trans marked)
  · exact statusReport_sweep_known i e r v ((markSet_of there).trans unmarked) same
  · exact statusReport_sweep_changed i e r v ((markSet_of there).trans unmarked) changed
  · rw [handStatus_failed named held working]
    exact ⟨fun followUp => if_pos followUp, fun other => if_neg other⟩
  · exact handStatus_other named held working (by simp) (by simp)
  · exact handStatus_other named held working (by simp) (by simp)
  · exact handStatus_other named held working (by simp) (by simp)

/-! ## The status rule leaves the toggles -/

/-- The toggle of an entry in use. -/
def toggleAt (i : Index) (s : State) : Option Bool := (s.entry i).map (·.toggle)

section
variable (i : Index) (s : State)

@[simp] theorem toggleAt_eventReport (b : ReportBody) : toggleAt i (eventReport b s) = toggleAt i s := by
  rw [toggleAt, eventReport_entry]
  rfl

@[simp] theorem toggleAt_leaveAttention : toggleAt i (leaveAttention i s) = toggleAt i s := by
  cases held : s.entry i with
  | none => simp only [leaveAttention, held]
  | some e => simp [toggleAt, leaveAttention_of held, held]

@[simp] theorem toggleAt_joinAttention : toggleAt i (joinAttention i s) = toggleAt i s := by
  cases held : s.entry i with
  | none => simp only [joinAttention, held]
  | some e =>
    by_cases joins : e.mayJoin
    · simp [toggleAt, joinAttention_joins held joins, held]
    · rw [joinAttention_stays held joins]

@[simp] theorem toggleAt_statusReport (o : XOrigin) (e : Entry) (r : Reply) :
    toggleAt i (statusReport i o e r s) = toggleAt i s := by
  cases o with
  | job h => simp [statusReport]
  | attention => simp [statusReport]
  | probe => rfl
  | sweep =>
    simp only [statusReport]
    split
    · simp
    · split <;> simp

theorem toggleAt_statusRule (o : XOrigin) (r : Reply) : toggleAt i (statusRule i o r s) = toggleAt i s := by
  cases held : s.entry i with
  | none => simp only [statusRule, held]
  | some e =>
    have marked : toggleAt i (joinedBy r i s) = toggleAt i s := by
      unfold joinedBy
      split <;> simp
    rw [statusRule_of held, toggleAt_statusReport, ← marked]
    simp [toggleAt, Function.comp_def]

end

/-! ## A complete reply (R56, R58, R59, R61) -/

section
variable {chars : List Byte}

theorem evaluate_fault {k : FailKind} (classified : classify x.addr x.kind x.toggle chars = .fault k) :
    evaluate g x chars s = failReply g x k s := by
  simp only [evaluate, classified]

theorem evaluate_stale (classified : classify x.addr x.kind x.toggle chars = .stale) :
    evaluate g x chars s = staleReply g x s := by
  simp only [evaluate, classified]

theorem evaluate_valid (classified : classify x.addr x.kind x.toggle chars = .valid r) :
    evaluate g x chars s = validReply g x r s := by
  simp only [evaluate, classified]

end

/-- The exchange whose send has been answered. -/
def Exchange.answered (x : Exchange) : Exchange := { x with unanswered := false }

/-- The state that has counted a valid reply to exchange `x`. -/
def validCounted (g : Seg) (x : Exchange) (s : State) : State := s.updSeg g fun c => { c with
  counters := { c.counters with validReplies := satInc c.counters.validReplies }
  exchange := some x.answered }

/-- The state that has counted a STALE reply and awaits on. -/
def staleCounted (g : Seg) (x : Exchange) (s : State) : State := s.updSeg g fun c => { c with
  counters := { c.counters with staleReplies := satInc c.counters.staleReplies }
  exchange := some { x with phase := .await, received := [], gapTimer := none } }

theorem endWithReply_validCounted : endWithReply g x.answered r (validCounted g x s)
    = endExchange g x.answered (if retiringEntry s x then .retired (some r) else .reply r) none
      (validCounted g x s) := rfl

section
variable (current : (s.seg g).exchange = some x)
include current

theorem staleReply_of : staleReply g x s
    = if x.replyLeft = 0 then failNoReply g x (staleCounted g x s) else staleCounted g x s := by
  have counted : (s.count g Counters.incStale).updX g (fun x =>
      { x with phase := .await, received := [], gapTimer := none }) = staleCounted g x s := by
    rw [State.updX, State.count, updSeg_updSeg]
    exact updSeg_congr (by rw [current]; rfl)
  simp only [staleReply, counted]

theorem count_valid : (s.count g Counters.incValid).updX g Exchange.answered = validCounted g x s := by
  rw [State.updX, State.count, updSeg_updSeg]
  exact updSeg_congr (by rw [current]; rfl)

theorem validReply_noJob (noJob : ∀ h, x.origin ≠ .job h) :
    validReply g x r s = endWithReply g x.answered r (validCounted g x s) := by
  rw [← count_valid current]
  cases x with | mk origin =>
  cases origin with
  | job h => exact absurd rfl (noJob h)
  | sweep | attention | probe => rfl

theorem validReply_job (job : x.origin = .job h) : validReply g x r s
    = if x.stage = .prelude ∧ r.kind = .statusReply ∧ cancelRequested s x = false ∧ retiringEntry s x = false then
        preludeSuccess g x.answered h r (validCounted g x s)
      else endWithReply g x.answered r (validCounted g x s) := by
  rw [← count_valid current]
  cases x with | mk origin =>
  cases origin with
  | job k =>
    cases job
    rfl
  | sweep | attention | probe => cases job

/-- A valid reply ends the exchange unless it is a prelude's STATUS_REPLY to a job that goes on (R58, R61). -/
theorem validReply_ends (ends : (∀ h, x.origin ≠ .job h) ∨ x.stage = .main ∨ r.kind ≠ .statusReply
      ∨ cancelRequested s x = true ∨ retiringEntry s x = true) :
    validReply g x r s = endExchange g x.answered
      (if retiringEntry s x then .retired (some r) else .reply r) none (validCounted g x s) := by
  rw [← endWithReply_validCounted]
  by_cases job : ∃ h, x.origin = .job h
  · obtain ⟨h, job⟩ := job
    rw [validReply_job current job, if_neg]
    rintro ⟨prelude, statusReply, going, working⟩
    rcases ends with noJob | main | other | cancelled | retiring
    · exact noJob h job
    · simp [prelude] at main
    · exact other statusReply
    · simp [going] at cancelled
    · simp [working] at retiring
  · exact validReply_noJob current fun h job' => job ⟨h, job'⟩

end

/-- A prelude's reply is handed on, and the entry is synced with its toggle flipped (R61). -/
def statusSynced (i : Index) (o : XOrigin) (r : Reply) (s : State) : State :=
  (statusRule i o r s).updEntry i fun e => { e with sync := .synced, toggle := !e.toggle }

theorem statusSynced_toggleAt (held : s.entry i = some e) (o : XOrigin) (r : Reply) :
    toggleAt i (statusSynced i o r s) = some (!e.toggle) := by
  have before := toggleAt_statusRule i s o r
  simp only [toggleAt, held, Option.map_some] at before
  obtain ⟨m, there, same⟩ := Option.map_eq_some_iff.1 before
  simp [toggleAt, statusSynced, there, same]

theorem statusSynced_exchange (i : Index) (o : XOrigin) (r : Reply) (s : State) (g : Seg) :
    ((statusSynced i o r s).seg g).exchange = (s.seg g).exchange :=
  congrFun (exchanges_statusRule s i o r) g

/-- The same attempt goes back to DEFER with the job's own frame (R61). -/
theorem preludeSuccess_of (named : x.entry = some i) (held : s.entry i = some e) (job : s.job h = some j)
    (current : (s.seg g).exchange = some x) : preludeSuccess g x h r s
      = enterDefer g ((statusSynced i x.origin r s).updSeg g fun c =>
          { c with exchange := some (x.toMain j (!e.toggle)) }) := by
  have toggle : (((statusSynced i x.origin r s).entry i).map (·.toggle)).getD false = !e.toggle :=
    congrArg (·.getD false) (statusSynced_toggleAt held x.origin r)
  have still := (statusSynced_exchange i x.origin r s g).trans current
  rw [← updX_of still, ← toggle]
  simp only [preludeSuccess, named, job]
  rfl

/-- Settles O44: `classify` says which of the three a reply is, and a valid one goes on only from a prelude. -/
theorem completeRepliesAreHandled : Obligations.CompleteRepliesAreHandled := by
  intro g x chars s current y valid retiring stale
  have retires : retiringEntry s x = true ↔ retiring := retiringEntry_iff
  refine ⟨fun k faulty => evaluate_fault faulty, fun old => ⟨fun left => ?_, fun spent => ?_⟩, fun r good =>
    ⟨fun retired => ?_, fun working ends => ?_, fun working prelude statusReply h j i e job live going named held =>
        ?_⟩⟩
  · rw [evaluate_stale old, staleReply_of current, if_neg left]
    rfl
  · rw [evaluate_stale old, staleReply_of current, if_pos spent]
    rfl
  · rw [evaluate_valid good, validReply_ends current (by simp [retires.2 retired]), if_pos (retires.2 retired)]
    rfl
  · have ends' : (∀ h, x.origin ≠ .job h) ∨ x.stage = .main ∨ r.kind ≠ .statusReply
        ∨ cancelRequested s x = true ∨ retiringEntry s x = true :=
      ends.imp_right <| Or.imp_right <| Or.imp_right fun cancelled => .inl (cancelRequested_iff.2 cancelled)
    rw [evaluate_valid good, validReply_ends current ends', if_neg (mt retires.1 working)]
    rfl
  · have uncancelled : cancelRequested s x = false := by simp [cancelRequested, job, live, going]
    have unretired : retiringEntry s x = false := Bool.eq_false_iff.2 (mt retires.1 working)
    have counted : ((validCounted g x s).seg g).exchange = some x.answered := by simp [validCounted]
    have held' : (validCounted g x s).entry i = some e := held
    rw [evaluate_valid good, validReply_job current job, if_pos ⟨prelude, statusReply, uncancelled, unretired⟩,
      preludeSuccess_of (x := x.answered) named held' live counted]
    rfl

end

end Sys2Proof.Machine
end

section
/-! The sweep timer, the ends of a sweep step and of an attention follow-up, and the defer timer's expiry (O51,
O52). -/

namespace Sys2Proof.Machine

section
variable {s : State} {g : Seg} {i : Index} {e : Entry} {x : Exchange} {r : Reply} {left : Time}

/-! ## The sweep timer (R103, R104) -/

theorem exec_sweepTimerExpiry (live : s.rstnLow = false) (running : (s.seg g).sweep.timer = some left) :
    exec (.sweepTimerExpiry g) s = .next (sweepDue g (restartSweepTimer g (s.elapse left))) := by
  have dealt : exec (.sweepTimerExpiry g) s = execSweepTimerExpiry g s := rfl
  simp only [dealt, execSweepTimerExpiry, whileLive_live _ live, running]

/-- A sweep that begins a pass (R104). -/
def Sweep.passBegun (w : Sweep) : Sweep := { w with active := true, cursor := 0, repeatDue := false }

section
variable (active : (s.seg g).sweep.active = true) (start : (s.seg g).sweep.cursor = 0)
include active start

theorem lookSweep_first_found {a : Nat} (found : nextMember s g 0 = some a) : lookSweep g s = (s, some a) := by
  simp only [lookSweep, active, start, found, if_true]

theorem lookSweep_first_empty (noRepeat : (s.seg g).sweep.repeatDue = false) (empty : nextMember s g 0 = none) :
    lookSweep g s = (s.updSweep g Sweep.passEnded, none) := by
  simp only [lookSweep, active, start, noRepeat, empty, if_true, Bool.false_eq_true, if_false]

end

section
variable (idle : (s.seg g).sweep.active = false)
include idle

/-- A pass that is due outside a pass begins with a look (R104). -/
theorem sweepDue_looks {t : State} {found : Option Nat}
    (look : lookSweep g (s.updSweep g Sweep.passBegun) = (t, found)) :
    sweepDue g s = if found.isSome then pick g t else t := by
  have look' : lookSweep g (s.updSweep g fun w => { w with active := true, cursor := 0, repeatDue := false })
      = (t, found) := look
  simp only [sweepDue, idle, Bool.false_eq_true, if_false, look']
  cases found <;> rfl

theorem sweepDue_found {a : Nat} (found : nextMember (s.updSweep g Sweep.passBegun) g 0 = some a) :
    sweepDue g s = pick g (s.updSweep g Sweep.passBegun) :=
  sweepDue_looks idle (lookSweep_first_found (by simp [Sweep.passBegun]) (by simp [Sweep.passBegun]) found)

theorem sweepDue_empty (empty : nextMember (s.updSweep g Sweep.passBegun) g 0 = none) :
    sweepDue g s = s.updSweep g Sweep.passEnded := by
  rw [sweepDue_looks idle (lookSweep_first_empty (by simp [Sweep.passBegun]) (by simp [Sweep.passBegun])
    (by simp [Sweep.passBegun]) empty), Option.isSome_none, if_neg Bool.false_ne_true]
  exact updSeg_updSeg g _ _ s

end

theorem sweepDue_repeats (active : (s.seg g).sweep.active = true) (noRepeat : (s.seg g).sweep.repeatDue = false) :
    sweepDue g s = s.updSweep g fun w => { w with repeatDue := true } := by
  simp only [sweepDue, active, noRepeat, if_true, Bool.false_eq_true, if_false]

theorem sweepDue_overruns (active : (s.seg g).sweep.active = true) (repeats : (s.seg g).sweep.repeatDue = true) :
    sweepDue g s = s.count g Counters.incOverruns := by
  simp only [sweepDue, active, repeats, if_true]

/-! ## The end of a sweep step (R106) -/

theorem handOrigin_sweep (sweeps : x.origin = .sweep) (form : EndForm) :
    handOrigin g x form s = endSweepStep g x form s := by
  simp only [handOrigin, sweeps]

theorem endSweepStep_closes {form : EndForm} (whole : ∀ f, form ≠ .cut f) :
    endSweepStep g x form s = (lookSweep g s).1 := by
  cases form with
  | cut f => exact absurd rfl (whole f)
  | reply r | sent | failed f | retired r => rfl

/-! ## The end of an attention follow-up (R98, R59) -/

section
variable (follows : x.origin = .attention) (named : x.entry = some i)
include follows named

theorem handOrigin_attention_busy (busy : r.kind = .busy) :
    handOrigin g x (.reply r) s = attentionToTail i s := by
  simp only [handOrigin, follows, endFollowUp, named, busy]

theorem handOrigin_attention_refuse (refuse : r.kind = .refuse) : handOrigin g x (.reply r) s
    = if r.attention then attentionToTail i s else leaveAttention i s := by
  simp only [handOrigin, follows, endFollowUp, named, refuse]

theorem handOrigin_attention_statusReply (statusReply : r.kind = .statusReply) :
    handOrigin g x (.reply r) s = s := by
  simp only [handOrigin, follows, endFollowUp, named, statusReply]

theorem handOrigin_attention_noReply {form : EndForm} (noReply : ∀ r, form ≠ .reply r) :
    handOrigin g x form s = s := by
  cases form with
  | reply r => exact absurd rfl (noReply r)
  | sent | failed f | cut f | retired r => simp only [handOrigin, follows, endFollowUp, named]

end

theorem attentionToTail_listed (held : s.entry i = some e) (listed : i ∈ (s.seg e.seg).attention) :
    attentionToTail i s = s.updSeg e.seg fun c => { c with attention := c.attention.filter (· ≠ i) ++ [i] } := by
  simp only [attentionToTail, held]
  exact updSeg_congr (by rw [if_pos listed, filter_bne_eq])

theorem attentionToTail_unlisted (held : s.entry i = some e) (unlisted : i ∉ (s.seg e.seg).attention) :
    attentionToTail i s = s := by
  simp only [attentionToTail, held]
  exact updSeg_eq_self (by rw [if_neg unlisted])

/-- Settles O51: the timer is restarted before the pass is looked at, and each end goes to its origin's owner. -/
theorem sweepsAndFollowUps : Obligations.SweepsAndFollowUps := by
  intro g s
  refine ⟨fun live left running => ?_, fun x sweeps => ⟨fun f => ?_, fun form whole => ?_⟩,
    fun x i follows named => ⟨fun r e held keeps => ?_, fun r refuse unflagged => ?_, fun r statusReply => ?_,
      fun form noReply => ?_⟩⟩
  · intro u period sweeps' begun
    have config : (u.seg g).config = (s.seg g).config := elapse_config ..
    have sweep : ((restartSweepTimer g u).seg g).sweep.active = (s.seg g).sweep.active
        ∧ ((restartSweepTimer g u).seg g).sweep.repeatDue = (s.seg g).sweep.repeatDue := by
      simp [restartSweepTimer, u, elapse_seg_live live, Column.elapse, Sweep.elapse]
    obtain ⟨same_active, same_repeat⟩ := sweep
    have restarted (f : Sweep → Sweep)
        (apart : ∀ w t, f { w with timer := t } = { f w with timer := t }) :
        (restartSweepTimer g u).updSweep g f = sweeps' f := by
      rw [restartSweepTimer, State.updSweep, updSeg_updSeg]
      refine updSeg_congr ?_
      dsimp only
      rw [apart, config]
      rfl
    have due : exec (.sweepTimerExpiry g) s = .next (sweepDue g (restartSweepTimer g u)) :=
      exec_sweepTimerExpiry live running
    refine ⟨fun idle => ?_, fun active noRepeat => ?_, fun active repeats => ?_⟩
    · have starts : (restartSweepTimer g u).updSweep g Sweep.passBegun = begun := restarted _ fun _ _ => rfl
      rw [due, ← starts]
      cases look : nextMember ((restartSweepTimer g u).updSweep g Sweep.passBegun) g 0 with
      | some a => rw [sweepDue_found (same_active.trans idle) look]
      | none =>
        rw [sweepDue_empty (same_active.trans idle) look]
        exact congrArg _ (restarted Sweep.passEnded fun _ _ => rfl)
    · rw [due, sweepDue_repeats (same_active.trans active) (same_repeat.trans noRepeat),
        restarted _ fun _ _ => rfl]
    · have kept : restartSweepTimer g u = sweeps' id :=
        (updSeg_eq_self rfl).symm.trans (restarted id fun _ _ => rfl)
      rw [due, sweepDue_overruns (same_active.trans active) (same_repeat.trans repeats), kept]
      rfl
  · rw [handOrigin_sweep sweeps]
    rfl
  · rw [handOrigin_sweep sweeps, endSweepStep_closes whole]
  · have toTail : handOrigin g x (.reply r) s = attentionToTail i s := by
      rcases keeps with busy | ⟨refuse, flagged⟩
      · exact handOrigin_attention_busy follows named busy
      · rw [handOrigin_attention_refuse follows named refuse, if_pos flagged]
    exact ⟨fun listed => toTail.trans (attentionToTail_listed held listed),
      fun unlisted => toTail.trans (attentionToTail_unlisted held unlisted)⟩
  · rw [handOrigin_attention_refuse follows named refuse, unflagged]
    rfl
  · exact handOrigin_attention_statusReply follows named statusReply
  · exact handOrigin_attention_noReply follows named noReply

/-! ## The defer timer (R57, R88, R150) -/

theorem retiringEntry_elapse (d : Time) : retiringEntry (s.elapse d) (x.elapse d) = retiringEntry s x := by
  rw [Bool.eq_iff_iff]
  simp only [retiringEntry_iff, elapse_entry]
  rfl

theorem cancelRequested_elapse (live : s.rstnLow = false) (d : Time) :
    cancelRequested (s.elapse d) (x.elapse d) = cancelRequested s x := by
  have same : (x.elapse d).origin = x.origin := rfl
  unfold cancelRequested
  rw [same]
  cases x.origin with
  | job h =>
    simp only [elapse_job d s h live]
    cases s.job h <;> rfl
  | sweep | attention | probe => rfl

theorem jabberForm_elapse (live : s.rstnLow = false) (d : Time) :
    jabberForm (s.elapse d) (x.elapse d) = jabberForm s x := by
  rw [jabberForm, jabberForm, retiringEntry_elapse, cancelRequested_elapse live]

theorem exec_deferTimerExpiry (live : s.rstnLow = false) (current : (s.seg g).exchange = some x)
    (defers : x.phase = .defer) (running : (s.seg g).line.deferTimer = some left) :
    exec (.deferTimerExpiry g) s = .next (endExchange g (x.elapse left) (jabberForm s x) (some .jabber)
      ((s.elapse left).updLine g fun l => { l with deferTimer := none })) := by
  have dealt : exec (.deferTimerExpiry g) s = execDeferTimerExpiry g s := rfl
  simp only [dealt, execDeferTimerExpiry, whileLive_live _ live, exchangeIn_of current defers, running, expireDefer,
    elapse_exchange live current, jabberForm_elapse live]

/-- Settles O52: the form of the end is that of R57, asked of the state before the defer limit has passed. -/
theorem jabberFaultsTheSegment : Obligations.JabberFaultsTheSegment := by
  intro g s x left live current defers running v retiring cancelled ends
  have retires : retiringEntry s x = true ↔ retiring := retiringEntry_iff
  have requested : cancelRequested s x = true ↔ cancelled := cancelRequested_iff
  have jabbers {form : EndForm} (h : jabberForm s x = form) : ends form :=
    h ▸ exec_deferTimerExpiry live current defers running
  refine ⟨fun r => jabbers ?_, fun r c => jabbers ?_, fun r c => jabbers ?_⟩
  · rw [jabberForm, if_pos (retires.2 r)]
  · rw [jabberForm, if_neg (mt retires.1 r), if_pos (requested.2 c)]
  · rw [jabberForm, if_neg (mt retires.1 r), if_neg (mt requested.1 c)]

end

end Sys2Proof.Machine
end

section
/-! START, STOP, RESUME and the queries of a segment: each ruling, case by case, and what the taken request does
with it; and the pick of a free segment (O18, O20, O21, O36). -/

namespace Sys2Proof.Machine

section
variable {s : State} {f : HostFrame} {g : Seg}

/-! ## START, STOP and RESUME (R74, R75, R76) -/

theorem rulingStart_halted (h : (s.seg g).state = .halted) :
    rulingStart g s = stateChange .halted .running (pick g (s.updSeg g makeRunning)) := by
  simp only [rulingStart, h]

theorem rulingStart_running (h : (s.seg g).state = .running) :
    rulingStart g s = stateChange .running .running s := by
  simp only [rulingStart, h]

theorem rulingStart_draining (h : (s.seg g).state = .draining) :
    rulingStart g s = stateChange .draining .running (s.updSeg g fun c => { c with state := .running }) := by
  simp only [rulingStart, h]

theorem rulingStart_faulted (h : (s.seg g).state = .faulted) :
    rulingStart g s = ⟨s, .wrongState, [byte SegState.faulted.code]⟩ := by
  simp only [rulingStart, h]

theorem rulingStop_halted (h : (s.seg g).state = .halted) :
    rulingStop g s = stateChange .halted .halted s := by
  simp only [rulingStop, h]

theorem rulingStop_free (h : (s.seg g).state = .running) (free : (s.seg g).exchange = none) :
    rulingStop g s = stateChange .running .halted (s.updSeg g makeHalted) := by
  simp only [rulingStop, h, free, Option.isSome_none, Bool.false_eq_true, if_false]

theorem rulingStop_busy (h : (s.seg g).state = .running) (busy : (s.seg g).exchange.isSome = true) :
    rulingStop g s = stateChange .running .draining (s.updSeg g fun c => { c with state := .draining }) := by
  simp only [rulingStop, h, busy, if_true]

theorem rulingStop_draining (h : (s.seg g).state = .draining) :
    rulingStop g s = stateChange .draining .draining s := by
  simp only [rulingStop, h]

theorem rulingStop_faulted (h : (s.seg g).state = .faulted) :
    rulingStop g s = stateChange .faulted .halted (s.updSeg g makeHalted) := by
  simp only [rulingStop, h]

theorem rulingResume_faulted (h : (s.seg g).state = .faulted) : rulingResume g s
    = stateChange .faulted .running (pick g (s.updSeg g fun c => { makeRunning c with streak := 0 })) :=
  if_pos h

theorem rulingResume_other (h : (s.seg g).state ≠ .faulted) :
    rulingResume g s = ⟨s, .wrongState, [byte (s.seg g).state.code]⟩ :=
  if_neg h

/-- Settles O20: the ruling of START by the state of the segment. -/
theorem startPutsASegmentToWork : Obligations.StartPutsASegmentToWork := by
  unfold Obligations.StartPutsASegmentToWork
  intro f g s on
  refine ⟨fun halted => ?_, fun running => ?_, fun draining => ?_, fun faulted => ?_⟩
  · exact segmentRequest_ruled on (rulingStart_halted halted)
  · exact segmentRequest_ruled on (rulingStart_running running)
  · exact segmentRequest_ruled on (rulingStart_draining draining)
  · exact segmentRequest_ruled on (rulingStart_faulted faulted)

/-- Settles O21: the rulings of STOP and RESUME by the state of the segment and, for STOP, by its exchange. -/
theorem stopAndResumeASegment : Obligations.StopAndResumeASegment := by
  unfold Obligations.StopAndResumeASegment
  intro f g s on
  refine ⟨fun halted => ?_, fun running free => ?_, fun running busy => ?_, fun draining => ?_,
    fun faulted => ?_, fun faulted => ?_, fun other => ?_⟩
  · exact segmentRequest_ruled on (rulingStop_halted halted)
  · exact segmentRequest_ruled on (rulingStop_free running free)
  · exact segmentRequest_ruled on (rulingStop_busy running busy)
  · exact segmentRequest_ruled on (rulingStop_draining draining)
  · exact segmentRequest_ruled on (rulingStop_faulted faulted)
  · exact segmentRequest_ruled on (rulingResume_faulted faulted)
  · exact segmentRequest_ruled on (rulingResume_other other)

/-! ## QUERY_SEGMENT and QUERY_COUNTERS (R92, R93) -/

theorem rulingQueryCounters_badValue {option : Nat} (h : 2 ≤ option) (g : Seg) (s : State) :
    rulingQueryCounters option g s = refuse .badValue s := by
  match option, h with
  | _ + 2, _ => rfl

/-- Settles O18: QUERY_SEGMENT answers of the column alone, and QUERY_COUNTERS rules by its option. -/
theorem segmentQueriesAnswer : Obligations.SegmentQueriesAnswer := by
  unfold Obligations.SegmentQueriesAnswer
  intro f g s
  refine ⟨fun on => ?_, fun on => ⟨fun keep => ?_, fun clear => ?_, fun other => ?_⟩⟩
  · exact segmentRequest_ruled on rfl
  · exact segmentRequest_ruled on (congrArg (rulingQueryCounters · g _) keep)
  · exact segmentRequest_ruled on (congrArg (rulingQueryCounters · g _) clear)
  · exact segmentRequest_refused on (rulingQueryCounters_badValue other g _)

/-! ## The pick order (R82, R83, R84) -/

theorem isFree_iff {c : Column} :
    isFree c = true ↔ c.state = .running ∧ c.exchange = none ∧ c.line.tx = .quiet := by
  simp only [isFree, Bool.and_eq_true, beq_iff_eq, Option.isNone_iff_eq_none, and_assoc]

theorem pick_not_free (h : ¬isFree (s.seg g) = true) : pick g s = s := if_neg h

section
variable (free : isFree (s.seg g) = true)
include free

theorem pick_attention {i : Index} {rest : List Index} (h : (s.seg g).attention = i :: rest) :
    pick g s = startPoll g .attention i s := by
  simp only [pick, free, if_true, h]

variable (unattended : (s.seg g).attention = [])
include unattended

theorem pick_urgent {h : Handle} {rest : List Handle} (lane : (s.seg g).urgent = h :: rest) :
    pick g s = startJob g h s := by
  simp only [pick, free, if_true, unattended, lane]

theorem pick_past_urgent (lane : (s.seg g).urgent = []) : pick g s = pickSweep g s := by
  simp only [pick, free, if_true, unattended, lane]

end

/-- A look of the sweep leaves the station table. -/
theorem findEntry_lookSweep (g k : Seg) (a : Nat) (s : State) :
    findEntry (lookSweep g s).1 k a = findEntry s k a := by
  unfold findEntry State.entry
  rw [(lookSweep_frame g s).2.1]

theorem pickSweep_member {a : Nat} {i : Index} (member : (lookSweep g s).2 = some a)
    (found : findEntry s g a = some i) (due : (s.seg g).turn = .sweep ∨ (s.seg g).normal = []) :
    pickSweep g s = startPoll g .sweep i ((lookSweep g s).1.updSeg g fun c =>
      { c with turn := .lane, sweep := { c.sweep with cursor := a } }) := by
  rw [pickSweep, member]
  simp only [if_pos due, startSweepStep, findEntry_lookSweep, found]

/-- With a job in the normal lane, the sweep gives way if it finds no member or it is the lane's turn. -/
theorem pickSweep_pickNormal (way : (lookSweep g s).2 = none ∨ ((s.seg g).turn = .lane ∧ (s.seg g).normal ≠ [])) :
    pickSweep g s = pickNormal g (lookSweep g s).1 := by
  unfold pickSweep
  split
  · rename_i a member
    obtain ⟨turn, waiting⟩ : (s.seg g).turn = .lane ∧ (s.seg g).normal ≠ [] := by
      simpa only [member, reduceCtorEq, false_or] using way
    exact if_neg (by simp [turn, waiting])
  · rfl

theorem pickNormal_job {h : Handle} {rest : List Handle} (lane : (s.seg g).normal = h :: rest) :
    pickNormal g s = startJob g h (s.updSeg g fun c => { c with turn := .sweep }) := by
  simp only [pickNormal, lane]

theorem pickNormal_empty (lane : (s.seg g).normal = []) : pickNormal g s = pickDiscovery g s := by
  simp only [pickNormal, lane]

theorem pickDiscovery_found {a : Nat} (found : (lookDisc g s).2 = some a) :
    pickDiscovery g s = startProbe g a (lookDisc g s).1 := by
  simp only [pickDiscovery, found]

theorem pickDiscovery_ended (ended : (lookDisc g s).2 = none) : pickDiscovery g s = (lookDisc g s).1 := by
  simp only [pickDiscovery, ended]

/-- Settles O36: each source is asked once those before it have nothing. -/
theorem pickOrder : Obligations.PickOrder := by
  unfold Obligations.PickOrder
  intro g s
  have lane : ((lookSweep g s).1.seg g).normal = (s.seg g).normal := (lookSweep_column g g s).2
  refine ⟨fun busy => pick_not_free (mt isFree_iff.1 busy),
    fun free i rest listed => pick_attention (isFree_iff.2 free) listed,
    fun free unattended h rest urgent => pick_urgent (isFree_iff.2 free) unattended urgent,
    fun free unattended noUrgent => ?_⟩
  rw [pick_past_urgent (isFree_iff.2 free) unattended noUrgent]
  refine ⟨fun a i member found due => pickSweep_member member found due, fun h rest normal way => ?_,
    fun noNormal noMember => ?_⟩
  · rw [pickSweep_pickNormal (way.imp id fun turn => ⟨turn, by simp [normal]⟩), pickNormal_job (lane.trans normal)]
  · rw [pickSweep_pickNormal (.inl noMember), pickNormal_empty (lane.trans noNormal)]
    exact ⟨fun a found => pickDiscovery_found found, fun ended => pickDiscovery_ended ended⟩

end

end Sys2Proof.Machine
end

section
/-! CONFIGURE_SEGMENT (O19): the offered numbers and their ranges, the record in bytes, and what is replaced. -/

namespace Sys2Proof.Machine

/-! ## The first field outside its range (the third check of R80) -/

/-- Field `n` of the record that a body offers lies in its range, the first field being number 0. -/
def fieldFits (b : List Byte) (n : Fin 17) : Bool :=
  (fieldRanges.getD n fun _ => true) ((offeredFields b).getD n 0)

theorem zip_fieldRanges_length (b : List Byte) : (List.zip (offeredFields b) fieldRanges).length = 17 := rfl

theorem fieldFits_eq (b : List Byte) (n : Fin 17) (h : n.val < (List.zip (offeredFields b) fieldRanges).length) :
    fieldFits b n = (List.zip (offeredFields b) fieldRanges)[n.val].2
      (List.zip (offeredFields b) fieldRanges)[n.val].1 := by
  have fields : n.val < (offeredFields b).length := n.isLt
  have ranges : n.val < fieldRanges.length := n.isLt
  rw [List.getElem_zip, fieldFits, List.getD_eq_getElem _ _ fields, List.getD_eq_getElem _ _ ranges]

theorem firstOutside_of {b : List Byte} {n : Fin 17} (outside : fieldFits b n = false)
    (before : ∀ m, m < n → fieldFits b m = true) : firstOutside (offeredFields b) = some (n.val + 1) := by
  have inside (k : Nat) (h : k < 17) : k < (List.zip (offeredFields b) fieldRanges).length :=
    zip_fieldRanges_length b ▸ h
  rw [firstOutside, Option.map_eq_some_iff]
  refine ⟨n, List.findIdx?_eq_some_iff_getElem.2 ⟨inside n n.isLt, ?_, fun m lt => ?_⟩, rfl⟩
  · rw [← fieldFits_eq, outside]
    rfl
  · have fits := before ⟨m, lt.trans n.isLt⟩ lt
    rw [fieldFits_eq b _ (inside m (lt.trans n.isLt))] at fits
    simp only [fits, Bool.not_true, Bool.false_eq_true, not_false_eq_true]

theorem firstOutside_none {b : List Byte} (fits : ∀ n, fieldFits b n = true) :
    firstOutside (offeredFields b) = none := by
  rw [firstOutside, Option.map_eq_none_iff, List.findIdx?_eq_none_iff]
  intro p hp
  obtain ⟨n, lt, rfl⟩ := List.getElem_of_mem hp
  have fit := fits ⟨n, zip_fieldRanges_length b ▸ lt⟩
  rw [fieldFits_eq b _ lt] at fit
  rw [fit, Bool.not_true]

/-! ## The record in bytes (section 11.5) -/

theorem byte_byteAt (b : List Byte) (k : Nat) : byte (byteAt b k) = b.getD k 0#8 :=
  BitVec.eq_of_toNat_eq (by simp [byte, byteAt])

theorem bytes2_wordAt (b : List Byte) (k : Nat) : bytes2 (wordAt b k) = [b.getD k 0#8, b.getD (k + 1) 0#8] := by
  have low : byteAt b (k + 1) < 256 := (b.getD (k + 1) 0#8).isLt
  have quotient : wordAt b k / 256 = byteAt b k := by unfold wordAt; omega
  have remainder : byte (wordAt b k) = byte (byteAt b (k + 1)) := by
    refine BitVec.eq_of_toNat_eq ?_
    simp only [byte, BitVec.toNat_ofNat, wordAt]
    omega
  rw [bytes2, quotient, remainder, byte_byteAt, byte_byteAt]

section
variable {n : Nat}

theorem within_iff {lo hi : Nat} : within lo hi n = true ↔ lo ≤ n ∧ n ≤ hi := by
  simp only [within, Bool.and_eq_true, decide_eq_true_eq]

theorem rateCode_of_within (h : within 1 8 n = true) : rateCode ((rateOfCode n).getD .r19200) = n := by
  obtain ⟨low, high⟩ := within_iff.1 h
  interval_cases n <;> rfl

theorem parityCode_of_within (h : within 0 2 n = true) : parityCode ((parityOfCode n).getD .none) = n := by
  obtain ⟨low, high⟩ := within_iff.1 h
  interval_cases n <;> rfl

theorem stopBitsCode_of_within (h : within 1 2 n = true) :
    stopBitsCode ((stopBitsOfCode n).getD .one) = n := by
  obtain ⟨low, high⟩ := within_iff.1 h
  interval_cases n <;> rfl

theorem polarityCode_of_within (h : within 0 1 n = true) :
    polarityCode ((polarityOfCode n).getD .highSends) = n := by
  obtain ⟨low, high⟩ := within_iff.1 h
  interval_cases n <;> rfl

end

theorem drop_one_of_length {b : List Byte} (length : b.length = 22) :
    b.drop 1 = (List.range 21).map fun k => b.getD (k + 1) 0#8 := by
  refine List.ext_getElem (by simp [length]) fun k lt _ => ?_
  have inside : k + 1 < b.length := by
    rw [List.length_drop] at lt
    omega
  rw [List.getElem_drop, List.getElem_map, List.getElem_range, List.getD_eq_getElem _ _ inside]
  simp only [Nat.add_comm]

/-- The record that is read from a body whose fields lie in their ranges is answered as it was offered. -/
theorem configBytes_configOfBody {b : List Byte} (length : b.length = 22) (fits : ∀ n, fieldFits b n = true) :
    configBytes (configOfBody b) = b.drop 1 := by
  have rate : rateCode (configOfBody b).rate = byteAt b 1 := rateCode_of_within (fits 0)
  have parity : parityCode (configOfBody b).parity = byteAt b 2 := parityCode_of_within (fits 1)
  have stopBits : stopBitsCode (configOfBody b).stopBits = byteAt b 3 := stopBitsCode_of_within (fits 2)
  have polarity : polarityCode (configOfBody b).polarity = byteAt b 4 := polarityCode_of_within (fits 3)
  rw [configBytes, rate, parity, stopBits, polarity, drop_one_of_length length]
  simp only [configOfBody, byte_byteAt, bytes2_wordAt]
  rfl

/-! ## The ruling (R80, R81, R23) -/

section
variable {s : State} {f : HostFrame} {g : Seg}

theorem configure_seg (g : Seg) (c : SegConfig) (s : State) :
    (configure g c s).seg g = Column.configured c (s.seg g) := by
  rw [configure, seg_withTable, seg_updSeg_same]

theorem configure_seg_other {k : Seg} (other : k ≠ g) (c : SegConfig) (s : State) :
    (configure g c s).seg k = s.seg k := by
  rw [configure, seg_withTable, seg_updSeg_other other]

theorem configure_entry (g : Seg) (c : SegConfig) (s : State) (i : Index) :
    (configure g c s).entry i = (s.entry i).map (clearHealth g) := mapStore_get ..

theorem deferAboveSettle_iff {c : SegConfig} :
    deferAboveSettle c = true ↔ settleTime c < millis c.deferLimit := decide_eq_true_iff

theorem rulingConfigure_active (h : (s.seg g).state ≠ .halted) :
    rulingConfigure f g s = refuse .segmentActive s := if_pos h

section
variable (halted : (s.seg g).state = .halted)
include halted

theorem rulingConfigure_outside {n : Fin 17} (outside : fieldFits f.body n = false)
    (before : ∀ m, m < n → fieldFits f.body m = true) :
    rulingConfigure f g s = ⟨s, .badValue, [byte (n + 1)]⟩ := by
  rw [rulingConfigure, if_neg (not_not_intro halted), firstOutside_of outside before]

variable (fits : ∀ n, fieldFits f.body n = true)
include fits

theorem rulingConfigure_inRange : rulingConfigure f g s =
    if deferAboveSettle (configOfBody f.body) then ⟨configure g (configOfBody f.body) s, .ok, []⟩
    else ⟨s, .badValue, [byte 16]⟩ := by
  rw [rulingConfigure, if_neg (not_not_intro halted), firstOutside_none fits]

theorem rulingConfigure_shortDefer
    (short : millis (configOfBody f.body).deferLimit ≤ settleTime (configOfBody f.body)) :
    rulingConfigure f g s = ⟨s, .badValue, [byte 16]⟩ := by
  rw [rulingConfigure_inRange halted fits, if_neg (mt deferAboveSettle_iff.1 (Nat.not_lt.2 short))]

theorem rulingConfigure_replaced
    (long : settleTime (configOfBody f.body) < millis (configOfBody f.body).deferLimit) :
    rulingConfigure f g s = ⟨configure g (configOfBody f.body) s, .ok, []⟩ := by
  rw [rulingConfigure_inRange halted fits, if_pos (deferAboveSettle_iff.2 long)]

end

end

/-- Settles O19: the ruling of CONFIGURE_SEGMENT by its first failed check, and what the accepted record changes. -/
theorem configureReplacesTheRecord : Obligations.ConfigureReplacesTheRecord := by
  unfold Obligations.ConfigureReplacesTheRecord
  intro f g s on
  refine ⟨fun active => ?_, fun halted => ⟨fun n outside before => ?_, fun fits =>
    ⟨fun short => ?_, fun long => ?_⟩⟩⟩
  · exact segmentRequest_refused on (rulingConfigure_active active)
  · exact segmentRequest_ruled on (rulingConfigure_outside halted outside before)
  · exact segmentRequest_ruled on (rulingConfigure_shortDefer halted fits short)
  · refine ⟨configBytes_configOfBody on.2.1 fits, _,
      segmentRequest_ruled on (rulingConfigure_replaced halted fits long), setSlot_answers .., ⟨rfl, rfl, rfl⟩,
      fun k other => configure_seg_other other .., configure_seg .., rfl, rfl,
      configure_entry g (configOfBody f.body) (afterTake f s)⟩

end Sys2Proof.Machine
end

section
/-! RESET_SEGMENT (O22): what the six steps of R78 leave of the segment, its jobs, its entries and the queue. -/

namespace Sys2Proof.Machine

section
variable {s : State} {g : Seg}

/-- Step 5 of R78 without the room that it frees for other units (R126). -/
def unitReset (g : Seg) (s : State) : State :=
  (if (s.seg g).disc.state = .probing then releaseReservation s else s).updDisc g fun _ => Discovery.reset

theorem resetDisc_eq (g : Seg) (s : State) : resetDisc g s
    = if (s.seg g).disc.state = .probing then serveWaitRoom (unitReset g s) else unitReset g s := by
  unfold resetDisc unitReset
  split <;> rfl

/-- Steps 1 to 5 of R78, without the room that step 5 frees. -/
def emptied (g : Seg) (s : State) : State := unitReset g (resetWork g s)

theorem resetSegment_emptied (g : Seg) (s : State) : resetSegment g s
    = (if (s.seg g).disc.state = .probing then serveWaitRoom (emptied g s) else emptied g s).updSeg g
      resetControl := by
  rw [resetSegment, resetDisc_eq, (resetWork_seg g s).2]
  rfl

/-! ## One step after another -/

theorem unitReset_seg (g : Seg) (s : State) :
    (unitReset g s).seg g = { s.seg g with disc := Discovery.reset } := by
  unfold unitReset
  split <;> exact seg_updDisc_same ..

theorem unitReset_outer (g : Seg) (s : State) : outer g (unitReset g s) = outer g s := by
  unfold unitReset
  split <;> simp

theorem unitReset_table (g : Seg) (s : State) : (unitReset g s).table = s.table := by
  unfold unitReset
  split <;> rfl

theorem unitReset_jobs (g : Seg) (s : State) : (unitReset g s).jobs = s.jobs := by
  unfold unitReset
  split <;> rfl

theorem unitReset_queue (g : Seg) (s : State) : (unitReset g s).queue = { s.queue with
    reservations := s.queue.reservations - if (s.seg g).disc.state = .probing then 1 else 0 } := by
  unfold unitReset
  split <;> rfl

theorem resetWork_eq (g : Seg) (s : State) :
    resetWork g s = resetStations g (completeJobs (abortOrder s g) .aborted (discarded g s)) := rfl

theorem resetStations_seg (g : Seg) (s : State) :
    (resetStations g s).seg g = { s.seg g with attention := [], sweep := Sweep.reset } := by
  rw [resetStations, seg_withTable, seg_updSeg_same]

theorem resetStations_outer (g : Seg) (s : State) : outer g (resetStations g s) = outer g s :=
  outer_updSeg g s fun c => { c with attention := [], sweep := Sweep.reset }

theorem discarded_seg (g : Seg) (s : State) : (discarded g s).seg g
    = { s.seg g with exchange := none, line := (s.seg g).line.discard (s.seg g).config } :=
  seg_updSeg_same ..

/-! ## The jobs that end ABORTED (R45) -/

section
variable (G : (spots s).Good)
include G

theorem mem_abortOrder (g : Seg) (h : Handle) : h ∈ abortOrder s g ↔ ∃ j, s.job h = some j ∧ j.seg = g := by
  rw [abortOrder_all G]
  exact abort_mem G g h

theorem abortOrder_nodup (g : Seg) : (abortOrder s g).Nodup := by
  rw [abortOrder_all G]
  exact abort_nodup G g

theorem abortOrder_completes (g : Seg) : CompletesAll (abortOrder s g) g .aborted (discarded g s)
    (completeJobs (abortOrder s g) .aborted (discarded g s)) :=
  completeJobs_completes g .aborted _ (abortOrder_nodup G g) fun h m => (mem_abortOrder G g h).1 m

/-- No handle of the segment is left at a place. -/
theorem filter_abortOrder (g : Seg) (p : Place) :
    ((s.seg g).standing p).filter (· ∉ abortOrder s g) = [] := by
  rw [List.filter_eq_nil_iff]
  intro h m
  obtain ⟨j, live, own, -⟩ := ((((spots_good s).1 G).1 g p).2 h).1 m
  simpa using (mem_abortOrder G g h).2 ⟨j, live, own⟩

theorem rulingResetSegment_emptied (g : Seg) : rulingResetSegment g s =
    ⟨(if (s.seg g).disc.state = .probing then serveWaitRoom (emptied g s) else emptied g s).updSeg g resetControl,
      .ok, [byte (s.seg g).state.code, byte (activeJob (s.seg g) ++ (s.seg g).urgent ++ (s.seg g).normal
        ++ (s.seg g).waitSet).length]⟩ := by
  rw [rulingResetSegment, resetSegment_emptied, abortOrder_all G]

/-! ## What is left before the room is served -/

theorem emptied_others (g : Seg) : SameOthers g s (emptied g s) := by
  intro k other
  calc (emptied g s).seg k = (resetWork g s).seg k := (outer_eq (unitReset_outer ..)).1 k other
    _ = (completeJobs (abortOrder s g) .aborted (discarded g s)).seg k :=
      (outer_eq (resetStations_outer ..)).1 k other
    _ = (discarded g s).seg k := (abortOrder_completes G g).segs k other
    _ = s.seg k := seg_updSeg_other other ..

theorem emptied_seg (g : Seg) : (emptied g s).seg g = { s.seg g with
    exchange := none
    urgent := []
    normal := []
    waitSet := []
    attention := []
    sweep := Sweep.reset
    disc := Discovery.reset
    line := (s.seg g).line.discard (s.seg g).config } := by
  have urgent : (s.seg g).urgent.filter (· ∉ abortOrder s g) = [] := filter_abortOrder G g .urgent
  have normal : (s.seg g).normal.filter (· ∉ abortOrder s g) = [] := filter_abortOrder G g .normal
  have waiting : (s.seg g).waitSet.filter (· ∉ abortOrder s g) = [] := filter_abortOrder G g .waiting
  rw [emptied, unitReset_seg, resetWork_eq, resetStations_seg, (abortOrder_completes G g).holders, discarded_seg]
  simp only [urgent, normal, waiting]

theorem emptied_job (g : Seg) (h : Handle) : (emptied g s).job h = (s.job h).filter fun j => j.seg ≠ g := by
  have left : (emptied g s).job h = if h ∈ abortOrder s g then none else s.job h := by
    rw [State.job, emptied, unitReset_jobs]
    exact (abortOrder_completes G g).job h
  rw [left]
  cases live : s.job h with
  | none => simp
  | some j => simp [mem_abortOrder G, live, Option.filter]

theorem emptied_bodies (g : Seg) : (emptied g s).queue.reports.map (·.body) = s.queue.reports.map (·.body)
    ++ (abortOrder s g).filterMap fun h => (s.job h).map fun j => resultOf j .aborted [] := by
  rw [emptied, unitReset_queue]
  exact (abortOrder_completes G g).bodies

theorem emptied_reservations (g : Seg) : (emptied g s).queue.reservations = s.queue.reservations
    - (abortOrder s g).length - if (s.seg g).disc.state = .probing then 1 else 0 := by
  rw [emptied, unitReset_queue, (resetWork_seg g s).2]
  exact congrArg (· - _) (abortOrder_completes G g).reservations

theorem emptied_lost (g : Seg) : (emptied g s).queue.lostEvents = s.queue.lostEvents
    ∧ (emptied g s).queue.reEdge = s.queue.reEdge := by
  rw [emptied, unitReset_queue]
  exact ⟨(abortOrder_completes G g).lost, (abortOrder_completes G g).reEdge⟩

theorem emptied_entry (g : Seg) (i : Index) : (emptied g s).entry i = (s.entry i).bind (resetEntry g) := by
  have same : (completeJobs (abortOrder s g) .aborted (discarded g s)).entry i = s.entry i :=
    congrArg (·[i]) (abortOrder_completes G g).table
  rw [State.entry, emptied, unitReset_table, ← same]
  exact resetStations_entry ..

/-- With no unit of another segment in WAIT_ROOM, the room that is freed goes to none. -/
theorem serveWaitRoom_emptied (g : Seg) (alone : ∀ k, k ≠ g → (s.seg k).disc.state ≠ .waitRoom) :
    serveWaitRoom (emptied g s) = emptied g s := by
  refine serveWaitRoom_none fun k => ?_
  by_cases own : k = g
  · rw [own, emptied_seg G]
    simp [Discovery.reset]
  · rw [emptied_others G g k own]
    exact alone k own

end

theorem emptied_outside (g : Seg) (s : State) : SameOutside s (emptied g s) := by
  refine rest_eq ?_
  calc rest (emptied g s) = rest (resetWork g s) := rest_of_outer (unitReset_outer ..)
    _ = rest (completeJobs (abortOrder s g) .aborted (discarded g s)) := rest_of_outer (resetStations_outer ..)
    _ = rest s := rest_completeJobs ..

end

/-- Settles O22: RESET_SEGMENT empties the segment before the room of a PROBING unit is served; HolderLaw gives
that its jobs are those of the order of R45, each once. -/
theorem resetSegmentEmptiesTheSegment : Obligations.ResetSegmentEmptiesTheSegment := by
  unfold Obligations.ResetSegmentEmptiesTheSegment
  intro f g s on holders timers u c order ends
  have G : (spots u).Good := ((spots_good s).2 ⟨holders, timers⟩).afterTake f
  have jobs : abortOrder u g = order := abortOrder_all G g
  have ruled : exec (.resetSegment f) s
      = .next (ends (if c.disc.state = .probing then serveWaitRoom (emptied g u) else emptied g u)) :=
    segmentRequest_ruled on (rulingResetSegment_emptied G g)
  obtain ⟨link, pin, pending⟩ := emptied_outside g u
  obtain ⟨lost, reEdge⟩ := emptied_lost G g
  refine ⟨emptied g u, ruled, fun alone => ?_, link, pin, pending, emptied_others G g, emptied_seg G g,
    emptied_job G g, emptied_entry G g, jobs ▸ emptied_bodies G g, jobs ▸ emptied_reservations G g, lost, reEdge⟩
  rw [ruled, serveWaitRoom_emptied G g alone, ite_self]

end Sys2Proof.Machine
end

section
/-! The looks of the sweep and of the discovery unit: what each one finds, and what it does where it finds nothing
(O37). -/

namespace Sys2Proof.Machine

section
variable {s : State} {g : Seg} {a n : Nat}

/-! ## The members of the sweep (R105) -/

theorem isMember_iff {e : Entry} : e.isMember = true
    ↔ e.state = .silent ∨ ((e.state = .enlisted ∨ e.state = .online) ∧ e.pollClass = .cyclic) := by
  unfold Entry.isMember
  cases e.state <;> simp

/-- The address is that of a member of the segment's sweep. -/
def MemberAddr (s : State) (g : Seg) (a : Nat) : Prop := ∃ i e, s.entry i = some e ∧ e.seg = g ∧ e.addr = a
  ∧ (e.state = .silent ∨ ((e.state = .enlisted ∨ e.state = .online) ∧ e.pollClass = .cyclic))

/-- No entry of the segment holds the address twice, so the one that is found is the member. -/
theorem memberAt_iff (T : TableLaw s) : memberAt s g a = true ↔ MemberAddr s g a := by
  constructor
  · intro at_a
    cases found : (findEntry s g a).bind s.entry with
    | none => simp [memberAt, found] at at_a
    | some e =>
      obtain ⟨i, index, here⟩ := Option.bind_eq_some_iff.1 found
      have matched := List.find?_some index
      simp only [here, Bool.and_eq_true, beq_iff_eq] at matched
      simp only [memberAt, found] at at_a
      exact ⟨i, e, here, matched.1, matched.2, isMember_iff.1 at_a⟩
  · rintro ⟨i, e, here, segment, address, joins⟩
    simp only [memberAt, findEntry_of T here segment address, Option.bind_some, here]
    exact isMember_iff.2 joins

theorem MemberAddr.le (T : TableLaw s) (h : MemberAddr s g a) : a ≤ 126 := by
  obtain ⟨i, e, here, -, rfl, -⟩ := h
  exact (validAddr_iff.1 (T.addr_range here)).2

theorem nextMember_eq_some (T : TableLaw s) (above : n < a) (member : MemberAddr s g a)
    (lowest : ∀ b, n < b → b < a → ¬MemberAddr s g b) : nextMember s g n = some a := by
  have high := member.le T
  simp only [nextMember, List.find?_range_eq_some, Bool.and_eq_true, decide_eq_true_eq, memberAt_iff T,
    List.mem_range, Bool.not_eq_true', ← Bool.not_eq_true, not_and]
  exact ⟨⟨above, member⟩, by omega, fun b below past => lowest b past below⟩

theorem nextMember_eq_none (T : TableLaw s) (empty : ∀ a, n < a → ¬MemberAddr s g a) :
    nextMember s g n = none := by
  simp only [nextMember, List.find?_range_eq_none, Bool.and_eq_true, decide_eq_true_eq, memberAt_iff T,
    Bool.not_eq_true', ← Bool.not_eq_true, not_and]
  exact fun b _ past => empty b past

/-! ## The look of the sweep (R105, R107) -/

theorem lookSweep_inactive (inactive : (s.seg g).sweep.active = false) : lookSweep g s = (s, none) := by
  simp only [lookSweep, inactive, Bool.false_eq_true, if_false]

section
variable (active : (s.seg g).sweep.active = true)
include active

theorem lookSweep_member (found : nextMember s g (s.seg g).sweep.cursor = some a) :
    lookSweep g s = (s, some a) := by
  simp only [lookSweep, active, if_true, found]

variable (noneAbove : nextMember s g (s.seg g).sweep.cursor = none)
include noneAbove

theorem lookSweep_pass_ends (noRepeat : (s.seg g).sweep.repeatDue = false) :
    lookSweep g s = (s.updSweep g Sweep.passEnded, none) := by
  simp only [lookSweep, active, if_true, noneAbove, noRepeat, Bool.false_eq_true, if_false]

variable (repeats : (s.seg g).sweep.repeatDue = true)
include repeats

theorem lookSweep_repeat_member (found : nextMember s g 0 = some a) :
    lookSweep g s = (s.updSweep g fun w => { w with cursor := 0, repeatDue := false }, some a) := by
  simp only [lookSweep, active, if_true, noneAbove, repeats, found]

theorem lookSweep_repeat_ends (empty : nextMember s g 0 = none) :
    lookSweep g s = (s.updSweep g Sweep.passEnded, none) := by
  simp only [lookSweep, active, if_true, noneAbove, repeats, empty]

end

/-! ## The look of the discovery unit (R113, R116) -/

/-- The address is one that the unit's run has still to look at. -/
def Discovery.InRange (u : Discovery) (a : Nat) : Prop := u.cursor ≤ a ∧ a ≤ u.high ∧ a ≤ 126

/-- An entry of the segment holds the address. -/
def AddrTaken (s : State) (g : Seg) (a : Nat) : Prop := ∃ i e, s.entry i = some e ∧ e.seg = g ∧ e.addr = a

theorem findEntry_isNone_iff : (findEntry s g a).isNone = true ↔ ¬AddrTaken s g a := by
  rw [← Option.not_isSome, Bool.not_eq_true', ← Bool.not_eq_true, findEntry_isSome_iff, AddrTaken]

theorem nextProbe_eq_some (inRange : (s.seg g).disc.InRange a) (free : ¬AddrTaken s g a)
    (lowest : ∀ b, (s.seg g).disc.InRange b → b < a → AddrTaken s g b) : nextProbe s g = some a := by
  obtain ⟨start, stop, high⟩ := inRange
  simp only [nextProbe, List.find?_range_eq_some, Bool.and_eq_true, decide_eq_true_eq, findEntry_isNone_iff,
    List.mem_range, Bool.not_eq_true', ← Bool.not_eq_true, not_and, not_not]
  exact ⟨⟨⟨start, stop⟩, free⟩, by omega, fun b below ⟨start, stop⟩ => lowest b ⟨start, stop, by omega⟩ below⟩

theorem nextProbe_eq_none (taken : ∀ a, (s.seg g).disc.InRange a → AddrTaken s g a) : nextProbe s g = none := by
  simp only [nextProbe, List.find?_range_eq_none, Bool.and_eq_true, decide_eq_true_eq, findEntry_isNone_iff,
    Bool.not_eq_true', ← Bool.not_eq_true, not_and, not_not]
  exact fun b small ⟨start, stop⟩ => taken b ⟨start, stop, by omega⟩

theorem lookDisc_not_probing (h : (s.seg g).disc.state ≠ .probing) : lookDisc g s = (s, none) := by
  rw [lookDisc, if_neg h]

theorem lookDisc_found (probing : (s.seg g).disc.state = .probing) (found : nextProbe s g = some a) :
    lookDisc g s = (s, some a) := by
  simp only [lookDisc, probing, if_true, found]

theorem lookDisc_ends (probing : (s.seg g).disc.state = .probing) (exhausted : nextProbe s g = none) :
    lookDisc g s = (endRun g s, none) := by
  simp only [lookDisc, probing, if_true, exhausted]

end

/-- Settles O37: a look goes by the lowest address that it finds, and TableLaw keeps the members among the
addresses that it searches. -/
theorem looksFindTheLowest : Obligations.LooksFindTheLowest := by
  unfold Obligations.LooksFindTheLowest
  intro g s T
  refine ⟨lookSweep_inactive, fun active => ⟨fun a ⟨above, member, lowest⟩ =>
    lookSweep_member active (nextMember_eq_some T above member lowest), fun noMember => ?_⟩,
    lookDisc_not_probing, fun probing => ⟨fun a inRange free lowest =>
      lookDisc_found probing (nextProbe_eq_some inRange free lowest),
      fun taken => lookDisc_ends probing (nextProbe_eq_none taken)⟩⟩
  have noneAbove : nextMember s g (s.seg g).sweep.cursor = none := nextMember_eq_none T noMember
  exact ⟨lookSweep_pass_ends active noneAbove, fun repeats => ⟨fun a ⟨above, member, lowest⟩ =>
    lookSweep_repeat_member active noneAbove repeats (nextMember_eq_some T above member lowest),
    fun empty => lookSweep_repeat_ends active noneAbove repeats (nextMember_eq_none T fun a _ => empty a)⟩⟩

end Sys2Proof.Machine
end

section
/-! Room for discovery units (R120, R121): what a unit does that resumes or is given room, and the room that an
acknowledgement makes (O9, O35). -/

namespace Sys2Proof.Machine

section
variable {s : State} {g : Seg}

/-! ## Updates of a unit and of the queue -/

theorem updDisc_updDisc (g : Seg) (f f' : Discovery → Discovery) (s : State) :
    (s.updDisc g f).updDisc g f' = s.updDisc g fun u => f' (f u) := updSeg_updSeg ..

theorem updQueue_updSeg (q : Queue → Queue) (g : Seg) (c : Column → Column) (s : State) :
    (s.updSeg g c).updQueue q = (s.updQueue q).updSeg g c := rfl

/-! ## A pick puts no unit into WAIT_ROOM -/

/-- The segment's discovery unit is not in WAIT_ROOM. -/
def Unwaiting (g : Seg) (s : State) : Prop := (s.seg g).disc.state ≠ .waitRoom

theorem Unwaiting.of_discs {t : State} (U : Unwaiting g s) (same : (skel t).discs = (skel s).discs) :
    Unwaiting g t := by
  have unit : (t.seg g).disc.state = (s.seg g).disc.state := congrArg Prod.fst (congrFun same g)
  rwa [Unwaiting, unit]

theorem beginExchange_discs (g : Seg) (x : Exchange) (s : State) :
    (skel (beginExchange g x s)).discs = (skel s).discs := by
  rw [beginExchange, skel_enterDefer, skel_setExchange]

theorem startPoll_discs (g : Seg) (o : XOrigin) (i : Index) (s : State) :
    (skel (startPoll g o i s)).discs = (skel s).discs := by
  unfold startPoll
  split
  · rfl
  · exact beginExchange_discs ..

theorem startJob_discs (g : Seg) (h : Handle) (s : State) : (skel (startJob g h s)).discs = (skel s).discs := by
  unfold startJob
  split
  · rw [skel_leaveHolders]
  · have started : skel ((s.updSeg g (leaveHolders h)).updJob h fun j =>
        { j with state := .active, started := true, deadlineTimer := none }) = skel s := by
      refine (skel_updJob fun _ => ?_).trans (skel_leaveHolders ..)
      rfl
    exact (beginExchange_discs ..).trans (congrArg Skel.discs started)

namespace Unwaiting

theorem startProbe (U : Unwaiting g s) (a : Nat) : Unwaiting g (startProbe g a s) := by
  have marked : Unwaiting g (s.updDisc g fun u => { u with mark := some ⟨a, .none⟩ }) := by
    rwa [Unwaiting, seg_updDisc_same]
  exact marked.of_discs (beginExchange_discs ..)

theorem lookDisc (U : Unwaiting g s) : Unwaiting g (lookDisc g s).1 := by
  unfold Machine.lookDisc
  split
  · split
    · exact U
    · simp [Unwaiting, endRun, Discovery.idleKeepingMark, Discovery.reset]
  · exact U

theorem pickDiscovery (U : Unwaiting g s) : Unwaiting g (pickDiscovery g s) := by
  unfold Machine.pickDiscovery
  split
  · exact U.lookDisc.startProbe _
  · exact U.lookDisc

theorem pickNormal (U : Unwaiting g s) : Unwaiting g (pickNormal g s) := by
  unfold Machine.pickNormal
  split
  · exact U.of_discs ((startJob_discs ..).trans (congrArg Skel.discs (skel_updSeg_silent rfl rfl)))
  · exact U.pickDiscovery

theorem startSweepStep (U : Unwaiting g s) (a : Nat) : Unwaiting g (startSweepStep g a s) := by
  unfold Machine.startSweepStep
  split
  · exact U
  · exact U.of_discs ((startPoll_discs ..).trans (congrArg Skel.discs (skel_updSeg_silent rfl rfl)))

theorem pickSweep (U : Unwaiting g s) : Unwaiting g (pickSweep g s) := by
  have looked : Unwaiting g (lookSweep g s).1 := U.of_discs (congrArg Skel.discs (skel_lookSweep g s))
  unfold Machine.pickSweep
  split
  · split
    · exact looked.startSweepStep _
    · exact looked.pickNormal
  · exact looked.pickNormal

theorem pick (U : Unwaiting g s) : Unwaiting g (pick g s) := by
  unfold Machine.pick
  split
  · split
    · exact U.of_discs (startPoll_discs ..)
    · split
      · exact U.of_discs (startJob_discs ..)
      · exact U.pickSweep
  · exact U

theorem lookAndPick (U : Unwaiting g s) : Unwaiting g (lookAndPick g s) := by
  unfold Machine.lookAndPick
  split
  · exact U.lookDisc.pick
  · exact U.lookDisc

end Unwaiting

/-! ## A look of a PROBING unit (R113, R116) -/

theorem endRun_eq (g : Seg) (s : State) : endRun g s
    = (s.updQueue fun q => { q with
        reports := q.reports ++ [⟨nextNumber q.lastNumber, .discoveryDone g (s.seg g).disc.counts⟩]
        reservations := q.reservations - 1
        lastNumber := nextNumber q.lastNumber }).updSeg g fun c =>
          { c with disc := ⟨.idle, 0, 0, 0, ⟨0, 0, 0, 0, 0, 0⟩, none, c.disc.mark⟩ } := rfl

section
variable (probing : (s.seg g).disc.state = .probing)
include probing

theorem lookAndPick_found {a : Nat} (found : nextProbe s g = some a) : lookAndPick g s = pick g s := by
  simp only [lookAndPick, lookDisc_found probing found]

theorem lookAndPick_ends (exhausted : nextProbe s g = none) : lookAndPick g s = endRun g s := by
  simp only [lookAndPick, lookDisc_ends probing exhausted]

end

theorem beginProbing_probing (g : Seg) (s : State) : ((beginProbing g s).seg g).disc.state = .probing := by
  rw [beginProbing, seg_updDisc_same]

theorem beginProbing_unwaiting (g : Seg) (s : State) : Unwaiting g (beginProbing g s) := by
  rw [Unwaiting, beginProbing_probing]
  decide

/-! ## Taking room (R120, R121) -/

theorem freeRoom_pos_iff : 0 < freeRoom s ↔ s.queue.reports.length + s.queue.reservations < 64 := by
  simp only [freeRoom, queuePlaces]
  omega

theorem takeRoom_unwaiting (U : Unwaiting g s) : takeRoom g s = s := if_neg fun taking => U taking.1

theorem takeRoom_full (full : ¬s.queue.reports.length + s.queue.reservations < 64) : takeRoom g s = s :=
  if_neg fun taking => full (freeRoom_pos_iff.1 taking.2)

theorem takeRoom_room (waiting : (s.seg g).disc.state = .waitRoom)
    (room : s.queue.reports.length + s.queue.reservations < 64) :
    takeRoom g s = lookAndPick g (beginProbing g s) := if_pos ⟨waiting, freeRoom_pos_iff.2 room⟩

/-- A unit that has been asked once takes no more room. -/
theorem takeRoom_takeRoom (g : Seg) (s : State) : takeRoom g (takeRoom g s) = takeRoom g s := by
  by_cases taking : (s.seg g).disc.state = .waitRoom ∧ s.queue.reports.length + s.queue.reservations < 64
  · obtain ⟨waiting, room⟩ := taking
    rw [takeRoom_room waiting room]
    exact takeRoom_unwaiting (beginProbing_unwaiting g s).lookAndPick
  · have same : takeRoom g s = s := if_neg fun h => taking ⟨h.1, freeRoom_pos_iff.1 h.2⟩
    rw [same, same]

theorem serveWaitRoom_full (full : ¬s.queue.reports.length + s.queue.reservations < 64) : serveWaitRoom s = s := by
  simp only [serveWaitRoom, takeRoom_full full]

/-- The lowest unit that waits is asked first, and the others after it. -/
theorem serveWaitRoom_first (below : ∀ k, k < g → Unwaiting k s) :
    serveWaitRoom s = serveWaitRoom (takeRoom g s) := by
  have skipped (k : Seg) (lower : k < g) : takeRoom k s = s ∧ takeRoom k (takeRoom g s) = takeRoom g s := by
    have same : (takeRoom g s).seg k = s.seg k := takeRoom_seg_other (.inl (ne_of_lt lower))
    refine ⟨takeRoom_unwaiting (below k lower), takeRoom_unwaiting ?_⟩
    rw [Unwaiting, same]
    exact below k lower
  match g with
  | 0 => simp only [serveWaitRoom, takeRoom_takeRoom]
  | 1 => simp only [serveWaitRoom, takeRoom_takeRoom, skipped 0 (by decide)]
  | 2 => simp only [serveWaitRoom, takeRoom_takeRoom, skipped 0 (by decide), skipped 1 (by decide)]
  | 3 =>
    simp only [serveWaitRoom, takeRoom_takeRoom, skipped 0 (by decide), skipped 1 (by decide), skipped 2 (by decide)]

/-- Room that appears with one unit waiting for it, which finds an address, makes that unit's segment pick. -/
theorem serveWaitRoom_alone {a : Nat} (waiting : (s.seg g).disc.state = .waitRoom)
    (alone : ∀ k, k ≠ g → Unwaiting k s) (room : s.queue.reports.length + s.queue.reservations < 64)
    (found : nextProbe (beginProbing g s) g = some a) : serveWaitRoom s = pick g (beginProbing g s) := by
  have picked : takeRoom g s = pick g (beginProbing g s) := by
    rw [takeRoom_room waiting room, lookAndPick_found (beginProbing_probing g s) found]
  have none_left (k : Seg) : Unwaiting k (takeRoom g s) := by
    by_cases own : k = g
    · subst own
      rw [picked]
      exact (beginProbing_unwaiting k s).pick
    · rw [Unwaiting, takeRoom_seg_other (.inl own)]
      exact alone k own
  rw [serveWaitRoom_first fun k lower => alone k (ne_of_lt lower), serveWaitRoom_none none_left, picked]

/-- Settles O35: a unit that resumes waits, and is asked at once; room is offered in the order of the segments. -/
theorem roomGoesToWaitingUnits : Obligations.RoomGoesToWaitingUnits := by
  unfold Obligations.RoomGoesToWaitingUnits
  intro g s room probing looks waits
  have looked (v : State) : lookAndPick g (beginProbing g v) = looks (probing v) := by
    have same : beginProbing g v = probing v := rfl
    have state : ((probing v).seg g).disc.state = .probing := beginProbing_probing g v
    rw [same]
    dsimp only [looks]
    cases next : nextProbe (probing v) g with
    | some a => exact lookAndPick_found state next
    | none => exact lookAndPick_ends state next
  have waiting : (waits.seg g).disc.state = .waitRoom := by simp only [waits, seg_updSeg_same]
  refine ⟨fun free => ?_, fun full => takeRoom_full (s := waits) full, serveWaitRoom_full, serveWaitRoom_none,
    fun free first below => ?_⟩
  · exact (takeRoom_room waiting free).trans (looked waits)
  · rw [serveWaitRoom_first below, takeRoom_room first free, looked]

end

/-! ## The acknowledgement of a NOP (R161, R163, R172, R176) -/

section
variable {s : State} {f : HostFrame}

theorem exec_nop (kept : KeptWindow f.wait s) (fits : f.body.length ≤ 80) :
    exec (.nop f) s = .next (afterTake f s) := by
  have dealt : exec (.nop f) s = execNop f s := rfl
  rw [dealt, execNop, atCsnRise_kept kept, if_neg (Nat.not_lt.2 fits)]
  rfl

/-- The state of a taken frame before its acknowledgement is applied. -/
def frameCounted (f : HostFrame) (s : State) : State := countTaken (s.elapse f.wait).raiseCsn

theorem frameCounted_reports (f : HostFrame) (s : State) : (frameCounted f s).queue.reports = s.queue.reports :=
  elapse_reports ..

theorem afterTake_eq (f : HostFrame) (s : State) : afterTake f s = applyAck f.ack.toNat (frameCounted f s) := rfl

theorem afterTake_named {r : Report} {rest : List Report} (reports : s.queue.reports = r :: rest)
    (named : r.number = f.ack.toNat) :
    afterTake f s = serveWaitRoom ((frameCounted f s).updQueue (Queue.removeHead rest)) := by
  simp only [afterTake_eq, applyAck, frameCounted_reports, reports, named, if_true]

theorem afterTake_unnamed (other : ∀ r ∈ s.queue.reports.head?, r.number ≠ f.ack.toNat) :
    afterTake f s = frameCounted f s := by
  cases reports : s.queue.reports with
  | nil => simp only [afterTake_eq, applyAck, frameCounted_reports, reports]
  | cons r rest =>
    have differs : f.ack.toNat ≠ r.number := (other r (by simp [reports])).symm
    simp only [afterTake_eq, applyAck, frameCounted_reports, reports, if_neg differs]

/-- Settles O9: a taken NOP leaves the state after its acknowledgement, whose room goes to the units that wait. -/
theorem nopAppliesItsAcknowledgement : Obligations.NopAppliesItsAcknowledgement := by
  unfold Obligations.NopAppliesItsAcknowledgement
  intro f s kept fits u l
  constructor
  · intro r rest reports named removed
    have served : exec (.nop f) s = .next (serveWaitRoom removed) := by
      rw [exec_nop kept fits, afterTake_named reports named]
      rfl
    have unit (k : Seg) : (removed.seg k).disc.state = (s.seg k).disc.state := by
      obtain ⟨-, -, state, -⟩ := elapse_column f.wait s k
      exact state
    refine ⟨served, fun nobody => ?_, ?_⟩
    · rw [served, serveWaitRoom_none fun k => unit k ▸ nobody k]
    · intro g waits alone places probing found
      obtain ⟨a, address⟩ := Option.ne_none_iff_exists'.1 found
      have room : removed.queue.reports.length + removed.queue.reservations < 64 := by
        have same : removed.queue.reservations = s.queue.reservations := elapse_reservations ..
        rw [reports, List.length_cons] at places
        change rest.length + removed.queue.reservations < 64
        omega
      have others (k : Seg) (other : k ≠ g) : Unwaiting k removed := fun waiting =>
        other (alone k (unit k ▸ waiting))
      rw [served, serveWaitRoom_alone ((unit g).trans waits) others room address]
      rfl
  · intro other
    rw [exec_nop kept fits, afterTake_unnamed other]
    rfl

end

end Sys2Proof.Machine
end

section
/-! The requests on a discovery unit and the admission timer: each ruling, case by case, and what the taken request
does with it (O32, O33, O34). -/

namespace Sys2Proof.Machine

section
variable {s : State} {f : HostFrame} {g : Seg}

/-- The state, outcome and data of a ruling, each by itself, give the taken request's result. -/
theorem segmentRequest_answers {n : Nat} (h : OnSegment f g n s) {ruling : Seg → State → Ruling} {t : State}
    {o : AnsOutcome} {data : List Byte} (e : ruling g (afterTake f s) = ⟨t, o, data⟩) :
    exactRequest n f (withSegment (bodyByte f 0) ruling) s = .next (setSlot f.tag o data t) :=
  segmentRequest_ruled h e

/-! ## DISCOVER (R112, R113, R116) -/

section
variable {low high : Nat}

theorem runRange_iff : (!(decide (1 ≤ low) && decide (low ≤ high) && decide (high ≤ 126))) = true
    ↔ ¬(1 ≤ low ∧ low ≤ high ∧ high ≤ 126) := by
  simp only [Bool.not_eq_true', ← Bool.not_eq_true, Bool.and_eq_true, decide_eq_true_eq, and_assoc]

theorem rulingDiscover_badValue (bad : ¬(1 ≤ low ∧ low ≤ high ∧ high ≤ 126)) :
    rulingDiscover low high g s = refuse .badValue s := if_pos (runRange_iff.2 bad)

variable (range : 1 ≤ low ∧ low ≤ high ∧ high ≤ 126)
include range

/-- With a good range the unit's state and the free room are left to check. -/
theorem rulingDiscover_inRange : rulingDiscover low high g s =
    if (s.seg g).disc.state ≠ .idle then refuse .busy s
    else if queuePlaces ≤ s.queue.reports.length + s.queue.reservations then refuse .noReportRoom s
    else ⟨lookAndPick g (beginProbing g (s.updDisc g (newRun low high))), .ok, []⟩ :=
  if_neg fun bad => runRange_iff.1 bad range

theorem rulingDiscover_busy (running : (s.seg g).disc.state ≠ .idle) :
    rulingDiscover low high g s = refuse .busy s := by
  rw [rulingDiscover_inRange range, if_pos running]

variable (idle : (s.seg g).disc.state = .idle)
include idle

theorem rulingDiscover_noReportRoom (full : 64 ≤ s.queue.reports.length + s.queue.reservations) :
    rulingDiscover low high g s = refuse .noReportRoom s := by
  rw [rulingDiscover_inRange range, if_neg (not_not_intro idle)]
  exact if_pos full

theorem rulingDiscover_begun (room : s.queue.reports.length + s.queue.reservations < 64) :
    rulingDiscover low high g s
      = ⟨lookAndPick g (beginProbing g (s.updDisc g (newRun low high))), .ok, []⟩ := by
  rw [rulingDiscover_inRange range, if_neg (not_not_intro idle)]
  exact if_neg (Nat.not_le.2 room)

end

/-- The state in which a new run first looks. -/
def runBegun (low high : Nat) (g : Seg) (s : State) : State :=
  (s.updQueue fun q => { q with reservations := q.reservations + 1 }).updSeg g fun c =>
    { c with disc := ⟨.probing, low, high, low, ⟨0, 0, 0, 0, 0, 0⟩, none, c.disc.mark⟩ }

theorem beginProbing_newRun (low high : Nat) (g : Seg) (s : State) :
    beginProbing g (s.updDisc g (newRun low high)) = runBegun low high g s := by
  calc beginProbing g (s.updDisc g (newRun low high))
      = ((takeReservation s).updDisc g (newRun low high)).updDisc g fun u => { u with state := .probing } := rfl
    _ = runBegun low high g s := updSeg_updSeg ..

theorem runBegun_disc (low high : Nat) (g : Seg) (s : State) : ((runBegun low high g s).seg g).disc
    = ⟨.probing, low, high, low, ⟨0, 0, 0, 0, 0, 0⟩, none, (s.seg g).disc.mark⟩ := by
  rw [runBegun, seg_updSeg_same, updQueue_seg]

theorem runBegun_inRange {low high a : Nat} :
    ((runBegun low high g s).seg g).disc.InRange a ↔ low ≤ a ∧ a ≤ high ∧ a ≤ 126 := by
  rw [runBegun_disc]
  rfl

/-- A free address in the range of a run is enough for the look to find one. -/
theorem nextProbe_ne_none {a : Nat} (inRange : (s.seg g).disc.InRange a) (free : ¬AddrTaken s g a) :
    nextProbe s g ≠ none := by
  obtain ⟨start, stop, high⟩ := inRange
  intro nothing
  simp only [nextProbe, List.find?_range_eq_none, Bool.not_eq_true', Bool.and_eq_false_imp, decide_eq_true_eq,
    Bool.and_eq_true] at nothing
  have taken := nothing a (by omega) ⟨start, stop⟩
  rw [findEntry_isNone_iff.2 free] at taken
  contradiction

theorem endRun_runBegun (low high : Nat) (g : Seg) (s : State) : endRun g (runBegun low high g s)
    = (s.updQueue fun q => { q with
        reports := q.reports ++ [⟨nextNumber q.lastNumber, .discoveryDone g ⟨0, 0, 0, 0, 0, 0⟩⟩]
        lastNumber := nextNumber q.lastNumber }).updSeg g fun c =>
          { c with disc := ⟨.idle, 0, 0, 0, ⟨0, 0, 0, 0, 0, 0⟩, none, c.disc.mark⟩ } := by
  rw [endRun_eq, runBegun_disc, runBegun, updQueue_updSeg, updSeg_updSeg]
  rfl

/-- Settles O32: the ruling of DISCOVER by its first failed check, and the first look of the run. -/
theorem discoverBeginsARun : Obligations.DiscoverBeginsARun := by
  unfold Obligations.DiscoverBeginsARun
  intro f g s on
  refine ⟨fun bad => ?_, fun range running => ?_, fun range idle full => ?_, fun range idle room =>
    ⟨fun ⟨a, above, below, free⟩ => ?_, fun taken => ?_⟩⟩
  · exact segmentRequest_refused on (rulingDiscover_badValue bad)
  · exact segmentRequest_refused on (rulingDiscover_busy range running)
  · exact segmentRequest_refused on (rulingDiscover_noReportRoom range idle full)
  · have begun := rulingDiscover_begun range idle room
    obtain ⟨b, found⟩ := Option.ne_none_iff_exists'.1 (nextProbe_ne_none
      (runBegun_inRange.2 ⟨above, below, below.trans range.2.2⟩) free)
    rw [beginProbing_newRun, lookAndPick_found (congrArg Discovery.state (runBegun_disc ..)) found] at begun
    exact segmentRequest_answers on begun
  · have begun := rulingDiscover_begun range idle room
    have exhausted := nextProbe_eq_none (s := runBegun _ _ g (afterTake f s)) fun a inRange =>
      taken a (runBegun_inRange.1 inRange).1 (runBegun_inRange.1 inRange).2.1
    rw [beginProbing_newRun, lookAndPick_ends (congrArg Discovery.state (runBegun_disc ..)) exhausted,
      endRun_runBegun] at begun
    exact segmentRequest_answers on begun

/-! ## STOP_DISCOVERY (R124, R115, R121) -/

theorem rulingStopDiscovery_idle (idle : (s.seg g).disc.state = .idle) :
    rulingStopDiscovery g s = refuse .wrongState s := if_pos idle

theorem rulingStopDiscovery_running (running : (s.seg g).disc.state ≠ .idle) : rulingStopDiscovery g s
    = ⟨stopUnit g s, .ok, byte (s.seg g).disc.state.code :: (s.seg g).disc.counts.bytes⟩ := if_neg running

/-- The unit IDLE with no run, and with this probe mark. -/
def runDropped (g : Seg) (mark : Option ProbeMark) (s : State) : State :=
  s.updSeg g fun c => { c with disc := ⟨.idle, 0, 0, 0, ⟨0, 0, 0, 0, 0, 0⟩, none, mark⟩ }

theorem stopUnit_quiet (quiet : (s.seg g).disc.state ≠ .probing) :
    stopUnit g s = runDropped g (s.seg g).disc.mark s := by
  rw [stopUnit, if_neg quiet]
  exact updSeg_congr rfl

theorem stopUnit_probing (probing : (s.seg g).disc.state = .probing) : stopUnit g s
    = serveWaitRoom (runDropped g ((s.seg g).disc.mark.map fun m => { m with void := .stopped })
        (s.updQueue fun q => { q with reservations := q.reservations - 1 })) := by
  have dropped : (releaseReservation s).updDisc g (fun u => (stopProbe u).idleKeepingMark)
      = runDropped g ((s.seg g).disc.mark.map fun m => { m with void := .stopped }) (releaseReservation s) :=
    updSeg_congr rfl
  rw [stopUnit, if_pos probing, dropped]
  rfl

/-- Settles O33: the unit drops its run, and a PROBING one gives its reservation up and voids its probe. -/
theorem stopDiscoveryEndsARun : Obligations.StopDiscoveryEndsARun := by
  unfold Obligations.StopDiscoveryEndsARun
  intro f g s on u d idle data
  refine ⟨fun stopped => ?_, fun holds => ?_, fun probing => ?_⟩
  · exact segmentRequest_refused on (rulingStopDiscovery_idle stopped)
  · have running : d.state ≠ .idle := by rcases holds with h | h <;> simp [h]
    have quiet : d.state ≠ .probing := by rcases holds with h | h <;> simp [h]
    have ruled := rulingStopDiscovery_running running
    rw [stopUnit_quiet quiet] at ruled
    exact segmentRequest_answers on ruled
  · have running : d.state ≠ .idle := by simp [probing]
    have ruled := rulingStopDiscovery_running running
    rw [stopUnit_probing probing] at ruled
    exact segmentRequest_answers on ruled

/-! ## ADMIT and REFUSE (R122, R123) -/

section
variable {a ports cls : Nat}

/-- The unit holds a find of the address. -/
def Holds (s : State) (g : Seg) (a : Nat) (r : Admission) : Prop :=
  (s.seg g).disc.record = some r ∧ r.addr = a

theorem recordFor_eq_some {r : Admission} : recordFor s g a = some r ↔ Holds s g a r := by
  simp [recordFor, Holds, Option.filter_eq_some_iff]

theorem recordFor_eq_none (none_held : ∀ r, ¬Holds s g a r) : recordFor s g a = none :=
  Option.eq_none_iff_forall_ne_some.2 fun r found => none_held r (recordFor_eq_some.1 found)

theorem rulingAdmit_badValue (bad : ¬(1 ≤ a ∧ a ≤ 126 ∧ 1 ≤ ports ∧ ports ≤ 8 ∧ cls ≤ 1)) :
    rulingAdmit a ports cls g s = refuse .badValue s := by
  unfold rulingAdmit
  by_cases code : cls ≤ 1
  · have outside : validAddr a = false ∨ validPorts ports = false := by
      rw [← Bool.not_eq_true, ← Bool.not_eq_true, validAddr_iff, validPorts_iff]
      omega
    rcases outside with h | h <;> simp [PollClass.ofCode_of_le code, h]
  · simp [PollClass.ofCode_of_gt (Nat.lt_of_not_le code)]

/-- What ADMIT rules on a free address, by the record for it and the lowest free index. -/
def findAdmitted (a ports cls : Nat) (g : Seg) (s : State) : Option Admission → Option Index → Ruling
  | none, _ => refuse .noAdmission s
  | some _, none => refuse .tableFull s
  | some r, some i =>
    ⟨admitEntry g i (admittedEntry g a ports (if cls = 0 then .none else .cyclic) r.identity) s, .ok,
      [byte i.val, if r.identity.isSome then 2#8 else 1#8]⟩

theorem admittedEntry_code (g : Seg) (a ports : Nat) (c : PollClass) (identity : Option (List Byte)) :
    byte (admittedEntry g a ports c identity).state.code = if identity.isSome then 2#8 else 1#8 := by
  cases identity <;> rfl

section
variable (good : 1 ≤ a ∧ a ≤ 126 ∧ 1 ≤ ports ∧ ports ≤ 8 ∧ cls ≤ 1)
include good

/-- With good operands the checks on the address, the record and the free indices are left. -/
theorem rulingAdmit_good : rulingAdmit a ports cls g s =
    if (findEntry s g a).isSome then refuse .addressInUse s
    else findAdmitted a ports cls g s (recordFor s g a) (lowestFreeIndex s) := by
  obtain ⟨low, high, one, eight, code⟩ := good
  have address : validAddr a = true := validAddr_iff.2 ⟨low, high⟩
  have port : validPorts ports = true := validPorts_iff.2 ⟨one, eight⟩
  simp only [rulingAdmit, PollClass.ofCode_of_le code, address, port, Bool.not_true, Bool.or_self,
    Bool.false_eq_true, if_false, admittedEntry_code]
  cases recordFor s g a <;> cases lowestFreeIndex s <;> rfl

theorem rulingAdmit_inUse (used : AddrTaken s g a) : rulingAdmit a ports cls g s = refuse .addressInUse s := by
  rw [rulingAdmit_good good, if_pos (findEntry_isSome_iff.2 used)]

variable (unused : ¬AddrTaken s g a)
include unused

theorem rulingAdmit_noAdmission (none_held : ∀ r, ¬Holds s g a r) :
    rulingAdmit a ports cls g s = refuse .noAdmission s := by
  rw [rulingAdmit_good good, if_neg (mt findEntry_isSome_iff.1 unused), recordFor_eq_none none_held]
  rfl

theorem rulingAdmit_held {r : Admission} (holds : Holds s g a r) :
    rulingAdmit a ports cls g s = findAdmitted a ports cls g s (some r) (lowestFreeIndex s) := by
  rw [rulingAdmit_good good, if_neg (mt findEntry_isSome_iff.1 unused), recordFor_eq_some.2 holds]

end

theorem rulingRefuse_badValue (bad : ¬(1 ≤ a ∧ a ≤ 126)) : rulingRefuse a g s = refuse .badValue s := by
  simp [rulingRefuse, mt validAddr_iff.1 bad]

theorem rulingRefuse_noAdmission (range : 1 ≤ a ∧ a ≤ 126) (none_held : ∀ r, ¬Holds s g a r) :
    rulingRefuse a g s = refuse .noAdmission s := by
  simp [rulingRefuse, validAddr_iff.2 range, recordFor_eq_none none_held]

theorem rulingRefuse_held (range : 1 ≤ a ∧ a ≤ 126) {r : Admission} (holds : Holds s g a r) :
    rulingRefuse a g s = ⟨dropFind g s, .ok, []⟩ := by
  simp [rulingRefuse, validAddr_iff.2 range, recordFor_eq_some.2 holds]

end

/-! ## The admission timer (R119) -/

theorem exec_admissionTimerExpiry_held (live : s.rstnLow = false) {r : Admission}
    (held : (s.seg g).disc.record = some r) :
    exec (.admissionTimerExpiry g) s = .next (lapseFind g (s.elapse r.timer)) := by
  have dealt : exec (.admissionTimerExpiry g) s = execAdmissionTimerExpiry g s := rfl
  simp only [dealt, execAdmissionTimerExpiry, whileLive_live _ live, held]

theorem exec_admissionTimerExpiry_none (none_held : (s.seg g).disc.record = none) :
    exec (.admissionTimerExpiry g) s = .next s := by
  have dealt : exec (.admissionTimerExpiry g) s = execAdmissionTimerExpiry g s := rfl
  simp only [dealt, execAdmissionTimerExpiry, whileLive, none_held, ite_self]

/-- Settles O34: the rulings of ADMIT and REFUSE by their first failed check, and the expiry of the timer. -/
theorem heldFindEnds : Obligations.HeldFindEnds := by
  unfold Obligations.HeldFindEnds
  intro f g s u a ports cls inUse held counted fits refused
  refine ⟨fun on => ⟨fun bad => ?_, fun good used => ?_, fun good unused none_held => ?_,
      fun good unused ⟨r, holds⟩ full => ?_, fun good unused r i holds free lowest => ?_⟩,
    fun on => ⟨fun bad => ?_, fun range none_held => ?_, fun range r holds => ?_⟩, fun live r record => ?_,
    exec_admissionTimerExpiry_none⟩
  · exact segmentRequest_refused on (rulingAdmit_badValue bad)
  · exact segmentRequest_refused on (rulingAdmit_inUse good used)
  · exact segmentRequest_refused on (rulingAdmit_noAdmission good unused none_held)
  · have ruled := rulingAdmit_held good unused holds
    rw [lowestFreeIndex_full full] at ruled
    exact segmentRequest_refused on ruled
  · have ruled := rulingAdmit_held good unused holds
    rw [lowestFreeIndex_of free lowest] at ruled
    exact segmentRequest_answers on ruled
  · exact segmentRequest_refused on (rulingRefuse_badValue bad)
  · exact segmentRequest_refused on (rulingRefuse_noAdmission range none_held)
  · exact segmentRequest_answers on (rulingRefuse_held range holds)
  · exact exec_admissionTimerExpiry_held live record

end

end Sys2Proof.Machine
end

section
/-! The end of a probe (O50): the unit's mark goes, and the form of the end and the mark's void cause say the rest. -/

namespace Sys2Proof.Machine

section
variable {s : State} {g : Seg} {x : Exchange} {m : ProbeMark}

/-- The unit's probe is over: its mark is cleared and the unit changes. -/
def probeOver (g : Seg) (f : Discovery → Discovery) (s : State) : State :=
  s.updSeg g fun c => { c with disc := { f c.disc with mark := none } }

/-- A change of the unit that leaves the mark alone, made once the mark is cleared. -/
theorem updDisc_probeOver {f : Discovery → Discovery}
    (apart : ∀ u, f { u with mark := none } = { f u with mark := none }) (s : State) :
    (probeOver g id s).updDisc g f = probeOver g f s := by
  refine (updSeg_updSeg ..).trans (updSeg_congr ?_)
  simp only [id_eq, apart]

/-! ## Whether there is an outcome (R114, R115) -/

section
variable (probes : x.origin = .probe) (marked : (s.seg g).disc.mark = some m) (form : EndForm)
include probes marked

theorem handOrigin_probe : handOrigin g x form s =
    if (s.seg g).disc.state ≠ .probing then probeOver g id s
    else
      match m.void with
      | .none => probeOutcome g m.addr form (probeOver g id s)
      | .added => (lookDisc g ((probeOver g id s).updDisc g (Discovery.passed m.addr))).1
      | .stopped => probeOver g id s := by
  simp only [handOrigin, probes, endProbe, marked]
  rfl

theorem handOrigin_probe_idle (idle : (s.seg g).disc.state ≠ .probing) :
    handOrigin g x form s = probeOver g id s := by
  rw [handOrigin_probe probes marked, if_pos idle]

variable (probing : (s.seg g).disc.state = .probing)
include probing

theorem handOrigin_probe_stopped (void : m.void = .stopped) : handOrigin g x form s = probeOver g id s := by
  rw [handOrigin_probe probes marked, if_neg (not_not_intro probing), void]

theorem handOrigin_probe_added (void : m.void = .added) : handOrigin g x form s
    = (lookDisc g (probeOver g (fun u => { u with cursor := m.addr + 1 }) s)).1 := by
  have passed : (probeOver g id s).updDisc g (Discovery.passed m.addr)
      = probeOver g (fun u => { u with cursor := m.addr + 1 }) s := updDisc_probeOver (fun _ => rfl) s
  rw [handOrigin_probe probes marked, if_neg (not_not_intro probing), void, ← passed]

theorem handOrigin_probe_valid (valid : m.void = .none) :
    handOrigin g x form s = probeOutcome g m.addr form (probeOver g id s) := by
  rw [handOrigin_probe probes marked, if_neg (not_not_intro probing), valid]

end

/-! ## The outcomes (R114, R117, R118) -/

theorem probeOver_config (g : Seg) (s : State) : ((probeOver g id s).seg g).config = (s.seg g).config := by
  rw [probeOver, seg_updSeg_same]

/-- FOUND enters the queue by the unit's reservation. -/
def foundReported (g : Seg) (a : Nat) (identity : Option (List Byte)) (unclear : Bool) (s : State) : State :=
  s.updQueue fun q => { q with
    reports := q.reports ++ [⟨nextNumber q.lastNumber, .found g a identity unclear⟩]
    reservations := q.reservations - 1
    lastNumber := nextNumber q.lastNumber }

theorem holdFind_probeOver (a : Nat) (identity : Option (List Byte)) : holdFind g a identity (probeOver g id s)
    = probeOver g (fun u => { u with
        state := .held
        cursor := a + 1
        counts := { u.counts with probed := u.counts.probed + 1, found := u.counts.found + 1 }
        record := some ⟨a, identity, seconds (s.seg g).config.admissionTimeout⟩ })
      (foundReported g a identity false s) := by
  rw [holdFind, probeOver_config]
  exact updDisc_probeOver (fun _ => rfl) (foundReported g a identity false s)

theorem probeOutcome_present {r : Reply} (present : r.kind = .present) (a : Nat) :
    probeOutcome g a (.reply r) s = holdFind g a (some r.payload) s := by
  simp only [probeOutcome, present, if_true]

theorem probeOutcome_busy {r : Reply} (busy : r.kind = .busy) (a : Nat) :
    probeOutcome g a (.reply r) s = holdFind g a none s := by
  simp [probeOutcome, busy]

theorem probeOutcome_replyFault {k : FailKind} (fault : k.isReplyFault = true) (a : Nat) :
    probeOutcome g a (.failed (.fault k)) s = unclearFind g a s := by
  cases k with
  | noReply | contention => simp [FailKind.isReplyFault] at fault
  | charError | lineBreak | broken | badLength | crcError | wrongStation | badKind => rfl

/-- A unit that resumes goes through WAIT_ROOM, whether or not it is put there before. -/
theorem resumeDisc_waiting (f : Discovery → Discovery) (s : State) :
    resumeDisc g (s.updDisc g fun u => { f u with state := .waitRoom }) = resumeDisc g (s.updDisc g f) := by
  simp only [resumeDisc, updDisc_updDisc]

/-- The cursor passes an address whose find was unclear, and the find is counted (R114). -/
def Discovery.passedUnclear (a : Nat) (u : Discovery) : Discovery := { u with
  cursor := a + 1
  counts := { u.counts with probed := u.counts.probed + 1, unclear := u.counts.unclear + 1 } }

theorem unclearFind_probeOver (a : Nat) : unclearFind g a (probeOver g id s)
    = resumeDisc g (probeOver g (Discovery.passedUnclear a) (foundReported g a none true s)) := by
  calc unclearFind g a (probeOver g id s)
      = resumeDisc g ((probeOver g id (foundReported g a none true s)).updDisc g fun u =>
          { u.passedUnclear a with state := .waitRoom }) := rfl
    _ = resumeDisc g ((probeOver g id (foundReported g a none true s)).updDisc g (Discovery.passedUnclear a)) :=
      resumeDisc_waiting ..
    _ = resumeDisc g (probeOver g (Discovery.passedUnclear a) (foundReported g a none true s)) :=
      congrArg (resumeDisc g) (updDisc_probeOver (fun _ => rfl) _)

/-- Settles O50: the mark goes first, and a probe that is not void has the outcome of its form. -/
theorem probesEnd : Obligations.ProbesEnd := by
  unfold Obligations.ProbesEnd
  intro g x m s probes marked d unit founds held
  refine ⟨fun idle form => handOrigin_probe_idle probes marked form idle,
    fun probing void form => handOrigin_probe_stopped probes marked form probing void,
    fun probing void form => handOrigin_probe_added probes marked form probing void, fun probing valid => ?_⟩
  have ends (form : EndForm) : handOrigin g x form s = probeOutcome g m.addr form (unit id s) :=
    handOrigin_probe_valid probes marked form probing valid
  refine ⟨fun r present => ?_, fun r busy => ?_, ?_, ends _, fun k fault => ?_, fun f => ends _⟩
  · rw [ends, probeOutcome_present present]
    exact holdFind_probeOver ..
  · rw [ends, probeOutcome_busy busy]
    exact holdFind_probeOver ..
  · rw [ends]
    exact congrArg (fun v => (lookDisc g v).1) (updDisc_probeOver (fun _ => rfl) s)
  · rw [ends, probeOutcome_replyFault fault]
    exact unclearFind_probeOver m.addr

end

end Sys2Proof.Machine
end

section
/-! Segment frames read back (O55): the characters of a frame assemble to the whole frame, its CTRL gives back what
it was made of, and the five tests judge it by its CRC, address, toggle, kind and length. -/

namespace Sys2Proof.Machine

/-! ## The codes of the reply kinds and the bits of CTRL (R128, section 11.2) -/

theorem ReplyKind.ofCode_eq_some {n : Nat} {k : ReplyKind} : ReplyKind.ofCode n = some k ↔ k.code = n := by
  constructor
  · intro found
    unfold ReplyKind.ofCode at found
    split at found <;> cases found <;> rfl
  · rintro rfl
    cases k <;> rfl

theorem ReplyKind.code_lt (k : ReplyKind) : k.code < 16 := by cases k <;> decide

theorem ctrlToggle_eq (ctrl : Byte) : ctrlToggle ctrl = decide (ctrl.toNat / 16 % 2 = 1) :=
  Nat.testBit_eq_decide_div_mod_eq

theorem ctrlFlag_eq (ctrl : Byte) : ctrlFlag ctrl = decide (ctrl.toNat / 32 % 2 = 1) :=
  Nat.testBit_eq_decide_div_mod_eq

theorem bit_lt (b : Bool) : bit b < 2 := by cases b <;> decide

theorem bit_eq_one (b : Bool) : bit b = 1 ↔ b = true := by cases b <;> decide

section
variable {code : Nat} (nibble : code < 16) (toggle flag : Bool)
include nibble

theorem toNat_ctrlByte : (ctrlByte code toggle flag).toNat = code + 16 * bit toggle + 32 * bit flag := by
  have := bit_lt toggle
  have := bit_lt flag
  exact Nat.mod_eq_of_lt (by omega)

theorem ctrlByte_lt : (ctrlByte code toggle flag).toNat < 64 := by
  have := bit_lt toggle
  have := bit_lt flag
  rw [toNat_ctrlByte nibble]
  omega

theorem ctrlKind_ctrlByte : ctrlKind (ctrlByte code toggle flag) = code := by
  rw [ctrlKind, toNat_ctrlByte nibble]
  omega

theorem ctrlToggle_ctrlByte : ctrlToggle (ctrlByte code toggle flag) = toggle := by
  have := bit_lt toggle
  have fourth : (code + 16 * bit toggle + 32 * bit flag) / 16 % 2 = bit toggle := by omega
  simp [ctrlToggle_eq, toNat_ctrlByte nibble, fourth, bit_eq_one]

theorem ctrlFlag_ctrlByte : ctrlFlag (ctrlByte code toggle flag) = flag := by
  have := bit_lt toggle
  have := bit_lt flag
  have fifth : (code + 16 * bit toggle + 32 * bit flag) / 32 % 2 = bit flag := by omega
  simp [ctrlFlag_eq, toNat_ctrlByte nibble, fifth, bit_eq_one]

end

/-! ## The kind and length tests (R133, R137) -/

theorem replyAllowed_le {sent : MasterKind} {k : ReplyKind} {lo hi : Nat}
    (allowed : replyAllowed sent k = some (lo, hi)) : hi ≤ 64 := by
  unfold replyAllowed at allowed
  split at allowed <;> cases allowed <;> decide

section
variable {sent : MasterKind} {ctrl : Byte} (payload : List Byte)

theorem classifyKind_reserved (set : 64 ≤ ctrl.toNat) : classifyKind sent ctrl payload = .fault .badKind :=
  if_pos (Nat.div_pos set (by decide)).ne'

variable (clear : ctrl.toNat < 64)
include clear

theorem ctrlReserved_of_lt : ctrlReserved ctrl = 0 := Nat.div_eq_of_lt clear

theorem classifyKind_unanswering
    (other : ∀ k range, replyAllowed sent k = some range → k.code ≠ ctrlKind ctrl) :
    classifyKind sent ctrl payload = .fault .badKind := by
  rw [classifyKind, if_neg (not_not_intro (ctrlReserved_of_lt clear))]
  cases found : ReplyKind.ofCode (ctrlKind ctrl) with
  | none => rfl
  | some k =>
    cases allowed : replyAllowed sent k with
    | none => simp only [allowed]
    | some range => exact absurd (ReplyKind.ofCode_eq_some.1 found) (other k range allowed)

theorem classifyKind_answering {k : ReplyKind} {lo hi : Nat} (answers : k.code = ctrlKind ctrl)
    (allowed : replyAllowed sent k = some (lo, hi)) : classifyKind sent ctrl payload
      = if within lo hi payload.length then .valid ⟨k, payload, ctrlFlag ctrl⟩ else .fault .badLength := by
  simp only [classifyKind, ctrlReserved_of_lt clear, ne_eq, not_true, if_false,
    ReplyKind.ofCode_eq_some.2 answers, allowed]

end

/-! ## The tests in their order (R136, R137) -/

section
variable {sent : MasterKind} {toggle : Bool}

theorem classify_append (other : Nat) (covered : List Byte) {crc : List Byte} (two : crc.length = 2) :
    classify other sent toggle (covered ++ crc) =
      if crc ≠ crcBytes covered then .fault .crcError
      else if byteAt covered 0 ≠ other then .fault .wrongStation
      else if ctrlToggle (covered.getD 1 0#8) ≠ toggle then .stale
      else classifyKind sent (covered.getD 1 0#8) (covered.drop 4) := by
  have body : (covered ++ crc).length - 2 = covered.length := by simp [two]
  simp only [classify, body, List.take_left, List.drop_left]

/-- A frame has a right CRC, so that the address is the first of its tests. -/
theorem classify_frameAfterSof {addr : Nat} (address : addr < 256) (other : Nat) (ctrl : Byte) (port : Nat)
    (payload : List Byte) : classify other sent toggle (frameAfterSof addr ctrl port payload) =
      if addr ≠ other then .fault .wrongStation
      else if ctrlToggle ctrl ≠ toggle then .stale
      else classifyKind sent ctrl payload := by
  have first : byteAt (coveredChars addr ctrl port payload) 0 = addr := Nat.mod_eq_of_lt address
  rw [frameAfterSof, classify_append other _ rfl, if_neg (not_not_intro rfl), first]
  rfl

theorem classify_right {addr : Nat} (address : addr < 256) {ctrl : Byte} (agrees : ctrlToggle ctrl = toggle)
    (port : Nat) (payload : List Byte) :
    classify addr sent toggle (frameAfterSof addr ctrl port payload) = classifyKind sent ctrl payload := by
  rw [classify_frameAfterSof address, if_neg (not_not_intro rfl), if_neg (not_not_intro agrees)]

end

/-! ## Assembly of a frame from its characters (R55, R135) -/

/-- One more good character, unless the assembly has come to its end. -/
def Assembly.next (a : Assembly) (b : Byte) : Assembly :=
  match a with
  | .more now => assemble now (.good b)
  | a => a

/-- The characters `got ++ rest` have the length that their LEN says, so that the last of `rest` completes them. -/
theorem assemble_rest {rest got : List Byte} (more : rest ≠ []) (len : byteAt (got ++ rest) 3 ≤ 64)
    (whole : (got ++ rest).length = byteAt (got ++ rest) 3 + 6) :
    rest.foldl Assembly.next (.more got) = .complete (got ++ rest) := by
  induction rest generalizing got with
  | nil => exact absurd rfl more
  | cons b bs ih =>
    rw [List.append_cons] at len whole ⊢
    show bs.foldl Assembly.next (assemble got (.good b)) = _
    by_cases last : bs = []
    · subst last
      rw [List.append_nil] at len whole ⊢
      exact assemble_complete (by omega) ⟨by omega, whole⟩
    · have known (arrived : 4 ≤ (got ++ [b]).length) :
          byteAt (got ++ [b] ++ bs) 3 = byteAt (got ++ [b]) 3 := by
        rw [byteAt, List.getD_append _ _ _ _ arrived, byteAt]
      have left : 0 < bs.length := List.length_pos_iff.2 last
      have short : ¬((got ++ [b]).length = 4 ∧ 64 < b.toNat) := by
        rintro ⟨fourth, long⟩
        have place : got.length = 3 := by simpa using fourth
        have read : byteAt (got ++ [b]) 3 = b.toNat := by simp [byteAt, ← place]
        have := known fourth.ge
        omega
      have between : ¬(4 ≤ (got ++ [b]).length ∧ (got ++ [b]).length = byteAt (got ++ [b]) 3 + 6) := by
        rintro ⟨arrived, complete⟩
        have := known arrived
        rw [List.length_append] at whole
        omega
      rw [assemble_more short between]
      exact ih last len whole

theorem assemble_frameAfterSof (addr : Nat) (ctrl : Byte) (port : Nat) {payload : List Byte}
    (fits : payload.length ≤ 64) : (frameAfterSof addr ctrl port payload).foldl Assembly.next (.more [])
      = .complete (frameAfterSof addr ctrl port payload) := by
  have len : byteAt (frameAfterSof addr ctrl port payload) 3 = payload.length := Nat.mod_eq_of_lt (by omega)
  have chars : (frameAfterSof addr ctrl port payload).length = payload.length + 6 := by
    simp [frameAfterSof, coveredChars, crcBytes, bytes2]
  exact assemble_rest (got := []) (List.length_pos_iff.1 (by omega)) (len.trans_le fits) (chars.trans (len ▸ rfl))

/-- Settles O55: a frame has the length its LEN says and a right CRC, and its CTRL reads back, so each of the tests
left says its own. -/
theorem segmentFrameRoundTrip : Obligations.SegmentFrameRoundTrip := by
  unfold Obligations.SegmentFrameRoundTrip
  intro addr port sent toggle r lo hi address allowed least most chars feed
  have nibble := r.kind.code_lt
  have reads := ctrlToggle_ctrlByte nibble toggle r.attention
  refine ⟨?whole, ?valid, ?stale, ?wrongStation, ?crcError, ?judged, ?long⟩
  case whole => exact assemble_frameAfterSof addr _ port (most.trans (replyAllowed_le allowed))
  case valid =>
    rw [classify_right address reads, classifyKind_answering r.payload (ctrlByte_lt nibble ..)
      (ctrlKind_ctrlByte nibble ..).symm allowed, if_pos (within_iff.2 ⟨least, most⟩), ctrlFlag_ctrlByte nibble]
  case stale =>
    rw [classify_frameAfterSof address, if_neg (not_not_intro rfl), reads, if_pos (Bool.not_ne_self _).symm]
  case wrongStation => exact fun other apart => (classify_frameAfterSof address ..).trans (if_pos apart.symm)
  case crcError => exact fun covered crc two wrong => (classify_append _ _ two).trans (if_pos wrong)
  case judged =>
    intro ctrl payload agrees judged
    have kind : judged = classifyKind sent ctrl payload := classify_right address agrees port payload
    refine ⟨fun set => ?_, fun clear other => ?_, fun clear k lo hi answers allowed outside => ?_⟩
    · exact kind.trans (classifyKind_reserved payload set)
    · exact kind.trans (classifyKind_unanswering payload clear other)
    · rw [kind, classifyKind_answering payload clear answers allowed, if_neg]
      rw [within_iff]
      omega
  case long => exact fun received len three long => assemble_long ⟨by simp [three], long⟩

end Sys2Proof.Machine
end

section
/-! Characters on the line (O54): what the receiver makes of samples is said once, for samples cut into data, parity
and stop bits; the character sent is such a cut, and a level changed in it is a level changed in one of its parts. -/

namespace Sys2Proof.Machine

/-! ## A change of one element in two joined lists -/

theorem modify_append_left {α : Type} {a : List α} {k : Nat} (inside : k < a.length) (b : List α) (f : α → α) :
    (a ++ b).modify k f = a.modify k f ++ b := by
  rw [List.modify_eq_take_cons_drop inside, List.modify_eq_take_cons_drop (by rw [List.length_append]; omega),
    List.take_append_of_le_length inside.le, List.drop_append_of_le_length inside, List.getElem_append_left inside,
    List.append_assoc, List.cons_append]

theorem modify_append_right {α : Type} (a b : List α) (k : Nat) (f : α → α) :
    (a ++ b).modify (a.length + k) f = a ++ b.modify k f := by
  induction a with
  | nil => rw [List.length_nil, Nat.zero_add]; rfl
  | cons x a ih => rw [List.length_cons, Nat.add_right_comm, List.cons_append, List.modify_succ_cons, ih]; rfl

/-! ## Data bits -/

@[simp] theorem dataBits_length (v : Byte) : (dataBits v).length = 8 := rfl

theorem valueOfBits_dataBits : ∀ v : Byte, valueOfBits (dataBits v) = v := by decide

/-- A byte with bit `k` changed. -/
def flipBit (k : Nat) (v : Byte) : Byte := v ^^^ BitVec.twoPow 8 k

theorem flipBit_ne {k : Nat} (inside : k < 8) (v : Byte) : flipBit k v ≠ v := by
  intro same
  have read : (flipBit k v).getLsbD k = v.getLsbD k := by rw [same]
  simp [flipBit, inside] at read

theorem dataBits_eq_map (v : Byte) : dataBits v = (List.range 8).map v.getLsbD := rfl

theorem dataBits_modify {k : Nat} (inside : k < 8) (v : Byte) :
    (dataBits v).modify k (! ·) = dataBits (flipBit k v) := by
  refine List.ext_getElem (by simp) fun i _ bound => ?_
  have place : i < 8 := bound
  by_cases here : k = i
  · simp [dataBits_eq_map, flipBit, here, place]
  · simp [dataBits_eq_map, flipBit, here, inside]

theorem mark_mem_dataBits {v : Byte} (nonzero : v ≠ 0#8) : true ∈ dataBits v := by
  by_contra space
  refine nonzero (BitVec.eq_of_getLsbD_eq fun i inside => ?_)
  simp only [dataBits_eq_map, List.mem_map, List.mem_range, not_exists, not_and, Bool.not_eq_true] at space
  simpa using space i inside

/-! ## Parity (R140) -/

theorem foldl_xor (bits : List Bool) (b : Bool) : bits.foldl xor b = (b ^^ decide (bits.countP id % 2 = 1)) := by
  induction bits generalizing b with
  | nil => simp
  | cons x bits ih =>
    rw [List.foldl_cons, ih, List.countP_cons]
    cases x with
    | false => simp
    | true =>
      have : (bits.countP id + 1) % 2 = 1 ↔ ¬bits.countP id % 2 = 1 := by omega
      simp only [id, if_true, this, decide_not, Bool.xor_true, Bool.not_xor, Bool.xor_not]

theorem foldl_xor_not (bits : List Bool) (b : Bool) : bits.foldl xor (!b) = !bits.foldl xor b := by
  rw [foldl_xor, foldl_xor, Bool.not_xor]

theorem foldl_xor_modify {bits : List Bool} {k : Nat} (inside : k < bits.length) (b : Bool) :
    (bits.modify k (! ·)).foldl xor b = !bits.foldl xor b := by
  induction bits generalizing k b with
  | nil => cases inside
  | cons x bits ih =>
    cases k with
    | zero => rw [List.modify_zero_cons, List.foldl_cons, Bool.xor_not, foldl_xor_not, List.foldl_cons]
    | succ k => exact ih (Nat.lt_of_succ_lt_succ inside) _

theorem foldl_xor_dataBits (v : Byte) : (dataBits v).foldl xor false
    = decide ([0, 1, 2, 3, 4, 5, 6, 7].countP v.getLsbD % 2 = 1) := by
  rw [foldl_xor, Bool.false_xor, dataBits, List.countP_map, Function.id_comp]

theorem parityOf_length (c : SegConfig) (bits : List Bool) : (parityOf c bits).length = parityBits c := by
  unfold parityOf parityBits
  cases c.parity <;> rfl

/-- One data bit changed no longer agrees with the parity bit. -/
theorem parityOf_modify_ne {c : SegConfig} (checked : c.parity ≠ .none) {bits : List Bool} {k : Nat}
    (inside : k < bits.length) : parityOf c bits ≠ parityOf c (bits.modify k (! ·)) := by
  unfold parityOf
  cases parity : c.parity with
  | none => exact absurd parity checked
  | even => simp [foldl_xor_modify inside]
  | odd => simp [foldl_xor_modify inside]

/-! ## The character sent (R140) -/

/-- The levels of a character with any data, parity and stop bits. -/
def characterOf (data parity stops : List Bool) : List Bool := false :: (data ++ (parity ++ stops))

/-- The stop bits of a format. -/
def stopLevels (c : SegConfig) : List Bool := List.replicate (stopCount c) true

theorem charLevels_eq (c : SegConfig) (v : Byte) :
    charLevels c v = characterOf (dataBits v) (parityOf c (dataBits v)) (stopLevels c) := by
  simp [charLevels, characterOf, stopLevels]

theorem charLevels_length (c : SegConfig) (v : Byte) : (charLevels c v).length = 9 + parityBits c + stopCount c := by
  simp only [charLevels_eq, characterOf, stopLevels, List.length_cons, List.length_append, dataBits_length,
    parityOf_length, List.length_replicate]
  omega

theorem mark_mem_stopLevels (c : SegConfig) : true ∈ stopLevels c := by
  unfold stopLevels stopCount
  cases c.stopBits <;> decide

section
variable {data : List Bool} {k : Nat}

theorem characterOf_modify_data (inside : k < data.length) (parity stops : List Bool) :
    (characterOf data parity stops).modify (k + 1) (! ·) = characterOf (data.modify k (! ·)) parity stops := by
  rw [characterOf, List.modify_succ_cons, modify_append_left inside, characterOf]

theorem characterOf_modify_stops (eight : data.length = 8) (parity stops : List Bool) (k : Nat) :
    (characterOf data parity stops).modify (9 + parity.length + k) (! ·)
      = characterOf data parity (stops.modify k (! ·)) := by
  have place : 9 + parity.length + k = data.length + (parity.length + k) + 1 := by omega
  rw [place, characterOf, List.modify_succ_cons, modify_append_right, modify_append_right, characterOf]

/-! ## The character received (R144) -/

theorem itemOfSamples_space (c : SegConfig) (n : Nat) : itemOfSamples c (List.replicate n false) = .brk :=
  if_pos (by simp)

variable {c : SegConfig} {parity stops : List Bool}

/-- A character with a sample at mark is good exactly when its parity agrees and every stop bit is at mark. -/
theorem itemOfSamples_characterOf (eight : data.length = 8) (fits : parity.length = parityBits c)
    (mark : true ∈ data ++ stops) : itemOfSamples c (characterOf data parity stops)
      = if parity = parityOf c data ∧ ∀ b ∈ stops, b = true then .good (valueOfBits data)
        else .erroneous (valueOfBits data) := by
  have notSpace : ¬(characterOf data parity stops).all (· == false) = true := by
    intro space
    have level := List.all_eq_true.1 space true (by simp [characterOf] at mark ⊢; tauto)
    cases level
  have fromData : (characterOf data parity stops).drop 1 = data ++ (parity ++ stops) := rfl
  have fromParity : (characterOf data parity stops).drop 9 = parity ++ stops := List.drop_left' eight
  have fromStops : (characterOf data parity stops).drop (9 + parityBits c) = stops := by
    rw [← List.drop_drop, fromParity, List.drop_left' fits]
  rw [itemOfSamples, if_neg notSpace]
  simp only [fromData, fromParity, fromStops, List.take_left' eight, List.take_left' fits, List.all_eq_true, beq_iff_eq]

end

/-! ## Bit times (R140) -/

/-- The bits in a second. -/
def perSecond : Rate → Nat
  | .r9600 => 9600
  | .r19200 => 19200
  | .r38400 => 38400
  | .r57600 => 57600
  | .r115200 => 115200
  | .r230400 => 230400
  | .r460800 => 460800
  | .r921600 => 921600

theorem bitTime_mul_perSecond (c : SegConfig) : bitTime c * perSecond c.rate = 1152000000 := by
  unfold bitTime
  cases c.rate <;> simp only [perSecond, Nat.reduceMul]

theorem charLevels_length_mul_bitTime (c : SegConfig) (v : Byte) :
    (charLevels c v).length * bitTime c = charTime c := by
  rw [charLevels_length, charTime]

/-- Settles O54: each sample list is the cut of some data, parity and stop bits, and which of them agree decides. -/
theorem characterRoundTrip : Obligations.CharacterRoundTrip := by
  unfold Obligations.CharacterRoundTrip
  intro c v sent ones parity stops
  have parityIs : parityOf c (dataBits v) = parity := by
    simp only [parity, ones, parityOf, foldl_xor_dataBits]
    cases c.parity with
    | none => rfl
    | even => rfl
    | odd => simp only [← decide_not, Nat.mod_two_not_eq_one]
  have stopsAre : stopLevels c = stops := by
    simp only [stops, stopLevels, stopCount]
    cases c.stopBits <;> rfl
  have cut : sent = characterOf (dataBits v) parity stops := by rw [← parityIs, ← stopsAre, ← charLevels_eq]
  have fits : parity.length = parityBits c := by rw [← parityIs, parityOf_length]
  have mark : true ∈ stops := stopsAre ▸ mark_mem_stopLevels c
  have atMark : ∀ b ∈ stops, b = true := stopsAre ▸ fun b => List.eq_of_mem_replicate
  refine ⟨cut, ?received, charLevels_length_mul_bitTime c v, ?dataChanged, ?stopChanged,
    itemOfSamples_space c _, ?rates⟩
  case received =>
    rw [cut, itemOfSamples_characterOf rfl fits (List.mem_append_right _ mark), if_pos ⟨parityIs.symm, atMark⟩,
      valueOfBits_dataBits]
  case dataChanged =>
    intro checked k inside
    refine ⟨flipBit k v, flipBit_ne inside v, ?_⟩
    rw [cut, characterOf_modify_data inside, dataBits_modify inside,
      itemOfSamples_characterOf rfl fits (List.mem_append_right _ mark), if_neg, valueOfBits_dataBits]
    rintro ⟨agrees, -⟩
    rw [← parityIs, ← dataBits_modify inside] at agrees
    exact parityOf_modify_ne checked inside agrees
  case stopChanged =>
    intro k inside nonzero
    rw [cut, characterOf_modify_stops rfl, itemOfSamples_characterOf rfl fits
      (List.mem_append_left _ (mark_mem_dataBits nonzero)), if_neg, valueOfBits_dataBits]
    rintro ⟨-, good⟩
    have changed : (! stops[k]) ∈ stops.modify k (! ·) :=
      List.mem_iff_getElem.2 ⟨k, by simpa using inside, by simp⟩
    have := good _ changed
    simp [atMark _ (List.getElem_mem inside)] at this
  case rates =>
    have second (r : Rate) := bitTime_mul_perSecond { c with rate := r }
    exact ⟨second .r9600, second .r19200, second .r38400, second .r57600, second .r115200, second .r230400,
      second .r460800, second .r921600⟩

end Sys2Proof.Machine
end

section
/-! What the pins show (O60): DIR and TXD by the transmitter's state, the bit of a frame that a moment falls in, and
SDO by the window; each pin is read once while RSTN is high and once while it is low. -/

namespace Sys2Proof.Machine

/-! ## The bit that is being sent (R142) -/

/-- Lists of one length, joined: element `n` of list `k` stands `k` such lengths and `n` on. -/
theorem getElem?_flatMap_of_length {α β : Type} {f : α → List β} {len : Nat} (fixed : ∀ a, (f a).length = len)
    {as : List α} {k n : Nat} {a : α} (listed : as[k]? = some a) (inside : n < len) :
    (as.flatMap f)[k * len + n]? = (f a)[n]? := by
  induction as generalizing k with
  | nil => cases listed
  | cons b as ih =>
    rw [List.flatMap_cons]
    cases k with
    | zero =>
      cases listed
      rw [Nat.zero_mul, Nat.zero_add, List.getElem?_append_left (by rwa [fixed])]
    | succ k =>
      have place : (k + 1) * len + n = (f b).length + (k * len + n) := by rw [fixed, Nat.succ_mul]; omega
      rw [place, List.getElem?_append_right (Nat.le_add_right ..), Nat.add_sub_cancel_left]
      exact ih listed

theorem frameLevels_getElem? (c : SegConfig) {chars : List Byte} {k n : Nat} {v : Byte}
    (listed : chars[k]? = some v) (inside : n < (charLevels c v).length) :
    (frameLevels c chars)[k * (charLevels c v).length + n]? = (charLevels c v)[n]? :=
  getElem?_flatMap_of_length (fun u => (charLevels_length c u).trans (charLevels_length c v).symm) listed inside

section
variable {c : SegConfig} {l : Line}

/-- Bit `n` of character `k` is on TXD from the moment that all bits before it are sent until it is sent itself. -/
theorem txdLevel_frame {chars : List Byte} {echoed left k n : Nat} {v : Byte}
    (sending : l.tx = .frame chars echoed left) (listed : chars[k]? = some v)
    (inside : n < (charLevels c v).length)
    (begun : left + k * charTime c + n * bitTime c ≤ chars.length * charTime c)
    (unsent : chars.length * charTime c < left + k * charTime c + (n + 1) * bitTime c) :
    (charLevels c v)[n]? = some (l.txdLevel c) := by
  have char := charLevels_length_mul_bitTime c v
  have place : (chars.length * charTime c - left) / bitTime c = k * (charLevels c v).length + n := by
    have before : (k * (charLevels c v).length + n) * bitTime c = k * charTime c + n * bitTime c := by
      rw [Nat.add_mul, Nat.mul_assoc, char]
    have bit : (n + 1) * bitTime c = n * bitTime c + bitTime c := Nat.succ_mul ..
    apply Nat.div_eq_of_lt_le
    · omega
    · rw [Nat.succ_mul]
      omega
  have found := (frameLevels_getElem? c listed inside).trans (List.getElem?_eq_getElem inside)
  simp only [Line.txdLevel, sending, place, List.getD_eq_getElem?_getD, found, Option.getD_some,
    List.getElem?_eq_getElem inside]

/-! ## DIR and TXD by the transmitter's state (R141) -/

theorem dirLevelOf_true (p : Polarity) : dirLevelOf p true = (p == .highSends) := by cases p <;> rfl

theorem dirLevelOf_false (p : Polarity) : dirLevelOf p false = (p == .lowSends) := by cases p <;> rfl

theorem levels_quiet (quiet : l.tx = .quiet) :
    dirLevel c l = (c.polarity == .lowSends) ∧ txdDrive l = .mark ∧ l.txdLevel c = true := by
  simp only [dirLevel, txdDrive, Line.txdLevel, quiet, Tx.asserts, dirLevelOf_false, and_self]

theorem levels_frame {chars : List Byte} {echoed : Nat} {left : Time} (sending : l.tx = .frame chars echoed left) :
    dirLevel c l = (c.polarity == .highSends) ∧ txdDrive l = .characters chars := by
  simp only [dirLevel, txdDrive, sending, Tx.asserts, dirLevelOf_true, and_self]

theorem levels_guard {left : Time} (guarding : l.tx = .guard left) :
    dirLevel c l = (c.polarity == .highSends) ∧ txdDrive l = .mark ∧ l.txdLevel c = true := by
  simp only [dirLevel, txdDrive, Line.txdLevel, guarding, Tx.asserts, dirLevelOf_true, and_self]

theorem levels_brk {left : Time} {p : Polarity} (breaking : l.tx = .brk left p) :
    dirLevel c l = (p == .highSends) ∧ txdDrive l = .space ∧ l.txdLevel c = false := by
  simp only [dirLevel, txdDrive, Line.txdLevel, breaking, dirLevelOf_true, and_self]

end

/-! ## The pins of a segment by RSTN (R141, R151, R184) -/

section
variable {s : State}

theorem segment_pins_live (live : s.rstnLow = false) (g : Seg) :
    dirPin s g = dirLevel (s.seg g).config (s.seg g).line ∧ txdPin s g = txdDrive (s.seg g).line
      ∧ txdLevel s g = (s.seg g).line.txdLevel (s.seg g).config := by
  simp [dirPin, txdPin, txdLevel, live]

theorem segment_pins_held (low : s.rstnLow = true) (g : Seg) :
    dirPin s g = false ∧ txdPin s g = .mark ∧ txdLevel s g = true := by
  simp [dirPin, txdPin, txdLevel, low, dirLevelOf]

/-! ## SDO (R167, R168) -/

theorem marks_getLsbD (n : Nat) : (0xFF#8).getLsbD (7 - n) = true := by
  have : ∀ k < 8, (0xFF#8).getLsbD k = true := by decide
  exact this _ (by omega)

theorem sdoBit_undriven (undriven : s.rstnLow = true ∨ s.link.window = .closed ∨ s.link.window = .noWindow)
    (n : Nat) : sdoBit s n = none := by
  rcases undriven with low | closed | noWindow
  · simp [sdoBit, sdoByte, low]
  · simp [sdoBit, sdoByte, closed]
  · simp [sdoBit, sdoByte, noWindow]

theorem sdoBit_ignored (live : s.rstnLow = false) (ignored : s.link.window = .ignored) (n : Nat) :
    sdoBit s n = some true := by
  simp [sdoBit, sdoByte, live, ignored, -BitVec.reduceGetLsb, marks_getLsbD]

theorem sdoBit_serving (live : s.rstnLow = false) {frame : List Byte} (serving : s.link.window = .serving frame)
    (n : Nat) : sdoBit s n = some ((frame.getD (n / 8) 0xFF#8).getLsbD (7 - n % 8)) := by
  simp only [sdoBit, sdoByte, live, serving, Option.map_some, Bool.false_eq_true, if_false]

end

/-- Settles O60, pin by pin: DIR and TXD by the transmitter's state, SDO by the window. -/
theorem pinsFollowTheState : Obligations.PinsFollowTheState := by
  unfold Obligations.PinsFollowTheState
  intro s
  refine ⟨fun live => ⟨fun g => ?segment, ?serving, fun ignored => sdoBit_ignored live ignored,
    fun undriven => sdoBit_undriven (.inr undriven)⟩, attnAsserted_iff,
    fun low => ⟨segment_pins_held low, sdoBit_undriven (.inl low)⟩⟩
  case segment =>
    intro c tx
    obtain ⟨dir, txd, level⟩ := segment_pins_live live g
    rw [dir, txd, level]
    refine ⟨levels_quiet, fun chars echoed left sending => ?sending, fun left => levels_guard,
      fun left p => levels_brk⟩
    obtain ⟨asserted, characters⟩ := levels_frame sending
    exact ⟨asserted, characters, fun k n v => txdLevel_frame sending⟩
  case serving =>
    intro frame serving
    refine ⟨fun k n v listed inside => ?_, fun n past => ?_⟩
    · have byteIndex : (8 * k + n) / 8 = k := by omega
      have bitIndex : (8 * k + n) % 8 = n := by omega
      rw [sdoBit_serving live serving, byteIndex, bitIndex, List.getD_eq_getElem?_getD, listed, Option.getD_some]
    · rw [sdoBit_serving live serving, List.getD_eq_default _ _ (by omega), marks_getLsbD]

end Sys2Proof.Machine
end

section
/-! What the requests leave of the host link, the RSTN level and the commands waiting: each ruling of a request but
QUERY_DEVICE leaves all three, and QUERY_DEVICE and RESTART the last two. -/

namespace Sys2Proof.Machine

section
variable (s : State) (g : Seg)

/-! ## The rulings on a segment -/

@[simp] theorem rest_emptied : rest (emptied g s) = rest s := by
  obtain ⟨link, low, pending⟩ := emptied_outside g s
  simp only [rest, link, low, pending]

@[simp] theorem rest_resetSegment : rest (resetSegment g s) = rest s := by
  rw [resetSegment_emptied, rest_updSeg]
  split
  · rw [rest_serveWaitRoom, rest_emptied]
  · exact rest_emptied ..

theorem rest_rulingConfigure (f : HostFrame) : rest (rulingConfigure f g s).state = rest s := by
  unfold rulingConfigure
  repeat' split
  all_goals rfl

theorem rest_rulingStart : rest (rulingStart g s).state = rest s := by
  unfold rulingStart
  split
  · exact rest_pick ..
  · rfl
  · rfl
  · rfl

theorem rest_rulingStop : rest (rulingStop g s).state = rest s := by
  unfold rulingStop
  repeat' split
  all_goals rfl

theorem rest_rulingResume : rest (rulingResume g s).state = rest s := by
  unfold rulingResume
  split
  · exact rest_pick ..
  · rfl

theorem rest_rulingQueryCounters (option : Nat) : rest (rulingQueryCounters option g s).state = rest s := by
  unfold rulingQueryCounters
  split <;> rfl

/-! ## The rulings on a station -/

theorem rest_rulingAddStation (a ports cls : Nat) : rest (rulingAddStation a ports cls g s).state = rest s := by
  unfold rulingAddStation
  repeat' split
  all_goals rfl

@[simp] theorem rest_cancelCarried : rest (cancelCarried g s) = rest s := by
  unfold cancelCarried
  repeat' split
  all_goals rfl

@[simp] theorem rest_removeEntry (a : Nat) (i : Index) : rest (removeEntry g a i s) = rest s := by
  unfold removeEntry freeOrRetire
  split <;> simp

theorem rest_rulingRemoveStation (a : Nat) : rest (rulingRemoveStation a g s).state = rest s := by
  unfold rulingRemoveStation
  split
  · rfl
  · split
    · rfl
    · exact rest_removeEntry ..

theorem rest_rulingReviveStation (a : Nat) : rest (rulingReviveStation a g s).state = rest s := by
  unfold rulingReviveStation
  repeat' split
  all_goals rfl

theorem rest_rulingSetClass (a cls : Nat) : rest (rulingSetClass a cls g s).state = rest s := by
  unfold rulingSetClass
  repeat' split
  all_goals rfl

/-! ## The rulings on a discovery unit -/

theorem rest_rulingDiscover (low high : Nat) : rest (rulingDiscover low high g s).state = rest s := by
  unfold rulingDiscover
  split
  · rfl
  · split
    · rfl
    · split
      · rfl
      · exact rest_lookAndPick ..

theorem rest_rulingStopDiscovery : rest (rulingStopDiscovery g s).state = rest s := by
  unfold rulingStopDiscovery stopUnit
  split
  · rfl
  · dsimp only
    split
    · exact rest_serveWaitRoom ..
    · rfl

theorem rest_rulingAdmit (a ports cls : Nat) : rest (rulingAdmit a ports cls g s).state = rest s := by
  unfold rulingAdmit
  split
  · rfl
  · split
    · rfl
    · split
      · rfl
      · split
        · rfl
        · split
          · rfl
          · exact rest_resumeDisc ..

theorem rest_rulingRefuse (a : Nat) : rest (rulingRefuse a g s).state = rest s := by
  unfold rulingRefuse
  split
  · rfl
  · split
    · rfl
    · exact rest_resumeDisc ..

/-! ## The rulings on a job -/

theorem rest_rulingSubmit (f : HostFrame) : rest (rulingSubmit f g s).state = rest s := by
  unfold rulingSubmit
  split
  · rfl
  · split
    · rfl
    · split
      · rfl
      · split
        · rfl
        · split
          · rfl
          · exact rest_pick ..

theorem rest_cancelJob (h : Handle) (j : Job) : rest (cancelJob h j s).state = rest s := by
  unfold cancelJob
  split
  · rfl
  · exact rest_completeJob ..
  · exact rest_completeJob ..

theorem rest_rulingCancel (f : HostFrame) : rest (rulingCancel f s).state = rest s := by
  unfold rulingCancel
  split
  · rfl
  · split
    · rfl
    · exact rest_cancelJob ..

end

end Sys2Proof.Machine
end

section
/-! How each command is run, said once for all of its kind: the requests of one exact length, the requests, the CSN
rises, and the happenings at a segment or timer; and what each kind leaves alone (O2). -/

namespace Sys2Proof.Machine

/-! ## The RSTN level and the commands waiting -/

/-- What every request leaves alone, RESTART too. -/
def standby (s : State) : Bool × List Instr := (s.rstnLow, s.pending)

theorem standby_of_rest {s t : State} (same : rest t = rest s) : standby t = standby s := congrArg Prod.snd same

theorem standby_raiseCsn (s : State) : standby s.raiseCsn = standby s := rfl

theorem standby_elapse (d : Time) (s : State) : standby (s.elapse d) = standby s := by
  simp only [standby, elapse_rstnLow, elapse_pending]

theorem standby_takeFrame (f : HostFrame) (s : State) : standby (takeFrame f s) = standby s := by
  obtain ⟨-, low, pending⟩ := applyAck_outside f.ack.toNat (countTaken s)
  exact congrArg₂ Prod.mk low pending

section
variable {s : State} {f : HostFrame} {c : Instr}

/-! ## The CSN rise -/

theorem standby_atCsnRise {k : State → State} (same : ∀ u, standby (k u) = standby u) (w : Time) (s : State) :
    standby (atCsnRise w k s) = standby s := by
  by_cases kept : KeptWindow w s
  · rw [atCsnRise_kept kept, same, standby_raiseCsn, standby_elapse]
  · rw [atCsnRise_lost kept, standby_raiseCsn, standby_elapse]

/-- What the CSN rise of a request's frame does with it: checks 3 and 6 of R171, then the frame is taken. -/
def judged (f : HostFrame) (deal : State → State) (u : State) : State :=
  if 80 < f.body.length then countMalformed u
  else if f.tag = 0#16 then countMalformed u
  else deal (takeFrame f u)

theorem takeRequest_eq (f : HostFrame) (deal : State → State) (s : State) :
    takeRequest f deal s = atCsnRise f.wait (judged f deal) s := rfl

theorem standby_judged {deal : State → State} (same : ∀ u, standby (deal u) = standby u) (f : HostFrame)
    (u : State) : standby (judged f deal u) = standby u := by
  unfold judged
  split
  · rfl
  · split
    · rfl
    · rw [same, standby_takeFrame]

/-- A frame that passes the checks in a kept window is dealt with, a repeat too. -/
theorem takeRequest_kept (kept : KeptWindow f.wait s) (formed : f.wellFormed = true) (deal : State → State) :
    takeRequest f deal s = deal (afterTake f s) := by
  simp only [HostFrame.wellFormed, Bool.and_eq_true, decide_eq_true_eq] at formed
  obtain ⟨fits, tagged⟩ := formed
  rw [takeRequest_eq, atCsnRise_kept kept, judged, if_neg (Nat.not_lt.2 fits), if_neg tagged]
  rfl

/-! ## Requests of one exact length -/

/-- A request on a segment is a ruling of that segment's owner, which leaves the link alone. -/
theorem exec_onSegment {n : Nat} (fixed : exactLength c = some (f, n)) (names : namesSegment c = true) :
    ∃ ruling : Seg → State → Ruling, (∀ g u, rest (ruling g u).state = rest u)
      ∧ ∀ s, exec c s = exactRequest n f (withSegment (bodyByte f 0) ruling) s := by
  cases c with
  | configureSegment => cases fixed; exact ⟨_, fun g u => rest_rulingConfigure u g _, fun _ => rfl⟩
  | start => cases fixed; exact ⟨_, fun g u => rest_rulingStart u g, fun _ => rfl⟩
  | stop => cases fixed; exact ⟨_, fun g u => rest_rulingStop u g, fun _ => rfl⟩
  | resume => cases fixed; exact ⟨_, fun g u => rest_rulingResume u g, fun _ => rfl⟩
  | resetSegment => cases fixed; exact ⟨rulingResetSegment, fun g u => rest_resetSegment u g, fun _ => rfl⟩
  | querySegment => cases fixed; exact ⟨fun g s => ⟨s, .ok, _⟩, fun _ _ => rfl, fun _ => rfl⟩
  | queryCounters => cases fixed; exact ⟨_, fun g u => rest_rulingQueryCounters u g _, fun _ => rfl⟩
  | addStation => cases fixed; exact ⟨_, fun g u => rest_rulingAddStation u g _ _ _, fun _ => rfl⟩
  | removeStation => cases fixed; exact ⟨_, fun g u => rest_rulingRemoveStation u g _, fun _ => rfl⟩
  | reviveStation => cases fixed; exact ⟨_, fun g u => rest_rulingReviveStation u g _, fun _ => rfl⟩
  | setClass => cases fixed; exact ⟨_, fun g u => rest_rulingSetClass u g _ _, fun _ => rfl⟩
  | queryStation =>
    cases fixed
    exact ⟨_, fun g u => congrArg rest (rulingQueryStation_state _ g u), fun _ => rfl⟩
  | listStations =>
    cases fixed
    exact ⟨_, fun g u => congrArg rest (rulingListStations_state _ g u), fun _ => rfl⟩
  | discover => cases fixed; exact ⟨_, fun g u => rest_rulingDiscover u g _ _, fun _ => rfl⟩
  | stopDiscovery => cases fixed; exact ⟨_, fun g u => rest_rulingStopDiscovery u g, fun _ => rfl⟩
  | admitFind => cases fixed; exact ⟨_, fun g u => rest_rulingAdmit u g _ _ _, fun _ => rfl⟩
  | refuseFind => cases fixed; exact ⟨_, fun g u => rest_rulingRefuse u g _, fun _ => rfl⟩
  | sync | restart | queryDevice | cancel | queryJob => cases names
  | _ => cases fixed

theorem rest_withSegment {ruling : Seg → State → Ruling} (same : ∀ g u, rest (ruling g u).state = rest u) (n : Nat)
    (u : State) : rest (withSegment n ruling u).state = rest u := by
  unfold withSegment
  split
  · exact same ..
  · rfl

theorem standby_rulingQueryDevice (f : HostFrame) (u : State) :
    standby (rulingQueryDevice f u).state = standby u := by
  unfold rulingQueryDevice
  split <;> rfl

/-- A request of one exact length is its owner's ruling. RESTART, which leaves no answer, is the only other. -/
theorem exec_exactLength {n : Nat} (fixed : exactLength c = some (f, n)) (answered : c ≠ .restart f) :
    ∃ owner : State → Ruling, (∀ u, standby (owner u).state = standby u)
      ∧ ∀ s, exec c s = exactRequest n f owner s := by
  by_cases names : namesSegment c = true
  · obtain ⟨ruling, same, run⟩ := exec_onSegment fixed names
    exact ⟨_, fun u => standby_of_rest (rest_withSegment same _ u), run⟩
  · cases c with
    | sync => cases fixed; exact ⟨_, fun u => congrArg standby (rulingSync_state u), fun _ => rfl⟩
    | queryDevice => cases fixed; exact ⟨_, standby_rulingQueryDevice f, fun _ => rfl⟩
    | cancel => cases fixed; exact ⟨_, fun u => standby_of_rest (rest_rulingCancel u f), fun _ => rfl⟩
    | queryJob => cases fixed; exact ⟨_, fun u => congrArg standby (rulingQueryJob_state f u), fun _ => rfl⟩
    | restart => cases fixed; exact absurd rfl answered
    | _ => exact absurd rfl names

/-! ## Requests -/

/-- A request is one of an exact length, SUBMIT, or a code that names none. -/
theorem request_cases (taken : takenAsRequest c = some f) :
    (∃ n, exactLength c = some (f, n)) ∨ c = .submit f ∨ ∃ code, c = .unknownRequest code f := by
  cases c with
  | unknownRequest code => cases taken; exact .inr (.inr ⟨code, rfl⟩)
  | submit => cases taken; exact .inr (.inl rfl)
  | _ => cases taken <;> exact .inl ⟨_, rfl⟩

/-- The frame of a well-formed request passes the checks of R171. -/
theorem frame_wellFormed (taken : takenAsRequest c = some f) (formed : c.wellFormed = true) :
    f.wellFormed = true := by
  cases c with
  | unknownRequest =>
    cases taken
    exact (Bool.and_eq_true_iff.1 formed).2
  | _ => cases taken <;> exact formed

/-- How a taken request is dealt with, whatever it is: a repeat is counted and not executed, and the RSTN level and
the commands waiting are left alone. -/
structure Deals (f : HostFrame) (deal : State → State) : Prop where
  repeated : ∀ u, slotTag u = some f.tag → deal u = countRepeat u
  standby  : ∀ u, standby (deal u) = standby u

theorem answerRequest_deals {owner : State → Ruling} (same : ∀ u, standby (owner u).state = standby u)
    (suits : Bool) : Deals f (answerRequest f suits owner) where
  repeated _ again := if_pos again
  standby u := by
    unfold answerRequest
    split
    · rfl
    · split
      · exact same u
      · rfl

theorem dealRestart_deals (f : HostFrame) : Deals f (dealRestart f) where
  repeated _ again := if_pos again
  standby u := by
    unfold dealRestart
    repeat' split
    all_goals rfl

/-- The answer of a frame whose code names no request. -/
def dealUnknown (f : HostFrame) (u : State) : State :=
  if slotTag u = some f.tag then countRepeat u else setSlot f.tag .unknownRequest [] u

theorem dealUnknown_deals (f : HostFrame) : Deals f (dealUnknown f) where
  repeated _ again := if_pos again
  standby u := by
    unfold dealUnknown
    split <;> rfl

theorem exec_unknownRequest {code : Byte} (unknown : code ∉ requestCodes) (s : State) :
    exec (.unknownRequest code f) s = .next (takeRequest f (dealUnknown f) s) := by
  have none : ¬requestCodes.contains code = true := by simpa using unknown
  exact if_neg none

/-- Every request is taken in one way: its frame is judged and, if it passes, dealt with. -/
theorem exec_request (taken : takenAsRequest c = some f)
    (unknown : ∀ code, c = .unknownRequest code f → code ∉ requestCodes) :
    ∃ deal, Deals f deal ∧ ∀ s, exec c s = .next (takeRequest f deal s) := by
  rcases request_cases taken with ⟨n, fixed⟩ | submit | ⟨code, rfl⟩
  · by_cases restart : c = .restart f
    · exact ⟨_, dealRestart_deals f, fun _ => by rw [restart]; rfl⟩
    · obtain ⟨owner, same, run⟩ := exec_exactLength fixed restart
      exact ⟨_, answerRequest_deals same _, run⟩
  · have same (u : State) : rest (withSegment (bodyByte f 0) (rulingSubmit f) u).state = rest u :=
      rest_withSegment (fun g u => rest_rulingSubmit u g f) _ u
    exact ⟨_, answerRequest_deals (fun u => standby_of_rest (same u)) _, fun _ => by rw [submit]; rfl⟩
  · exact ⟨_, dealUnknown_deals f, exec_unknownRequest (unknown code rfl)⟩

theorem unknown_of_wellFormed (formed : c.wellFormed = true) :
    ∀ code, c = .unknownRequest code f → code ∉ requestCodes := by
  rintro code rfl
  simpa using (Bool.and_eq_true_iff.1 formed).1

/-! ## CSN rises -/

theorem csnRise_cases {w : Time} (rise : csnRiseOf c = some w) :
    (∃ bits, c = .hostFrameIgnored w bits) ∨ (∃ f, c = .nop f ∧ f.wait = w)
      ∨ ∃ f, takenAsRequest c = some f ∧ f.wait = w := by
  cases c with
  | hostFrameIgnored wait bits => cases rise; exact .inl ⟨bits, rfl⟩
  | nop f => cases rise; exact .inr (.inl ⟨f, rfl, rfl⟩)
  | _ => cases rise <;> exact .inr (.inr ⟨_, rfl, rfl⟩)

theorem standby_countIgnored (b : List Byte) (u : State) : standby (countIgnored b u) = standby u := by
  unfold countIgnored
  split <;> rfl

/-- Every command that a CSN rise is: the window ends, and if it is kept the frame is looked at. -/
theorem exec_csnRise {w : Time} (rise : csnRiseOf c = some w) :
    ∃ k, (∀ u, standby (k u) = standby u) ∧ ∀ s, exec c s = .next (atCsnRise w k s) := by
  rcases csnRise_cases rise with ⟨bits, rfl⟩ | ⟨f, rfl, rfl⟩ | ⟨f, taken, rfl⟩
  · exact ⟨_, standby_countIgnored _, fun _ => rfl⟩
  · refine ⟨fun u => if 80 < f.body.length then countMalformed u else takeFrame f u, fun u => ?_, fun _ => rfl⟩
    dsimp only
    split
    · rfl
    · exact standby_takeFrame f u
  · by_cases named : ∃ code, c = .unknownRequest code f ∧ code ∈ requestCodes
    · obtain ⟨code, rfl, mem⟩ := named
      have known : requestCodes.contains code = true := by simpa using mem
      exact ⟨id, fun _ => rfl, fun _ => if_pos known⟩
    · obtain ⟨deal, deals, run⟩ := exec_request taken fun code is mem => named ⟨code, is, mem⟩
      exact ⟨_, standby_judged deals.standby f, run⟩

end

/-! ## Happenings at a segment or timer -/

/-- The host link but for its gap, the RSTN level and the commands waiting. -/
def restButGap (s : State) : Link × Bool × List Instr := ({ s.link with gap := 0 }, s.rstnLow, s.pending)

theorem restButGap_of_rest {s t : State} (same : rest t = rest s) : restButGap t = restButGap s := by
  obtain ⟨link, low, pending⟩ := rest_eq same
  simp only [restButGap, link, low, pending]

theorem restButGap_elapse (d : Time) (s : State) : restButGap (s.elapse d) = restButGap s := by
  unfold State.elapse
  split <;> rfl

section
variable {s : State}

/-- Time passes and then an operation on the segments and the stores follows. -/
theorem restButGap_elapsed {d : Time} {t : State} (same : rest t = rest (s.elapse d)) :
    restButGap t = restButGap s :=
  (restButGap_of_rest same).trans (restButGap_elapse d s)

/-! ### What each operation leaves alone -/

theorem rest_expireReply (g : Seg) (s : State) : rest (expireReply g s) = rest s := by
  unfold expireReply
  split
  · exact rest_failNoReply ..
  · rfl

theorem rest_expireGap (g : Seg) (s : State) : rest (expireGap g s) = rest s := by
  unfold expireGap
  split
  · exact rest_failReply ..
  · rfl

theorem rest_expireDefer (g : Seg) (s : State) : rest (expireDefer g s) = rest s := by
  unfold expireDefer
  split
  · exact rest_endExchange ..
  · rfl

theorem rest_missEcho (g : Seg) (s : State) : rest (missEcho g s) = rest s := by
  unfold missEcho
  split
  · exact rest_contend ..
  · rfl

/-- Every happening at a segment or timer is taken unless RSTN is low, and leaves the host link but for its gap. -/
theorem exec_ofSegmentOrTimer {c : Instr} (happening : ofSegmentOrTimer c = true) (s : State) :
    ∃ u, exec c s = .next (if s.rstnLow then s else u) ∧ restButGap u = restButGap s := by
  cases c with
  | deadlineExpiry h =>
    refine ⟨_, rfl, ?_⟩
    dsimp only
    split
    · rfl
    · exact restButGap_elapsed (rest_completeJob ..)
  | backoffExpiry h =>
    refine ⟨_, rfl, ?_⟩
    dsimp only
    split
    · rfl
    · split
      · rfl
      · exact restButGap_elapsed (rest_endBackoff ..)
  | settleGapReached g =>
    refine ⟨_, rfl, ?_⟩
    dsimp only
    split
    · exact restButGap_elapsed (rest_enterSend ..)
    · rfl
  | receivedItem wait g item spaceAtEnd =>
    refine ⟨_, rfl, ?_⟩
    dsimp only
    split
    · exact restButGap_elapse ..
    · exact restButGap_elapsed (rest_handItem ..)
  | frameSentWhole g =>
    refine ⟨_, rfl, ?_⟩
    dsimp only
    split
    · split
      · split
        · exact restButGap_elapsed (rest_releaseDir ..)
        · exact restButGap_elapsed rfl
      · rfl
    · rfl
  | guardEnd g =>
    refine ⟨_, rfl, ?_⟩
    dsimp only
    split
    · exact restButGap_elapsed (rest_releaseDir ..)
    · rfl
  | abortBreakEnd g =>
    refine ⟨_, rfl, ?_⟩
    dsimp only
    split
    · exact restButGap_elapsed (rest_breakOver ..)
    · rfl
  | replyTimerExpiry g =>
    refine ⟨_, rfl, ?_⟩
    dsimp only
    split
    · exact restButGap_elapsed (rest_expireReply ..)
    · rfl
  | characterGapExpiry g =>
    refine ⟨_, rfl, ?_⟩
    dsimp only
    split
    · exact restButGap_elapsed (rest_expireGap ..)
    · rfl
  | deferTimerExpiry g =>
    refine ⟨_, rfl, ?_⟩
    dsimp only
    split
    · exact restButGap_elapsed (rest_expireDefer ..)
    · rfl
  | sweepTimerExpiry g =>
    refine ⟨_, rfl, ?_⟩
    dsimp only
    split
    · exact restButGap_elapsed (rest_sweepDue ..)
    · rfl
  | admissionTimerExpiry g =>
    refine ⟨_, rfl, ?_⟩
    dsimp only
    split
    · exact restButGap_elapsed (rest_lapseFind ..)
    · rfl
  | reEdgeIntervalEnd =>
    refine ⟨_, rfl, ?_⟩
    dsimp only
    split
    · exact restButGap_elapsed rfl
    · rfl
  | characterSentWithoutEcho g =>
    refine ⟨_, rfl, ?_⟩
    dsimp only
    split
    · split
      · exact restButGap_elapsed (rest_missEcho ..)
      · rfl
    · rfl
  | startBitConfirmed start g =>
    refine ⟨_, rfl, ?_⟩
    dsimp only
    split
    · exact restButGap_elapsed rfl
    · exact restButGap_elapse ..
  | lineReturnToMark wait g =>
    refine ⟨_, rfl, ?_⟩
    dsimp only
    split
    · exact restButGap_elapsed rfl
    · exact restButGap_elapse ..
  | _ => cases happening

theorem exec_happening {c : Instr} (happening : ofSegmentOrTimer c = true) (s : State) :
    ∃ t, exec c s = .next t ∧ restButGap t = restButGap s := by
  obtain ⟨u, run, same⟩ := exec_ofSegmentOrTimer happening s
  refine ⟨_, run, ?_⟩
  split
  · rfl
  · exact same

/-! ## Every command -/

/-- A command is an edge of CSN or RSTN, a CSN rise, or a happening at a segment or timer. -/
theorem command_cases (c : Instr) : (∃ w, c = .csnFall w) ∨ (∃ w h, c = .rstnFall w h) ∨ (∃ w, c = .rstnRelease w)
    ∨ (∃ w, csnRiseOf c = some w) ∨ ofSegmentOrTimer c = true := by
  cases rise : csnRiseOf c with
  | some w => exact .inr (.inr (.inr (.inl ⟨w, rfl⟩)))
  | none =>
    cases c with
    | csnFall w => exact .inl ⟨w, rfl⟩
    | rstnFall w h => exact .inr (.inl ⟨w, h, rfl⟩)
    | rstnRelease w => exact .inr (.inr (.inl ⟨w, rfl⟩))
    | _ => exact .inr (.inr (.inr (.inr (Option.isNone_iff_eq_none.2 rise))))

theorem csnFall_standby (w : Time) (s : State) : ∃ t, exec (.csnFall w) s = .next t ∧ standby t = standby s := by
  refine ⟨_, rfl, ?_⟩
  split <;> exact standby_elapse w s

theorem rstnFall_pending (w held : Time) (s : State) :
    ∃ t, exec (.rstnFall w held) s = .next t ∧ t.pending = s.pending := by
  have dealt : exec (.rstnFall w held) s = execRstnFall w held s := rfl
  rw [dealt, execRstnFall]
  split
  · exact ⟨_, rfl, (elapse_pending ..).trans (elapse_pending ..)⟩
  · exact ⟨_, rfl, elapse_pending w s⟩

theorem rstnRelease_pending (w : Time) (s : State) :
    ∃ t, exec (.rstnRelease w) s = .next t ∧ t.pending = s.pending := by
  refine ⟨_, rfl, ?_⟩
  split
  · rfl
  · exact elapse_pending w s

theorem csnRise_standby {c : Instr} {w : Time} (rise : csnRiseOf c = some w) (s : State) :
    ∃ t, exec c s = .next t ∧ standby t = standby s := by
  obtain ⟨k, same, run⟩ := exec_csnRise rise
  exact ⟨_, run s, standby_atCsnRise same w s⟩

theorem not_ofSegmentOrTimer_of_csnRise {c : Instr} {w : Time} (rise : csnRiseOf c = some w) :
    ofSegmentOrTimer c ≠ true := by
  unfold ofSegmentOrTimer
  split <;> simp [rise]

end

/-- Settles O2, by the kinds of command: an edge of CSN or RSTN, a CSN rise, a happening at a segment or timer. -/
theorem everyCommandCompletes : Obligations.EveryCommandCompletes := by
  unfold Obligations.EveryCommandCompletes
  intro c s
  rcases command_cases c with ⟨w, rfl⟩ | ⟨w, h, rfl⟩ | ⟨w, rfl⟩ | ⟨w, rise⟩ | happening
  · obtain ⟨t, run, same⟩ := csnFall_standby w s
    obtain ⟨low, pending⟩ := Prod.mk.inj same
    exact ⟨t, run, pending, fun _ _ => low, nofun⟩
  · obtain ⟨t, run, pending⟩ := rstnFall_pending w h s
    exact ⟨t, run, pending, fun noFall => absurd rfl (noFall w h), nofun⟩
  · obtain ⟨t, run, pending⟩ := rstnRelease_pending w s
    exact ⟨t, run, pending, fun _ noRelease => absurd rfl (noRelease w), nofun⟩
  · obtain ⟨t, run, same⟩ := csnRise_standby rise s
    obtain ⟨low, pending⟩ := Prod.mk.inj same
    exact ⟨t, run, pending, fun _ _ => low, fun no => absurd no (not_ofSegmentOrTimer_of_csnRise rise)⟩
  · obtain ⟨t, run, same⟩ := exec_happening happening s
    simp only [restButGap, Prod.mk.injEq] at same
    obtain ⟨link, low, pending⟩ := same
    exact ⟨t, run, pending, fun _ _ => low, fun _ => link⟩

end Sys2Proof.Machine
end

section
/-! The windows of the host link: the fall of CSN that opens one (O4), the rise that ends one not kept (O6) or one
whose frame fails a check (O7), and the frame that the host clocks, which is read back whole (O8). -/

namespace Sys2Proof.Machine

section
variable {s : State} {w : Time}

/-! ## The fall of CSN (R168, R169) -/

theorem exec_csnFall (closed : s.link.window = .closed) (w : Time) : exec (.csnFall w) s
    = .next { s.elapse w with link := { (s.elapse w).link with window := openWindow (s.elapse w) } } := by
  have dealt : exec (.csnFall w) s = execCsnFall w s := rfl
  rw [dealt, execCsnFall, if_pos ((elapse_window w s).trans closed)]
  rfl

theorem openWindow_low (low : s.rstnLow = true) (w : Time) : openWindow (s.elapse w) = .noWindow :=
  if_pos ((elapse_rstnLow w s).trans low)

theorem openWindow_live (live : s.rstnLow = false) (w : Time) : openWindow (s.elapse w)
    = if s.link.gap + w < 4608 then .ignored else .serving (buildPartFrame (s.elapse w)) := by
  rw [openWindow, elapse_rstnLow, live, elapse_gap w live]
  rfl

end

/-- Settles O4, by the level of RSTN and the gap before the fall. -/
theorem csnFallOpensAWindow : Obligations.CsnFallOpensAWindow := by
  unfold Obligations.CsnFallOpensAWindow
  intro w s closed
  dsimp only
  rw [exec_csnFall closed]
  refine ⟨fun low => ?_, fun live early => ?_, fun live late => ?_⟩
  · rw [openWindow_low low]
  · rw [openWindow_live live, if_pos early]
  · rw [openWindow_live live, if_neg (Nat.not_lt.2 late)]

/-- Settles O6: every CSN rise is one in which the frame is looked at in a kept window alone. -/
theorem unkeptWindowTakesNothing : Obligations.UnkeptWindowTakesNothing := by
  unfold Obligations.UnkeptWindowTakesNothing
  intro c w s rise unkept
  obtain ⟨k, -, run⟩ := exec_csnRise rise
  rw [run, atCsnRise_lost unkept]
  rfl

/-! ## The checks of a host frame (R171) -/

section
variable {b : List Byte}

theorem judge_short (short : b.length < 6) : judge b = .truncated := if_pos short

section
variable (head : 6 ≤ b.length)
include head

theorem judge_unmarked (unmarked : b.getD 0 0#8 ≠ hostMarker) : judge b = .malformed := by
  rw [judge, if_neg (Nat.not_lt.2 head), if_pos unmarked]

section
variable (marked : b.getD 0 0#8 = hostMarker)
include marked

theorem judge_long (long : 80 < byteAt b 5) : judge b = .malformed := by
  rw [judge, if_neg (Nat.not_lt.2 head), if_neg (not_not_intro marked), if_pos long]

/-- A frame that passes the first three checks. -/
theorem judge_fitting (fits : byteAt b 5 ≤ 80) : judge b =
    if b.length < 8 + byteAt b 5 then .truncated
    else if (b.drop (6 + byteAt b 5)).take 2 ≠ crcBytes (b.take (6 + byteAt b 5)) then .crcFault
    else if wordAt b 2 = 0 ∧ b.getD 1 0#8 ≠ nopCode then .malformed
    else .whole (b.getD 1 0#8) (BitVec.ofNat 16 (wordAt b 2)) (b.getD 4 0#8) ((b.drop 6).take (byteAt b 5)) := by
  rw [judge, if_neg (Nat.not_lt.2 head), if_neg (not_not_intro marked), if_neg (Nat.not_lt.2 fits)]

end
end
end

/-! ## A frame that is ignored (R171, R172) -/

section
variable {s : State} {w : Time} {b : List Byte} {tail : List Bool}

/-- In a kept window the whole bytes are judged, and the bits after them discarded. -/
theorem exec_hostFrameIgnored (kept : KeptWindow w s) (part : tail.length < 8) (b : List Byte) :
    exec (.hostFrameIgnored w (spiBits b ++ tail)) s = .next (countIgnored b (s.elapse w).raiseCsn) := by
  have dealt : exec (.hostFrameIgnored w (spiBits b ++ tail)) s
    = execHostFrameIgnored w (spiBits b ++ tail) s := rfl
  rw [dealt, execHostFrameIgnored, bytesOfBits_spiBits, bytesOfBits_tail part, List.append_nil, atCsnRise_kept kept]

theorem countIgnored_truncated (verdict : judge b = .truncated) : countIgnored b s = countTruncated s := by
  rw [countIgnored, verdict]

theorem countIgnored_malformed (verdict : judge b = .malformed) : countIgnored b s = countMalformed s := by
  rw [countIgnored, verdict]

theorem countIgnored_crcFault (verdict : judge b = .crcFault) : countIgnored b s = countCrcFault s := by
  rw [countIgnored, verdict]

end

/-- Settles O7, check by check in the order of R171. -/
theorem ignoredHostFrameIsCounted : Obligations.IgnoredHostFrameIsCounted := by
  unfold Obligations.IgnoredHostFrameIsCounted
  intro w b tail s kept part u l tag len ends
  have ends_of {t : State} (counted : countIgnored b u.raiseCsn = t) :
      exec (.hostFrameIgnored w (spiBits b ++ tail)) s = .next t :=
    (exec_hostFrameIgnored kept part b).trans (congrArg _ counted)
  refine ⟨fun short => ?_, fun head unmarked => ?_, fun head marked => ⟨fun long => ?_, fun fits cut => ?_,
    fun fits whole => ⟨fun crc => ?_, fun crc untagged code => ?_⟩⟩⟩
  · exact ends_of (countIgnored_truncated (judge_short short))
  · exact ends_of (countIgnored_malformed (judge_unmarked head unmarked))
  · exact ends_of (countIgnored_malformed (judge_long head marked long))
  · refine ends_of (countIgnored_truncated ?_)
    rw [judge_fitting head marked fits, if_pos cut]
  · refine ends_of (countIgnored_crcFault ?_)
    rw [judge_fitting head marked fits, if_neg (Nat.not_lt.2 whole), if_pos crc]
  · refine ends_of (countIgnored_malformed ?_)
    rw [judge_fitting head marked fits, if_neg (Nat.not_lt.2 whole), if_neg (not_not_intro crc),
      if_pos ⟨untagged, code⟩]

/-! ## The host frame, sent and read back (R167, R171, section 11.1) -/

theorem byte_toNat {n : Nat} (small : n < 256) : (byte n).toNat = n := Nat.mod_eq_of_lt small

section
variable {code : Byte} {tag : BitVec 16} {ack : Byte} {body : List Byte}

/-- The bytes before the CRC, item by item. -/
theorem hostFrameBody_eq (code : Byte) (tag : BitVec 16) (ack : Byte) (body : List Byte) :
    hostFrameBody code tag ack body = hostMarker :: code :: byte (tag.toNat / 256) :: byte tag.toNat :: ack
      :: byte body.length :: body := rfl

theorem hostFrameBody_length (code : Byte) (tag : BitVec 16) (ack : Byte) (body : List Byte) :
    (hostFrameBody code tag ack body).length = 6 + body.length := by
  simp only [hostFrameBody_eq, List.length_cons]
  omega

theorem tag_of_bytes (tag : BitVec 16) : (byte (tag.toNat / 256)).toNat * 256 + (byte tag.toNat).toNat = tag.toNat := by
  have := tag.isLt
  simp only [byte, BitVec.toNat_ofNat]
  omega

/-- A host frame passes every check, whatever is clocked after it. -/
theorem judge_hostFrame (fits : body.length ≤ 80) (tagged : tag ≠ 0#16 ∨ code = nopCode) (after : List Byte) :
    judge (hostFrameBytes code tag ack body ++ after) = .whole code tag ack body := by
  let covered := hostFrameBody code tag ack body
  let clocked := hostFrameBytes code tag ack body ++ after
  have length : covered.length = 6 + body.length := hostFrameBody_length ..
  have parts : clocked = covered ++ (crcBytes covered ++ after) := List.append_assoc ..
  have items : clocked = hostMarker :: code :: byte (tag.toNat / 256) :: byte tag.toNat :: ack
      :: byte body.length :: (body ++ (crcBytes covered ++ after)) := parts
  have len : byteAt clocked 5 = body.length := byte_toNat (by omega)
  have word : wordAt clocked 2 = tag.toNat := tag_of_bytes tag
  have whole : clocked.length = 8 + body.length + after.length := by
    rw [parts, List.length_append, List.length_append, length]
    simp only [crcBytes, bytes2, List.length_cons, List.length_nil]
    omega
  have before : clocked.take (6 + body.length) = covered := by rw [parts, List.take_left' length]
  have crc : (clocked.drop (6 + body.length)).take 2 = crcBytes covered := by
    rw [parts, List.drop_left' length]
    rfl
  have untagged : ¬(tag.toNat = 0 ∧ code ≠ nopCode) := by
    rintro ⟨zero, other⟩
    exact tagged.elim (fun nonzero => nonzero (BitVec.eq_of_toNat_eq zero)) other
  have sent : (clocked.drop 6).take body.length = body := by rw [items]; exact List.take_left' rfl
  have named : clocked.getD 1 0#8 = code := rfl
  have head : 6 ≤ clocked.length := by omega
  change judge clocked = _
  rw [judge_fitting head rfl (len ▸ fits), len, word, if_neg (by omega), before, crc,
    if_neg (not_not_intro rfl), named, if_neg untagged, sent, BitVec.ofNat_toNat, BitVec.setWidth_eq]
  rfl

end

section
variable {c : Instr} {code : Byte} {f : HostFrame}

theorem requestOfCode_unknown (unknown : code ∉ requestCodes) (f : HostFrame) :
    requestOfCode code f = .unknownRequest code f := by
  simp only [requestCodes, List.mem_cons, List.not_mem_nil, or_false, not_or] at unknown
  simp only [requestOfCode, unknown, if_false]

/-- A well-formed command is that of its own code and frame. -/
theorem requestOfCode_request (formed : c.wellFormed = true) (request : c.request = some (code, f)) :
    requestOfCode code f = c := by
  cases c with
  | unknownRequest code' f' =>
    cases request
    exact requestOfCode_unknown (unknown_of_wellFormed formed code rfl) f
  | _ => cases request <;> rfl

/-- A well-formed command's frame passes the checks of R171 on its length and tag. -/
theorem frame_checked (formed : c.wellFormed = true) (request : c.request = some (code, f)) :
    f.body.length ≤ 80 ∧ (f.tag ≠ 0#16 ∨ code = nopCode) := by
  have taken (is : takenAsRequest c = some f) : f.body.length ≤ 80 ∧ (f.tag ≠ 0#16 ∨ code = nopCode) := by
    have checked := frame_wellFormed is formed
    simp only [HostFrame.wellFormed, Bool.and_eq_true, decide_eq_true_eq] at checked
    exact ⟨checked.1, .inl checked.2⟩
  cases c with
  | nop =>
    cases request
    exact ⟨of_decide_eq_true formed, .inr rfl⟩
  | _ => cases request <;> exact taken rfl

end

/-- Settles O8: the bytes come back from their bits, the frame passes every check, and its code names the command. -/
theorem hostFrameRoundTrip : Obligations.HostFrameRoundTrip := by
  unfold Obligations.HostFrameRoundTrip
  refine ⟨fun b => rfl, spiBits_append, ?_⟩
  intro c code f after formed request covered frame
  obtain ⟨fits, tagged⟩ := frame_checked formed request
  constructor
  · rw [windowOfCommand, request]
    rfl
  · have bytes : bytesOfBits (spiBits frame ++ after)
        = hostFrameBytes code f.tag f.ack f.body ++ bytesOfBits after := bytesOfBits_spiBits ..
    rw [commandOfWindow, bytes, judge_hostFrame fits tagged]
    exact requestOfCode_request formed request

end Sys2Proof.Machine
end

section
/-! Taken requests: the acknowledgement before the request (O10), repeats (O11), lengths and segment bytes (O12),
unknown codes (O13), and the requests of the host link itself, SYNC (O14), RESTART (O15) and QUERY_DEVICE (O17). -/

namespace Sys2Proof.Machine

section
variable {s : State} {f : HostFrame} {c : Instr}

/-! ## The host link after the acknowledgement -/

theorem afterTake_link (f : HostFrame) (s : State) : (afterTake f s).link = { (s.elapse f.wait).link with
    window := .closed
    gap := 0
    taken := satInc (s.elapse f.wait).link.taken } := (applyAck_outside ..).1

theorem afterTake_standby (f : HostFrame) (s : State) : standby (afterTake f s) = standby s := by
  rw [afterTake, standby_takeFrame, standby_raiseCsn, standby_elapse]

theorem elapse_taken (d : Time) (s : State) : (s.elapse d).link.taken = s.link.taken := by
  unfold State.elapse
  split <;> rfl

/-! ## A taken request -/

/-- A well-formed request in a kept window is dealt with from the state that its acknowledgement leaves. -/
theorem exec_kept (taken : takenAsRequest c = some f) (formed : c.wellFormed = true) :
    ∃ deal, Deals f deal ∧ ∀ s, KeptWindow f.wait s → exec c s = .next (deal (afterTake f s)) := by
  obtain ⟨deal, deals, run⟩ := exec_request taken (unknown_of_wellFormed formed)
  refine ⟨deal, deals, fun s kept => ?_⟩
  rw [run, takeRequest_kept kept (frame_wellFormed taken formed)]

end

/-- Settles O10: a NOP leaves the state after the acknowledgement, and every request is dealt with from there. -/
theorem acknowledgementComesFirst : Obligations.AcknowledgementComesFirst := by
  unfold Obligations.AcknowledgementComesFirst
  intro f fits
  constructor
  · intro s kept
    refine ⟨exec_nop kept fits, ?_, ?_⟩
    · rw [afterTake_link]
      exact elapse_slot ..
    · rw [afterTake_table, elapse_table]
  · intro c taken formed
    obtain ⟨deal, -, run⟩ := exec_kept taken formed
    exact ⟨deal, run⟩

/-- Settles O11: whatever the request, a tag that is in the slot ends its dealing. -/
theorem repeatIsNotExecuted : Obligations.RepeatIsNotExecuted := by
  unfold Obligations.RepeatIsNotExecuted
  intro c f s taken formed kept again
  obtain ⟨deal, deals, run⟩ := exec_kept taken formed
  rw [run s kept, deals.repeated _ ((slotTag_afterTake f s).trans again)]
  rfl

/-! ## Lengths and segment bytes (R173, R183) -/

section
variable {s : State} {f : HostFrame} {n : Nat}

theorem exactRequest_badLength (taken : Taken f s) (length : f.body.length ≠ n) (owner : State → Ruling) :
    exactRequest n f owner s = .next (answeredOnly f .badLength [] s) := by
  have unsuited : (f.body.length == n) = false := by simpa using length
  rw [exactRequest, takeRequest_taken taken, answerRequest_fresh taken, unsuited]
  rfl

theorem withSegment_above (above : 3 < byteAt f.body 0) (ruling : Seg → State → Ruling) (u : State) :
    withSegment (bodyByte f 0) ruling u = refuse .noSegment u := dif_neg (Nat.not_lt.2 above)

theorem dealRestart_fresh (taken : Taken f s) : dealRestart f (afterTake f s)
    = if f.body.length ≠ 1 then answeredOnly f .badLength [] s
      else if bodyByte f 0 = 1 then restartPart false (afterTake f s)
      else if bodyByte f 0 = 2 then restartPart true (afterTake f s)
      else answeredOnly f .badValue [] s := by
  obtain ⟨-, -, fresh⟩ := taken
  rw [dealRestart, slotTag_afterTake, if_neg fresh]
  rfl

theorem exec_restart (taken : Taken f s) : exec (.restart f) s = .next (dealRestart f (afterTake f s)) := by
  have dealt : exec (.restart f) s = execRestart f s := rfl
  rw [dealt, execRestart, takeRequest_taken taken]

theorem exec_submit (taken : Taken f s) : exec (.submit f) s = .next
    (answerRequest f (decide (8 ≤ f.body.length)) (withSegment (bodyByte f 0) (rulingSubmit f)) (afterTake f s)) := by
  have dealt : exec (.submit f) s = execSubmit f s := rfl
  rw [dealt, execSubmit, takeRequest_taken taken]

end

/-- Settles O12: the requests of one exact length through their owners, RESTART and SUBMIT by themselves. -/
theorem lengthAndSegmentAreChecked : Obligations.LengthAndSegmentAreChecked := by
  unfold Obligations.LengthAndSegmentAreChecked
  intro f s taken
  refine ⟨fun c n fixed length => ?_, fun short => ?_, fun c n fixed names length above => ?_,
    fun length above => ?_⟩
  · by_cases restart : c = .restart f
    · subst restart
      cases fixed
      rw [exec_restart taken, dealRestart_fresh taken, if_pos length]
    · obtain ⟨owner, -, run⟩ := exec_exactLength fixed restart
      rw [run, exactRequest_badLength taken length]
  · rw [exec_submit taken, answerRequest_fresh taken, decide_eq_false (Nat.not_le.2 short)]
    rfl
  · obtain ⟨ruling, -, run⟩ := exec_onSegment fixed names
    rw [run, exactRequest_taken taken length, withSegment_above above]
    rfl
  · rw [exec_submit taken, answerRequest_fresh taken, decide_eq_true length, withSegment_above above]
    rfl

/-- Settles O13: a frame that is no repeat and names no request has its answer. -/
theorem unknownCodeIsAnswered : Obligations.UnknownCodeIsAnswered := by
  unfold Obligations.UnknownCodeIsAnswered
  intro code f s taken unknown
  rw [exec_unknownRequest unknown, takeRequest_taken taken]
  obtain ⟨-, -, fresh⟩ := taken
  rw [dealUnknown, slotTag_afterTake, if_neg fresh]
  rfl

/-! ## SYNC (R177) -/

theorem rulingSync_empty {u : State} (empty : u.link.slot = none) :
    rulingSync u = ⟨u, .ok, [0#8, 0#8, 0#8]⟩ := by rw [rulingSync, empty]

theorem rulingSync_held {u : State} {a : Answer} (held : u.link.slot = some a) :
    rulingSync u = ⟨u, .ok, bytes2 a.tag.toNat ++ [byte a.outcome.code]⟩ := by rw [rulingSync, held]

/-- Settles O14: the acknowledgement leaves the slot as SYNC notes it. -/
theorem syncAnswersTheLastAnswer : Obligations.SyncAnswersTheLastAnswer := by
  unfold Obligations.SyncAnswersTheLastAnswer
  intro f s taken empty
  have run : exec (.sync f) s = exactRequest 0 f rulingSync s := rfl
  have slot : (afterTake f s).link.slot = s.link.slot := by
    rw [afterTake_link]
    exact elapse_slot ..
  rw [run, exactRequest_taken taken (List.length_eq_zero_iff.2 empty)]
  constructor
  · intro unset
    rw [rulingSync_empty (slot.trans unset)]
    rfl
  · intro a held
    rw [rulingSync_held (slot.trans held)]
    rfl

/-! ## RESTART (R178) -/

theorem discard_changes (c : SegConfig) (l : Line) : (l.discard c).changes = l.changes := by
  unfold Line.discard
  split <;> rfl

theorem restartPart_job (warm : Bool) (s : State) (h : Handle) : (restartPart warm s).job h = none :=
  Vector.getElem_replicate ..

/-- A restart leaves every block as its owner's reset rule gives it. -/
theorem restartPart_startsEmpty (warm : Bool) (s : State) :
    StartsEmpty (if warm then .warm else .cold) (restartPart warm s) where
  jobs := restartPart_job warm s
  segments g := by rw [restartPart_seg]; exact ⟨rfl, rfl, rfl, rfl, rfl⟩
  holders g := by rw [restartPart_seg]; exact ⟨rfl, rfl, rfl, rfl⟩
  sweeps g := by rw [restartPart_seg]; rfl
  units g := by rw [restartPart_seg]; exact ⟨rfl, rfl, rfl⟩
  reports := ⟨rfl, rfl, rfl, rfl⟩
  link := ⟨rfl, rfl, rfl, rfl, rfl, rfl⟩

/-- A cold restart empties the table and sets every configuration to the defaults too. -/
theorem restartPart_startsCold (s : State) : StartsCold .cold (restartPart false s) where
  toStartsEmpty := restartPart_startsEmpty false s
  table i := restartPart_entry false s i
  configs g := by rw [restartPart_seg]; rfl

/-- Settles O15, by the option: a restart from the state after the acknowledgement, or an answer. -/
theorem restartStartsThePartAgain : Obligations.RestartStartsThePartAgain := by
  unfold Obligations.RestartStartsThePartAgain
  intro f s taken length u option stopped common line
  have run : exec (.restart f) s = .next (if bodyByte f 0 = 1 then restartPart false u
      else if bodyByte f 0 = 2 then restartPart true u else answeredOnly f .badValue [] s) := by
    rw [exec_restart taken, dealRestart_fresh taken, if_neg (not_not_intro length)]
  have after (warm : Bool) : common (restartPart warm u) := by
    obtain ⟨⟨live, -⟩, -⟩ := taken
    obtain ⟨low, pending⟩ := Prod.mk.inj (afterTake_standby f s)
    have link : u.link.window = .closed ∧ u.link.gap = 0 := by
      dsimp only [u]
      rw [afterTake_link]
      exact ⟨rfl, rfl⟩
    exact ⟨rfl, link.1, link.2, low.trans live, pending⟩
  rw [run]
  refine ⟨fun cold => ⟨_, congrArg _ (if_pos cold), restartPart_startsCold u, after false, fun g => ?_⟩,
    fun warm => ?_, fun notCold notWarm => ?_⟩
  · rw [restartPart_seg]
    exact congrArg (fun changes => { line g with changes := ⟨bitTime (u.seg g).config / 2, 0⟩ :: changes })
      (discard_changes ..)
  · have notCold : bodyByte f 0 ≠ 1 := fun cold => absurd (cold.symm.trans warm) (by decide)
    refine ⟨_, congrArg _ ((if_neg notCold).trans (if_pos warm)), restartPart_startsEmpty true u, after true,
      fun g => ?_, fun i => restartPart_entry true u i⟩
    rw [restartPart_seg]
    exact ⟨rfl, rfl⟩
  · exact congrArg _ ((if_neg notCold).trans (if_neg notWarm))

/-! ## QUERY_DEVICE (R179) -/

section
variable {f : HostFrame} {u : State}

theorem rulingQueryDevice_counts (option : bodyByte f 0 = 0) :
    rulingQueryDevice f u = ⟨u, .ok, deviceCounts u⟩ := by simp only [rulingQueryDevice, option]

theorem rulingQueryDevice_clear (option : bodyByte f 0 = 1) :
    rulingQueryDevice f u = ⟨clearDevice u, .ok, deviceCounts u⟩ := by
  simp only [rulingQueryDevice, option]

theorem rulingQueryDevice_badValue (zero : bodyByte f 0 ≠ 0) (one : bodyByte f 0 ≠ 1) :
    rulingQueryDevice f u = refuse .badValue u := by
  unfold rulingQueryDevice
  split
  · exact absurd ‹_› zero
  · exact absurd ‹_› one
  · rfl

end

/-- Settles O17, by the option; the frame itself is counted before the counts are answered. -/
theorem queryDeviceAnswersTheCounts : Obligations.QueryDeviceAnswersTheCounts := by
  unfold Obligations.QueryDeviceAnswersTheCounts
  intro f s taken length u option data
  have run : exec (.queryDevice f) s = exactRequest 1 f (rulingQueryDevice f) s := rfl
  rw [run, exactRequest_taken taken length]
  refine ⟨?_, fun counts => ?_, fun clear => ?_, fun zero one => ?_⟩
  · dsimp only [u]
    rw [afterTake_link, elapse_taken]
  · rw [rulingQueryDevice_counts counts]
    rfl
  · rw [rulingQueryDevice_clear clear]
    rfl
  · rw [rulingQueryDevice_badValue zero one]
    rfl

end Sys2Proof.Machine
end

section
/-! The part frame byte by byte, and the bodies and codes of the reports that it carries (O5). -/

namespace Sys2Proof.Machine

/-! ## The flags (section 11.1) -/

/-- Four flags in the low bits of a byte. -/
theorem flagsByte (a b c d : Bool) :
    let flags := byte (flagAt 0 a + flagAt 1 b + flagAt 2 c + flagAt 3 d)
    flags.getLsbD 0 = a ∧ flags.getLsbD 1 = b ∧ flags.getLsbD 2 = c ∧ flags.getLsbD 3 = d ∧ flags.toNat < 16 := by
  revert a b c d
  decide

section
variable {s : State}

theorem segs_any_iff (p : Column → Bool) : s.segs.toList.any p = true ↔ ∃ g, p (s.seg g) = true := by
  rw [List.any_eq_true]
  constructor
  · rintro ⟨c, mem, holds⟩
    obtain ⟨k, inside, rfl⟩ := List.getElem_of_mem mem
    exact ⟨⟨k, by simpa using inside⟩, by simpa [State.seg] using holds⟩
  · rintro ⟨g, holds⟩
    exact ⟨s.seg g, by simp [State.seg], holds⟩

/-! ## The items (section 11.1) -/

theorem headBytes_eq (s : State) : headBytes s = [byte ((s.queue.reports.head?.map (·.number)).getD 0),
    byte ((s.queue.reports.head?.map (·.body.kindCode)).getD 0),
    byte ((s.queue.reports.head?.map (·.body.bytes.length)).getD 0)] := by
  unfold headBytes
  cases s.queue.reports <;> rfl

theorem slotBytes_eq (s : State) : slotBytes s = bytes2 ((s.link.slot.map (·.tag.toNat)).getD 0)
    ++ [byte ((s.link.slot.map (·.outcome.code)).getD 0), byte ((s.link.slot.map (·.data.length)).getD 0)] := by
  unfold slotBytes
  cases s.link.slot <;> rfl

theorem slotData_eq (s : State) : slotData s = (s.link.slot.map (·.data)).getD [] := by
  unfold slotData
  cases s.link.slot <;> rfl

theorem headBody_eq (s : State) : headBody s = (s.queue.reports.head?.map (·.body.bytes)).getD [] := by
  unfold headBody
  cases s.queue.reports <;> rfl

/-- The fourteen bytes of the part frame that stand at fixed places. -/
def fixedBytes (s : State) : List Byte :=
  [partMarker, partFlags s]
    ++ [byte ((s.queue.reports.head?.map (·.number)).getD 0),
      byte ((s.queue.reports.head?.map (·.body.kindCode)).getD 0),
      byte ((s.queue.reports.head?.map (·.body.bytes.length)).getD 0)]
    ++ (bytes2 ((s.link.slot.map (·.tag.toNat)).getD 0)
      ++ [byte ((s.link.slot.map (·.outcome.code)).getD 0), byte ((s.link.slot.map (·.data.length)).getD 0)])
    ++ bytes2 s.queue.lostEvents
    ++ [byte (poolSize - liveJobs s), byte (freeRoom s), byte s.queue.reports.length]

theorem partFrameBody_eq (s : State) : partFrameBody s
    = fixedBytes s ++ ((s.link.slot.map (·.data)).getD [] ++ (s.queue.reports.head?.map (·.body.bytes)).getD []) := by
  rw [partFrameBody, headBytes_eq, slotBytes_eq, slotData_eq, headBody_eq, List.append_assoc]
  rfl

theorem buildPartFrame_eq (s : State) : buildPartFrame s
    = fixedBytes s ++ ((s.link.slot.map (·.data)).getD [] ++ (s.queue.reports.head?.map (·.body.bytes)).getD []
      ++ bytes2 (crc16 ((buildPartFrame s).take ((buildPartFrame s).length - 2))).toNat) := by
  have covered : (buildPartFrame s).take ((buildPartFrame s).length - 2) = partFrameBody s := by
    rw [buildPartFrame, List.length_append]
    exact List.take_left' rfl
  rw [covered, ← List.append_assoc, ← partFrameBody_eq]
  rfl

end

/-! ## The flag bytes of the report bodies (section 11.4) -/

theorem byte_flagAt_pair (a b : Bool) : byte (flagAt 0 a + flagAt 1 b) = byte (bit a + 2 * bit b) := by
  rw [flagAt_eq, flagAt_eq, pow_zero, one_mul, pow_one]

/-- Settles O5: the frame is its fourteen fixed bytes, the answer's data, the report's body and the CRC. -/
theorem partFrameAndReportLayout : Obligations.PartFrameAndReportLayout := by
  unfold Obligations.PartFrameAndReportLayout
  refine ⟨fun s => ?frame, ⟨?hello, ?result, ?stationState, ?attention, ?statusChanged, ?segmentState, ?found,
    ?discoveryDone⟩, rfl, rfl, rfl, rfl, rfl, fun h => rfl, rfl, rfl, rfl, rfl, rfl, rfl, rfl, rfl, rfl, rfl, rfl,
    rfl, rfl, rfl⟩
  case frame =>
    obtain ⟨report, answer, held, faulted, small⟩ := flagsByte (!s.queue.reports.isEmpty) s.link.slot.isSome
      (s.segs.toList.any fun c => c.disc.state == .held) (s.segs.toList.any fun c => c.state == .faulted)
    have items := buildPartFrame_eq s
    intro frame flags head slot
    have flagByte : flags = partFlags s := congrArg (List.getD · 1 0#8) items
    refine ⟨congrArg (List.getD · 0 0#8) items, flagByte ▸ report, flagByte ▸ answer, ?_, ?_, flagByte ▸ small,
      congrArg (List.getD · 2 0#8) items, congrArg (List.getD · 3 0#8) items, congrArg (List.getD · 4 0#8) items,
      congrArg (fun l => (l.drop 5).take 2) items, congrArg (List.getD · 7 0#8) items,
      congrArg (List.getD · 8 0#8) items, congrArg (fun l => (l.drop 9).take 2) items,
      congrArg (List.getD · 11 0#8) items, congrArg (List.getD · 12 0#8) items,
      congrArg (List.getD · 13 0#8) items, congrArg (List.drop 14) items⟩
    · rw [flagByte, partFlags, held, segs_any_iff]
      simp only [beq_iff_eq]
    · rw [flagByte, partFlags, faulted, segs_any_iff]
      simp only [beq_iff_eq]
  case hello => exact fun cause revision => ⟨rfl, rfl⟩
  case result =>
    intro tag o attempts busy fault late data
    refine ⟨rfl, ?_⟩
    rw [← byte_flagAt_pair]
    rfl
  case stationState => exact fun g a old new cause => ⟨rfl, rfl⟩
  case attention => exact fun g a status detail => ⟨rfl, rfl⟩
  case statusChanged => exact fun g a new => ⟨⟨rfl, rfl⟩, fun old => ⟨rfl, rfl⟩⟩
  case segmentState => exact fun g old new cause => ⟨rfl, rfl⟩
  case found =>
    intro g a identity unclear
    refine ⟨rfl, ?_⟩
    rw [← byte_flagAt_pair]
    rfl
  case discoveryDone => exact fun g n => ⟨rfl, rfl⟩

end Sys2Proof.Machine
end

section
/-! The reset pin: what the part holds right after the release of RSTN (O3), and what the fall and the release of
RSTN do (O16). -/

namespace Sys2Proof.Machine

section
variable {s : State} {w held : Time}

/-! ## The state that the release leaves (R184) -/

theorem pinStart_entry (s : State) (i : Index) : (pinStart s).entry i = none := reset_entry i

theorem pinStart_job (s : State) (h : Handle) : (pinStart s).job h = none := reset_job h

theorem pinStart_seg (s : State) (g : Seg) : (pinStart s).seg g = Column.reset := reset_seg g

/-- The release leaves every block as its owner's reset rule gives it, with HELLO of cause PIN. -/
theorem pinStart_startsCold (s : State) : StartsCold .pin (pinStart s) where
  jobs := pinStart_job s
  segments g := by rw [pinStart_seg]; exact ⟨rfl, rfl, rfl, rfl, rfl⟩
  holders g := by rw [pinStart_seg]; exact ⟨rfl, rfl, rfl, rfl⟩
  sweeps g := by rw [pinStart_seg]; rfl
  units g := by rw [pinStart_seg]; exact ⟨rfl, rfl, rfl⟩
  reports := ⟨rfl, rfl, rfl, rfl⟩
  link := ⟨rfl, rfl, rfl, rfl, rfl, rfl⟩
  table := pinStart_entry s
  configs g := by rw [pinStart_seg]; rfl

theorem pinStart_line (s : State) (g : Seg) : ((pinStart s).seg g).line = ⟨.quiet, .waiting, 0, none, []⟩ := by
  rw [pinStart_seg]
  rfl

/-- No reservation is held after the release, so no job is live (R154). -/
theorem pinStart_liveJobs (s : State) : liveJobs (pinStart s) = 0 := by
  have reserved : 0 = liveJobs (pinStart s) + probingUnits (pinStart s) := (Inv.pinStart s).reservations
  omega

theorem pinStart_attnAsserted (s : State) : attnAsserted (pinStart s) = true :=
  attnAsserted_iff.2 ⟨rfl, List.cons_ne_nil _ _, rfl⟩

/-! ## The window that a reset cuts (R168) -/

theorem cutByReset_eq (window : Window) :
    window.cutByReset = if window = .closed then .closed else .noWindow := by
  cases window with
  | closed => rfl
  | serving frame => exact (if_neg nofun).symm
  | ignored => exact (if_neg nofun).symm
  | noWindow => exact (if_neg nofun).symm

theorem holdInReset_window (w : Time) (s : State) : (holdInReset (s.elapse w)).link.window
    = if s.link.window = .closed then .closed else .noWindow := by
  have cut : (holdInReset (s.elapse w)).link.window = (s.elapse w).link.window.cutByReset := rfl
  rw [cut, elapse_window, cutByReset_eq]

/-! ## While RSTN is held low -/

theorem sdoByte_low (low : s.rstnLow = true) (k : Nat) : sdoByte s k = none := if_pos low

theorem attnAsserted_low (low : s.rstnLow = true) : attnAsserted s = false := by
  simp [attnAsserted, low]

theorem exec_happening_low {c : Instr} (happening : ofSegmentOrTimer c = true) (low : s.rstnLow = true) :
    exec c s = .next s := by
  obtain ⟨u, run, -⟩ := exec_ofSegmentOrTimer happening s
  rw [run, if_pos low]

/-! ## The edges of RSTN -/

theorem exec_rstnFall_short (short : held < 1152) (w : Time) (s : State) :
    exec (.rstnFall w held) s = .next ((s.elapse w).elapse held) := if_pos short

theorem exec_rstnFall_long (long : 1152 ≤ held) (w : Time) (s : State) :
    exec (.rstnFall w held) s = .next (holdInReset (s.elapse w)) := if_neg (Nat.not_lt.2 long)

theorem exec_rstnRelease_low (low : s.rstnLow = true) (w : Time) :
    exec (.rstnRelease w) s = .next (pinStart s) := congrArg _ (if_pos low)

theorem exec_rstnRelease_live (live : s.rstnLow = false) (w : Time) :
    exec (.rstnRelease w) s = .next (s.elapse w) := congrArg _ (if_neg (by simp [live]))

end

/-- Settles O3: the reset state is what a release leaves, with the lines quiet and HELLO alone in the queue. -/
theorem resetStateStartsCold : Obligations.ResetStateStartsCold := by
  unfold Obligations.ResetStateStartsCold
  rw [← pinStart_reset]
  refine ⟨pinStart_startsCold _, fun g => ?_, rfl, rfl, rfl, pinStart_attnAsserted _, rfl⟩
  rw [pinStart_line]
  exact ⟨rfl, rfl, rfl, rfl⟩

/-- Settles O16, by the edge of RSTN: a fall too short, a fall that holds the part in reset, a release of a part
that is held, and one of a part that is not. -/
theorem resetPinStartsCold : Obligations.ResetPinStartsCold := by
  unfold Obligations.ResetPinStartsCold
  intro w held s
  refine ⟨fun short => exec_rstnFall_short short w s, fun long => ?fall, fun low => ?release,
    fun live => exec_rstnRelease_live live w⟩
  case fall =>
    have low : (holdInReset (s.elapse w)).rstnLow = true := rfl
    refine ⟨_, exec_rstnFall_long long w s, low, elapse_pending w s, attnAsserted_low low, sdoByte_low low,
      fun g => ?_, holdInReset_window w s, fun c happening => exec_happening_low happening low⟩
    obtain ⟨dir, txd, -⟩ := segment_pins_held low g
    refine ⟨dir, txd, ?_⟩
    rw [holdInReset_seg]
    exact ⟨rfl, rfl⟩
  case release =>
    exact ⟨_, exec_rstnRelease_low low w, pinStart_startsCold s, rfl, rfl, rfl, pinStart_attnAsserted s, rfl,
      cutByReset_eq _, pinStart_liveJobs s, rfl, pinStart_line s⟩

end Sys2Proof.Machine
end

section
/-! One step of the machine, by the queue of commands (O1). -/

namespace Sys2Proof.Machine

theorem step_pending_nil (s : State) (idle : s.pending = []) : step s = .next s := by
  simp only [step, idle]

theorem step_pending_cons (c : Instr) (waiting : List Instr) (s : State) (front : s.pending = c :: waiting) :
    step s = exec c { s with pending := waiting } := by
  simp only [step, front]

/-- Settles O1, by the queue: the command at its front with the rest, or the choice of log entry 1. -/
theorem stepRunsTheFrontCommand : Obligations.StepRunsTheFrontCommand :=
  ⟨step_pending_cons, step_pending_nil⟩

end Sys2Proof.Machine
end
